-- ==== Sys2Proof/Word.lean ====
section
/-! DEFINITION. The word types of the Chaermor (spec 04 R86, R87, R92). -/
namespace Sys2Proof

/-- One byte. -/
abbrev Byte := BitVec 8

/-- A 32-bit register, instruction word or control word (R86, R92). -/
abbrev Word := BitVec 32

/-- A 64-bit value: an x pair, an address, a 64-bit CSR (R87). -/
abbrev DWord := BitVec 64

/-- A register number as a 7-bit field of an instruction word names it (R86, R87). -/
abbrev Reg := BitVec 7

/-- A predicate number (R88). -/
abbrev Pred := BitVec 3

end Sys2Proof
end

