-- ==== Sys2Proof/Syntax.lean ====
section
/-! DEFINITION. The instructions and events of the Chaermor: one constructor of `Instr` per row of
spec/opcode_table.json. The first 121 are the rows that stand in a packet (spec 05 R122-R136, 14-16); the rest are the
operations and events of the device (spec 95), with the places and inputs that an occurrence of the event has. -/
namespace Sys2Proof

/-- Integer types of MOD (R102); the saturating ones are legal only where R124 says int6 or sgn. -/
inductive IntTy | i32 | n32 | i64 | n64 | i32s | n32s
deriving DecidableEq, Repr

/-- Operand width of the code `w` of R124. -/
inductive Width | w32 | w64
deriving DecidableEq, Repr

/-- Float rounding of MOD (R102). -/
inductive Rnd | dyn | rne | rtz | rup | rdn
deriving DecidableEq, Repr

/-- The four float types of opcodes 0x30 to 0x47 (R126). -/
inductive FTy | f32 | h2 | b2 | d
deriving DecidableEq, Repr

/-- The two scalar float types: F32, and F64 (.D). -/
inductive FSc | f32 | d
deriving DecidableEq, Repr

/-- Scopes (R102, R221). -/
inductive Scope | team | cluster | die | domain | system
deriving DecidableEq, Repr

/-- Comparison conditions (R128); `un` and `or` only for FCMP. -/
inductive Cond | eq | ne | lt | le | gt | ge | un | ord
deriving DecidableEq, Repr

/-- Signedness of the DOT family (R135): A's type, then B's. -/
inductive Sg | ii | nn | inn | ni
deriving DecidableEq, Repr

/-- Placement hints (R133). -/
inductive Hint | none | repl | strm | byp
deriving DecidableEq, Repr

/-- Access sizes of LD and ST (R133). -/
inductive MSize | b8 | b16 | b32 | b64 | b128
deriving DecidableEq, Repr

/-- Access sizes of LDFE and STFE (R133). -/
inductive FeSize | b32 | b64 | b128
deriving DecidableEq, Repr

/-- Access kinds of LDS (R133). -/
inductive LdsKind | n8 | i8 | n16 | i16 | b32 | b64 | b128
deriving DecidableEq, Repr

/-- Orderings of ATOM and CAS (R132). -/
inductive Ord2 | rlx | acq | rel | ar
deriving DecidableEq, Repr

/-- Kinds of FENCE (R135). -/
inductive FenceKind | acq | rel | full
deriving DecidableEq, Repr

/-- LUP operators (R134, R192). -/
inductive LupOp | addI | minI | minN | maxI | maxN | orB | bacc
deriving DecidableEq, Repr

/-- SEGR, EXPB and GRED operators (R134, R135). -/
inductive RedOp | addI | addF | minI | minN | maxI | maxN | orB
deriving DecidableEq, Repr

/-- Scopes of the bend instructions (R135). -/
inductive BScope | team | cluster | die | domain
deriving DecidableEq, Repr

/-- VOTE kinds (R135). -/
inductive VoteKind | all | any | uni | ballot
deriving DecidableEq, Repr

/-- GSHF modes (R135). -/
inductive ShfMode | idx | up | down | xor
deriving DecidableEq, Repr

/-- EXPB group sizes (R135). -/
inductive GrpSize | g1 | g2 | g4 | g8
deriving DecidableEq, Repr

/-- FCVT conversion codes (R129), in the order of their table. -/
inductive CvtCode
  | dF32 | f32D | f16F32 | f32F16 | bf16F32 | f32Bf16 | h2F32 | f32H2 | b2F32 | f32B2 | b2H2 | h2B2
deriving DecidableEq, Repr

/-- ATOM and CAS operations (R320, R333). -/
inductive AtomOp
  | add | min | max | umin | umax | andB | orB | xorB | xchg | fadd | cas
deriving DecidableEq, Repr

/-- A coherence message that a data flit carries between packages (R205, R308). The spec gives no flit payload format;
this is what a message asks, or answers (log 20). -/
inductive LinkMsg
  | read (key n : Nat)
  | write (key : Nat) (bytes : List Byte)
  /-- The dirty bytes of a sector that an L1 held as non-coherent (R209): its data, which bytes of it count, and its poisoned
  granules. -/
  | dirty (key : Nat) (data : BitVec 512) (mask : BitVec 64) (poison : List Nat)
  /-- An ATOM or CAS at the home: its operation, width and operands (R211). -/
  | atomic (key : Nat) (op : AtomOp) (w : Width) (v : Nat)
  /-- A request for a latent copy (R194). -/
  | latent (key : Nat) (op : LupOp)
  /-- A collect, and the composite that answers it (`answer`) or that an eviction sends (R197, R201, R205). -/
  | collect (key : Nat) (op : LupOp)
  | composite (key : Nat) (op : LupOp) (data : BitVec 512) (poison : List Nat) (answer : Bool)
  | signal (die num party lrec team : Nat)
  /-- A signal that this package sent has been counted (R328). -/
  | counted (die num : Nat)
  | data (bytes : List Byte) (poison : List Nat)
  | other
deriving DecidableEq, Repr

/-- A data flit as the receiver sees it (R308): its sequence number, whether its CRC holds, and its message. -/
structure Flit where
  seq : Nat
  /-- The destination package of its header. -/
  dest : Nat
  crcOk : Bool
  msg : LinkMsg
deriving DecidableEq, Repr

/-- Where an ECC error is detected (R254, R299, R300). -/
inductive ErrPlace
  | corrected (die : Nat)
  | memory (die sub key : Nat)
  | l1 (core key : Nat)
  | scratchpad (core addr : Nat)
  | register (tid reg : Nat)
  | tile (core t idx : Nat)
  | latentCopy (sector holder elem : Nat)
deriving DecidableEq, Repr

/-- One constructor per row of spec/opcode_table.json. -/
inductive Instr
  -- control and branch (R126)
  | nop
  | bra (off : BitVec 24)
  | bri (a : Reg)
  | call (off : BitVec 24)
  | calli (a : Reg)
  | ret
  | exit
  | trap (code : BitVec 16)
  | rte
  | illegalInstruction
  -- integer and logical
  | iadd (ty : IntTy) (d a b : Reg)
  | isub (ty : IntTy) (d a b : Reg)
  | imul (ty : IntTy) (d a b : Reg)
  | imulh (ty : IntTy) (d a b : Reg)
  | imad (ty : IntTy) (d a b : Reg)
  | imin (ty : IntTy) (d a b : Reg)
  | imax (ty : IntTy) (d a b : Reg)
  | iabs (ty : IntTy) (d a : Reg)
  | ineg (ty : IntTy) (d a : Reg)
  | icmp (cc : Cond) (ty : IntTy) (pd : Pred) (a b : Reg)
  | lea (n : BitVec 3) (d a b : Reg)
  | sel (p : Pred) (d a b : Reg)
  | mov (pair : Bool) (d a : Reg)
  | movK (d : Reg) (k : BitVec 5)
  | movPop (d : Reg) (q : BitVec 4)
  | movPush (q : BitVec 4) (a : Reg)
  | andB (w : Width) (d a b : Reg)
  | andn (w : Width) (d a b : Reg)
  | orB (w : Width) (d a b : Reg)
  | xorB (w : Width) (d a b : Reg)
  | notB (w : Width) (d a : Reg)
  | shl (w : Width) (d a b : Reg)
  | shr (w : Width) (d a b : Reg)
  | sha (w : Width) (d a b : Reg)
  | rot (w : Width) (d a b : Reg)
  | bfx (ty : IntTy) (d a b : Reg)
  | bfi (w : Width) (d a b : Reg)
  | popc (w : Width) (d a : Reg)
  | clz (w : Width) (d a : Reg)
  | ctz (w : Width) (d a : Reg)
  | brev (w : Width) (d a : Reg)
  | plop (table : BitVec 4) (pd pa pb : Pred)
  -- floating point
  | fadd (ty : FTy) (rm : Rnd) (d a b : Reg)
  | fsub (ty : FTy) (rm : Rnd) (d a b : Reg)
  | fmul (ty : FTy) (rm : Rnd) (d a b : Reg)
  | ffma (ty : FTy) (rm : Rnd) (d a b : Reg)
  | fmin (ty : FTy) (d a b : Reg)
  | fmax (ty : FTy) (d a b : Reg)
  | fcmp (cc : Cond) (ty : FSc) (pd : Pred) (a b : Reg)
  | fclass (ty : FSc) (d a : Reg)
  | frnd (ty : FSc) (rm : Rnd) (d a : Reg)
  | fcvt (code : CvtCode) (rm : Rnd) (d a : Reg)
  | ftoi (it : IntTy) (ft : FSc) (rm : Rnd) (d a : Reg)
  | itof (it : IntTy) (ft : FSc) (rm : Rnd) (d a : Reg)
  | fscale (ty : FSc) (rm : Rnd) (d a b : Reg)
  | fexpo (ty : FSc) (d a : Reg)
  | fmant (ty : FSc) (d a : Reg)
  | rcpseed (d a : Reg)
  | rsqseed (d a : Reg)
  | expred (d a : Reg)
  | logred (d a : Reg)
  | sinred (d a : Reg)
  -- packed narrow and sparse
  | dot8 (sg : Sg) (d a b : Reg)
  | dot4 (sg : Sg) (d a b : Reg)
  | dotf8 (f : BitVec 3) (d a b : Reg)
  | dotf4 (f : BitVec 3) (d a b : Reg)
  | dot8s (sg : Sg) (d a b : Reg)
  | packn (f : BitVec 3) (d a b : Reg)
  | unpkn (f : BitVec 3) (d a b : Reg)
  | spars (d a : Reg)
  -- memory
  | ld (sz : MSize) (sx : Bool) (h : Hint) (d a : Reg) (imm : BitVec 7)
  | st (sz : MSize) (h : Hint) (d a : Reg) (imm : BitVec 7)
  | lds (k : LdsKind) (d a : Reg) (imm : BitVec 7)
  | sts (sz : MSize) (d a : Reg) (imm : BitVec 7)
  | ldfe (sz : FeSize) (clr : Bool) (d a : Reg) (imm : BitVec 7)
  | stfe (sz : FeSize) (d a : Reg) (imm : BitVec 7)
  | pref (h : Hint) (a : Reg) (imm : BitVec 7)
  | cwb (a : Reg) (imm : BitVec 7)
  | atomAdd (sc : Scope) (w : Width) (o : Ord2) (d a : Reg)
  | atomMin (sc : Scope) (w : Width) (uns : Bool) (o : Ord2) (d a : Reg)
  | atomMax (sc : Scope) (w : Width) (uns : Bool) (o : Ord2) (d a : Reg)
  | atomAnd (sc : Scope) (w : Width) (o : Ord2) (d a : Reg)
  | atomOr (sc : Scope) (w : Width) (o : Ord2) (d a : Reg)
  | atomXor (sc : Scope) (w : Width) (o : Ord2) (d a : Reg)
  | atomXchg (sc : Scope) (w : Width) (o : Ord2) (d a : Reg)
  | atomFadd (sc : Scope) (o : Ord2) (d a : Reg)
  | cas (sc : Scope) (w : Width) (o : Ord2) (d a : Reg)
  | lup (op : LupOp) (d a : Reg) (imm : BitVec 7)
  | devl (a : Reg) (imm : BitVec 7)
  | fence (sc : Scope) (k : FenceKind)
  | pubv (d : Reg)
  | sbind (w : BitVec 3)
  | sunb (w : BitVec 3)
  | sunbDisc (w : BitVec 3)
  -- synchronisation and gang
  | bsig (rel : Bool) (sc : BScope) (b : Reg)
  | bwait (acq : Bool) (sc : BScope) (b : Reg)
  | btry (acq : Bool) (sc : BScope) (pd : Pred) (b : Reg)
  | bar (n : BitVec 3)
  | elect (pd : Pred)
  | kmov (k : BitVec 5) (a : Reg)
  | vote (k : VoteKind) (d : Reg) (pa : Pred)
  | matchKey (w : Width) (d a : Reg)
  | gred (op : RedOp) (d a : Reg)
  | gshf (m : ShfMode) (d a b : Reg)
  -- expand unit
  | expb (n : GrpSize) (op : BitVec 3) (a b : Reg)
  | expn (d : Reg) (pb : Pred)
  | expq (d : Reg)
  | segr (op : RedOp) (a : Reg)
  | expsv (a : Reg)
  | exprs (a : Reg)
  -- engines and system
  | mxiss (a : Reg)
  | mxdrn (a : Reg)
  | mxclr (t : BitVec 2)
  | mxrd (d : Reg) (t : BitVec 2) (b : Reg)
  | mxwr (t : BitVec 2) (a b : Reg)
  | cpiss (a : Reg)
  | qstat (d : Reg) (q : BitVec 4)
  | csrr (d : Reg) (n : BitVec 14)
  | csrw (d : Reg) (n : BitVec 14)
  | cyc (d : Reg)
  -- events of a core
  | passStart (core port : Nat)
  | dataWaitResolve (tid : Nat)
  | entryClose (core : Nat)
  | gangTimeout (core gang block : Nat)
  | accessComplete (id part : Nat)
  | exitComplete (tid : Nat)
  | barArrival (tid : Nat)
  | remoteBendSignal (id : Nat)
  | stashFillComplete (id : Nat)
  | stashWritebackComplete (id : Nat)
  -- latent sectors
  | collect (sector holder : Nat)
  | compositeReport (sector holder : Nat)
  | earlyMerge (sector holder : Nat)
  | directoryEntryEviction (sector : Nat)
  -- engines
  | multicastRequest (core line : Nat)
  | multicastMergeTimeout (key : Nat)
  | multicastResponse (core resp : Nat)
  | matrixOperation (core : Nat)
  | tileDrain (core : Nat)
  | copyLinear (core : Nat)
  | copyStrided (core : Nat)
  | planeTranspose (core : Nat)
  | scalePlacement (core : Nat)
  | multicastRead (core : Nat)
  | engineCommandComplete (core : Nat) (copy : Bool)
  | expnDeal (team : Nat)
  -- the die scheduler
  | periodBoundary (die : Nat)
  | launchAccept (launch : Nat)
  | teamPlace (die : Nat)
  | gridComplete (launch : Nat)
  | preemptRequest (die : Nat) (v : DWord)
  | drainDeadline (team : Nat)
  | teamSave (team : Nat)
  | teamDiscard (team : Nat)
  | resumeRequest (die : Nat) (v : DWord)
  | swapTick (die : Nat)
  | doorbell (die : Nat) (v : DWord)
  -- system software
  | replayAccess (die token : Nat)
  | replayDeliver (die token : Nat)
  | tlbInvalidatePages (die : Nat) (v : DWord)
  | tlbInvalidateContext (die : Nat) (v : DWord)
  | tlbInvalidateAll (die : Nat) (v : DWord)
  | invalidationRequest (src receiver : Nat)
  | invalidationAck (src receiver : Nat)
  | exprevoke (die : Nat) (v : DWord)
  | revokeComplete (die : Nat)
  | ovppush (die : Nat) (v : DWord)
  | ovppop (die : Nat)
  | heatdecay (die : Nat)
  | bendtake (die : Nat)
  | bendcntWrite (die : Nat) (v : DWord)
  | bendctlWrite (die : Nat) (v : DWord)
  | fqheadWrite (die : Nat) (v : Word)
  | gstatClear (core : Nat) (v : DWord)
  | attgo (die : Nat) (v : DWord)
  | linkRetrain (port : Nat)
  | registerWrite (die off size : Nat) (v : DWord)
  -- links, hosts, bring-up, management, errors
  | linkDataFlit (port : Nat) (f : Flit)
  | linkStopFlit (port : Nat)
  | linkGoFlit (port : Nat)
  | linkAckFlit (port seq : Nat)
  | linkNakFlit (port seq : Nat)
  | linkIdleFlit (port : Nat)
  | linkTimeout (port : Nat)
  | linkTrained (port peer : Nat)
  | hostRead (die addr n : Nat)
  | hostWrite (die addr : Nat) (bytes : List Byte)
  | hostPortTrained (die : Nat)
  | moduleReset
  | dieAuthentication (die : Nat) (fwOk authOk : Bool)
  | functionReady (die : Nat) (hub : Bool)
  | powerSample (watts : Nat) (temps : List Nat)
  | thermalStop (die : Nat)
  | thermalRestart (die : Nat)
  | uncorrectableError (p : ErrPlace)
  | l1Eviction (core line : Nat)
  | pointOfCoherenceReached (id part : Nat)
deriving DecidableEq, Repr

end Sys2Proof
end

