-- ==== Sys2Proof/Machine/Float.lean ====
section
/-! DEFINITION. Numbers: float formats, exact values, rounding, exact sums, seeds and reductions (spec 06). -/
namespace Sys2Proof.Machine

/-- A float format of R138. `inf`: it has infinities; `nan`: it has NaNs; `top`: the largest finite magnitude's
encoding; `qnan`: the canonical NaN (R139). -/
structure Fmt where
  width : Nat
  f : Nat
  bias : Nat
  inf : Bool
  nan : Bool
  top : Nat
  qnan : Nat
deriving DecidableEq, Repr

def F64 : Fmt := ⟨64, 52, 1023, true, true, 0x7FEFFFFFFFFFFFFF, 0x7FF8000000000000⟩
def F32 : Fmt := ⟨32, 23, 127, true, true, 0x7F7FFFFF, 0x7FC00000⟩
def F16 : Fmt := ⟨16, 10, 15, true, true, 0x7BFF, 0x7E00⟩
def BF16 : Fmt := ⟨16, 7, 127, true, true, 0x7F7F, 0x7FC0⟩
def F8A : Fmt := ⟨8, 3, 7, false, true, 0x7E, 0x7F⟩
def F8B : Fmt := ⟨8, 2, 15, true, true, 0x7B, 0x7E⟩
def F4 : Fmt := ⟨4, 1, 1, false, false, 7, 0⟩

/-- An exact value: NaN, an infinity, or ± n ÷ d with d positive. A zero keeps its sign (R138). -/
inductive Val
  | nan
  | inf (neg : Bool)
  | fin (neg : Bool) (n d : Nat)
deriving DecidableEq, Repr

/-- ± n × 2^e. -/
def scaled (neg : Bool) (n : Nat) (e : Int) : Val :=
  if e < 0 then .fin neg n (2 ^ (-e).toNat) else .fin neg (n * 2 ^ e.toNat) 1

/-- The infinity's encoding without its sign. -/
def Fmt.infEnc (F : Fmt) : Nat := F.top + 1

/-- The sign bit's weight. -/
def Fmt.signBit (F : Fmt) : Nat := 2 ^ (F.width - 1)

/-- value(b, F): the number that an encoding stands for (R7, R138). -/
def Fmt.value (F : Fmt) (b : Nat) : Val :=
  let neg := b / F.signBit % 2 == 1
  let mag := b % F.signBit
  if F.top < mag ∧ F.nan then (if F.inf ∧ mag = F.infEnc then .inf neg else .nan)
  else
    let ex := mag / 2 ^ F.f
    let fr := mag % 2 ^ F.f
    if ex = 0 then scaled neg fr (1 - (F.bias : Int) - F.f)
    else scaled neg (2 ^ F.f + fr) ((ex : Int) - F.bias - F.f)

/-- The encoding is subnormal. -/
def Fmt.isSub (F : Fmt) (b : Nat) : Bool :=
  let mag := b % F.signBit
  mag / 2 ^ F.f == 0 && mag != 0

/-- Flushes a subnormal encoding to zero of the same sign (R146). -/
def Fmt.flush (F : Fmt) (on : Bool) (b : Nat) : Nat :=
  if on && F.isSub b then b / F.signBit % 2 * F.signBit else b

/-- Rounding modes of R145. -/
inductive Mode | rne | rtz | rup | rdn
deriving DecidableEq, Repr

/-- floor(log2(n ÷ d)) for positive n and d. -/
def ilog (n d : Nat) : Int :=
  let k : Int := (Nat.log2 n : Int) - Nat.log2 d
  if k < 0 then (if n * 2 ^ (-k).toNat < d then k - 1 else k)
  else (if n < d * 2 ^ k.toNat then k - 1 else k)

/-- Rounds n ÷ d, of the given sign, to an integer. -/
def roundInt (mode : Mode) (neg : Bool) (n d : Nat) : Nat :=
  let q := n / d
  let r := n % d
  match mode with
  | .rtz => q
  | .rup => if neg || r == 0 then q else q + 1
  | .rdn => if neg && r != 0 then q + 1 else q
  | .rne => if 2 * r > d || (2 * r == d && q % 2 == 1) then q + 1 else q

/-- Rounds a magnitude onto the format's grid, extended upwards without limit; the encoding without its sign (R145,
R150). -/
def Fmt.grid (F : Fmt) (mode : Mode) (neg : Bool) (n d : Nat) : Nat :=
  if n = 0 then 0
  else
    let emin : Int := 1 - F.bias
    let k := ilog n d
    let e := if k < emin then emin else k
    let q := e - F.f
    let m := if q < 0 then roundInt mode neg (n * 2 ^ (-q).toNat) d else roundInt mode neg n (d * 2 ^ q.toNat)
    (e - emin).toNat * 2 ^ F.f + m

/-- A sign and a magnitude's encoding together. -/
def Fmt.sign (F : Fmt) (neg : Bool) (mag : Nat) : Nat := if neg then F.signBit + mag else mag

/-- Rounds an exact value, overflowing under R145. -/
def Fmt.round (F : Fmt) (mode : Mode) : Val → Nat
  | .nan => F.qnan
  | .inf neg => F.sign neg F.infEnc
  | .fin neg n d =>
    let g := F.grid mode neg n d
    if g ≤ F.top then F.sign neg g
    else
      let toInf := match mode with
        | .rne => true
        | .rtz => false
        | .rup => !neg
        | .rdn => neg
      F.sign neg (if toInf then F.infEnc else F.top)

/-- Negation. -/
def Val.neg : Val → Val
  | .nan => .nan
  | .inf s => .inf (!s)
  | .fin s n d => .fin (!s) n d

/-- The exact product; 0 × ∞ is a NaN. -/
def Val.mul : Val → Val → Val
  | .nan, _ | _, .nan => .nan
  | .inf s, .inf t => .inf (s != t)
  | .inf s, .fin t n _ => if n = 0 then .nan else .inf (s != t)
  | .fin s n _, .inf t => if n = 0 then .nan else .inf (s != t)
  | .fin s n d, .fin t n' d' => .fin (s != t) (n * n') (d * d')

/-- A signed integer numerator. -/
def sInt (neg : Bool) (n : Nat) : Int := if neg then -(n : Int) else n

/-- The exact sum; `down` gives the sign of an exact zero of opposite signs (R145). -/
def Val.add (down : Bool) : Val → Val → Val
  | .nan, _ | _, .nan => .nan
  | .inf s, .inf t => if s = t then .inf s else .nan
  | .inf s, .fin .. => .inf s
  | .fin .., .inf t => .inf t
  | .fin s n d, .fin t n' d' =>
    let z := sInt s n * d' + sInt t n' * d
    if z = 0 then .fin (if n = 0 ∧ n' = 0 then (if s = t then s else down) else down) 0 1
    else .fin (z < 0) z.natAbs (d * d')

/-- The sum of terms under R153: an exact zero is +0 unless every term is −0. -/
def exactSum : List Val → Val
  | [] => .fin false 0 1
  | [v] => v
  | v :: vs => v.add false (exactSum vs)

/-- Is the value an exact zero? -/
def Val.isZero : Val → Bool
  | .fin _ n _ => n == 0
  | _ => false

def Val.isNan : Val → Bool
  | .nan => true
  | _ => false

def Val.isNeg : Val → Bool
  | .nan => false
  | .inf s => s
  | .fin s _ _ => s

/-- Numeric comparison: a < b, false when either is a NaN. -/
def Val.lt : Val → Val → Bool
  | .nan, _ | _, .nan => false
  | .inf s, .inf t => s && !t
  | .inf s, .fin .. => s
  | .fin .., .inf t => !t
  | .fin s n d, .fin t n' d' => sInt s n * d' < sInt t n' * d

/-- Numeric equality, −0 equal to +0; false when either is a NaN. -/
def Val.eqv : Val → Val → Bool
  | .nan, _ | _, .nan => false
  | .inf s, .inf t => s == t
  | .inf _, .fin .. | .fin .., .inf _ => false
  | .fin s n d, .fin t n' d' => sInt s n * d' == sInt t n' * d

/-- The integer value as an exact value. -/
def Val.ofInt (z : Int) : Val := .fin (z < 0) z.natAbs 1

/-- Rounds a finite value to an integer; clamps to lo and hi, as infinities do; NaN gives 0 (R152). -/
def Val.toInt (mode : Mode) (lo hi : Int) : Val → Int
  | .nan => 0
  | .inf s => if s then lo else hi
  | .fin s n d =>
    let z := sInt s (roundInt mode s n d)
    if z < lo then lo else if hi < z then hi else z

/-- The exponent of decompose(x) for a finite nonzero x (06, Seeds). -/
def Val.expo : Val → Int
  | .fin _ n d => ilog n d
  | _ => 0

/-- x × 2^k. -/
def Val.scale (v : Val) (k : Int) : Val :=
  match v with
  | .fin s n d => if k < 0 then .fin s n (d * 2 ^ (-k).toNat) else .fin s (n * 2 ^ k.toNat) d
  | v => v

/-- RCPSEED on an F32 value (R154); the result before FTZO. -/
def rcpSeed : Val → Nat
  | .nan => F32.qnan
  | .inf s => F32.sign s 0
  | .fin s n d =>
    if n = 0 then F32.sign s F32.infEnc
    else
      let e := ilog n d
      match (Val.fin false n d).scale (-e) with
      | .fin _ mn md =>
        let i := (mn - md) * 256 / md
        -- c = (512 + 2 i + 1) / 512, q = round(1024 / c) / 1024
        let q := roundInt .rne false (1024 * 512) (513 + 2 * i)
        F32.round .rne ((Val.fin s q 1024).scale (-e))
      | _ => 0

/-- The integer nearest 1024 ÷ √(cn ÷ cd): the largest n with (2n − 1)² cn ≤ 4 · 1024² cd, by its bits. -/
def rsqRound (cn cd : Nat) : Nat :=
  [1024, 512, 256, 128, 64, 32, 16, 8, 4, 2, 1].foldl
    (fun n b => if (2 * (n + b) - 1) ^ 2 * cn ≤ 4 * 1024 ^ 2 * cd then n + b else n) 0

/-- RSQSEED on an F32 value (R155). -/
def rsqSeed : Val → Nat
  | .nan => F32.qnan
  | .inf s => if s then F32.qnan else 0
  | .fin s n d =>
    if n = 0 then F32.sign s F32.infEnc
    else if s then F32.qnan
    else
      let e := ilog n d
      match (Val.fin false n d).scale (-e) with
      | .fin _ mn md =>
        let i := (mn - md) * 128 / md
        let odd := e % 2 == 1
        let cn := if odd then 2 * (257 + 2 * i) else 257 + 2 * i
        let e := if odd then e - 1 else e
        F32.round .rne ((Val.fin false (rsqRound cn 256) 1024).scale (-e / 2))
      | _ => 0

/-- EXPRED on an F32 value: r as an encoding, and n (R156). -/
def expRed : Val → Nat × Int
  | .nan => (F32.qnan, 0)
  | .inf s => (0, if s then -256 else 256)
  | .fin s n d =>
    if n > 256 * d then (0, if s then -256 else 256)
    else
      let k := roundInt .rne s n d
      let x := Val.fin s n d
      let r := x.add s (Val.ofInt (-(sInt s k)))
      (F32.round .rne (match r with
        | .fin _ 0 _ => .fin s 0 1
        | v => v), sInt s k)

/-- LOGRED on an F32 value: s as an encoding, and e (R157). -/
def logRed : Val → Nat × Int
  | .nan => (F32.qnan, 0)
  | .inf s => if s then (F32.qnan, 0) else (F32.infEnc, 0)
  | .fin s n d =>
    if n = 0 then (F32.sign true F32.infEnc, 0)
    else if s then (F32.qnan, 0)
    else
      let e := ilog n d
      match (Val.fin false n d).scale (-e) with
      | .fin _ mn md =>
        let big := mn * mn ≥ 2 * md * md
        let md' := if big then 2 * md else md
        let e := if big then e + 1 else e
        (F32.round .rne (.fin (mn < md') ((mn : Int) - md').natAbs (mn + md')), e)
      | _ => (0, 0)

/-- π × 2^640, rounded down (log 21). -/
def piNum : Nat :=
  0x3243f6a8885a308d313198a2e03707344a4093822299f31d0082efa98ec4e6c89452821e638d01377be5466cf34e90c6cc0ac29b7c97c50dd3f84d5b5b54709179216d5d98979fb1bd1310ba698dfb5ac

/-- SINRED on an F32 value: r as an encoding, and the quadrant (R158). k is the integer nearest x ÷ (π ÷ 2). -/
def sinRed : Val → Nat × Nat
  | .nan => (F32.qnan, 0)
  | .inf _ => (F32.qnan, 0)
  | .fin s n d =>
    if n = 0 then (F32.sign s 0, 0)
    else
      -- |x| ÷ (π/2) = 2 n 2^640 / (d piNum)
      let k := roundInt .rne false (2 * n * 2 ^ 640) (d * piNum)
      let num : Int := (2 * n * 2 ^ 640 : Int) - (k * d * piNum : Int)
      let r := F32.round .rne (.fin ((num < 0) != s) num.natAbs (2 * d * 2 ^ 640))
      let q := if s then (4 - k % 4) % 4 else k % 4
      (r, q)

end Sys2Proof.Machine
end

