-- ==== Sys2Proof/Config.lean ====
section
/-! DEFINITION. What the package fixes, and the free values: the choices the manual leaves open, which nothing in
Lean can evaluate. Each free value is applied to the counter `State.free`, or to the data it depends on. -/
namespace Sys2Proof.Config

/-- Compute dies of a package (R11). -/
def dies : Nat := 8
/-- Cores of one die (R15, R18). -/
def coresPerDie : Nat := 128
/-- Thread slots of one core (R20). -/
def slotsPerCore : Nat := 2048
/-- Gang rows of one core (R20). -/
def gangsPerCore : Nat := 64
/-- Teams a core holds at most (R20, R72). -/
def teamsPerCore : Nat := 32
/-- Registers of one lane slice (R21, R72). -/
def regsPerSlice : Nat := 4096
/-- Bytes of one core's scratchpad (R20). -/
def spadBytes : Nat := 524288
/-- Bytes of one die's LPDDR-5X (R161). -/
def ddrBytes : Nat := 0x3000000000
/-- Address contexts of a die device (R277). -/
def contexts : Nat := 4096
/-- Census entries of a core (R38). -/
def censusEntries : Nat := 64
/-- Entries of a token or command queue (R90). -/
def queueDepth : Nat := 16
/-- Outstanding long-latency results of a thread (R82). -/
def maxOutstanding : Nat := 16
/-- Fault records the device holds while the queue is full (R289). -/
def heldRecords : Nat := 64
/-- Die-scheduler cycles of one period (R63). -/
def periodCycles : Nat := 10000
/-- Scheduler cycles of one SWAPINT at reset (R110). -/
def swapIntReset : Nat := 400000
/-- CAPS0 of the Chaermor (R112). -/
def caps0 : DWord := 0x00000000000FFFFF
/-- CAPS1 of the Chaermor (R112). -/
def caps1 : DWord := 0
/-- Flits of a link port's receive and retry buffers (R309). -/
def linkFlits : Nat := 4096
/-- The free space at which a receiver sends stop (R309). -/
def linkStop : Nat := 1536
/-- The free space at which a receiver sends go (R309). -/
def linkGo : Nat := 3072
/-- Failed replays after which a port reports its link down (R309). -/
def linkReplays : Nat := 16
/-- Slice cycles a multicast merge waits (R258). -/
def multicastWindow : Nat := 512
/-- Entries of a core's TLB, of a die TLB, and of a die's walk cache (R20). -/
def coreTlb : Nat := 256
def dieTlb : Nat := 131072
def walkCache : Nat := 4096
/-- Lines of an L1 (R175), of one slice of a die cache (32 MiB), and of the hub cache (2 GiB) (R20). -/
def l1Lines : Nat := 1536
def sliceLines : Nat := 131072
def hubLines : Nat := 8388608
/-- Signatures that one key of XMSS-SHAKE256_20_256 can make (R313). -/
def xmssLeaves : Nat := 2 ^ 20
/-- Degrees above which a die's clock stops, and below which it runs again (R316, R317). -/
def stopAbove : Nat := 105
def runBelow : Nat := 95
/-- Payload bytes of a flit (R308). -/
def flitBytes : Nat := 112
/-- Core cycles of the bounce-counter window (R211). -/
def bounceWindow : Nat := 2048

/-- FREE VALUE, log 3. A choice between two outcomes that a rule allows; the argument is a fresh counter value. -/
opaque pick : Nat → Bool

/-- FREE VALUE, log 4. The byte at an offset of the attestation report that holds nothing else: the signature over the nonce, the
digests and the fence states, for which the spec gives no values. -/
opaque attestation : Nat → (nonce : List DWord) → (fenced : List Bool) → Nat → Byte

/-- FREE VALUE, log 4. The firmware digest of a die, byte by byte, and the fused anti-rollback version (R312, R315). -/
opaque fwDigest : (die : Nat) → Nat → Byte
opaque rollback : Word

/-- FREE VALUE, log 5. The data a read over a link returns when the link went down (R309): the stored bits of poisoned
data. -/
opaque linkJunk : Nat → Byte

/-- FREE VALUE, log 27. PUBADDR of a thread that a save took off its core and a resume placed again; no saved record
holds it. -/
opaque resumedPub : Nat → DWord

end Sys2Proof.Config
end

