-- ==== Sys2Proof/Machine/State.lean ====
section
/-! DEFINITION. The state of a Chaermor package: every thread, team, core, die device, bend, cache sector, launch, link
port and memory byte that the spec names, as plain data. A map is a list of pairs (`Kv`); a key that is not listed
stands for the default the docstring gives, so the reset state lists little. -/
namespace Sys2Proof.Machine

/-- A map from numbers to records, as a list of pairs. The operations are in Machine/Kv.lean. -/
abbrev Kv (α : Type) := List (Nat × α)

/-- The 64 bytes of a sector; byte i is bits [8i+7:8i] (R190). -/
abbrev SecData := BitVec 512

/-! ## Threads and teams -/

/-- What a PARKED thread waits for (R32). -/
inductive Wait
  /-- BWAIT on bend `num` of the thread's die device; `acq` with .ACQ (R329). -/
  | bend (num : Nat) (acq : Bool)
  /-- BAR `n`; `here` once it has arrived (R322). -/
  | bar (n : Nat) (here : Bool)
  /-- MOV.POP of q0 or q1 into register `d` (R368). -/
  | pop (q d : Nat)
  /-- MXISS (kind 1), MXDRN (kind 2) or CPISS (kind 0) of the block at local address `addr` (R244, R255). -/
  | push (kind addr : Nat)
  /-- EXIT (R343). -/
  | exit
deriving DecidableEq, Repr

/-- The states of R31. -/
inductive Status
  | pending | overflow | running
  | parked (w : Wait)
  | dataWait | exited | frozen
deriving DecidableEq, Repr

/-- The wait and the transfer of slots that a thread has run of a packet and whose pass it left before its end: they take
effect at the end of the pass that goes on at a resume point (R37, R55). `point` is 4 times the packet plus the slot. -/
structure Held where
  point : Nat
  target : Option Nat
  wait : Option Wait
  word : Word
  /-- Slot of the transfer in its packet. -/
  slot : Nat
deriving DecidableEq, Repr

/-- TPC, TCAUSE and TWORD of one trap depth (R108), and what waits for the return to TPC (R55). -/
structure TrapRec where
  pc : DWord
  cause : Word
  word : Word
  held : List Held
deriving DecidableEq, Repr

/-- A trap that a thread takes when it would enter its successor: a delivered fault or consumed poison (R291, R299). -/
structure Due where
  cause : Nat
  sub : Nat
  word : Word
deriving DecidableEq, Repr

/-- A thread (R24, R55, R82). Register i is `regs` at key i, default 0; predicate i is `preds` at key i, default false. -/
structure Thread where
  regs : Kv Word
  preds : Kv Bool
  fpmode : Word
  depth : Nat
  trap : TrapRec
  outer : TrapRec
  pubaddr : DWord
  status : Status
  team : Nat
  blk : Nat
  pkt : Nat
  /-- Slot of the resume point, 0 at a packet's start (R297). -/
  slot : Nat
  /-- `pkt` and `slot` are a mid-block resume point (R55, R37). -/
  resume : Bool
  /-- The successor does not exist: the thread falls through past the code's end (R30). -/
  fall : Option Word
  stamp : Nat
  due : Option Due
  /-- What takes effect when the pass that goes on at the resume point ends (R37, R55). -/
  held : List Held
  /-- Order number of the moment it parked (R329). -/
  parkedAt : Nat
  /-- The instruction word of the wait it is parked at. -/
  parkWord : Word
  /-- Registers with an uncorrectable error (R299). -/
  bad : List Nat
  /-- Pass at whose end, or trap, it parked: 0 for none that runs on (R393). -/
  parkPass : Nat
  /-- Registers that a save did not write, with whether they hold an error: they read zero until a block that has them in its
  mask starts (R35; log 112). -/
  kept : Kv (Word × Bool)
deriving DecidableEq, Repr

/-- A tile and its 8 KiB of scale memory (R238, R239), its cursors (R243) and its poisoned elements (R254). -/
structure Tile where
  /-- Element 128 i + j, default +0.0. -/
  elems : Kv Word
  /-- Bytes 0-4095 A scales, 4096-8191 B scales, default 0. -/
  scales : Kv Byte
  /-- MXPROG of row-group g, default 0. -/
  cursors : Kv Nat
  poison : List Nat
  /-- Poisoned bytes of scale memory (R299, R254). -/
  scalePoison : List Nat
deriving DecidableEq, Repr

/-- An engine command: the kind of the instruction that pushed it (0 CPISS, 1 MXISS, 2 MXDRN) and its block (R244). -/
structure Cmd where
  by_ : Nat
  blk : SecData
  /-- The thread that pushed it. -/
  tid : Nat
  /-- Thread-side order number of the push, for R246. -/
  seq : Nat
deriving DecidableEq, Repr

/-- A command that an engine has started and not completed: it is parked on a fault, stopped by a save, or done and
not yet retired (R247, R253, R259). What is parked stands in the die's tokens (R291). -/
structure Run where
  cmd : Cmd
  /-- Next row of a drain (R253). -/
  row : Nat
  /-- Leading bytes written by a copy (R259). -/
  done : Nat
  /-- Lines that a multicast read has received beyond them (R258). -/
  got : List Nat
  /-- Status once the command has finished its work (R247). -/
  status : Option Nat
  poisoned : Bool
  /-- What bytes that a copy both reads and writes held before it wrote them, by address (R256). -/
  olds : Kv (Byte × Bool)
  /-- The first line that a multicast read has yet to ask for (R258). -/
  asks : Nat
  /-- The scale layout record, once a scale placement has read it (R257). -/
  lay : Option SecData
deriving DecidableEq, Repr

/-- A sector present in a stash window (R173). -/
structure StashSec where
  win : Nat
  idx : Nat
  key : Nat
  modified : Bool
  /-- Granules of the home value that were poisoned when the sector was filled: a discard leaves them so (R174, R299). -/
  was : List Nat
deriving DecidableEq, Repr

/-- The expand unit of a team, the fields of the image of R264. -/
structure Expand where
  /-- 0 idle, 1 collecting, 2 dealing. -/
  st : Nat
  scope : Nat
  g0 : Nat
  oper : Nat
  cmask : Nat
  total : Nat
  cursor : Nat
  obase : Nat
  owner : Nat
  held : List Nat
  clsd : List Nat
  pendv : List Nat
  done : List Nat
  owed : List Nat
  acc : Kv Word
deriving DecidableEq, Repr

/-- An EXPN that waits for its deal or its completion (R266, R267). -/
structure ExpReq where
  acc : Nat
  part : Nat
  /-- Order number of the moment it became ready; 0: not yet. -/
  ready : Nat
  /-- It belongs to the expansion that the unit holds, and not to one that EXPSV put away (R272). -/
  live : Bool
deriving DecidableEq, Repr

/-- A KMOV that some running pass overlaps: readers in overlapping passes see either value (R51). `ended`: the order
number at which its pass ended, 0 while it runs. -/
structure KPend where
  k : Nat
  old : Word
  pass : Nat
  ended : Nat
deriving DecidableEq, Repr

/-- Why a team leaves its core (R65, R79, R80). -/
inductive Leave
  | drain | discard | save | stop
deriving DecidableEq, Repr

/-- A resident team (R23, R66, R74). -/
structure Team where
  launch : Nat
  num : Nat
  core : Nat
  g0 : Nat
  gangs : Nat
  kregs : Kv Word
  kpend : List KPend
  spadBase : Nat
  spadK : Nat
  tiles : List Tile
  q0 : List Word
  q1 : List Word
  q8 : List Cmd
  q9 : List Cmd
  mx : Option Run
  cp : Option Run
  /-- CPPROG (R259). -/
  cpprog : Nat
  stash : List StashSec
  expand : Expand
  expq : List ExpReq
  tpass : Nat
  /-- Core cycle of placement or resume: TCYC counts from it. -/
  cyc0 : Nat
  /-- Die-scheduler cycle of placement or resume (R84). -/
  since : Nat
  leave : Option Leave
  /-- Deadline of a drain, in die-scheduler cycles (R79). -/
  deadline : Option Nat
  /-- Pre-emption requests that cover the team (R77). -/
  reqs : List Nat
  ended : Bool
deriving DecidableEq, Repr

/-! ## Cores -/

/-- A gang group of a GANG block's entry (R45). -/
structure Group where
  gang : Nat
  tids : List Nat
  first : Nat
  issuable : Bool
deriving DecidableEq, Repr

/-- A census entry in use (R38). -/
structure Entry where
  lidx : Nat
  launch : Nat
  blk : Nat
  pkt : Nat
  tids : List Nat
  closed : Bool
  gang : Bool
  tclass : Nat
  groups : List Group
deriving DecidableEq, Repr

/-- Core CSRs that system software writes (R107, R110). -/
structure CoreCsr where
  agelim : Word
  gtimeout : Word
  sbchk : Word
  sbhash : List Word
deriving DecidableEq, Repr

/-- A sector that an L1 holds as non-coherent, with its dirty mask; a store that missed has not filled it (R208). `poison`:
granules of its data that are poisoned (R299). -/
structure NcSec where
  data : SecData
  dirty : BitVec 64
  filled : Bool
  poison : List Nat
deriving DecidableEq, Repr

/-- A cached translation: a leaf or CH run (R282, R285). -/
structure Tlb where
  ctx : Nat
  va : Nat
  size : Nat
  base : Nat
  pte : DWord
  lvl : Nat
deriving DecidableEq, Repr

/-- A walk-cache entry: the table of a level that a pointer named for a region of a context (R285). -/
structure WalkEnt where
  ctx : Nat
  lvl : Nat
  region : Nat
  table : Nat
deriving DecidableEq, Repr

/-- A core (R20, R38-R47, R110). -/
structure Core where
  passcnt : Nat
  /-- The core's cycle counter (R337). -/
  cyc : Nat
  /-- What system software last wrote. -/
  csr : CoreCsr
  /-- What is in effect, from the last pass start (R116). -/
  eff : CoreCsr
  gstat : DWord
  sbconf : DWord
  census : List Entry
  overflow : List Nat
  /-- Resident-launch indices in use, with their launches (R38). -/
  lidx : Kv Nat
  /-- Scratchpad bytes at their physical offset, default 0 (R166). -/
  spad : List Host.Cell
  /-- Granules whose full-empty bit is full (R170). -/
  full : List Nat
  /-- Poisoned scratchpad words (R299). -/
  spadPoison : List Nat
  /-- The core's TLB, oldest entry first (R20, R285). -/
  tlb : List Tlb
  nc : Kv NcSec
  /-- Poisoned granules of the sectors that the L1 holds coherent and unmodified, by sector (R299). -/
  l1Poison : Kv (List Nat)
  /-- Lines that an access to a page of policy 01 used last (R178). -/
  streamed : List Nat
  /-- Bounce counters of the line tags that are not 0 (R211). -/
  bc : Kv Nat
  /-- Cycle at which an atomic obtained E or M of a sector (R211). -/
  obtained : Kv Nat
  /-- Gang row of the team the engines last took a command from (R245). -/
  mxTurn : Nat
  cpTurn : Nat
deriving DecidableEq, Repr

/-- The value that an item of a thread's state had before a slot of the pass wrote it (R96, R98). Items are numbered:
0-127 v registers, 128-134 predicates, 200 FPMODE, 201 and 202 the halves of PUBADDR, 300-331 the team's registers. -/
structure Old where
  tid : Nat
  item : Nat
  val : Word
deriving DecidableEq, Repr

/-- A result of class V4, V6, V12 or X2 that later slots of the pass may read too early (R97): its encoded cycle, its
latency, what it wrote, the values before, and its results. -/
structure Prod where
  e : Nat
  lam : Nat
  items : List Nat
  old : List Old
  new : List Old
deriving DecidableEq, Repr

/-- A HOLD latch of a pass (R99). -/
structure Latch where
  /-- Registers of the group: 1, 2, 4 or 8. -/
  cls : Nat
  reg : Nat
  /-- Issuing slots that may still read it. -/
  left : Nat
  /-- A slot has written the latched register since. -/
  written : Bool
  vals : List Old
deriving DecidableEq, Repr

/-- A packet as it was fetched, and whether its data was poisoned (R92, R292, R299). -/
structure Packet where
  ctl : Word
  a : Word
  b : Word
  c : Word
  bad : Bool
deriving DecidableEq, Repr

/-- What one slot's meaning acts on: the pass's core and port, where the slot stands, its word and literal, and the
threads of the pass whose guard is true, in ascending home lane (R93, R318). -/
structure Issue where
  core : Nat
  port : Nat
  pass : Nat
  /-- Virtual byte address of packet 0 of the kernel's code. -/
  code : Nat
  pkt : Nat
  slot : Nat
  word : Word
  lit : Option DWord
  /-- The literal is 64 bits wide (LIT 11). -/
  lit64 : Bool
  /-- Threads of the pass, and those of them whose guard is true. -/
  all : List Nat
  tids : List Nat
deriving DecidableEq, Repr

/-- An EXPSV or EXPRS that waits for an expand request of the X pipe that issues in its cycle (R262): the slot, which of the
two it is, and each thread's address. -/
structure LateImage where
  cur : Issue
  save : Bool
  vas : List (Nat × Nat)
deriving DecidableEq, Repr

/-- A running pass: its threads, its block, the packets fetched for it (R292), and where it stands (R43, R95). -/
structure Pass where
  id : Nat
  launch : Nat
  blk : Nat
  start : Nat
  count : Nat
  gang : Bool
  /-- Packets from `entry` to the block's end. -/
  code : List Packet
  entry : Nat
  pkt : Nat
  /-- Next slot: 0 the control word, 1 to 3 slots A to C. -/
  slot : Nat
  tids : List Nat
  /-- Encoded cycle of the next issue, and of the slot just issued (R95). -/
  ecyc : Nat
  eprev : Nat
  /-- Core cycle in which the pass started. -/
  cyc0 : Nat
  prods : List Prod
  /-- What the slots chained before the next one overwrote (R96). -/
  chain : List Old
  latches : List Latch
  /-- Items that class L slots of this pass write (R34). -/
  ldest : List Nat
  /-- Core CSRs in effect for the pass (R116). -/
  csr : CoreCsr
  /-- Targets of executed control transfers: 4 times the packet plus the slot (R30, R297). -/
  targets : Kv Nat
  /-- The slot of those transfers: a block has one (R29). -/
  tslot : Nat
  waits : Kv Wait
  waitWord : Word
  late : Option LateImage
deriving DecidableEq, Repr

/-! ## Accesses -/

/-- What an outstanding access does when it is performed. -/
inductive AccKind
  | ld (sx : Bool) (h : Hint)
  | st (h : Hint)
  | pref (h : Hint)
  | atom (op : AtomOp) (w : Width) (o : Ord2) (sc : Scope)
  | lup (op : LupOp)
  | devl
  | cwb
  | fence (k : FenceKind) (sc : Scope)
  | pubv
  /-- LDFE of a scratchpad word: core and physical offset (R362). -/
  | ldfe (clr : Bool) (core p : Nat)
  /-- LDS or STS of a scratchpad place that waits for an earlier fence or acquire of its thread (R351, R223). -/
  | spad (wr sx : Bool) (core p : Nat)
  /-- STFE of a scratchpad place: its bytes and the fill wait to release (R393). `va` holds the slot's mark. -/
  | stfe (core p : Nat)
  /-- A wait of the thread that has not resolved: BWAIT, BAR, MOV.POP or a queue write; `acq`: it is an acquire, and what
  follows it waits for it (R223). -/
  | await (acq : Bool)
  /-- Signal of a bend (R328). -/
  | bsig (pkg die num : Nat) (rel : Bool)
  | expn
  /-- MXRD of four elements (R371). -/
  | mxrd (t idx : Nat)
  | mxwr (t idx : Nat)
  | mxclr (t : Nat)
  /-- Fill of a stash sector (R173). -/
  | stashFill (win idx : Nat) (own sx : Bool)
  /-- Background write-back of a stash sector; its bytes stand at a physical scratchpad offset (R174). -/
  | stashWb (win p key : Nat)
deriving DecidableEq, Repr

/-- One part of an access, a single-copy atomic piece (R218). -/
structure Part where
  va : Nat
  off : Nat
  n : Nat
  done : Bool
deriving DecidableEq, Repr

/-- A release that an atomic has performed before an earlier write of its thread: its order number, its scope, and the core on which
it was made (R222; log 116). -/
structure Owe where
  id : Nat
  scope : Scope
  core : Nat
deriving DecidableEq, Repr

/-- An outstanding access (R33, R36, R214). `tid` is the thread, or for a team's access its lead's slot. -/
structure Access where
  tid : Nat
  team : Nat
  launch : Nat
  core : Nat
  pass : Nat
  kind : AccKind
  word : Word
  va : Nat
  size : Nat
  /-- Operand data that the instruction had read (R82). -/
  data : BitVec 128
  /-- Data read so far; for a scratchpad store, the bytes that a higher lane of its slot writes in its place (R168). -/
  got : BitVec 128
  /-- Destination registers, lowest first, and destination predicate (R34). -/
  dst : List Nat
  dstP : Option Nat
  parts : List Part
  /-- It waits in a home's queue of a developing sector (R197). -/
  queued : Bool
  poisoned : Bool
  /-- A fill that a scratchpad slot waits for: the thread's later slots of the pass hold or leave (R37). -/
  faulted : Bool
  /-- Releases of its thread by atomics that were performed before this earlier write (R222; log 116). -/
  owed : List Owe
deriving DecidableEq, Repr

/-! ## Coherence -/

/-- Who holds a sector: an L1, or a stash window of a team, both under the core's L1 number (R19, R173); the hub cache, for
a line that it fetched through a peer window (R177); another package, behind a link port; and the walker of a die and its
host, which keep S of what they read (R197). -/
inductive Holder
  | l1 (core : Nat)
  | stash (team : Nat)
  | hub
  | port (p : Nat)
  | walker (die : Nat)
  | host (die : Nat)
deriving DecidableEq, Repr

/-- A latent copy, under the cache number of its holder (R192, R198, R202). -/
structure LCopy where
  num : Nat
  data : SecData
  poison : List Nat
  /-- Address contexts and 4 KiB pages through which LUPs updated it. -/
  pages : List (Nat × Nat)
deriving DecidableEq, Repr

/-- What the directory records for a sector that some cache holds (R190, R191). A sector that is not listed is held
by no cache. -/
inductive Sec
  | shared (hs : List Holder)
  | excl (h : Holder)
  | modified (h : Holder) (data : SecData)
  | latent (op : LupOp) (copies : List LCopy)
deriving DecidableEq, Repr

/-- A copy or composite on its way from one holder to its collector (R199). -/
structure Report where
  num : Nat
  data : SecData
  poison : List Nat
  /-- It stands for what a port could not bring, since its link is down (R206). -/
  down : Bool
deriving DecidableEq, Repr

/-- A collector, or the home, that gathers reports (R197, R199). -/
structure Gather where
  await : List Nat
  got : List Report
deriving DecidableEq, Repr

/-- A develop under way (R197). Gathers are keyed by the collector's cache number; the home is key 2000. -/
structure Dev where
  op : LupOp
  toCollect : List Nat
  flight : List Report
  gathers : Kv Gather
  /-- Another package's home has asked for this composite (R205). -/
  asked : Bool
  /-- Link ports that have sent a collect and await the composite of what lies beyond them (R205). -/
  sent : List Nat
  /-- The events of the requests that wait at the home, in arrival order. -/
  waiting : List Instr
deriving DecidableEq, Repr

/-- A bend (R326, R327). -/
structure Bend where
  sig : DWord
  sigt : DWord
  wait : DWord
  waitt : DWord
  valid : Bool
  count : DWord
deriving DecidableEq, Repr

/-! ## Die devices -/

/-- One 32-byte fault record (R287), with the requesters parked on it. -/
structure FRec where
  addr : Nat
  iter : Nat
  owner : Nat
  fdom : Nat
  tslot : Nat
  core : Nat
  req : Nat
  cause : Nat
  sub : Nat
  acc : Nat
  level : Nat
  repl : Bool
  team : Nat
  /-- The token, once assigned; 0 before (R289). -/
  token : Nat
  /-- The address context, for merging (R290). -/
  ctx : Nat
deriving DecidableEq, Repr

/-- What is parked on a token (R291). -/
inductive Parked
  | access (id part : Nat)
  | fetch (core blk pkt lidx : Nat)
  | matrix (team : Nat)
  | copy (team : Nat)
  | accept (launch : Nat)
  | complete (launch : Nat)
  | save (team : Nat)
  | place (launch num : Nat)
deriving DecidableEq, Repr

/-- An outstanding token: its record, and who is parked (R290, R291). -/
structure Token where
  fault : FRec
  who : List Parked
deriving DecidableEq, Repr

/-- An address context (R277, R115, R207). -/
structure Ctx where
  ptbase : DWord
  ncwb : Kv DWord
  ncwl : Kv DWord
deriving DecidableEq, Repr

/-- A node of the region tree as the die scheduler last read it (R58-R61). -/
structure Node where
  addr : Nat
  /-- Addresses of the nodes above, nearest first. -/
  up : List Nat
  hdr : BitVec 1024
deriving DecidableEq, Repr

/-- Spend counters of a node (R63). -/
structure Spend where
  share : Nat
  memb : Nat
  linkb : Nat
deriving DecidableEq, Repr

/-- A stop subtree in force: the domain node, the header it had, and the nodes that stood above it (R65). -/
structure Halt where
  node : Nat
  up : List Nat
  hdr : BitVec 512
deriving DecidableEq, Repr

/-- A pre-emption request under way (R77, R79). -/
structure Preq where
  id : Nat
  node : Nat
  bend : Nat
  deadline : Nat
deriving DecidableEq, Repr

/-- An invalidation under way (R286): receivers 0-7 are dies, 8 + p is link port p. -/
structure Inval where
  kind : Nat
  ctx : Nat
  va : Nat
  count : Nat
  toReach : List Nat
  toAck : List Nat
deriving DecidableEq, Repr

/-- A multicast merge open at a home slice (R258). -/
structure Merge where
  launch : Nat
  gtag : Nat
  line : Nat
  mask : BitVec 128
  cores : List Nat
  first : Nat
  /-- 4 KiB virtual pages through which its requests were translated (R286). -/
  pages : List Nat
deriving DecidableEq, Repr

/-- A replicated response on its way (R258). -/
structure McResp where
  launch : Nat
  gtag : Nat
  line : Nat
  mask : BitVec 128
  data : BitVec 2048
  poison : List Nat
  toReach : List Nat
deriving DecidableEq, Repr

/-- A mark that a core was missing when a response left (R258). -/
structure Missing where
  launch : Nat
  gtag : Nat
  line : Nat
  mask : BitVec 128
  core : Nat
deriving DecidableEq, Repr

/-- A read-only replica of a sector in a die cache (R180). -/
structure Replica where
  launch : Nat
  key : Nat
  /-- Slice of the die cache that holds it: the near slice of the core that read it. -/
  slice : Nat
  data : SecData
  /-- Granules of its data that are poisoned. -/
  poison : List Nat
  /-- The 4 KiB virtual page it was read through. -/
  page : Nat
deriving DecidableEq, Repr

/-- A line of a die cache: the sectors whose home value it holds, and whether an access to a page of policy 01 used it last, so
that it is replaced first (R178, R190). -/
structure DieLine where
  secs : List Nat
  low : Bool
deriving DecidableEq, Repr

/-- A die device and its die (R15, R107, R184, R189, R305). -/
structure Die where
  ready : Bool
  /-- Its firmware is verified and it is authenticated (R312, R313). -/
  auth : Bool
  fenced : Bool
  hostReady : Bool
  /-- Its clock is stopped for temperature (R317). -/
  stopped : Bool
  /-- Cycles of the arithmetic clock counted while it runs: the time of the die scheduler and the caches (R63, R78). -/
  cyc : Nat
  /-- Bytes last written to a window register that needs its low half later, by offset (R304). -/
  low : Kv Word
  rcbroot : DWord
  preqnode : DWord
  preqctl : DWord
  pres : DWord
  swapint : Word
  fqbase : DWord
  fqhead : Word
  fqtail : Word
  held : List FRec
  /-- Records with REPL = 1 that found the holding buffer full, with their requesters (R289). -/
  unwritten : List Token
  tokens : Kv Token
  nextTok : Nat
  fqlost : Word
  cecnt : DWord
  tlbinva : DWord
  tlbinvc : DWord
  inval : Option Inval
  heatbase : DWord
  /-- Sample counter of each slice (R301). -/
  heat : Kv Nat
  acsel : Word
  ctxs : Kv Ctx
  /-- The die TLB and the walk cache, oldest entry first (R20, R285). -/
  tlb : List Tlb
  walkc : List WalkEnt
  /-- Lines of the die cache, by home line (R176, R190). -/
  lines : Kv DieLine
  bendsel : DWord
  attnonce : Kv DWord
  attgo : DWord
  /-- A write that acts has asked for a report that is not written yet (R304, R315). -/
  attWait : Bool
  /-- First free overflow block, 0 for none, and how many are free and in use (R184). -/
  ovpHead : Nat
  ovpfree : Word
  ovpinuse : Word
  /-- Overflow lines and the blocks that hold them (R182). -/
  ovpUsed : Kv Nat
  cmpn64 : DWord
  cmpn128 : DWord
  cmpnovf : DWord
  exptbase : DWord
  imptbase : DWord
  exprevoke : DWord
  /-- The range that a revocation under way recalls (R189). -/
  revoke : Option (Nat × Nat)
  pkgid : Word
  nodes : List Node
  /-- Nodes that the last reading found malformed, with what it read: they are reported once (R58). -/
  ignored : List (Nat × BitVec 1024)
  spends : Kv Spend
  suspended : List Nat
  halts : List Halt
  preqs : List Preq
  nextPeriod : Nat
  nextSwap : Nat
  /-- Launches passed over in this period, with their run of such periods (R73). -/
  passed : Kv Nat
  passedNow : List Nat
  broken : List Nat
  merges : Kv Merge
  responses : Kv McResp
  missing : List Missing
  replicas : List Replica
  /-- Requests that wait at the die's port while its clock is stopped, in arrival order (R317). -/
  waiting : List Instr
deriving DecidableEq, Repr

/-- A block of an accepted kernel (R26). -/
structure Blk where
  start : Nat
  count : Nat
  livein : BitVec 128
  gang : Bool
  tclass : Nat
deriving DecidableEq, Repr

/-- What a saved thread keeps beside its record (log 112): registers outside LIVE, and for each of its reissue entries the bytes
that are not its own (R168) and the releases that were performed before it (R222). -/
structure KeptThread where
  regs : Kv (Word × Bool)
  notes : List (BitVec 128 × List Owe)
deriving DecidableEq, Repr

/-- Phases of a launch (R70, R75). -/
inductive LPhase
  | taken | waiting | running | stopping | completing | done
deriving DecidableEq, Repr

/-- A launch that a die scheduler has taken (R66, R70-R75). -/
structure Launch where
  die : Nat
  addr : Nat
  phase : LPhase
  status : Nat
  record : BitVec 4096
  header : BitVec 2048
  blocks : List Blk
  /-- Addresses of the nodes above it, its queue first. -/
  up : List Nat
  order : Nat
  nextTeam : Nat
  /-- Discarded teams, to be placed again (R79). -/
  again : List Nat
  /-- Saved teams, longest saved first, with their passes (R83). -/
  saved : List Nat
  /-- Teams that the last swap has taken off their cores: those that it made room for go first (R84; log 118). -/
  swapped : List Nat
  /-- What a saved thread keeps beside its record, by 1024 times the team's number plus the thread's place (R35, R82; log 112). -/
  kept : Kv KeptThread
  ended : Nat
  passes : Nat
  frozen : Nat
  missing : BitVec 128
deriving DecidableEq, Repr

/-! ## Links, hub, outside world -/

/-- A link port (R308-R310). -/
structure Port where
  ready : Bool
  peer : Nat
  /-- The far side has sent stop (R309). -/
  stopped : Bool
  /-- Flits in the receive buffer: received in order, their messages not yet served. -/
  late : List Flit
  /-- Messages that have left it and wait for a develop or a stopped clock (R197, R317). -/
  wait : List Flit
  /-- Messages of accesses that the device makes itself, which wait for room to leave (R306, R309). -/
  unsent : List LinkMsg
  saidStop : Bool
  expect : Nat
  nextSeq : Nat
  retry : List Flit
  fails : Nat
  retries : Word
  downs : Nat
deriving DecidableEq, Repr

/-- What the machine sends to the outside. -/
inductive Out
  /-- An MSI-X vector of a die device's function (R307). -/
  | msix (die vec : Nat)
  /-- The data of a host read, with whether any of it is poisoned; no bytes where nothing answers. -/
  | hostData (die : Nat) (data : List Byte) (poisoned : Bool)
  /-- The data of a register read that acts (R304). -/
  | regData (die : Nat) (v : DWord)
  | linkStop (port : Nat)
  | linkGo (port : Nat)
  | linkAck (port seq : Nat)
  | linkNak (port seq : Nat)
  | linkFlit (port : Nat) (f : Flit)
  | clockStep (die : Nat)
deriving DecidableEq, Repr

/-- The state of the package. -/
structure State where
  /-- Physical memory of every home, by key (Machine/Mem.lean): canonical, and a byte that is not listed is 0. -/
  mem : List Host.Cell
  /-- Poisoned 16-byte granules, by key div 16 (R299). -/
  poison : List Nat
  dir : Kv Sec
  devs : Kv Dev
  threads : Kv Thread
  teams : Kv Team
  passes : Kv Pass
  cores : Kv Core
  /-- A die that is not listed stands at `Die.reset`; likewise cores, bends and ports. -/
  dies : Kv Die
  bends : Kv Bend
  launches : Kv Launch
  accs : Kv Access
  ports : Kv Port
  hubReady : Bool
  hubFenced : Bool
  hubStopped : Bool
  /-- PWRLIM, PWRNOW, TEMPMAX (R316). -/
  pwrlim : Word
  pwrnow : Word
  tempmax : Word
  /-- Degrees Celsius of the hottest sensor of each die, and of the hub as number 8, at the last sample (R316). -/
  temps : List Nat
  /-- Signatures made so far by the identity key of each die, and of the hub as number 8: the signature indices in the module
  flash (R313). -/
  sigs : Kv Nat
  /-- Steps of 25 MHz by which the arithmetic clock stands below 1.75 GHz (R316). -/
  slow : Nat
  /-- Next order number: accesses, passes, launches and parks take theirs from it. -/
  seq : Nat
  /-- The model's own: what the outside world and the machine's agents do next, head first. -/
  agenda : List Instr
  /-- The model's own: an event that is due comes before the next slot (log 30). -/
  turn : Bool
  cur : Issue
  /-- The model's own: sectors that develop and that the event being carried out needs (R197). Empty between steps: the step
  undoes such an event and queues it at the homes. -/
  blocked : List Nat
  out : List Out
  /-- The model's own: how many free values have been used. -/
  free : Nat
deriving DecidableEq, Repr

/-- Reasons the model stops. None is raised: the spec gives every instruction and event an effect. -/
inductive Fault
  /-- Raised by nothing; the spec has no machine check that stops the package. Safe. -/
  | stuck
deriving DecidableEq, Repr

/-- Refusals. -/
inductive Refusal
  /-- Raised by an arm of `exec` whose instruction has no meaning yet. Safe. -/
  | notModelled (mnemonic : String)
deriving DecidableEq, Repr

/-! ## Reset -/

/-- Trap registers at thread start (R108). -/
def TrapRec.reset : TrapRec := { pc := 0, cause := 0, word := 0, held := [] }

/-- A thread slot before a team is placed on it: R24 with no team, and not live. -/
def Thread.reset : Thread :=
  { regs := [], preds := [], fpmode := 1, depth := 0, trap := TrapRec.reset, outer := TrapRec.reset, pubaddr := 0,
    status := .exited, team := 0, blk := 0, pkt := 0, slot := 0, resume := false, fall := none, stamp := 0,
    due := none, held := [], parkedAt := 0, parkWord := 0, bad := [], parkPass := 0, kept := [] }

/-- An idle expand unit (R264, R74). -/
def Expand.reset : Expand :=
  { st := 0, scope := 0, g0 := 0, oper := 0, cmask := 0, total := 0, cursor := 0, obase := 0, owner := 0, held := [],
    clsd := [], pendv := [], done := [], owed := [], acc := [] }

/-- A tile at placement (R74, R110). -/
def Tile.reset : Tile := { elems := [], scales := [], cursors := [], poison := [], scalePoison := [] }

/-- Core CSRs at reset (R110). -/
def CoreCsr.reset : CoreCsr :=
  { agelim := 256, gtimeout := 1024, sbchk := 0, sbhash := [4, 8, 16, 32, 64] }

/-- A core at reset. -/
def Core.reset : Core :=
  { passcnt := 0, cyc := 0, csr := CoreCsr.reset, eff := CoreCsr.reset, gstat := 0, sbconf := 0, census := [], overflow := [],
    lidx := [], spad := [], full := [], spadPoison := [], tlb := [], nc := [], l1Poison := [], streamed := [], bc := [], obtained := [], mxTurn := 0, cpTurn := 0 }

/-- A die device after a module reset: not yet ready, every register at its Reset column (R5, R110-R115). -/
def Die.reset : Die :=
  { ready := false, auth := false, fenced := false, hostReady := false, stopped := false, cyc := 0, low := [], rcbroot := 0,
    preqnode := 0, preqctl := 0, pres := 0, swapint := 400000, fqbase := 4, fqhead := 0, fqtail := 0, held := [],
    unwritten := [], tokens := [], nextTok := 1, fqlost := 0, cecnt := 0, tlbinva := 0, tlbinvc := 0, inval := none,
    heatbase := 0, heat := [], acsel := 0, ctxs := [], tlb := [], walkc := [], lines := [], bendsel := 0, attnonce := [], attgo := 0, attWait := false,
    ovpHead := 0, ovpfree := 0, ovpinuse := 0, ovpUsed := [], cmpn64 := 0, cmpn128 := 0, cmpnovf := 0, exptbase := 0,
    imptbase := 0, exprevoke := 0, revoke := none, pkgid := 0, nodes := [], ignored := [], spends := [], suspended := [], halts := [], preqs := [],
    nextPeriod := 10000, nextSwap := 400000, passed := [], passedNow := [], broken := [], merges := [], responses := [],
    missing := [], replicas := [], waiting := [] }

/-- A bend at reset: unbound, count 0 (R327). -/
def Bend.reset : Bend := { sig := 0, sigt := 0, wait := 0, waitt := 0, valid := false, count := 0 }

/-- A link port at reset: not ready (R113, R310). -/
def Port.reset : Port :=
  { ready := false, peer := 0, stopped := false, late := [], wait := [], unsent := [], saidStop := false, expect := 0, nextSeq := 0, retry := [],
    fails := 0, retries := 0, downs := 0 }

/-- An address context at reset (R115). -/
def Ctx.reset : Ctx := { ptbase := 0, ncwb := [], ncwl := [] }

/-- No slot is being executed. -/
def Issue.reset : Issue :=
  { core := 0, port := 0, pass := 0, code := 0, pkt := 0, slot := 0, word := 0, lit := none, lit64 := false, all := [],
    tids := [] }

/-- The package after a module reset (R5, R311-R314): no function has reported ready, every register is at its Reset
column, no launch is taken, nothing in memory is listed. Where the spec gives no value: log 1, 2, 10, 11, 74, 82, 101. -/
def State.reset : State :=
  { mem := [], poison := [], dir := [], devs := [], threads := [], teams := [], passes := [], cores := [],
    dies := [], bends := [], launches := [], accs := [], ports := [], hubReady := false, hubFenced := false, hubStopped := false,
    pwrlim := 2400, pwrnow := 0, tempmax := 0, temps := [], sigs := [], slow := 0, seq := 1, agenda := [], turn := false, cur := Issue.reset, blocked := [], out := [],
    free := 0 }

end Sys2Proof.Machine
end

