-- ==== Sys2Proof/Machine/Kv.lean ====
section
/-! DEFINITION. Maps, sorted lists, bytes, and the accessors of the state's maps. -/
namespace Sys2Proof.Machine

/-! ## Maps -/

/-- The value at a key. -/
def kvGet {α : Type} (m : Kv α) (k : Nat) : Option α :=
  match m with
  | [] => none
  | (k', v) :: m => if k' = k then some v else kvGet m k

/-- The value at a key, or the default. -/
def kvGetD {α : Type} (dflt : α) (m : Kv α) (k : Nat) : α := (kvGet m k).getD dflt

/-- Removes a key. -/
def kvDel {α : Type} (m : Kv α) (k : Nat) : Kv α :=
  match m with
  | [] => []
  | (k', v) :: m => if k' = k then kvDel m k else (k', v) :: kvDel m k

/-- Sets a key; a rising list stays rising. -/
def kvPut {α : Type} (m : Kv α) (k : Nat) (v : α) : Kv α :=
  match m with
  | [] => [(k, v)]
  | (k', v') :: m => if k' < k then (k', v') :: kvPut m k v else if k' = k then (k, v) :: m else (k, v) :: (k', v') :: m

/-- Sets a key in a map whose unlisted keys stand for a default: the default is not listed. -/
def kvSet {α : Type} [DecidableEq α] (dflt : α) (m : Kv α) (k : Nat) (v : α) : Kv α :=
  if v = dflt then kvDel m k else kvPut m k v

/-- Keys whose entry meets a test. -/
def kvKeys {α : Type} (m : Kv α) (p : Nat → α → Bool) : List Nat :=
  (m.filter fun e => p e.1 e.2).map (·.1)

/-! ## Sorted lists of numbers -/

/-- Adds a number to a rising list. -/
def natAdd (l : List Nat) (n : Nat) : List Nat :=
  match l with
  | [] => [n]
  | x :: l => if x < n then x :: natAdd l n else if x = n then n :: l else n :: x :: l

/-- The number of a list with the least measure; the first of equals. -/
def minBy (f : Nat → Nat) : List Nat → Option Nat
  | [] => none
  | x :: l => match minBy f l with
    | none => some x
    | some y => if f y < f x then some y else some x

/-- Sorts by a measure, equals in order. -/
def insBy (f : Nat → Nat) (x : Nat) : List Nat → List Nat
  | [] => [x]
  | y :: l => if f x < f y then x :: y :: l else y :: insBy f x l

/-- Sorts by a measure, equals in order. -/
def sortBy (f : Nat → Nat) (l : List Nat) : List Nat := l.foldl (fun acc x => insBy f x acc) []

/-! ## Bits and bytes -/

/-- Bits [lo + n − 1 : lo] of a number. -/
def bitsOf (v lo n : Nat) : Nat := v / 2 ^ lo % 2 ^ n

/-- Field [lo + n − 1 : lo] of a bit vector, as a number. -/
def fld {w : Nat} (x : BitVec w) (lo n : Nat) : Nat := bitsOf x.toNat lo n

/-- Replaces bits [lo + n − 1 : lo]. -/
def setFld {w : Nat} (x : BitVec w) (lo n v : Nat) : BitVec w :=
  BitVec.ofNat w (x.toNat / 2 ^ (lo + n) * 2 ^ (lo + n) + v % 2 ^ n * 2 ^ lo + x.toNat % 2 ^ lo)

/-- The n low bytes of a number, lowest first: byte order is decided here (R92, R144). -/
def leBytes : (n v : Nat) → List Byte
  | 0, _ => []
  | n + 1, v => BitVec.ofNat 8 v :: leBytes n (v / 256)

/-- The number that bytes form, lowest first. -/
def ofLe : List Byte → Nat
  | [] => 0
  | b :: bs => b.toNat + 256 * ofLe bs

/-- sext(x, n) of the low n bits (R7). -/
def sextNat (v n : Nat) : Int :=
  let v := v % 2 ^ n
  if v < 2 ^ (n - 1) then v else (v : Int) - 2 ^ n

/-- An integer's low n bits. -/
def lowBits (z : Int) (n : Nat) : Nat := (z % 2 ^ n).toNat

/-- Sector data with bytes from an offset replaced. -/
def secPut (d : SecData) (off : Nat) (bs : List Byte) : SecData := setFld d (8 * off) (8 * bs.length) (ofLe bs)

/-- n bytes of sector data from an offset. -/
def secGet (d : SecData) (off n : Nat) : List Byte := leBytes n (d.toNat / 2 ^ (8 * off))

/-- Element i of a sector (R192). -/
def secElem (d : SecData) (i : Nat) : Word := BitVec.ofNat 32 (d.toNat / 2 ^ (32 * i))

/-- A sector of 16 equal elements. -/
def secAll (w : Word) : SecData := ofLeWords (List.replicate 16 w)
where
  /-- Words, lowest first. -/
  ofLeWords : List Word → SecData
    | [] => 0
    | w :: ws => BitVec.ofNat 512 (w.toNat + 2 ^ 32 * (ofLeWords ws).toNat)

/-! ## Accessors -/

/-- Bumps the order number. -/
def State.bump (s : State) : State := { s with seq := s.seq + 1 }

/-- A thread by its key: 2048 g + slot. -/
def State.thread (s : State) (t : Nat) : Thread := kvGetD Thread.reset s.threads t
def State.setThread (s : State) (t : Nat) (x : Thread) : State := { s with threads := kvPut s.threads t x }
def State.updThread (s : State) (t : Nat) (f : Thread → Thread) : State := s.setThread t (f (s.thread t))

/-- A core by its global number. -/
def State.core (s : State) (g : Nat) : Core := kvGetD Core.reset s.cores g
def State.setCore (s : State) (g : Nat) (x : Core) : State := { s with cores := kvPut s.cores g x }
def State.updCore (s : State) (g : Nat) (f : Core → Core) : State := s.setCore g (f (s.core g))

/-- A die device by its index. -/
def State.die (s : State) (d : Nat) : Die := kvGetD Die.reset s.dies d
def State.setDie (s : State) (d : Nat) (x : Die) : State := { s with dies := kvPut s.dies d x }
def State.updDie (s : State) (d : Nat) (f : Die → Die) : State := s.setDie d (f (s.die d))

/-- A resident team by its key: 64 g + g0. -/
def State.team (s : State) (t : Nat) : Option Team := kvGet s.teams t
def State.setTeam (s : State) (t : Nat) (x : Team) : State := { s with teams := kvPut s.teams t x }
def State.updTeam (s : State) (t : Nat) (f : Team → Team) : State :=
  match s.team t with
  | none => s
  | some x => s.setTeam t (f x)

/-- A launch by its number. -/
def State.launch (s : State) (l : Nat) : Option Launch := kvGet s.launches l
def State.setLaunch (s : State) (l : Nat) (x : Launch) : State := { s with launches := kvPut s.launches l x }
def State.updLaunch (s : State) (l : Nat) (f : Launch → Launch) : State :=
  match s.launch l with
  | none => s
  | some x => s.setLaunch l (f x)

/-- A bend by its die and number: 65536 d + NUM. -/
def State.bend (s : State) (b : Nat) : Bend := kvGetD Bend.reset s.bends b
def State.setBend (s : State) (b : Nat) (x : Bend) : State := { s with bends := kvPut s.bends b x }

/-- A link port by its number 8 n + m. -/
def State.port (s : State) (p : Nat) : Port := kvGetD Port.reset s.ports p
def State.setPort (s : State) (p : Nat) (x : Port) : State := { s with ports := kvPut s.ports p x }

/-- A running pass by its key: 2 g + port. -/
def State.pass (s : State) (p : Nat) : Option Pass := kvGet s.passes p
def State.setPass (s : State) (p : Nat) (x : Pass) : State := { s with passes := kvPut s.passes p x }

/-- An outstanding access by its number. -/
def State.acc (s : State) (a : Nat) : Option Access := kvGet s.accs a
def State.setAcc (s : State) (a : Nat) (x : Access) : State := { s with accs := kvPut s.accs a x }
/-- Changes an access that is outstanding. -/
def State.updAcc (s : State) (id : Nat) (f : Access → Access) : State :=
  match s.acc id with
  | none => s
  | some a => s.setAcc id (f a)
def State.delAcc (s : State) (a : Nat) : State := { s with accs := kvDel s.accs a }

/-- Sends something to the outside. -/
def State.emit (s : State) (o : Out) : State := { s with out := s.out ++ [o] }

/-- A fresh free choice (log 3). -/
def State.choose (s : State) : State × Bool := ({ s with free := s.free + 1 }, Config.pick s.free)

/-! ## Places -/

/-- The global core of a thread key. -/
def coreOf (tid : Nat) : Nat := tid / 2048
/-- The thread's slot on its core (TSLOT). -/
def slotOf (tid : Nat) : Nat := tid % 2048
/-- The home lane (R10). -/
def laneOf (tid : Nat) : Nat := tid % 32
/-- The gang row of a thread. -/
def gangOf (tid : Nat) : Nat := tid % 2048 / 32
/-- The die of a global core (R18). -/
def dieOf (g : Nat) : Nat := g / 128
/-- The global cluster of a global core (R18). -/
def clusterOf (g : Nat) : Nat := g / 64
/-- The core of a team key. -/
def teamCore (t : Nat) : Nat := t / 64
/-- The cache number of a holder (R19, R173); a walker and a host answer at the die cache of their die. -/
def Holder.num : Holder → Nat
  | .l1 g => g
  | .stash t => teamCore t
  | .hub => 1032
  | .port p => 1040 + p
  | .walker d | .host d => 1024 + d

/-- Register i of a thread. -/
def Thread.reg (t : Thread) (i : Nat) : Word := kvGetD 0 t.regs i
def Thread.setReg (t : Thread) (i : Nat) (v : Word) : Thread := { t with regs := kvSet 0 t.regs i v }
/-- Registers of a set that a save left beside the thread's record come back (R35; log 112). -/
def Thread.takeKept (t : Thread) (m : Nat → Bool) : Thread :=
  (t.kept.filter (m ·.1)).foldl
    (fun t x => { t.setReg x.1 x.2.1 with bad := if x.2.2 then x.1 :: t.bad else t.bad }) { t with kept := t.kept.filter (!m ·.1) }
/-- Predicate i: p7 always reads true (R88). -/
def Thread.pred (t : Thread) (i : Nat) : Bool := i == 7 || kvGetD false t.preds i
/-- A write to p7 has no effect (R88). -/
def Thread.setPred (t : Thread) (i : Nat) (v : Bool) : Thread :=
  if i = 7 then t else { t with preds := kvSet false t.preds i v }
/-- A group of n registers as one number, the lowest register least significant (R87). -/
def Thread.group (t : Thread) (n r : Nat) : Nat :=
  match n with
  | 0 => 0
  | n + 1 => (t.reg r).toNat + 2 ^ 32 * t.group n (r + 1)
/-- Writes a group of n registers. -/
def Thread.setGroup (t : Thread) (n r v : Nat) : Thread :=
  match n with
  | 0 => t
  | n + 1 => (t.setReg r (BitVec.ofNat 32 v)).setGroup n (r + 1) (v / 2 ^ 32)

/-- The thread is live: started, and neither exited nor frozen (R25). -/
def Thread.live (t : Thread) : Bool := t.status != .exited && t.status != .frozen

/-- Thread keys of a team in ascending team-relative slot (R23). -/
def Team.tids (t : Team) : List Nat := (List.range (32 * t.gangs)).map (2048 * t.core + 32 * t.g0 + ·)
/-- The team-relative slot of a thread of the team (R23). -/
def Team.rel (t : Team) (tid : Nat) : Nat := slotOf tid - 32 * t.g0
/-- The key of a team. -/
def Team.key (t : Team) : Nat := 64 * t.core + t.g0
/-- The team lead: the lowest-numbered live thread (R49). -/
def leadOf (s : State) (t : Team) : Option Nat := t.tids.find? fun tid => (s.thread tid).live

end Sys2Proof.Machine
end

