-- ==== Sys2Proof/Machine/Mem.lean ====
section
/-! DEFINITION. Physical memory: one canonical list of bytes over the keys of every place that holds data.
Keys: the package's LPDDR-5X of die d at offset o is 2^38 d + o; offset o of die d in package p of the load-store
domain is 2^51 + 2^41 p + 2^38 d + o; host memory is 2^64 + a; fabric-attached memory is 2^53 + a; byte b of a page
compressed at die-physical address r of die d is 2^54 + 2^40 d + 2 r + b (R161, R181, R306). -/
namespace Sys2Proof.Machine

/-- The byte at a key: 0 where nothing has been written (log 2). -/
def cellGet (m : List Host.Cell) (a : Nat) : Byte :=
  match m with
  | [] => 0
  | (a', b) :: m => if a' = a then b else cellGet m a

/-- Removes a cell. -/
def cellDel (m : List Host.Cell) (a : Nat) : List Host.Cell :=
  match m with
  | [] => []
  | (a', b) :: m => if a' = a then cellDel m a else (a', b) :: cellDel m a

/-- Puts a cell into a rising list. -/
def cellIns (m : List Host.Cell) (a : Nat) (b : Byte) : List Host.Cell :=
  match m with
  | [] => [(a, b)]
  | (a', b') :: m => if a' < a then (a', b') :: cellIns m a b else if a' = a then (a, b) :: m else (a, b) :: (a', b') :: m

/-- Writes a byte; the value that an unlisted key reads as is not listed. -/
def cellPut (m : List Host.Cell) (a : Nat) (b : Byte) : List Host.Cell :=
  if b = 0 then cellDel m a else cellIns m a b

/-- Writes bytes from a key upwards. -/
def cellPuts (m : List Host.Cell) (a : Nat) : List Byte → List Host.Cell
  | [] => m
  | b :: bs => cellPuts (cellPut m a b) (a + 1) bs

/-- Reads n bytes from a key upwards. -/
def cellGets (m : List Host.Cell) (a n : Nat) : List Byte := (List.range n).map fun i => cellGet m (a + i)

/-- The canonical form: keys strictly rising from a bound, no byte 0. -/
def cellsWf (lo : Nat) : List Host.Cell → Bool
  | [] => true
  | (a, b) :: m => lo ≤ a && b != 0 && cellsWf (a + 1) m

/-- The canonical form of a memory. -/
def Memory.wf (m : List Host.Cell) : Bool := cellsWf 0 m

/-- The home value of a sector. -/
def homeSec (s : State) (k : Nat) : SecData := BitVec.ofNat 512 (ofLe (cellGets s.mem (64 * k) 64))

/-- Clears the poison of the granules that n bytes from a key cover whole; a granule written in part keeps its mark
(R299, log 8). -/
def clearPoison (p : List Nat) (a n : Nat) : List Nat :=
  p.filter fun g => !(decide (a ≤ 16 * g) && decide (16 * g + 16 ≤ a + n))

/-- Any granule of n bytes from a key is poisoned. -/
def poisoned (s : State) (a n : Nat) : Bool := s.poison.any fun g => g * 16 < a + n && a < g * 16 + 16

/-- Writes bytes to the home value. -/
def writeHome (s : State) (a : Nat) (bs : List Byte) : State :=
  { s with mem := cellPuts s.mem a bs, poison := clearPoison s.poison a bs.length }

end Sys2Proof.Machine
end

