-- ==== Sys2Proof/Machine/Coh.lean ====
section
/-! DEFINITION. Sectors: the directory, latent copies, develops and early merges (spec 08 R190-R206, R211). -/
namespace Sys2Proof.Machine

/-! ## Operators (R192) -/

/-- Signed minimum, maximum and their unsigned forms. -/
def sMin (a b : Word) : Word := if a.toInt ≤ b.toInt then a else b
def sMax (a b : Word) : Word := if a.toInt ≤ b.toInt then b else a
def uMin (a b : Word) : Word := if a.toNat ≤ b.toNat then a else b
def uMax (a b : Word) : Word := if a.toNat ≤ b.toNat then b else a

/-- round_rne(value(a, F32) + x, F32), for ATOM.FADD, BACC, SEGR and GRED (R146). -/
def f32Add (a : Word) (x : Val) : Word := BitVec.ofNat 32 (F32.round .rne ((F32.value a.toNat).add false x))

/-- The identity of an operator. -/
def lupIdent : LupOp → Word
  | .addI | .maxN | .orB => 0
  | .minI => 0x7FFFFFFF
  | .minN => 0xFFFFFFFF
  | .maxI | .bacc => 0x80000000

/-- Folds an LUP's value into a copy element. -/
def lupUpdate (op : LupOp) (c u : Word) : Word :=
  match op with
  | .addI => c + u
  | .minI => sMin c u
  | .minN => uMin c u
  | .maxI => sMax c u
  | .maxN => uMax c u
  | .orB => c ||| u
  | .bacc => f32Add c (BF16.value (fld u 0 16))

/-- Folds a copy element into an accumulated value. -/
def lupMerge (op : LupOp) (a c : Word) : Word :=
  match op with
  | .addI => a + c
  | .minI => sMin a c
  | .minN => uMin a c
  | .maxI => sMax a c
  | .maxN => uMax a c
  | .orB => a ||| c
  | .bacc => f32Add a (F32.value c.toNat)

/-- Merges a copy or composite into an accumulated sector, element by element (R198). -/
def mergeSec (op : LupOp) (a c : SecData) : SecData :=
  BitVec.ofNat 512 ((List.range 16).foldr
    (fun i acc => (lupMerge op (secElem a i) (secElem c i)).toNat + 2 ^ 32 * acc) 0)

/-- Numbers of either list. -/
def natUnion (l m : List Nat) : List Nat := m.foldl natAdd l

/-- Merges reports in ascending cache number into a start value with its poisoned elements (R198, R199). -/
def mergeReports (op : LupOp) (a : SecData × List Nat) (rs : List Report) : SecData × List Nat :=
  (sortBy id (rs.map (·.num))).foldl (fun acc n =>
    match rs.find? (·.num == n) with
    | none => acc
    | some r => (mergeSec op acc.1 r.data, natUnion acc.2 r.poison)) a

/-! ## Homes and collectors -/

/-- The die whose die cache is the home of a key, or none for memory outside the package (R176). -/
def homeDie (a : Nat) : Option Nat :=
  if a < 2 ^ 41 then some (a / 2 ^ 38) else if 2 ^ 54 ≤ a ∧ a < 2 ^ 55 then some ((a - 2 ^ 54) / 2 ^ 40 % 8) else none

/-- The package of a key of the load-store domain outside this package. -/
def farPackage (a : Nat) : Option Nat :=
  if 2 ^ 51 ≤ a ∧ a < 2 ^ 52 then some ((a - 2 ^ 51) / 2 ^ 41) else none

/-- The lowest ready link port whose peer is the package; the spec leaves the routing open (log 9). -/
def portFor (s : State) (p : Nat) : Option Nat :=
  (List.range 32).find? fun i => (s.port i).ready && (s.port i).peer == p

/-- The die device is ready and not fenced: its memory and cores can be reached (R311, R314). -/
def dieUp (s : State) (d : Nat) : Bool := (s.die d).ready && !(s.die d).fenced

/-- The die is up and its clock runs (R311, R314, R317). -/
def dieGo (s : State) (d : Nat) : Bool := dieUp s d && !(s.die d).stopped

/-- The host path of a die is ready: its own port, or for an odd die the port of the die before it (R14, R311). -/
def hostUp (s : State) (d : Nat) : Bool := (s.die (d / 2 * 2)).hostReady

/-- The key of a die-physical address of die d, or none where the range is absent (R306, R311). -/
def physKey (s : State) (d pa : Nat) : Option Nat :=
  if pa < Config.ddrBytes then some (2 ^ 38 * d + pa)
  else if 0x10000000000 ≤ pa ∧ pa < 0x20000000000 then
    (if hostUp s d then some (2 ^ 64 + (pa - 0x10000000000)) else none)
  else if 0x20000000000 ≤ pa ∧ pa < 0x40000000000 then
    (if hostUp s d then some (2 ^ 53 + (pa - 0x20000000000)) else none)
  else if 0x8000000000000 ≤ pa ∧ pa < 0xC000000000000 then
    let p := (pa - 0x8000000000000) / 2 ^ 41
    let dd := pa / 2 ^ 38 % 8
    let o := pa % 2 ^ 38
    if Config.ddrBytes ≤ o then none
    else if p = fld (s.die d).pkgid 0 9 then (if dd = d then some (2 ^ 38 * d + o) else none)
    else if (portFor s p).isSome then some (2 ^ 51 + 2 ^ 41 * p + 2 ^ 38 * dd + o) else none
  else none

/-- The gather of the home itself. -/
def homeGather : Nat := 2000

/-- Where a holder of a sector reports (R198). -/
def reportsTo (s : State) (k h : Nat) : Nat :=
  match homeDie (64 * k) with
  | some d =>
    if h < 1024 then (if dieOf h = d then homeGather else 1024 + dieOf h)
    else if h < 1032 then 1032 else homeGather
  | none =>
    if h < 1024 then 1024 + dieOf h
    else
      match (farPackage (64 * k)).bind (portFor s) with
      | some i => if h = 1040 + i then homeGather else 1040 + i
      | none => homeGather

/-- A holder's collectors up to the home, at most three; for a sector of another package, up to the port through which its home
is reached. -/
def chainOf (s : State) (k h : Nat) : List Nat :=
  let a := reportsTo s k h
  if a = homeGather then [h] else
  let b := reportsTo s k a
  if b = homeGather then [h, a] else
  let c := reportsTo s k b
  if c = homeGather then [h, a, b] else [h, a, b, c]

/-- Holders and collectors of a sector that report to a collector. -/
def reporters (s : State) (k c : Nat) (copies : List LCopy) : List Nat :=
  (copies.flatMap fun x => (chainOf s k x.num).filter fun h => reportsTo s k h == c).foldl natAdd []

/-! ## Flits -/

/-- The die device that answers for a port's engine: the even one of its two dies, or the odd one where that is not up. -/
def portDie (s : State) (i : Nat) : Nat := if dieUp s (2 * (i / 8)) then 2 * (i / 8) else 2 * (i / 8) + 1

/-- The package's own number, as the die devices of a port's engine hold it (R310). -/
def ownPkg (s : State) (i : Nat) : Nat := fld (s.die (portDie s i)).pkgid 0 9

/-- A key of this package's LPDDR-5X as the load-store domain names it, which is how messages name it (R306; log 20). -/
def wireKey (own key : Nat) : Nat := if key < 2 ^ 41 then 2 ^ 51 + 2 ^ 41 * own + key else key
/-- And back. -/
def localKey (own key : Nat) : Nat := if farPackage key = some own then key - (2 ^ 51 + 2 ^ 41 * own) else key

/-- A message with its key renamed. -/
def mapKey (f : Nat → Nat) : LinkMsg → LinkMsg
  | .read k n => .read (f k) n
  | .write k bs => .write (f k) bs
  | .dirty k d m p => .dirty (f k) d m p
  | .atomic k op w v => .atomic (f k) op w v
  | .latent k op => .latent (f k) op
  | .collect k op => .collect (f k) op
  | .composite k op d p a => .composite (f k) op d p a
  | .signal d n p l t => .signal d n p l t
  | .counted d n => .counted d n
  | .data bs p => .data bs p
  | .other => .other

/-- Sends a message to a package in a data flit, which the retry buffer keeps until it is acknowledged (R308, R309). -/
def sendFlitTo (s : State) (i dest : Nat) (m : LinkMsg) : State :=
  let x := s.port i
  let f : Flit := ⟨x.nextSeq, dest, true, mapKey (wireKey (ownPkg s i)) m⟩
  (s.setPort i { x with nextSeq := (x.nextSeq + 1) % 4096, retry := x.retry ++ [f] }).emit (.linkFlit i f)

/-- Sends a message to the package at the far end of a port. -/
def sendFlit (s : State) (i : Nat) (m : LinkMsg) : State := sendFlitTo s i (s.port i).peer m

/-- A port may send n new data flits: no stop is in force, the retry buffer has room, and nothing waits to leave before them (R309). -/
def flitRoom (x : Port) (n : Nat) : Bool := !x.stopped && x.unsent.isEmpty && x.retry.length + n ≤ Config.linkFlits
def mayFlit (x : Port) : Bool := flitRoom x 1

/-- The port by which a key of another package is reached, if it is one. -/
def farPort (s : State) (key : Nat) : Option Nat := (farPackage key).bind (portFor s)

/-- A key's home is in this package, or the port that reaches it may send n flits (R309). -/
def roomFor (s : State) (key n : Nat) : Bool := (farPort s key).all fun i => flitRoom (s.port i) n

/-- A message to the home of a key in another package goes out (R205, R309). -/
def sendFar (s : State) (key : Nat) (m : LinkMsg) : State :=
  match farPort s key with
  | some i => sendFlit s i m
  | none => s

/-- The message of an access that the device makes itself at a key of another package: it leaves through the link port that reaches
it, or waits there for room (R306, R309). -/
def askFar (s : State) (key : Nat) (m : LinkMsg) : State :=
  match farPort s key with
  | none => s
  | some i => if mayFlit (s.port i) then sendFlit s i m else s.setPort i { s.port i with unsent := (s.port i).unsent ++ [m] }

/-- What waits at a port to leave does so as far as there is room (R309). -/
def sendUnsent (s : State) (i : Nat) : State :=
  let x := s.port i
  let n := if x.stopped then 0 else Config.linkFlits - x.retry.length
  (x.unsent.take n).foldl (fun s m => sendFlit s i m) (s.setPort i { x with unsent := x.unsent.drop n })

/-! ## Poison -/

/-- Marks the granules of poisoned elements of a sector (R299; log 8). -/
def markElems (s : State) (k : Nat) (es : List Nat) : State :=
  { s with poison := es.foldl (fun p e => natAdd p (4 * k + e / 4)) s.poison }

/-- Elements of a sector's home value that stand in poisoned granules. -/
def poisonElems (s : State) (k : Nat) : List Nat :=
  (List.range 16).filter fun e => s.poison.contains (4 * k + e / 4)

/-! ## Fault records without their writing: see Machine/Fault.lean -/

/-- A record with no thread, no launch and no token (R287). -/
def FRec.plain (req cause sub addr : Nat) : FRec :=
  { addr := addr, iter := 0xFFFFFFFF, owner := 0xFFFF, fdom := 0xFFFF, tslot := 0xFFFF, core := 0xFFFF, req := req,
    cause := cause, sub := sub, acc := 7, level := 15, repl := false, team := 0xFFFFFFFF, token := 0, ctx := 0 }

/-- Puts a record with REPL = 0 behind those that the device holds; one too many is counted (R289). -/
def holdRec (d : Die) (r : FRec) : Die :=
  if d.held.length < Config.heldRecords then { d with held := d.held ++ [r] }
  else { d with fqlost := if d.fqlost = 0xFFFFFFFF then d.fqlost else d.fqlost + 1 }

/-- The die-physical address of a key of a die's own LPDDR-5X. -/
def dieAddr (a : Nat) : Nat := if a < 2 ^ 41 then a % 2 ^ 38 else if 2 ^ 54 ≤ a ∧ a < 2 ^ 55 then a % 2 ^ 40 / 2 else a

/-! ## Develop (R197) -/

/-- The event by which a waiting access is served (R197 step 6). -/
def wakeEvent (s : State) (id part : Nat) : Instr :=
  match kvGet s.accs id with
  | some a => (match a.kind with
    | .st _ | .lup _ | .devl | .cwb | .stashWb .. => .pointOfCoherenceReached id part
    | .stashFill .. => .stashFillComplete id
    | _ => .accessComplete id part)
  | none => .accessComplete id part

/-- The holder is a link port that is down (R19, R206). -/
def portDown (s : State) (h : Nat) : Bool := 1040 ≤ h && h < 1072 && !(s.port (h - 1040)).ready

/-- A home in this package writes a record for poison that a merge took in: a copy's error, or a port that was down when it was to
answer (R206, R294). A merge that took in both writes one record, with the SUB of the port (log 115). -/
def reportMerge (s : State) (k : Nat) (rs : List Report) : State :=
  match homeDie (64 * k), rs.filter fun r => r.poison != [] with
  | some d, r :: bad =>
    s.updDie d fun x => holdRec x (FRec.plain 5 0x24 (if (r :: bad).any (·.down) then 2 else 1) (dieAddr (64 * k)))
  | _, _ => s

/-- A request that waited is no longer queued. -/
def unqueue (s : State) : Instr → State
  | .accessComplete id _ | .pointOfCoherenceReached id _ | .stashFillComplete id =>
    match s.acc id with
    | none => s
    | some a => s.setAcc id { a with queued := false }
  | _ => s

/-- The identity composite of an operator. -/
def identSec (op : LupOp) : SecData := secAll (lupIdent op)

/-- What a develop of another package's sector sends to the home: its reports, of which the last answers the home's collect, if it
asked for one (R199, R205). -/
def sendReports (s : State) (k : Nat) (op : LupOp) (asked : Bool) : List Report → State
  | [] => if asked then sendFar s (64 * k) (.composite (64 * k) op (identSec op) [] true) else s
  | [r] => sendFar s (64 * k) (.composite (64 * k) op r.data r.poison asked)
  | r :: rs => sendReports (sendFar s (64 * k) (.composite (64 * k) op r.data r.poison false)) k op asked rs

/-- Flits that these reports take. -/
def reportFlits (rs : List Report) : Nat := max 1 rs.length

/-- The home merges every report and leaves the sector with no holder (R197 step 5, R198, R206). The composite of a sector of
another package goes to its home, and into what this package keeps of it (R199, R205; log 98). -/
def finishDevelop (s : State) (k : Nat) (v : Dev) (rs : List Report) : State :=
  let m := mergeReports v.op (homeSec s k, poisonElems s k) rs
  let s := sendReports s k v.op v.asked rs
  let s := { s with mem := cellPuts s.mem (64 * k) (secGet m.1 0 64), dir := kvDel s.dir k, devs := kvDel s.devs k }
  let s := reportMerge (markElems s k m.2) k rs
  let s := v.waiting.foldl unqueue s
  { s with agenda := v.waiting ++ s.agenda }

/-- A copy as a report. -/
def LCopy.report (c : LCopy) : Report := ⟨c.num, c.data, c.poison, false⟩

/-- What stands for the copies beyond a port that is down: every element is poisoned (R206). -/
def LCopy.lost (c : LCopy) : Report := ⟨c.num, c.data, List.range 16, true⟩

/-- DEVELOP_START: marks the sector developing and sends collects to its direct reporters (R197 steps 1 and 2). -/
def startDevelop (s : State) (k : Nat) : State :=
  match kvGet s.dir k, kvGet s.devs k with
  | some (.latent op copies), none =>
    let rs := reporters s k homeGather copies
    let v : Dev := { op := op, toCollect := rs, flight := [], gathers := [(homeGather, ⟨rs, []⟩)], asked := false, sent := [], waiting := [] }
    if rs = [] then finishDevelop s k v [] else { s with devs := kvPut s.devs k v }
  | _, _ => s

/-- Reports that are on their way to their collectors. -/
def Dev.fly (v : Dev) (h : Nat) (r : Report) : Dev :=
  { v with toCollect := v.toCollect.filter (· != h), sent := v.sent.filter (· != h), flight := v.flight ++ [r] }

/-- COLLECT: a holder surrenders its copy, or a collector collects from its own reporters (R197 steps 2 and 3). The link port
of another package that holds a copy sends the collect on and awaits the composite (R205); one that is down answers with
poison (R206). -/
def doCollect (s : State) (k h : Nat) : State :=
  match kvGet s.devs k, kvGet s.dir k with
  | some v, some (.latent op copies) =>
    if v.toCollect.contains h then
      let rest := v.toCollect.filter (· != h)
      match copies.find? (·.num == h) with
      | some c =>
        let s' := { s with dir := kvPut s.dir k (.latent op (copies.filter (·.num != h))) }
        if h < 1040 then { s' with devs := kvPut s.devs k (v.fly h c.report) }
        else if portDown s h then { s' with devs := kvPut s.devs k (v.fly h c.lost) }
        else if mayFlit (s.port (h - 1040)) then
          sendFlit { s with devs := kvPut s.devs k ({ v with toCollect := rest, sent := v.sent ++ [h] } : Dev) } (h - 1040)
            (.collect (64 * k) op)
        else s
      | none =>
        let rs := reporters s k h copies
        if rs = [] then { s with devs := kvPut s.devs k (v.fly h ⟨h, identSec op, [], false⟩) }
        else
          { s with devs := kvPut s.devs k
                    ({ v with toCollect := rest ++ rs, gathers := kvPut v.gathers h ⟨rs, []⟩ } : Dev) }
    else s
  | _, _ => s

/-- The composite of another package reaches the port that sent the collect (R205), or what stands for it where the link is down. -/
def gotComposite (s : State) (k : Nat) (r : Report) : State :=
  let h := r.num
  match kvGet s.devs k, kvGet s.dir k with
  | some v, some (.latent op copies) =>
    if v.sent.contains h then
      { s with devs := kvPut s.devs k (v.fly h r), dir := kvPut s.dir k (.latent op (copies.filter (·.num != h))) }
    else s
  | _, _ => s

/-- Where a report under way goes: the collector that awaits it, or the home. -/
def Dev.collectorOf (v : Dev) (h : Nat) : Nat := ((v.gathers.find? (·.2.await.contains h)).map (·.1)).getD homeGather

/-- COMPOSITE_REPORT: a report reaches its collector or the home; a collector that has them all forms its composite
(R199), and the home merges (R198). A composite for another package leaves when its port may send (R309); `h` stands for the home
itself where nothing is left to reach it. -/
def doReport (s : State) (k h : Nat) : State :=
  match kvGet s.devs k with
  | none => s
  | some v =>
    match v.flight.find? (·.num == h) with
    | none =>
      let g := kvGetD ⟨[0], []⟩ v.gathers homeGather
      if h = homeGather ∧ g.await = [] ∧ roomFor s (64 * k) (reportFlits g.got) then finishDevelop s k v g.got else s
    | some r =>
      let c := v.collectorOf h
      let flight := v.flight.filter (·.num != h)
      let g := kvGetD ⟨[], []⟩ v.gathers c
      let g : Gather := ⟨g.await.filter (· != h), g.got ++ [r]⟩
      if c = homeGather ∧ g.await = [] ∧ !roomFor s (64 * k) (reportFlits g.got) then s
      else if g.await ≠ [] then
        { s with devs := kvPut s.devs k ({ v with flight := flight, gathers := kvPut v.gathers c g } : Dev) }
      else if c = homeGather then finishDevelop s k { v with flight := flight } g.got
      else
        let m := mergeReports v.op (identSec v.op, []) g.got
        let down := portDown s c
        let bad := if down then List.range 16 else m.2
        { s with devs := kvPut s.devs k
                    ({ v with flight := flight ++ [⟨c, m.1, bad, down || g.got.any (·.down)⟩], gathers := kvDel v.gathers c } : Dev) }

/-- A request for a sector starts the develop of a latent one; true: the sector develops, so the event that makes the request
is undone and waits at the home, which serves it in arrival order (R197; log 88). -/
def mustWait (s : State) (k : Nat) : State × Bool :=
  let s := match kvGet s.dir k with
    | some (.latent ..) => startDevelop s k
    | _ => s
  if (kvGet s.devs k).isSome then ({ s with blocked := natAdd s.blocked k }, true) else (s, false)

/-- A request waits at the home of a sector that develops, under the event that makes it again, in arrival order. -/
def waitAt (s : State) (k : Nat) (i : Instr) : State × Bool :=
  let s := match kvGet s.dir k with
    | some (.latent ..) => startDevelop s k
    | _ => s
  match kvGet s.devs k with
  | none => (s, false)
  | some v =>
    if v.waiting.contains i then (s, true)
    else ({ s with devs := kvPut s.devs k { v with waiting := v.waiting ++ [i] } }, true)

/-! ## Early merges (R201) -/

/-- The composite of the copies that report to a collector directly (R199). -/
def composite (op : LupOp) (n : Nat) (rs : List Report) : Report :=
  let m := mergeReports op (identSec op, []) rs
  ⟨n, m.1, m.2, rs.any (·.down)⟩

/-- What a direct reporter of a collector reports: its copy, or the composite of the copies below it. -/
def subReport (s : State) (k : Nat) (op : LupOp) (copies : List LCopy) (r : Nat) : Report :=
  match copies.find? (fun c => c.num == r) with
  | some c => c.report
  | none => composite op r ((copies.filter fun c => (chainOf s k c.num).contains r).map LCopy.report)

/-- What an evicted holder or collector sends to the home. -/
def evictReport (s : State) (k : Nat) (op : LupOp) (copies : List LCopy) (h : Nat) : Report :=
  match copies.find? (fun c => c.num == h) with
  | some c => c.report
  | none => composite op h ((reporters s k h copies).map (subReport s k op copies))

/-- The home merges a report into the home value at once. That of a sector of another package goes to its home in a flit (R205), and
into what this package keeps of it (log 98). -/
def mergeHome (s : State) (k : Nat) (op : LupOp) (e : Report) : State :=
  let s := sendFar s (64 * k) (.composite (64 * k) op e.data e.poison false)
  let r := mergeReports op (homeSec s k, poisonElems s k) [e]
  reportMerge (markElems { s with mem := cellPuts s.mem (64 * k) (secGet r.1 0 64) } k r.2) k [e]

/-- An early merge of a report: the copies that it took in are gone, and the others stay. -/
def mergeEarly (s : State) (k : Nat) (op : LupOp) (rest : List LCopy) (e : Report) : State :=
  mergeHome { s with dir := kvPut s.dir k (.latent op rest) } k op e

/-- A link port whose composite an eviction needs sends a collect, and the composite that comes back merges early; one that is
down has poison in its place (R201, R206). -/
def evictBeyond (s : State) (k : Nat) (op : LupOp) (copies : List LCopy) (c : LCopy) : State :=
  if portDown s c.num then mergeEarly s k op (copies.filter (·.num != c.num)) c.lost
  else if mayFlit (s.port (c.num - 1040)) then sendFlit s (c.num - 1040) (.collect (64 * k) op)
  else s

/-- The home merges a copy, or a collector's composite of its reporters' copies, into the home value at once: what lies beyond a
link port is collected first. While the sector develops, only an L1's own copy that has not been collected. -/
def doEarlyMerge (s : State) (k h : Nat) : State :=
  match kvGet s.dir k with
  | some (.latent op copies) =>
    let mine := copies.filter fun c => (chainOf s k c.num).contains h
    if mine = [] ∨ !roomFor s (64 * k) 1 ∨ ((kvGet s.devs k).isSome ∧ 1024 ≤ h) then s
    else
      match mine.find? (1040 ≤ ·.num) with
      | some c => evictBeyond s k op copies c
      | none => mergeEarly s k op (copies.filter fun c => !(chainOf s k c.num).contains h) (evictReport s k op copies h)
  | _ => s

/-! ## Ownership -/

/-- An L1 loses E or M of a sector: its bounce counter rises within the window of R211. -/
def loseExcl (s : State) (k : Nat) : Holder → State
  | .stash _ | .hub | .port _ | .walker _ | .host _ => s
  | .l1 g =>
    let c := s.core g
    match kvGet c.obtained k with
    | none => s
    | some t =>
      let c := { c with obtained := kvDel c.obtained k }
      let n := kvGetD 0 c.bc (k / 4)
      s.setCore g (if (s.core g).cyc ≤ t + Config.bounceWindow
        then { c with bc := kvSet 0 c.bc (k / 4) (min 3 (n + 1)) } else c)

/-- A holder's copy of a sector is gone: a stash window has it no more (R173), and what an error did to an L1's unmodified copy
goes with it (R299). -/
def loseCopy (s : State) (k : Nat) : Holder → State
  | .hub | .port _ | .walker _ | .host _ => s
  | .l1 g => if (kvGet (s.core g).l1Poison k).isSome then s.updCore g fun c => { c with l1Poison := kvDel c.l1Poison k } else s
  | .stash t => s.updTeam t fun x => { x with stash := x.stash.filter (·.key != k) }

/-- What goes with an L1's unmodified copy goes; a stash window keeps its own count of sectors (R174). -/
def loseClean (s : State) (k : Nat) : Holder → State
  | .stash _ => s
  | h => loseCopy s k h

/-- A party that holds a sector unmodified gives it up. -/
def dropClean (s : State) (k : Nat) (h : Holder) : State :=
  match kvGet s.dir k with
  | some (.shared hs) =>
    let rest := hs.filter (· != h)
    loseClean { s with dir := if rest = [] then kvDel s.dir k else kvPut s.dir k (.shared rest) } k h
  | some (.excl h') => if h' = h then loseClean { loseExcl s k h with dir := kvDel s.dir k } k h else s
  | _ => s

/-- The latest data of a sector that is not latent: an M copy, or the home value. -/
def secValue (s : State) (k : Nat) : SecData :=
  match kvGet s.dir k with
  | some (.modified _ d) => d
  | _ => homeSec s k

/-- The coherent byte at a key. -/
def State.byteAt (s : State) (a : Nat) : Byte :=
  match kvGet s.dir (a / 64) with
  | some (.modified _ d) => BitVec.ofNat 8 (d.toNat / 2 ^ (8 * (a % 64)))
  | _ => cellGet s.mem a

/-- Writes M data to the home value; poison marks stay with the data. -/
def writeBack (s : State) (k : Nat) (d : SecData) : State := { s with mem := cellPuts s.mem (64 * k) (secGet d 0 64) }

/-- Recalls every copy of a sector to its home; a latent one must develop first. No cache holds it afterwards. Modified data of a
sector of another package goes to its home in a flit (R205). -/
def toHome (s : State) (k : Nat) : State :=
  match kvGet s.dir k with
  | none => s
  | some (.shared hs) => hs.foldl (fun s h => loseCopy s k h) { s with dir := kvDel s.dir k }
  | some (.excl h) => loseCopy (loseExcl { s with dir := kvDel s.dir k } k h) k h
  | some (.modified h d) =>
    let s := sendFar { s with dir := kvDel s.dir k } (64 * k) (.write (64 * k) (secGet d 0 64))
    loseCopy (loseExcl (writeBack s k d) k h) k h
  | some (.latent ..) => (mustWait s k).1

/-- The holder obtains E where nobody else holds a sector that it reads: an L1 or a stash window. The others obtain S
(R197 step 6; log 70). -/
def Holder.takesE : Holder → Bool
  | .l1 _ | .stash _ => true
  | .hub | .port _ | .walker _ | .host _ => false

/-- The directory after a read by a party that keeps a copy, of a sector that is not latent: a modified copy is recalled
(R405), and one that was exclusive stays beside it (log 7). -/
def readState (s : State) (k : Nat) (h : Holder) : State :=
  let alone : Sec := if h.takesE then .excl h else .shared [h]
  match kvGet s.dir k with
  | none => { s with dir := kvPut s.dir k alone }
  | some (.shared hs) => if hs.contains h then s else { s with dir := kvPut s.dir k (.shared (hs ++ [h])) }
  | some (.excl h') => if h = h' then s else { loseExcl s k h' with dir := kvPut s.dir k (.shared [h', h]) }
  | some (.modified h' _) => if h = h' then s else let s := toHome s k; { s with dir := kvPut s.dir k alone }
  | some (.latent ..) => s

/-- The directory after a read by a party without a cache: a modified copy is recalled (R405). -/
def readStateHome (s : State) (k : Nat) : State :=
  match kvGet s.dir k with
  | some (.modified ..) => toHome s k
  | _ => s

/-- A request that must wait for the develop of a sector, if it is latent. -/
def developIf (s : State) (k : Nat) : State := (mustWait s k).1

/-- The slice of a line (R176). -/
def sliceOf (a : Nat) : Nat :=
  (bitsOf a 8 5 ^^^ bitsOf a 13 5) ^^^ (bitsOf a 18 5 ^^^ bitsOf a 23 5)

/-- A request that a home slice serves is counted while HEATBASE.EN is 1; the one that takes the slice's counter from 63
to 0 adds 1, saturating, to the heat counter of its 4 KiB page (R301). -/
def heatTick (s : State) (k : Nat) : State :=
  match homeDie (64 * k) with
  | none => s
  | some d =>
    let x := s.die d
    if fld x.heatbase 0 1 = 0 then s
    else
      let a := dieAddr (64 * k)
      let n := kvGetD 0 x.heat (sliceOf a)
      if n < 63 then s.setDie d { x with heat := kvPut x.heat (sliceOf a) (n + 1) }
      else
        let s := s.setDie d { x with heat := kvPut x.heat (sliceOf a) 0 }
        match physKey s d (fld x.heatbase 12 40 * 4096 + 2 * (a / 4096)) with
        | none => s
        | some c =>
          let s := toHome s (c / 64)
          let bs := leBytes 2 (min 0xFFFF (ofLe (cellGets s.mem c 2) + 1))
          askFar (askFar (writeHome s c bs) c (.read c 2)) c (.write c bs)

/-- Whether a request allocates a line in the die cache: not at all, at the lowest replacement priority, or as a normal one
(R178, R179). -/
inductive Alloc | no | low | normal
deriving DecidableEq, Repr

/-- What a slice of a die cache holds of a die's lines and replicas: its lines, and the replicas by launch and line. -/
def sliceLines (x : Die) (slice : Nat) : List Nat :=
  (x.lines.filter fun l => sliceOf (dieAddr (256 * l.1)) == slice).map (·.1)
def sliceReplicas (x : Die) (slice : Nat) : List (Nat × Nat) :=
  ((x.replicas.filter (·.slice == slice)).map fun r => (r.launch, r.key / 4)).eraseDups

/-- A slice whose lines are all in use gives one up for a new one: a replica, which the device may drop at any time (R180), else a
line at the lowest replacement priority, else the first (R178; log 89). -/
def makeRoom (x : Die) (slice : Nat) : Die :=
  let mine := sliceLines x slice
  let reps := sliceReplicas x slice
  if mine.length + reps.length < Config.sliceLines then x
  else
    match reps with
    | r :: _ => { x with replicas := x.replicas.filter fun y => !(y.slice == slice && y.launch == r.1 && y.key / 4 == r.2) }
    | [] =>
      let low := mine.find? fun l => (kvGet x.lines l).any (·.low)
      { x with lines := kvDel x.lines (low.getD (mine.headD 0)) }

/-- The die cache of a sector's home allocates its line (R176, R178). -/
def allocLine (s : State) (k : Nat) (a : Alloc) : State :=
  match homeDie (64 * k) with
  | none => s
  | some d =>
    if a = .no then s
    else
      s.updDie d fun x =>
        let line := k / 4
        let old := kvGet x.lines line
        let x := if old.isSome then x else makeRoom x (sliceOf (dieAddr (256 * line)))
        { x with lines := kvPut x.lines line ⟨natAdd ((old.map (·.secs)).getD []) (k % 4), a == .low⟩ }

/-- The cache holds the sector. -/
def heldBy (s : State) (k : Nat) (h : Holder) : Bool :=
  match kvGet s.dir k with
  | some (.shared hs) => hs.contains h
  | some (.excl h') | some (.modified h' _) => h == h'
  | _ => false

/-- The states of R190. -/
inductive SecState | i | s | e | m | l
deriving DecidableEq, Repr

/-- The state of a sector in an L1, a stash window, or another party that reads. -/
def holderState (s : State) (k : Nat) (h : Holder) : SecState :=
  match kvGet s.dir k, h with
  | some (.shared hs), _ => if hs.contains h then .s else .i
  | some (.excl h'), _ => if h' = h then .e else .i
  | some (.modified h' _), _ => if h' = h then .m else .i
  | some (.latent _ cs), .l1 g => if cs.any (·.num == g) then .l else .i
  | _, _ => .i

/-- The state of a sector in the cache with a number (R19, R190; log 117): an L1; a die cache that collects for another home, and the
hub, which stand for the composite of what reports to them (R198, R201). The die cache of the sector's own die is the home itself and
holds no copy (R19). -/
def cacheState (s : State) (k n : Nat) : SecState :=
  let below : Bool := match kvGet s.dir k with
    | some (.latent _ cs) => cs.any fun c => c.num != n && (chainOf s k c.num).contains n
    | _ => false
  if n < 1024 then holderState s k (.l1 n)
  else if below then .l
  else if n = 1032 then holderState s k .hub
  else .i

/-- The party reaches the sector through a peer window: it stands on another die of the package than the home. -/
def peerOf (k : Nat) (h : Holder) : Bool := (homeDie (64 * k)).any fun e => h.num < 1024 && dieOf h.num != e

/-- Lines of which the hub cache holds a sector (R177). -/
def hubLines (s : State) : List Nat :=
  ((s.dir.filter fun e => match e.2 with
    | .shared hs => hs.contains .hub
    | _ => false).map (·.1 / 4)).eraseDups

/-- The hub keeps an S copy of a sector that importers share; when its lines are all in use it drops one (R12, R177). -/
def hubKeep (s : State) (k : Nat) : State :=
  match kvGet s.dir k with
  | some (.shared hs) =>
    if hs.contains .hub then s
    else
      let s := { s with dir := kvPut s.dir k (.shared (hs ++ [.hub])) }
      match hubLines s with
      | [] => s
      | l :: ls =>
        if ls.length < Config.hubLines then s
        else (List.range 4).foldl (fun s i => dropClean s (4 * l + i) .hub) s
  | _ => s

/-- The poisoned granules of a sector's home value, by their place in it. -/
def homeMarks (s : State) (k : Nat) : List Nat := (List.range 4).filter fun q => s.poison.contains (4 * k + q)

/-- An L1 that has read a sector from its home holds the data with the marks that it had there (R299). -/
def fillMarks (s : State) (k : Nat) : Holder → State
  | .l1 g =>
    let qs := homeMarks s k
    if qs = [] then s else s.updCore g fun c => { c with l1Poison := kvPut c.l1Poison k qs }
  | _ => s

/-- A plain read by a party: a latent sector is developed, a modified copy recalled; a party `who` keeps a copy, E if it is the
only one (R196, R405; log 7). What the hub cache holds it serves in the home's place
(R177). -/
def readFor (s : State) (k : Nat) (who : Option Holder) : State :=
  match who with
  | none => readStateHome (developIf (heatTick s k) k) k
  | some h =>
    if heldBy s k h then s
    else if peerOf k h then
      fillMarks (hubKeep (readState (developIf (if heldBy s k .hub then s else heatTick s k) k) k h) k) k h
    else fillMarks (readState (developIf (heatTick s k) k) k h) k h

/-- The marks of an L1's own copy stay with the data when the L1 modifies it, and what became of the home value since does not count
for it (R299). -/
def keepMarks (s : State) (k : Nat) : Holder → State
  | .l1 g =>
    match kvGet s.dir k with
    | some (.excl _) =>
      let qs := kvGetD [] (s.core g).l1Poison k
      loseCopy { s with poison := qs.foldl (fun p q => natAdd p (4 * k + q)) (s.poison.filter (· / 4 != k)) } k (.l1 g)
    | _ => s
  | _ => s

/-- A plain store: with a cache, it obtains ownership and leaves it in M; without, it is performed at the home. -/
def storeFor (s : State) (k : Nat) (who : Option Holder) (off : Nat) (bs : List Byte) : State :=
  match who with
  | none => writeHome (toHome (heatTick s k) k) (64 * k + off) bs
  | some h =>
    let own := match kvGet s.dir k with
      | some (.modified h' _) | some (.excl h') => h == h'
      | _ => false
    let s := keepMarks (if own then s else toHome (heatTick s k) k) k h
    { s with dir := kvPut s.dir k (.modified h (secPut (secValue s k) off bs)),
             poison := clearPoison s.poison (64 * k + off) bs.length }

/-- The pieces of n bytes from a key: sector, offset in the sector, offset in the access, length (R162). -/
def sectorsOf (a n : Nat) : List (Nat × Nat × Nat × Nat) :=
  (List.range ((a % 64 + n + 63) / 64)).map fun i =>
    let k := a / 64 + i
    let lo := max a (64 * k)
    (k, lo - 64 * k, lo - a, min (a + n) (64 * k + 64) - lo)

/-- A plain read of n bytes by a party. -/
def readBy (s : State) (who : Option Holder) (a n : Nat) : State × List Byte :=
  (sectorsOf a n).foldl (fun r p =>
    let s := readFor r.1 p.1 who
    (s, r.2 ++ (List.range p.2.2.2).map fun i => s.byteAt (64 * p.1 + p.2.1 + i))) (s, [])

/-- A plain read of n bytes by a party without a cache. -/
def readHome (s : State) (a n : Nat) : State × List Byte := readBy s none a n

/-- A plain write of bytes by a party without a cache. -/
def storeHome (s : State) (a : Nat) (bs : List Byte) : State :=
  (sectorsOf a bs.length).foldl (fun s p => storeFor s p.1 none p.2.1 ((bs.drop p.2.2.1).take p.2.2.2)) s

end Sys2Proof.Machine
end

