-- ==== Sys2Proof/Machine/Fault.lean ====
section
/-! DEFINITION. Die-physical accesses, launch-record fields, and fault records (spec 12 R287-R294). -/
namespace Sys2Proof.Machine

/-! ## Die-physical accesses -/

/-- Reads n bytes at a die-physical address, as a party without a cache; absent memory reads nothing. -/
def readPlain (s : State) (d pa n : Nat) : State × Option (List Byte) :=
  match physKey s d pa with
  | none => (s, none)
  | some a => let r := readHome s a n; (r.1, some r.2)

/-- The device's own read of n bytes at a die-physical address; one of another package leaves through a link port (R306). -/
def readPhys (s : State) (d pa n : Nat) : State × Option (List Byte) :=
  readPlain (match physKey s d pa with
    | none => s
    | some a => askFar s a (.read a n)) d pa n

/-- The device's own write of bytes at a die-physical address (R306). -/
def storePhys (s : State) (d pa : Nat) (bs : List Byte) : State :=
  match physKey s d pa with
  | none => s
  | some a => askFar (storeHome s a bs) a (.write a bs)

/-! ## Launch records (R59, R60, R66) -/

/-- A field of the launch record. -/
def Launch.get (l : Launch) (lo n : Nat) : Nat := fld l.record lo n
/-- A field of the kernel image header. -/
def Launch.head (l : Launch) (lo n : Nat) : Nat := fld l.header lo n
def Launch.kimg (l : Launch) : Nat := l.get 512 64
def Launch.actx (l : Launch) : Nat := l.get 576 16
def Launch.teamg (l : Launch) : Nat := l.get 592 8
def Launch.nregs (l : Launch) : Nat := l.get 600 8
def Launch.nkregs (l : Launch) : Nat := l.get 608 8
def Launch.ntiles (l : Launch) : Nat := l.get 616 8
def Launch.spadk (l : Launch) : Nat := l.get 624 16
def Launch.pclass (l : Launch) : Bool := l.get 640 1 == 1
def Launch.trapblk (l : Launch) : Nat := l.get 656 16
def Launch.cbend (l : Launch) : Nat := l.get 672 16
def Launch.cben (l : Launch) : Bool := l.get 688 1 == 1
def Launch.gridt (l : Launch) : Nat := l.get 704 32
def Launch.phint (l : Launch) : Nat := l.get 736 32
def Launch.crec (l : Launch) : Nat := l.get 768 64
def Launch.savea (l : Launch) : Nat := l.get 832 64
/-- Format slot i (R68). -/
def Launch.fslot (l : Launch) (i : Nat) : BitVec 128 := BitVec.ofNat 128 (l.get (2048 + 128 * i) 128)
/-- Virtual address of the code (R67). -/
def Launch.code (l : Launch) : Nat := l.kimg + l.head 320 64
/-- Packets of the code (R67). -/
def Launch.packets (l : Launch) : Nat := l.head 384 64 / 16
/-- REGS, SCRATCH, SLOTS of the kernel (R67). -/
def Launch.regs (l : Launch) : Nat := l.head 192 8
def Launch.scratch (l : Launch) : Nat := l.head 256 32
def Launch.slots (l : Launch) : Nat := l.head 224 8
/-- Registers reserved for a thread: NREGS rounded up to a multiple of 8 (R72). -/
def Launch.nround (l : Launch) : Nat := (l.nregs + 7) / 8 * 8

/-- The headers from the launch up to the root, as the die scheduler last read them. A node on the way that a later reading ignores or
does not reach is left out: the spec does not say what it is to a launch that still runs below it (R60; log 122). -/
def pathHdrs (s : State) (l : Launch) : List (Nat × BitVec 512) :=
  (l.addr, BitVec.ofNat 512 (l.get 0 512)) :: l.up.filterMap fun a =>
    ((s.die l.die).nodes.find? (·.addr == a)).map fun n => (a, BitVec.ofNat 512 (fld n.hdr 0 512))

/-- A field with inheritance: the nearest header whose INH bit is clear; the root holds every field (R60). -/
def inherited (hs : List (Nat × BitVec 512)) (bit lo n : Nat) : Nat :=
  match hs with
  | [] => 0
  | [h] => fld h.2 lo n
  | h :: hs => if fld h.2 (32 + bit) 1 = 0 then fld h.2 lo n else inherited hs bit lo n

/-- The domain node: the nearest with INH bit 1 clear (R60). -/
def domainNode (hs : List (Nat × BitVec 512)) : Option (Nat × BitVec 512) :=
  match hs.find? (fun h => fld h.2 33 1 == 0) with
  | some h => some h
  | none => hs.getLast?

/-- PRIO, FDOM and FDACT of a launch. -/
def prioOf (s : State) (l : Launch) : Nat := inherited (pathHdrs s l) 0 4 4
def fdomOf (s : State) (l : Launch) : Nat := inherited (pathHdrs s l) 1 48 16
def fdactOf (s : State) (l : Launch) : Nat := inherited (pathHdrs s l) 1 10 2

/-! ## Fault records -/

/-- The 32 bytes of a record (R287). -/
def FRec.bytes (r : FRec) : List Byte :=
  leBytes 4 r.team ++
  leBytes 4 ((if r.repl then 1 else 0) + 2 * (r.level % 16) + 32 * (r.acc % 8) + 256 * (r.sub % 256) +
    2 ^ 16 * (r.cause % 256) + 2 ^ 24 * (r.req % 256)) ++
  leBytes 2 r.core ++ leBytes 2 r.tslot ++ leBytes 4 r.token ++ leBytes 2 r.fdom ++ leBytes 2 r.owner ++
  leBytes 4 r.iter ++ leBytes 8 r.addr

/-- Records that the fault queue holds: 2^LOG (R115). -/
def fqSize (d : Die) : Nat := 2 ^ (max 4 (min 20 (fld d.fqbase 0 5)))

/-- The event that writes the records held: the report of nobody reaches a home. -/
def flushEvent (k : Nat) : Instr := .compositeReport k homeGather

/-- The write of a record waits for the sector that the queue's next entry lies in (R197). -/
def recordWaits (s : State) (d pa : Nat) : State × Bool :=
  match physKey s d pa with
  | none => (s, false)
  | some key => waitAt s (key / 64) (flushEvent (key / 64))

/-- Writes held records while the queue has room, and takes unwritten ones into the buffer (R289). -/
def flushFq (s : State) (d : Nat) : (fuel : Nat) → State
  | 0 => s
  | fuel + 1 =>
    let x := s.die d
    match x.held with
    | [] => s
    | r :: held =>
      if (x.fqtail - x.fqhead).toNat = fqSize x then s
      else
        let pa := fld x.fqbase 12 40 * 4096 + 32 * (x.fqtail.toNat % fqSize x)
        let w := recordWaits s d pa
        if w.2 then w.1
        else
          let s := storePhys w.1 d pa r.bytes
          let s := s.updDie d fun x =>
            let x := { x with held := held, fqtail := x.fqtail + 1 }
            match x.unwritten with
            | [] => x
            | u :: us =>
              { x with held := x.held ++ [{ u.fault with token := x.nextTok }], unwritten := us, nextTok := x.nextTok % 0xFFFFFFFF + 1,
                       tokens := kvPut x.tokens x.nextTok { u with fault := { u.fault with token := x.nextTok } } }
          flushFq (s.emit (.msix d 0)) d fuel

/-- Writes what can be written of the records that a die holds. -/
def flush (s : State) (d : Nat) : State := flushFq s d 5000

/-- Writes a record with REPL = 0 (R289). -/
def report (s : State) (d : Nat) (r : FRec) : State := flush (s.updDie d fun x => holdRec x r) d

/-- Two faults merge under one token (R290). -/
def mergeable (r : FRec) (t : Token) : Bool :=
  r.req == 0 && t.fault.req == 0 && r.owner == 0xFFFF && t.fault.owner == 0xFFFF && r.ctx == t.fault.ctx &&
  r.addr / 4096 == t.fault.addr / 4096 && r.cause == t.fault.cause && r.acc == t.fault.acc

/-- Raises a replayable fault: parks the requester on a token, merged or fresh (R289, R290). -/
def park (s : State) (d : Nat) (r : FRec) (who : Parked) : State :=
  let x := s.die d
  let r := { r with repl := true }
  match x.tokens.find? (fun t => mergeable r t.2) with
  | some t => s.setDie d { x with tokens := kvPut x.tokens t.1 { t.2 with who := t.2.who ++ [who] } }
  | none =>
    if x.held.length < Config.heldRecords then
      let r := { r with token := x.nextTok }
      flush (s.setDie d { x with held := x.held ++ [r], nextTok := x.nextTok % 0xFFFFFFFF + 1,
                                 tokens := kvPut x.tokens x.nextTok ⟨r, [who]⟩ }) d
    else s.setDie d { x with unwritten := x.unwritten ++ [⟨r, [who]⟩] }

/-- A requester is parked on a fault of a die (R36). -/
def isParked (s : State) (d : Nat) (who : Parked) : Bool :=
  (s.die d).tokens.any (fun t => t.2.who.contains who) || (s.die d).unwritten.any (fun t => t.who.contains who)

/-- Takes a requester off every token; a token with nobody left is no longer outstanding (R291, R80). A record that waits unwritten
for its requester alone is dropped with it: it has no token to cancel, and nobody could replay it (log 109). -/
def unpark (s : State) (d : Nat) (who : Parked) : State :=
  if isParked s d who then
    s.updDie d fun x =>
      { x with
        tokens := (x.tokens.map fun t => (t.1, { t.2 with who := t.2.who.filter (· != who) })).filter (·.2.who != []),
        unwritten := (x.unwritten.map fun t => { t with who := t.who.filter (· != who) }).filter (·.who != []) }
  else s

/-- Some part of an access is parked on a fault of a die. -/
def accParked (s : State) (d id : Nat) : Bool :=
  let mine (w : Parked) : Bool := match w with
    | .access i _ => i == id
    | _ => false
  (s.die d).tokens.any (fun t => t.2.who.any mine) || (s.die d).unwritten.any (fun t => t.who.any mine)

/-- Takes every part of an access off the die's tokens. -/
def unparkAcc (s : State) (d id parts : Nat) : State :=
  (List.range parts).foldl (fun s i => unpark s d (.access id i)) s

end Sys2Proof.Machine
end

