-- ==== Sys2Proof/Machine/Xlate.lean ====
section
/-! DEFINITION. Address contexts, the page walk, permissions, TLBs, peer windows and compressed pages (spec 12
R277-R286, 07 R161, R181-R189). -/
namespace Sys2Proof.Machine

/-- What an access does, for permissions (R284). -/
inductive Xacc | rd | wr | rmw | fetch | lup
deriving DecidableEq, Repr

/-- ACC of a fault record (R287). -/
def Xacc.code : Xacc → Nat
  | .rd => 0
  | .wr => 1
  | .rmw => 2
  | .lup => 3
  | .fetch => 4

/-- The access writes (R284). -/
def Xacc.writes : Xacc → Bool
  | .wr | .rmw | .lup => true
  | _ => false

/-- A translation: the key of the byte, and the leaf that gave it. -/
structure Trans where
  key : Nat
  pte : DWord
deriving DecidableEq, Repr

/-- A translation, or a fault with its CAUSE, SUB and walk level (R294); or a wait for the develop of a sector that the walk
reads (R197). -/
inductive Xres
  | ok (t : Trans)
  | bad (cause sub level : Nat)
  | wait
deriving DecidableEq, Repr

/-- Fields of a leaf (R279). -/
def Trans.ord (t : Trans) : Nat := fld t.pte 4 2
def Trans.hv (t : Trans) : Bool := fld t.pte 6 1 == 1
def Trans.lat (t : Trans) : Bool := fld t.pte 7 1 == 1
def Trans.cmp (t : Trans) : Bool := fld t.pte 8 1 == 1
def Trans.peer (t : Trans) : Bool := fld t.pte 56 1 == 1
def Trans.pol (t : Trans) : Nat := fld t.pte 57 2
/-- The place of an access is kept in no cache: policy 10 (R178). -/
def Trans.uncached (t : Trans) : Bool := t.pol == 2
/-- How a request for the place allocates in the die cache (R178). -/
def Trans.alloc (t : Trans) : Alloc := if t.pol = 2 then .no else if t.pol = 1 then .low else .normal

/-- Bits [63:57] all equal bit 56 (R161). -/
def canonical (va : Nat) : Bool := let hi := va / 2 ^ 56 % 256; hi == 0 || hi == 255

/-- Every byte of an access obeys that rule: its first and its last do (log 45). -/
def canonicalAll (va n : Nat) : Bool := canonical va && canonical ((va + n - 1) % 2 ^ 64)

/-- An address context of a die (R277). -/
def Die.ctx (d : Die) (c : Nat) : Ctx := kvGetD Ctx.reset d.ctxs c

/-- The address lies in an enabled non-coherent window of the context (R207). -/
def inNcWindow (d : Die) (c va : Nat) : Bool :=
  let x := d.ctx c
  let page := va / 4096 % 2 ^ 45
  (List.range 16).any fun i =>
    let b := kvGetD 0 x.ncwb i
    let e := kvGetD 0 x.ncwl i
    fld b 0 1 == 1 && fld b 12 45 ≤ page && page ≤ fld e 12 45

/-- log2 of the leaf size at a level (R278). -/
def leafLog (lvl : Nat) : Nat := 12 + 9 * lvl

/-- Entries of an export or import table (R189). -/
def tableSize (base : DWord) : Nat := 2 ^ min 16 (fld base 0 5)
/-- Base of an export or import table. -/
def tableBase (base : DWord) : Nat := fld base 12 40 * 4096

/-- The handle at an import index, or none outside the table (R187). -/
def importHandle (s : State) (d idx : Nat) : State × Option DWord :=
  let b := (s.die d).imptbase
  if tableSize b ≤ idx then (s, none)
  else
    let r := readPhys s d (tableBase b + 8 * idx) 8
    (r.1, r.2.map fun bs => BitVec.ofNat 64 (ofLe bs))

/-- The frame lies in the LPDDR-5X of some die of the load-store domain (R195). -/
def latFrame (pa : Nat) : Bool :=
  pa < Config.ddrBytes || (0x8000000000000 ≤ pa && pa < 0xC000000000000 && pa % 2 ^ 38 < Config.ddrBytes)

/-- The checks of R281 that need no table but the import table; true when the leaf is reserved. -/
def leafReserved (e : DWord) (lvl idx : Nat) (handle : Option DWord) : Bool :=
  let pv := fld e 56 1 == 1
  let pdie := fld e 52 4
  let cmp := fld e 8 1 == 1
  let ch := fld e 9 1 == 1
  let off := if pv then fld e 12 24 else fld e 12 40
  let below := off % 2 ^ (leafLog lvl - 12) != 0
  3 ≤ lvl || fld e 59 5 != 0 || fld e 4 2 == 3 || fld e 57 2 == 3 || below ||
  (!pv && pdie != 0) ||
  (pv && (8 ≤ pdie || (match handle with
    | none => true
    | some h => fld h 61 3 != pdie))) ||
  (cmp && (fld e 7 1 == 1 || pv || 2 ≤ fld e 57 2 || (lvl == 0 && !ch))) ||
  (fld e 7 1 == 1 && !pv && !latFrame (off * 4096)) ||
  (ch && off / 2 ^ (leafLog lvl - 12) % 16 != idx % 16)

/-- A walk's end: a leaf with its level and the key of its entry, a fault, or a wait for a develop. -/
inductive Walk
  | leaf (e : DWord) (lvl key : Nat)
  | bad (cause sub level : Nat)
  | wait
deriving DecidableEq, Repr

/-- A die-physical address of the die's own LPDDR-5X, under either of its ranges (R306). -/
def ownAddr (s : State) (d pa : Nat) : Bool := (physKey s d pa).any fun k => k / 2 ^ 38 == d

/-! ## Clocks that stand still (R317) -/

/-- Some die's clock, or the hub's, is stopped. -/
def anyStopped (s : State) : Bool := s.hubStopped || s.dies.any fun d => d.2.stopped

/-- The die on which a cache with the number stands, the hub as 8 (R19). -/
def placeOf (n : Nat) : Option Nat :=
  if n < 1024 then some (dieOf n) else if n < 1032 then some (n - 1024) else if n = 1032 then some 8 else none

/-- The clock of a die, or of the hub as number 8, is stopped. -/
def clockStopped (s : State) (die : Nat) : Bool := if die = 8 then s.hubStopped else (s.die die).stopped

/-- A cache with the number stands still. -/
def cacheStill (s : State) (n : Nat) : Bool := (placeOf n).any (clockStopped s)

/-- Numbers of the caches that must answer for a sector. -/
def holderNums (s : State) (k : Nat) : List Nat :=
  match kvGet s.dir k with
  | none => []
  | some (.shared hs) => hs.map (·.num)
  | some (.excl h) | some (.modified h _) => [h.num]
  | some (.latent _ cs) => cs.map (·.num)

/-- The dies that a request of die d for a key needs: its home, the dies of the caches that must answer, and the hub where one of
them is another die than the home or the request comes from another die. -/
def needs (s : State) (d key : Nat) : List Nat :=
  let ps := (holderNums s (key / 64)).filterMap placeOf
  match homeDie key with
  | none => ps
  | some e => [e] ++ ps ++ (if e != d || ps.any (· != e) then [8] else [])

/-- What a request needs and stands still. -/
def keyStill (s : State) (d key : Nat) : Option Nat := if anyStopped s then (needs s d key).find? (clockStopped s) else none

/-- A request of die d for a key waits. -/
def keyWaits (s : State) (d key : Nat) : Bool := (keyStill s d key).isSome

/-! ## Walks -/

/-- One entry of a walk, a plain read of the die's walker: the walk's end, or the next table (R278, R280). The tables are read where
PTBASE.ROOT says, in whatever range that is; where nothing answers, the range is absent (log 106). -/
def walkEntry (s : State) (d va t lvl : Nat) : State × (Walk ⊕ Nat) :=
  let idx := va / 2 ^ leafLog lvl % 512
  match physKey s d (t + 8 * idx) with
  | none => (s, .inl (.bad 0x16 0 lvl))
  | some key =>
    let m := mustWait s (key / 64)
    if m.2 || keyWaits m.1 d key then (m.1, .inl .wait) else
    let r := readBy (askFar m.1 key (.read key 8)) (some (.walker d)) key 8
    let s := r.1
    let e : DWord := BitVec.ofNat 64 (ofLe r.2)
    if fld e 0 1 = 0 then (s, .inl (.bad 0x10 lvl lvl))
    else if fld e 3 1 = 1 then
      let h := if fld e 56 1 = 1 then importHandle s d (fld e 36 16) else (s, none)
      (h.1, .inl (if leafReserved e lvl idx h.2 then .bad 0x13 lvl lvl else .leaf e lvl key))
    else if lvl = 0 ∨ fld e 52 12 ≠ 0 ∨ fld e 4 8 ≠ 0 ∨ fld e 1 2 ≠ 0 ∨ !ownAddr s d (fld e 12 40 * 4096)
      then (s, .inl (.bad 0x13 lvl lvl))
    else (s, .inr (fld e 12 40 * 4096))

/-- The region of a context that a table of a level maps. -/
def regionOf (va lvl : Nat) : Nat := va % 2 ^ 57 / 2 ^ (leafLog lvl + 9)

/-- The walk cache's pointer to the table of a level, if the device uses it (R285; log 3). -/
def cachedTable (s : State) (d c va lvl : Nat) : State × Option Nat :=
  match (s.die d).walkc.find? fun x => x.ctx == c && x.lvl == lvl && x.region == regionOf va lvl with
  | none => (s, none)
  | some x => let r := s.choose; (r.1, if r.2 then some x.table else none)

/-- Appends an entry to a cache of n entries, which drops its oldest one when it is full. -/
def cacheAdd {α : Type} [BEq α] (n : Nat) (l : List α) (x : α) : List α :=
  if l.contains x then l else (if l.length < n then l else l.drop 1) ++ [x]

/-- The pointer to a table enters the walk cache. -/
def keepTable (s : State) (d c va lvl t : Nat) : State :=
  s.updDie d fun x => { x with walkc := cacheAdd Config.walkCache x.walkc ⟨c, lvl, regionOf va lvl, t⟩ }

/-- The walk from a table downwards (R278, R280, R281, R285). -/
def walkFrom (s : State) (d c va t : Nat) : (lvl : Nat) → State × Walk
  | 0 =>
    match walkEntry s d va t 0 with
    | (s, .inl w) => (s, w)
    | (s, .inr _) => (s, .bad 0x13 0 0)
  | lvl + 1 =>
    match cachedTable s d c va lvl with
    | (s, some t') => walkFrom s d c va t' lvl
    | (s, none) =>
      match walkEntry s d va t (lvl + 1) with
      | (s, .inl w) => (s, w)
      | (s, .inr t') => walkFrom (keepTable s d c va lvl t') d c va t' lvl

/-- A whole walk in a context (R277, R278). -/
def walk (s : State) (d c va : Nat) : State × Walk :=
  let b := ((s.die d).ctx c).ptbase
  if fld b 0 1 = 0 then (s, .bad 0x10 4 4) else walkFrom s d c va (fld b 12 40 * 4096) 4

/-- What the tables hold for an address, without a walk's effects: nothing is cached. -/
def walkNow (s : State) (d c va : Nat) : Walk := (walk (s.updDie d fun x => { x with walkc := [] }) d c va).2

/-- The cached translation that a leaf gives for an address: one leaf, or the run of 16 under CH (R282). -/
def tlbOf (c va : Nat) (e : DWord) (lvl : Nat) : Tlb :=
  let size := 2 ^ leafLog lvl
  let pv := fld e 56 1 == 1
  let off := (if pv then fld e 12 24 else fld e 12 40) * 4096
  let va := va % 2 ^ 57
  if fld e 9 1 = 1 then
    { ctx := c, va := va / (16 * size) * (16 * size), size := 16 * size, base := off - va / size % 16 * size, pte := e, lvl := lvl }
  else { ctx := c, va := va / size * size, size := size, base := off, pte := e, lvl := lvl }

/-- The permissions of R284 and R195 that a leaf decides. -/
def permits (s : State) (d c va : Nat) (e : DWord) (a : Xacc) : Option (Nat × Nat) :=
  match a with
  | .rd => none
  | .fetch => if fld e 2 1 = 1 then none else some (0x11, 2)
  | .wr | .rmw => if fld e 1 1 = 1 then none else some (0x11, 1)
  | .lup =>
    if fld e 1 1 = 0 ∨ fld e 7 1 = 0 then some (0x12, 1)
    else if 2 ≤ fld e 57 2 then some (0x12, 2)
    else if inNcWindow (s.die d) c va then some (0x12, 3)
    else none

/-- The exporter's check of a peer access (R188), and the die-physical address it reaches. Reserved fields of the entry are
ignored (log 91); a table that cannot be read holds no entry (log 93); an LUP is R195's (log 39). -/
def peerCheck (s : State) (e : Nat) (h : DWord) (off : Nat) (a : Xacc) : State × Except (Nat × Nat) Nat :=
  let b := (s.die e).exptbase
  let idx := fld h 0 16
  if tableSize b ≤ idx then (s, .error (0x14, 1))
  else
    let r := readPhys s e (tableBase b + 32 * idx) 32
    match r.2 with
    | none => (r.1, .error (0x14, 1))
    | some bs =>
      let x : BitVec 256 := BitVec.ofNat 256 (ofLe bs)
      if fld x 0 1 = 0 ∨ fld x 35 29 ≠ fld h 32 29 ∨ fld x 19 16 ≠ fld h 16 16 then (r.1, .error (0x14, 1))
      else if fld x 64 64 ≤ off then (r.1, .error (0x14, 2))
      else if a = .lup ∧ (fld x 1 1 = 0 ∨ fld x 2 1 = 0) then (r.1, .error (0x12, 4))
      else if a.writes ∧ fld x 1 1 = 0 then (r.1, .error (0x14, 3))
      else (r.1, .ok (fld x 128 64 + off))

/-- Where a cached translation sends an address: the key, or a fault (R181, R187, R188, R293). A peer's address outside its
LPDDR-5X, and a compressed line outside it, are absent (log 93, 19). -/
def place (s : State) (d va : Nat) (t : Tlb) (a : Xacc) : State × Xres :=
  let off := va % 2 ^ 57 - t.va
  if fld t.pte 56 1 = 1 then
    let e := fld t.pte 52 4
    let h := importHandle s d (fld t.pte 36 16)
    match h.2 with
    | none => (h.1, .bad 0x13 t.lvl t.lvl)
    | some h' =>
      if !dieUp h.1 e || !h.1.hubReady then (h.1, .bad 0x16 0 15)
      else
        let r := peerCheck h.1 e h' (t.base + off) a
        match r.2 with
        | .error (c, sub) => (r.1, .bad c sub 15)
        | .ok pa =>
          if pa < Config.ddrBytes then (r.1, .ok ⟨2 ^ 38 * e + pa, t.pte⟩) else (r.1, .bad 0x16 0 15)
  else if fld t.pte 8 1 = 1 then
    (match physKey s d t.base with
      | some k =>
        if k / 2 ^ 38 = d ∧ k % 2 ^ 38 + t.size / 2 ≤ Config.ddrBytes then
          (s, .ok ⟨2 ^ 54 + 2 ^ 40 * d + 2 * (k % 2 ^ 38) + off, t.pte⟩)
        else (s, .bad 0x16 0 15)
      | none => (s, .bad 0x16 0 15))
  else
    match physKey s d (t.base + off) with
    | none => (s, .bad 0x16 0 15)
    | some k => (s, .ok ⟨k, t.pte⟩)

/-- Sets A, and D for a write, in the walked entry (R283). -/
def setAd (s : State) (key : Nat) (e : DWord) (a : Xacc) : State × DWord :=
  let e' := setFld (if a.writes then setFld e 11 1 1 else e) 10 1 1
  if e' = e then (s, e) else (askFar (storeHome s key (leBytes 8 e'.toNat)) key (.write key (leBytes 8 e'.toNat)), e')

/-- The translation covers an address of a context. -/
def Tlb.covers (t : Tlb) (c va : Nat) : Bool :=
  t.ctx == c && t.va ≤ va % 2 ^ 57 && va % 2 ^ 57 < t.va + t.size

/-- Drops cached translations of an address that faulted from every TLB of the die (R285). -/
def dropTlb (s : State) (d c va : Nat) : State :=
  let out (l : List Tlb) : List Tlb := l.filter fun t => !t.covers c va
  let s := s.updDie d fun x => { x with tlb := out x.tlb }
  { s with cores := s.cores.map fun y => if dieOf y.1 = d then (y.1, { y.2 with tlb := out y.2.tlb }) else y }

/-- What a translation gives an access: the permissions that the leaf decides, then where it sends the address. One that
faults is dropped (R284, R285). -/
def useTlb (s : State) (d c va : Nat) (t : Tlb) (a : Xacc) : State × Xres :=
  match permits s d c va t.pte a with
  | some (cause, sub) => (dropTlb s d c va, .bad cause sub 15)
  | none =>
    let r := place s d va t a
    match r.2 with
    | .bad .. => (dropTlb r.1 d c va, r.2)
    | _ => r

/-- Translates by a walk, within the step (log 97), and caches the result in the die TLB (R278-R285). -/
def xlateWalk (s : State) (d c va : Nat) (a : Xacc) : State × Xres :=
  let w := walk s d c va
  match w.2 with
  | .wait => (w.1, .wait)
  | .bad cause sub lvl => (dropTlb w.1 d c va, .bad cause sub lvl)
  | .leaf e lvl key =>
    match permits w.1 d c va e a with
    | some (cause, sub) => (dropTlb w.1 d c va, .bad cause sub 15)
    | none =>
      let r := setAd w.1 key e a
      let t := tlbOf c va r.2 lvl
      useTlb (r.1.updDie d fun x => { x with tlb := cacheAdd Config.dieTlb x.tlb t }) d c va t a

/-- The cached translation that an access may use: a write does not use one whose D is 0 (R283). -/
def findTlb (l : List Tlb) (c va : Nat) (a : Xacc) : Option Tlb :=
  l.find? fun t => t.covers c va && (!a.writes || fld t.pte 11 1 == 1)

/-- Translates an address at a die. A cached translation that covers it may serve it or not, at the device's choice (R285;
log 3). -/
def xlateDie (s : State) (d c va : Nat) (a : Xacc) : State × Xres :=
  match findTlb (s.die d).tlb c va a with
  | none => xlateWalk s d c va a
  | some t =>
    let r := s.choose
    if r.2 then useTlb r.1 d c va t a else xlateWalk r.1 d c va a

/-- The translation that the die has found enters the core's TLB. -/
def keepTlb (s : State) (g c va : Nat) (a : Xacc) : State :=
  match findTlb (s.die (dieOf g)).tlb c va a with
  | none => s
  | some t => s.updCore g fun x => { x with tlb := cacheAdd Config.coreTlb x.tlb t }

/-- Translates an address for an access of a core or its engines: by its own TLB, or at its die (R20, R285). -/
def xlate (s : State) (g c va : Nat) (a : Xacc) : State × Xres :=
  let miss (s : State) : State × Xres :=
    let r := xlateDie s (dieOf g) c va a
    match r.2 with
    | .ok _ => (keepTlb r.1 g c va a, r.2)
    | _ => r
  match findTlb (s.core g).tlb c va a with
  | none => miss s
  | some t =>
    let r := s.choose
    if r.2 then useTlb r.1 (dieOf g) c va t a else miss r.1

/-- A translation without its effects, to compare places: the key an address has, if it has one. -/
def keyOf (s : State) (d c va : Nat) : Option Nat :=
  match walkNow s d c va with
  | .bad .. | .wait => none
  | .leaf e lvl _ =>
    match (place s d va (tlbOf c va e lvl) .rd).2 with
    | .ok t => some t.key
    | .bad .. | .wait => none

/-- An access to an address would fault now. -/
def faultsAt (s : State) (d c va : Nat) (a : Xacc) : Bool :=
  match walkNow s d c va with
  | .bad .. => true
  | .wait => false
  | .leaf e lvl _ =>
    (permits s d c va e a).isSome || (match (place s d va (tlbOf c va e lvl) a).2 with
      | .bad .. => true
      | .ok _ | .wait => false)

/-! ## Clocks that stand still (R317) -/

/-- A request for a virtual address waits. -/
def vaWaits (s : State) (d c va : Nat) : Bool := anyStopped s && (keyOf s d c va).any (keyWaits s d)

/-- The leaf of an address, without effects; none where the walk faults. -/
def leafOf (s : State) (d c va : Nat) : Option DWord :=
  match walkNow s d c va with
  | .bad .. | .wait => none
  | .leaf e _ _ => some e

/-- How the page of an address lets its lines be placed, as its leaf stands (R178). -/
def allocAt (s : State) (d c va : Nat) : Alloc := ((leafOf s d c va).map fun e => (⟨0, e⟩ : Trans).alloc).getD .normal

end Sys2Proof.Machine
end

