-- ==== Sys2Proof/Machine/Spad.lean ====
section
/-! DEFINITION. Scratchpad bytes and full-empty bits at physical offsets, stash windows, and the settling of expansions (spec 07
R166-R172, 11 R263-R271). -/
namespace Sys2Proof.Machine

/-! ## Physical scratchpad -/

/-- The team of a core whose allotment holds a physical offset. -/
def teamAt (s : State) (g p : Nat) : Option (Nat × Team) :=
  s.teams.find? fun t => t.2.core == g && t.2.spadBase ≤ p && p < t.2.spadBase + 1024 * t.2.spadK

/-- The byte is byte 0 of a stash descriptor of the team, where BOUND stands (R172). -/
def boundByte (t : Team) (p : Nat) : Bool :=
  let o := p - t.spadBase
  1024 * t.spadK - 256 ≤ o && o % 32 == 0

/-- Reads n scratchpad bytes of a core. -/
def spadGet (s : State) (g p n : Nat) : List Byte := cellGets (s.core g).spad p n

/-- Words that a write of n bytes covers whole lose their poison (R299). -/
def clearWords (l : List Nat) (p n : Nat) : List Nat :=
  l.filter fun w => !(decide (p ≤ 4 * w) && decide (4 * w + 4 ≤ p + n))

/-- Writes scratchpad bytes of a core as they stand: the device's own writes. -/
def spadRaw (s : State) (g p : Nat) (bs : List Byte) : State :=
  s.updCore g fun c => { c with spad := cellPuts c.spad p bs, spadPoison := clearWords c.spadPoison p bs.length }

/-- A byte as software writes it at a physical offset: BOUND is read only (R172). -/
def maskBound (s : State) (g p : Nat) (b : Byte) : Byte :=
  match teamAt s g p with
  | none => b
  | some (_, t) => if boundByte t p then (b &&& 0xFD) ||| (cellGet (s.core g).spad p &&& 2) else b

/-- Writes scratchpad bytes of a core for a thread or an engine. -/
def spadPut (s : State) (g p : Nat) (bs : List Byte) : State :=
  let bs := bs.mapIdx fun i b => maskBound s g (p + i) b
  s.updCore g fun c => { c with spad := cellPuts c.spad p bs, spadPoison := clearWords c.spadPoison p bs.length }

/-- Writes the bytes of a store that no higher lane of its slot writes in its place (R168). -/
def spadPutBut (s : State) (g p : Nat) (skip : BitVec 128) (bs : List Byte) : State :=
  if skip = 0 then spadPut s g p bs
  else (bs.mapIdx fun i b => (i, b)).foldl (fun s x => if skip.getLsbD x.1 then s else spadPut s g (p + x.1) [x.2]) s

/-- Any scratchpad word of n bytes is poisoned. -/
def spadPoisoned (s : State) (g p n : Nat) : Bool :=
  (s.core g).spadPoison.any fun w => 4 * w < p + n && p < 4 * w + 4

/-- The granule of an offset is full (R170). -/
def isFull (s : State) (g p : Nat) : Bool := (s.core g).full.contains (p / 16)
def setFull (s : State) (g p : Nat) : State := s.updCore g fun c => { c with full := natAdd c.full (p / 16) }
def setEmpty (s : State) (g p : Nat) : State := s.updCore g fun c => { c with full := c.full.filter (· != p / 16) }

/-! ## Stash windows (R172-R174) -/

/-- Local offset of the descriptor of window w. -/
def descOff (t : Team) (w : Nat) : Nat := 1024 * t.spadK - 256 + 32 * w

/-- The descriptor of window w. -/
def descOf (s : State) (t : Team) (w : Nat) : BitVec 256 :=
  if t.spadK = 0 then 0 else BitVec.ofNat 256 (ofLe (spadGet s t.core (t.spadBase + descOff t w) 32))

/-- BOUND and WR stand in byte 0 of the descriptor. -/
def winBound (s : State) (t : Team) (w : Nat) : Bool :=
  t.spadK != 0 && (cellGet (s.core t.core).spad (t.spadBase + descOff t w)).getLsbD 1
def winWr (s : State) (t : Team) (w : Nat) : Bool :=
  t.spadK != 0 && (cellGet (s.core t.core).spad (t.spadBase + descOff t w)).getLsbD 0
def winSoff (s : State) (t : Team) (w : Nat) : Nat := fld (descOf s t w) 32 32
def winLen (s : State) (t : Team) (w : Nat) : Nat := fld (descOf s t w) 64 32
def winGva (s : State) (t : Team) (w : Nat) : Nat := fld (descOf s t w) 128 64

/-- The device writes BOUND. -/
def setBound (s : State) (t : Team) (w : Nat) (b : Bool) : State :=
  let p := t.spadBase + descOff t w
  spadRaw s t.core p [(cellGet (s.core t.core).spad p &&& 0xFD) ||| (if b then 2 else 0)]

/-- An access with nothing but a kind and a place, by a thread. -/
def Access.blank (tid team launch pass : Nat) (k : AccKind) (word : Word) : Access :=
  { tid := tid, team := team, launch := launch, core := coreOf tid, pass := pass, kind := k, word := word, va := 0,
    size := 0, data := 0, got := 0, dst := [], dstP := none, parts := [⟨0, 0, 0, false⟩], queued := false,
    poisoned := false, faulted := false, owed := [] }

/-- Adds an access under the next order number. -/
def addAcc (s : State) (a : Access) : State := (s.setAcc s.seq a).bump

/-- The write-back of a modified sector in the background, as an access of the team's lead (R174; log 83). -/
def startWb (s : State) (tk : Nat) (t : Team) (x : StashSec) : State :=
  let tid := (leadOf s t).getD (2048 * t.core + 32 * t.g0)
  let p := t.spadBase + winSoff s t x.win + 64 * x.idx
  addAcc s { Access.blank tid tk t.launch 0 (.stashWb x.win p x.key) 0 with
             parts := [⟨winGva s t x.win + 64 * x.idx, 0, 64, false⟩] }

/-- A present sector leaves its window with nothing written: modified data is lost, and the home value stands as it was when
the sector was filled (R174). The directory drops a team none of whose other windows holds the sector unmodified. -/
def dropSector (s : State) (tk : Nat) (x : StashSec) : State :=
  let held := match s.team tk with
    | some t => t.stash.any fun y => y.key == x.key && y.win != x.win
    | none => false
  let s' := if x.modified then
      match kvGet s.dir x.key with
      | some (.modified (.stash h) _) =>
        if h = tk then { s with dir := kvDel s.dir x.key, poison := x.was.foldl natAdd (s.poison.filter (· / 4 != x.key)) } else s
      | _ => s
    else if held then s
    else dropClean s x.key (.stash tk)
  s'.updTeam tk fun t => { t with stash := t.stash.filter fun y => !(y.key == x.key && (x.modified || y.win == x.win)) }

/-- Accesses that issued under a binding which has ended: they are made at the home, for their global addresses (R384). -/
def detach (s : State) (tk w : Nat) : State :=
  { s with accs := s.accs.map fun (a : Nat × Access) => match a.2.kind with
      | .stashFill w' i own sx => if a.2.team = tk ∧ w' = w then (a.1, { a.2 with kind := .stashFill (w + 8) i own sx }) else a
      | _ => a }

/-- SUNB without discard: BOUND clears, and each modified sector is written back in the background (R174). -/
def unbindLazy (s : State) (tk w : Nat) : State :=
  match s.team tk with
  | none => s
  | some t =>
    if winBound s t w then
      let s := (t.stash.filter (·.win == w)).foldl (fun s x => if x.modified then startWb s tk t x else dropSector s tk x) s
      setBound (detach s tk w) t w false
    else s

/-- A lazy SUNB of every window: the end of a team (R174). -/
def endWindows (s : State) (tk : Nat) : State := (List.range 8).foldl (fun s w => unbindLazy s tk w) s

/-! ## Expansions -/

/-- Gangs of the group (R260). -/
def Expand.gangs (e : Expand) : Nat := 2 ^ e.scope
/-- Participants (R260). -/
def Expand.parts (e : Expand) : Nat := 32 * e.gangs
/-- Local offset of the table, as an integer (R263). -/
def tableOff (t : Team) (n : Nat) : Int := (1024 * t.spadK : Int) - 256 - 32 * (32 * n)
/-- Physical offset of field at byte b of entry p. -/
def entryAt (t : Team) (p b : Nat) : Nat := t.spadBase + (tableOff t t.expand.gangs).toNat + 32 * p + b
/-- The thread of participant p. -/
def partTid (t : Team) (p : Nat) : Nat := 2048 * t.core + 32 * (t.g0 + t.expand.g0) + p
/-- The participant of a thread, if it is one. -/
def partOf (t : Team) (tid : Nat) : Option Nat :=
  let lo := 32 * (t.g0 + t.expand.g0)
  if t.expand.st ≠ 0 ∧ lo ≤ slotOf tid ∧ slotOf tid < lo + t.expand.parts then some (slotOf tid - lo) else none

/-- A 32-bit field of entry p. -/
def entWord (s : State) (t : Team) (p b : Nat) : Nat := ofLe (spadGet s t.core (entryAt t p b) 4)
def setEntWord (s : State) (t : Team) (p b v : Nat) : State := spadRaw s t.core (entryAt t p b) (leBytes 4 v)
/-- HOWN of entry p: the owner slot of the held iteration (R263). -/
def entHown (s : State) (t : Team) (p : Nat) : Nat := ofLe (spadGet s t.core (entryAt t p 20) 2)
def setHown (s : State) (t : Team) (p v : Nat) : State := spadRaw s t.core (entryAt t p 20) (leBytes 2 v)

/-- OWNER and ITER of a thread that holds an iteration (R274, R287). -/
def iterOf (s : State) (tid : Nat) : Nat × Nat :=
  match s.team (s.thread tid).team with
  | none => (0xFFFF, 0xFFFFFFFF)
  | some t =>
    match partOf t tid with
    | some p => if t.expand.held.contains p then (entHown s t p, entWord s t p 24) else (0xFFFF, 0xFFFFFFFF)
    | none => (0xFFFF, 0xFFFFFFFF)

/-- The identity of an expand operator (R265). -/
def redIdent : RedOp → Word
  | .addI | .maxN | .orB => 0
  | .addF | .maxI => 0x80000000
  | .minI => 0x7FFFFFFF
  | .minN => 0xFFFFFFFF

/-- The fold of an expand or gang operator (R267, R354). -/
def redFold (op : RedOp) (a c : Word) : Word :=
  match op with
  | .addI => a + c
  | .addF => f32Add a (F32.value c.toNat)
  | .minI => sMin a c
  | .minN => uMin a c
  | .maxI => sMax a c
  | .maxN => uMax a c
  | .orB => a ||| c

/-- The operator of an OPER code (R134). -/
def redOfCode : Nat → RedOp
  | 0 => .addI
  | 1 => .addF
  | 2 => .minI
  | 3 => .minN
  | 4 => .maxI
  | 5 => .maxN
  | _ => .orB

/-- The OPER code of an operator. -/
def codeOfRed : RedOp → Nat
  | .addI => 0
  | .addF => 1
  | .minI => 2
  | .minN => 3
  | .maxI => 4
  | .maxN => 5
  | .orB => 6

/-- Completes an access: writes its destinations and removes it (R125). -/
def finishAcc (s : State) (id : Nat) (v : Nat) : State :=
  match s.acc id with
  | none => s
  | some a =>
    let s := s.updThread a.tid fun t =>
      let t := (a.dst.foldl (fun (x : Thread × Nat) r => (if r < 128 then x.1.setReg r (BitVec.ofNat 32 x.2) else x.1, x.2 / 2 ^ 32)) (t, v)).1
      { t with bad := t.bad.filter (!a.dst.contains ·) }
    s.delAcc id

/-- A closed iteration that may settle: none of the same owner with a lower index is held (R267). -/
def canSettle (s : State) (t : Team) (p : Nat) : Bool :=
  t.expand.clsd.contains p &&
  !(t.expand.held.any fun q => entHown s t q == entHown s t p && entWord s t q 24 < entWord s t p 24)

/-- Settles closed iterations until none can settle (R267). -/
def settleIters (s : State) (tk : Nat) : (fuel : Nat) → State
  | 0 => s
  | fuel + 1 =>
    match s.team tk with
    | none => s
    | some t =>
      let e := t.expand
      match e.clsd.find? (canSettle s t) with
      | none => s
      | some p =>
        let o := entHown s t p - 32 * e.g0
        let v := kvGetD (redIdent (redOfCode e.oper)) e.acc o
        let v := if e.pendv.contains p then redFold (redOfCode e.oper) v (BitVec.ofNat 32 (entWord s t p 28)) else v
        let s := setHown s t p 0xFFFF
        let s := s.setTeam tk { t with expand :=
          { e with acc := kvPut e.acc o v, held := e.held.filter (· != p), clsd := e.clsd.filter (· != p),
                   pendv := e.pendv.filter (· != p) } }
        settleIters s tk fuel

/-- The accumulator of a participant. -/
def Expand.accOf (e : Expand) (p : Nat) : Word := kvGetD (redIdent (redOfCode e.oper)) e.acc p

/-- A completion result for p can be delivered: every iteration of its own loop is dealt and settled (R267). -/
def canDeliver (s : State) (t : Team) (p : Nat) : Bool :=
  t.expand.done.contains p && t.expand.cursor ≥ t.expand.total &&
  !(t.expand.held.any fun q => entHown s t q == 32 * t.expand.g0 + p)

/-- OWED of a participant clears with its last request (R264). -/
def Team.unowe (t : Team) (p : Nat) : Team :=
  if t.expq.any fun q => q.live && q.part == p then t
  else { t with expand := { t.expand with owed := t.expand.owed.filter (· != p) } }

/-- Writes an EXPN's result: the pair and the predicate (R266). -/
def expnResult (s : State) (id lo hi : Nat) (pr : Bool) : State :=
  match s.acc id with
  | none => s
  | some a =>
    let s := match a.dstP with
      | some p => s.updThread a.tid fun t => t.setPred p pr
      | none => s
    finishAcc s id (lo + 2 ^ 32 * hi)

/-- Delivers the completions that wait (R267). -/
def deliverAll (s : State) (tk : Nat) : State :=
  match s.team tk with
  | none => s
  | some t =>
    t.expq.foldl (fun s r =>
      match s.team tk with
      | none => s
      | some t =>
        if r.live && canDeliver s t r.part then
          let s := expnResult s r.acc (t.expand.accOf r.part).toNat 0xFFFFFFFF false
          s.updTeam tk fun t => { t with expq := t.expq.filter (· != r) }.unowe r.part
        else s) s

/-- Requests that have become ready since take their order: the unit deals, and the participant holds no closed iteration. Those
of one cycle take it together, and are dealt in the order of the queue: issue order, then lane (R266). -/
def markReady (s : State) (tk : Nat) : State :=
  match s.team tk with
  | none => s
  | some t =>
    let new (r : ExpReq) : Bool := r.live && r.ready == 0 && !t.expand.clsd.contains r.part && !t.expand.done.contains r.part
    if t.expand.st ≠ 2 ∨ !t.expq.any new then s
    else (s.setTeam tk { t with expq := t.expq.map fun r => if new r then { r with ready := s.seq } else r }).bump

/-- The same for every team: at the end of a slot or an event, whose moment is one cycle (R266). -/
def markAll (s : State) : State := s.teams.foldl (fun s t => if t.2.expand.st = 2 then markReady s t.1 else s) s

/-- A gang of the group has contributed, or has no live thread (R265). -/
def gangCounted (s : State) (t : Team) (i : Nat) : Bool :=
  t.expand.cmask / 2 ^ i % 2 == 1 ||
  (List.range 32).all fun l => !(s.thread (2048 * t.core + 32 * (t.g0 + t.expand.g0 + i) + l)).live

/-- EXPANSION_SEAL: every gang of the group has contributed, and the expansion starts dealing (R265). -/
def sealExp (s : State) (tk : Nat) : State :=
  match s.team tk with
  | none => s
  | some t =>
    if t.expand.st = 1 ∧ (List.range t.expand.gangs).all (gangCounted s t) then
      s.setTeam tk { t with expand := { t.expand with st := 2, cursor := 0, obase := 0, owner := 0 } }
    else s

/-- EXPANSION_END: every live participant has DONE set and OWED clear, and the unit returns to idle (R271). -/
def endExp (s : State) (tk : Nat) : State :=
  match s.team tk with
  | none => s
  | some t =>
    let e := t.expand
    if e.st = 2 ∧ (List.range e.parts).all (fun p => !(s.thread (partTid t p)).live ||
        (e.done.contains p && !e.owed.contains p)) then
      s.setTeam tk { t with expand := Expand.reset, expq := t.expq.filter (!·.live) }
    else s

/-- What follows a change of an expansion: sealing, settling, deliveries, end. -/
def tickExp (s : State) (tk : Nat) : State :=
  match s.team tk with
  | none => s
  | some t =>
    if t.expand.st = 0 then s
    else endExp (deliverAll (settleIters (sealExp s tk) tk 300) tk) tk

/-- The same, at the end of a cycle: requests that it has made ready take their order. -/
def tickEnd (s : State) (tk : Nat) : State := markReady (tickExp s tk) tk

/-- Closes a participant's open iteration, with a contribution or without (R267). -/
def closeIter (s : State) (tk p : Nat) (v : Option Word) : State :=
  match s.team tk with
  | none => s
  | some t =>
    let e := t.expand
    if e.held.contains p && !e.clsd.contains p then
      let s := match v with
        | some w => setEntWord s t p 28 w.toNat
        | none => s
      s.setTeam tk { t with expand := { e with clsd := natAdd e.clsd p,
                                               pendv := if v.isSome then natAdd e.pendv p else e.pendv } }
    else s

end Sys2Proof.Machine
end

