-- ==== Sys2Proof/Machine/Ops.lean ====
section
/-! DEFINITION. Shared operations: blocks, the census, taking and leaving traps, freezing and fault domains, waits,
barriers, bends, and the end of teams (spec 02 R30-R57, 03 R63-R65, 12 R294-R298, 14 R322-R331). -/
namespace Sys2Proof.Machine

/-! ## Launches and blocks -/

/-- The launch of a thread's team. -/
def launchOf (s : State) (tid : Nat) : Option Launch :=
  match s.team (s.thread tid).team with
  | some t => s.launch t.launch
  | none => none

/-- The block whose START is a packet (R30). -/
def Launch.blkAt (l : Launch) (pkt : Nat) : Option Nat := l.blocks.findIdx? (·.start == pkt)
/-- The block that holds a packet. -/
def Launch.blkOf (l : Launch) (pkt : Nat) : Option Nat :=
  l.blocks.findIdx? fun b => b.start ≤ pkt && pkt < b.start + b.count
/-- Block n of the kernel. -/
def Launch.blk (l : Launch) (n : Nat) : Option Blk := l.blocks[n]?
/-- Virtual byte address of a packet. -/
def Launch.pktVa (l : Launch) (pkt : Nat) : Nat := (l.code + 16 * pkt) % 2 ^ 64

/-- Die-scheduler cycles of a die: 200 MHz against 1.75 GHz (R63, R78). -/
def schedCyc (d : Die) : Nat := 4 * d.cyc / 35

/-! ## Budgets (R63, R64) -/

/-- Adds to the spend counters of every node on a launch's path. SHARE is counted in 65,536ths of an issue-port cycle, so that
a budget is a whole number. -/
def charge (s : State) (lid : Nat) (share memb linkb : Nat) : State :=
  match s.launch lid with
  | none => s
  | some l =>
    s.updDie l.die fun d =>
      { d with spends := (l.addr :: l.up).foldl (fun m a =>
          let x := kvGetD ⟨0, 0, 0⟩ m a
          kvPut m a ⟨x.share + 65536 * share, x.memb + memb, x.linkb + linkb⟩) d.spends }

/-- A budget field of a header: none where it is unlimited or inherited (R59, R60). -/
def budget (h : BitVec 512) (bit lo n : Nat) : Option Nat :=
  let v := fld h lo n
  if fld h (32 + bit) 1 = 1 ∨ v = 2 ^ n - 1 then none else some v

/-- A SHARE budget, SHARE ÷ 65,536 of 128 cores × 2 ports × the period, in 65,536ths of an issue-port cycle (R59, R63). -/
def shareBudget (v : Nat) : Nat := v * (128 * 2 * (10000 * 35 / 4))

/-- A node has reached one of its budgets. -/
def overBudget (d : Die) (a : Nat) (h : BitVec 512) : Bool :=
  let x := kvGetD ⟨0, 0, 0⟩ d.spends a
  (match budget h 2 192 16 with
    | some v => decide (shareBudget v ≤ x.share)
    | none => false) ||
  (match budget h 4 256 32 with
    | some v => decide (256 * v ≤ x.memb)
    | none => false) ||
  (match budget h 5 288 32 with
    | some v => decide (256 * v ≤ x.linkb)
    | none => false)

/-- A launch is below a node whose budget is spent. -/
def spent (s : State) (l : Launch) : Bool := (pathHdrs s l).any fun h => overBudget (s.die l.die) h.1 h.2

/-- A launch is below one of some nodes. -/
def Launch.below (l : Launch) (nodes : List Nat) : Bool := (l.addr :: l.up).any nodes.contains

/-! ## Gang groups (R45) -/

/-- Live threads of a gang row of a core. -/
def liveGang (s : State) (g row : Nat) : List Nat :=
  ((List.range 32).map fun l => 2048 * g + 32 * row + l).filter fun t => (s.thread t).live

/-- A collecting group is whole: every live thread of the gang that no other group of the entry holds is in it. -/
def groupWhole (s : State) (g : Nat) (e : Entry) (x : Group) : Bool :=
  (liveGang s g x.gang).all fun t =>
    x.tids.contains t || e.groups.any fun y => y.gang == x.gang && y != x && y.tids.contains t

/-- Groups that have become whole become issuable (GANG_GROUP_ISSUABLE). -/
def recheckGroups (s : State) (g : Nat) : State :=
  s.updCore g fun c =>
    { c with census := c.census.map fun e =>
        { e with groups := e.groups.map fun x =>
            if !x.issuable && !x.tids.isEmpty && groupWhole s g e x then { x with issuable := true } else x } }

/-- Adds a thread to the collecting group of its gang, or opens one. -/
def joinGroup (gs : List Group) (gang tid cyc : Nat) : List Group :=
  if gs.any (fun x => x.gang == gang && !x.issuable) then
    gs.map fun x => if x.gang == gang && !x.issuable then { x with tids := x.tids ++ [tid] } else x
  else gs ++ [⟨gang, [tid], cyc, false⟩]

/-! ## The census (R38) -/

/-- The resident-launch index of a launch on a core. -/
def lidxOf (c : Core) (launch : Nat) : Nat := ((c.lidx.find? (·.2 == launch)).map (·.1)).getD 0

/-- An entry's key. -/
def Entry.is (e : Entry) (launch blk pkt : Nat) : Bool := e.launch == launch && e.blk == blk && e.pkt == pkt

/-- Threads of an entry that may issue (R41, R45). -/
def Entry.issuable (e : Entry) : List Nat :=
  if e.gang then (e.groups.filter (·.issuable)).flatMap (·.tids) else e.tids

/-- A thread's key: launch, block, entry packet. -/
def keyOfThread (s : State) (tid : Nat) : Nat × Nat × Nat :=
  let t := s.thread tid
  (((s.team t.team).map (·.launch)).getD 0, t.blk, t.pkt)

/-- Puts a thread into an entry. -/
def Entry.add (e : Entry) (tid cyc : Nat) : Entry :=
  { e with tids := e.tids ++ [tid], groups := if e.gang then joinGroup e.groups (gangOf tid) tid cyc else e.groups }

/-- A fresh entry for a thread's key. -/
def newEntry (s : State) (tid : Nat) : Entry :=
  let k := keyOfThread s tid
  let b := (s.launch k.1).bind fun l => l.blk k.2.1
  { lidx := lidxOf (s.core (coreOf tid)) k.1, launch := k.1, blk := k.2.1, pkt := k.2.2, tids := [], closed := false,
    gang := (b.map (·.gang)).getD false, tclass := (b.map (·.tclass)).getD 0, groups := [] }

/-- Moves every overflow thread of one key into a new entry (CENSUS_ENTRY_ALLOCATE). -/
def allocEntry (s : State) (g tid : Nat) : State :=
  let c := s.core g
  let mine := c.overflow.filter fun t => keyOfThread s t == keyOfThread s tid
  let e := mine.foldl (fun e t => e.add t c.cyc) (newEntry s tid)
  let s := s.setCore g { c with overflow := c.overflow.filter (fun t => !mine.contains t), census := c.census ++ [e] }
  mine.foldl (fun s t => s.updThread t fun x => { x with status := .pending }) s

/-- Gives free entries to the oldest overflow threads whose keys hold none (R38). -/
def refill (s : State) (g : Nat) : (fuel : Nat) → State
  | 0 => s
  | fuel + 1 =>
    let c := s.core g
    if Config.censusEntries ≤ c.census.length then s
    else
      match c.overflow.find? (fun t => let k := keyOfThread s t; !c.census.any fun e => e.is k.1 k.2.1 k.2.2) with
      | none => s
      | some t => refill (allocEntry s g t) g fuel

/-- A thread joins the pending set of its key, or the overflow list (R33, R38, R40). -/
def enterCensus (s : State) (tid : Nat) : State :=
  let g := coreOf tid
  let c := s.core g
  let k := keyOfThread s tid
  let cyc := c.cyc
  let s := s.updThread tid fun t => { t with stamp := c.passcnt }
  match c.census.find? (fun e => e.is k.1 k.2.1 k.2.2) with
  | some e =>
    if e.closed then
      (s.updThread tid fun t => { t with status := .overflow }).setCore g { c with overflow := c.overflow ++ [tid] }
    else
      recheckGroups ((s.updThread tid fun t => { t with status := .pending }).setCore g
        { c with census := c.census.map fun x => if x.is k.1 k.2.1 k.2.2 then x.add tid cyc else x }) g
  | none =>
    if c.census.length < Config.censusEntries then
      recheckGroups ((s.updThread tid fun t => { t with status := .pending }).setCore g
        { c with census := c.census ++ [(newEntry s tid).add tid cyc] }) g
    else (s.updThread tid fun t => { t with status := .overflow }).setCore g { c with overflow := c.overflow ++ [tid] }

/-- Takes threads out of every entry and the overflow list of their core; entries left empty free. -/
def leaveCensus (s : State) (g : Nat) (tids : List Nat) : State :=
  let out (l : List Nat) := l.filter fun t => !tids.contains t
  let s := s.updCore g fun c =>
    { c with overflow := out c.overflow,
             census := (c.census.map fun e =>
               { e with tids := out e.tids,
                        groups := (e.groups.map fun x => { x with tids := out x.tids }).filter (!·.tids.isEmpty) }).filter
               (!·.tids.isEmpty) }
  recheckGroups (refill s g 64) g

/-! ## Fault records of threads -/

/-- A record that a thread causes (R287, R274). -/
def threadRec (s : State) (tid cause sub acc level addr : Nat) : FRec :=
  let t := s.team (s.thread tid).team
  let l := launchOf s tid
  let it := iterOf s tid
  { addr := addr, iter := it.2, owner := it.1, fdom := (l.map (fdomOf s)).getD 0xFFFF, tslot := slotOf tid,
    core := coreOf tid, req := 0, cause := cause, sub := sub, acc := acc, level := level, repl := false,
    team := (t.map (·.num)).getD 0xFFFFFFFF, token := 0, ctx := (l.map (·.actx)).getD 0 }

/-! ## Ends and freezes -/

/-- A launch starts to stop: its resident teams leave without a save, the others are dropped (R65). One whose record has not
been read stops when it is. -/
def stopLaunch (s : State) (lid : Nat) : State :=
  match s.launch lid with
  | none => s
  | some l =>
    match l.phase with
    | .running =>
      let s := s.setLaunch lid { l with phase := .stopping, status := 0x0002, saved := [], again := [], nextTeam := l.gridt }
      { s with teams := s.teams.map fun t => if t.2.launch = lid then (t.1, { t.2 with leave := some .stop }) else t }
    | .waiting => s.setLaunch lid { l with phase := .stopping, status := 0x0002, nextTeam := l.gridt }
    | .taken => s.setLaunch lid { l with status := 0x0002 }
    | _ => s

/-- FAULT_DOMAIN_STOP: applies the FDACT of the launch's domain node (R65). -/
def applyFdact (s : State) (lid : Nat) : State :=
  match s.launch lid with
  | none => s
  | some l =>
    match fdactOf s l with
    | 0 =>
      match domainNode (pathHdrs s l) with
      | none => stopLaunch s lid
      | some h =>
        let s := if h.1 = l.addr then s else s.updDie l.die fun d => { d with halts := d.halts ++ [⟨h.1, (l.up.dropWhile (· != h.1)).drop 1, h.2⟩] }
        s.launches.foldl (fun s x => if x.2.die = l.die ∧ x.2.below [h.1] then stopLaunch s x.1 else s) s
    | 1 => stopLaunch s lid
    | _ => s

/-- A pending wait of a thread. -/
def AccKind.isAwait : AccKind → Bool
  | .await _ => true
  | _ => false

/-- The thread waits no more: what follows its wait may go on (R223). -/
def dropAwait (s : State) (tid : Nat) : State :=
  if s.accs.any fun a => a.2.tid == tid && a.2.kind.isAwait then
    { s with accs := s.accs.filter fun a => !(a.2.tid == tid && a.2.kind.isAwait) }
  else s

/-- A parked thread leaves its wait for DATA-WAIT (R32). -/
def leaveWait (s : State) (tid : Nat) : State := (dropAwait s tid).updThread tid fun t => { t with status := .dataWait }

/-- BARRIER_COMPLETE: every live thread of the team has arrived at barrier n, and all of them leave (R322). -/
def checkBarrier (s : State) (tk n : Nat) : State :=
  match s.team tk with
  | none => s
  | some t =>
    let live := t.tids.filter fun i => (s.thread i).live
    if live ≠ [] ∧ live.all (fun i => (s.thread i).status == .parked (.bar n true)) then live.foldl leaveWait s else s

/-- Every barrier of a team. -/
def checkBarriers (s : State) (tk : Nat) : State := (List.range 8).foldl (fun s n => checkBarrier s tk n) s

/-- The expand requests of a thread that is live no longer are no longer outstanding, those that EXPSV put away among them
(R271). -/
def dropRequests (s : State) (tk tid : Nat) : State :=
  let mine := (s.accs.filter fun a => a.2.tid == tid && a.2.kind == .expn).map (·.1)
  if mine.isEmpty then s
  else
    let s := { s with accs := s.accs.filter fun a => !mine.contains a.1 }
    s.updTeam tk fun t => { t with expq := t.expq.filter fun q => !mine.contains q.acc }

/-- What follows when a thread of a team is live no longer: its open iteration closes, barriers, gang groups and the
expansion go on without it, and the team's end begins with its last live thread (R25, R45, R174, R265, R267, R322). Requests that this
makes ready take their order at the end of the slot or event (R266). -/
def afterDeath (s : State) (tid : Nat) : State :=
  let tk := (s.thread tid).team
  let s := dropRequests (dropAwait s tid) tk tid
  match s.team tk with
  | none => s
  | some t =>
    let s := match partOf t tid with
      | some p => closeIter (s.updTeam tk (·.unowe p)) tk p none
      | none => s
    let s := tickExp s tk
    let s := recheckGroups (checkBarriers s tk) (coreOf tid)
    if (leadOf s t).isSome then s
    else endWindows (s.updTeam tk fun t => { t with ended := true }) tk

/-- THREAD_FREEZE: a trap at depth 2 (R56, R65). The launch counts threads frozen under report-only (R75). -/
def freeze (s : State) (tid cause : Nat) (pc : DWord) : State :=
  let r := threadRec s tid 0x20 cause 7 15 pc.toNat
  let lid := ((s.team (s.thread tid).team).map (·.launch)).getD 0
  let s := leaveCensus s (coreOf tid) [tid]
  let s := s.updThread tid fun t => { t with status := .frozen }
  let s := s.updLaunch lid fun l => if 2 ≤ fdactOf s l then { l with frozen := l.frozen + 1 } else l
  let s := report s (dieOf (coreOf tid)) r
  afterDeath (applyFdact s lid) tid

/-! ## Taking a trap and returning from it (R55, R295-R297) -/

/-- The wait that earlier slots of the trapping packet have left in a thread, with its word (R55). -/
def carriedWait (hs : List Held) : Option (Wait × Word) := hs.findSome? fun h => h.wait.map fun w => (w, h.word)

/-- What a thread goes on carrying once its wait has taken effect: transfers. -/
def carriedTargets (hs : List Held) : List Held := (hs.filter (·.target.isSome)).map fun h => { h with wait := none }

/-- A thread parks on a wait of an earlier slot of its trapping packet. -/
def parkCarried (s : State) (t : Thread) : Thread :=
  { t with
    held := []
    status := match carriedWait t.held with
      | some w => .parked w.1
      | none => .dataWait
    parkedAt := if (carriedWait t.held).isSome then s.seq else t.parkedAt
    parkPass := if (carriedWait t.held).isSome then s.cur.pass else t.parkPass
    parkWord := ((carriedWait t.held).map (·.2)).getD t.parkWord }

/-- A trap that freezes its thread: a wait, a queue write or an EXIT that stands before the trapping slot takes effect first, and
the thread freezes when that is over (R32, R55, R56; log 81). -/
def enterFreeze (s : State) (tid cause sub : Nat) (word : Word) (pc : DWord) : State :=
  let t := s.thread tid
  match t.held, carriedWait t.held with
  | h :: _, some _ =>
    s.setThread tid
      { parkCarried s t with
        due := some ⟨cause, sub, word⟩
        pkt := h.point / 4
        slot := h.point % 4
        resume := true
        fall := none }
  | _, _ => freeze s tid cause pc

/-- TRAP_ENTRY: taking an exception. At depth 0 or 1 the trap state of R295 is written and the thread becomes ready to
enter the block TRAPBASE; at depth 2, or when TRAPBASE is no block of the kernel, the thread freezes (R55, R56). `pc` is the
return point of R296. A wait, a queue write or an EXIT that stands before the trapping slot takes effect: the thread parks, and
enters the handler when that is over (R32, R55; log 81). -/
def enterTrap (s : State) (tid cause sub : Nat) (word : Word) (pc : DWord) : State :=
  let t := s.thread tid
  match (launchOf s tid).bind fun l => (l.blk l.trapblk).map fun b => (l.trapblk, b.start) with
  | none => enterFreeze s tid cause sub word pc
  | some (blk, start) =>
    if 2 ≤ t.depth then enterFreeze s tid cause sub word pc
    else
      s.setThread tid
        { parkCarried s t with
          outer := if t.depth = 1 then t.trap else t.outer
          depth := t.depth + 1
          trap := { pc := pc, cause := BitVec.ofNat 32 (sub * 65536 + cause), word := word, held := carriedTargets t.held }
          blk := blk
          pkt := start
          slot := 0
          resume := false
          fall := none }

/-- The state of a thread after RTE, but for where it goes on: the depth is one lower, and from depth 2 the registers of
depth 1 come back (R297). -/
def leaveTrap (t : Thread) : Thread :=
  { t with depth := t.depth - 1,
           held := t.trap.held,
           trap := if t.depth = 2 then t.outer else t.trap,
           outer := if t.depth = 2 then TrapRec.reset else t.outer }

/-- A thread leaves a running pass at a packet and slot, and carries the wait and the transfer of earlier slots of the packet
with it (R37, R55). -/
def leavePass (s : State) (pk tid pkt slot : Nat) : State :=
  match s.pass pk with
  | none => s
  | some p =>
    let h : Held := ⟨4 * pkt + slot, kvGet p.targets tid, kvGet p.waits tid, p.waitWord, p.tslot⟩
    let s := if h.target.isSome || h.wait.isSome then s.updThread tid fun t => { t with held := h :: t.held } else s
    s.setPass pk { p with tids := p.tids.filter (· != tid), targets := kvDel p.targets tid, waits := kvDel p.waits tid }

/-- The pass of the slot being executed. -/
def State.curPass (s : State) : Nat := 2 * s.cur.core + s.cur.port

/-- The return point of a precise trap at the slot being executed (R296). -/
def curPc (s : State) : DWord := BitVec.ofNat 64 (s.cur.code + 16 * s.cur.pkt + s.cur.slot)

/-- A precise trap of one thread at the slot being executed, with a return point: the thread leaves its pass and takes the
trap (R55). -/
def raiseAt (s : State) (tid cause sub : Nat) (pc : DWord) : State :=
  let s := enterTrap (leavePass s s.curPass tid s.cur.pkt s.cur.slot) tid cause sub s.cur.word pc
  { s with cur := { s.cur with tids := s.cur.tids.filter (· != tid), all := s.cur.all.filter (· != tid) } }

/-- A precise trap that returns to the slot being executed (R296). -/
def raise (s : State) (tid cause sub : Nat) : State := raiseAt s tid cause sub (curPc s)

/-- The same precise trap in several threads. -/
def raiseAll (s : State) (tids : List Nat) (cause sub : Nat) : State :=
  tids.foldl (fun s t => raise s t cause sub) s

/-! ## Bends (R224, R327-R329) -/

/-- Threads parked on a bend, in the order in which they are served. -/
def bendWaiters (s : State) (b : Nat) : List Nat :=
  let ts := s.threads.filter fun t =>
    dieOf (coreOf t.1) == b / 65536 && (match t.2.status with
      | .parked (.bend n _) => n == b % 65536
      | _ => false)
  sortBy (fun t => (s.thread t).parkedAt) (ts.map (·.1))

/-- A parked thread whose wait is over leaves it; after the kernel's last block it takes the fall-through trap (R30). -/
def resolveWait (s : State) (tid : Nat) : State :=
  let t := s.thread tid
  match t.fall with
  | none => leaveWait s tid
  | some w => enterTrap (dropAwait s tid) tid 0x03 0 w (BitVec.ofNat 64 (((launchOf s tid).map fun l => l.pktVa t.pkt).getD 0))

/-- BEND_WAIT_SERVE: a nonzero count serves parked waiters one unit each. -/
def serveBend (s : State) (b : Nat) : State :=
  (bendWaiters s b).foldl (fun s t =>
    if (s.bend b).count = 0 then s
    else resolveWait (s.setBend b { s.bend b with count := (s.bend b).count - 1 }) t) s

/-- A signal is counted, and waiters are served (R328). -/
def countSignal (s : State) (b : Nat) : State :=
  let x := s.bend b
  if x.count = 0xFFFFFFFFFFFFFFFF then s else serveBend (s.setBend b { x with count := x.count + 1 }) b

/-- A bound party matches: kind, and for teams the launch record and the team number (R327). -/
def partyIs (reg team : DWord) (kind rec num : Nat) : Bool :=
  fld reg 61 3 == kind && ((4 ≤ kind) || (fld reg 9 43 == bitsOf rec 9 43 && fld team 0 32 == num))

/-- The check of a signal: none, or the SUB of R331. -/
def sigCheck (x : Bend) (kind rec num : Nat) : Option Nat :=
  if !x.valid then some 1 else if partyIs x.sig x.sigt kind rec num then none else some 2

/-- The check of a wait: none, or the SUB of R331. -/
def waitCheck (x : Bend) (kind rec num : Nat) : Option Nat :=
  if !x.valid then some 1 else if partyIs x.wait x.waitt kind rec num then none else some 3

/-! ## Teams leave their cores -/

/-- Signals the bend of each pre-emption request that covers no team any more, and sets LATE (R79). -/
def checkPreqs (s : State) (d : Nat) : State :=
  (s.die d).preqs.foldl (fun s r =>
    if s.teams.any (fun t => dieOf t.2.core == d && t.2.reqs.contains r.id) then s
    else
      let b := 65536 * d + r.bend
      let s := s.updDie d fun x =>
        { x with preqs := x.preqs.filter (·.id != r.id),
                 preqctl := if r.deadline < schedCyc x then setFld x.preqctl 62 1 1 else x.preqctl }
      if sigCheck (s.bend b) 4 0 0 = none then countSignal s b else s) s

/-- Frees what a team holds on its core: its gang rows and slots, registers, allotment and tiles, and the
resident-launch index with the launch's last team (R38, R72). -/
def removeTeam (s : State) (tk : Nat) : State :=
  match s.team tk with
  | none => s
  | some t =>
    let s := leaveCensus s t.core t.tids
    let s := { s with teams := kvDel s.teams tk, threads := t.tids.foldl kvDel s.threads }
    let s := s.updCore t.core fun c =>
      if s.teams.any (fun x => x.2.core == t.core && x.2.launch == t.launch) then c
      else { c with lidx := c.lidx.filter (·.2 != t.launch) }
    checkPreqs s (dieOf t.core)

/-- Accesses that a stop lets complete (R64, R65, R75): what is on its way to memory. -/
def mustFinish (a : Access) : Bool :=
  match a.kind with
  | .st _ | .atom .. | .lup _ | .stfe .. | .bsig .. | .cwb | .stashWb .. | .pubv => true
  | .spad wr .. => wr
  | .stashFill _ _ own _ => own
  | _ => false

/-- A load that no thread waits for any more and that may never complete: it waits for a replay, or for a granule to fill
(R75 counts neither). -/
def lingers (s : State) (id : Nat) (a : Access) : Bool :=
  !mustFinish a && (accParked s (dieOf a.core) id || (match a.kind with
    | .ldfe .. => true
    | _ => false))

/-- Nothing of a team is under way: no pass holds its threads, no access that ends of itself, and no engine command. -/
def teamQuiet (s : State) (tk : Nat) (t : Team) : Bool :=
  !(s.passes.any fun p => p.2.tids.any t.tids.contains) && !(s.accs.any fun a => a.2.team == tk && !lingers s a.1 a.2) &&
  t.q8.isEmpty && t.q9.isEmpty && t.mx.isNone && t.cp.isNone

/-- Cancels an access: nobody is parked for it any more, and it is not performed (R80, R291). -/
def cancelAcc (s : State) (id : Nat) : State :=
  match s.acc id with
  | none => s
  | some a => (unparkAcc s (dieOf a.core) id a.parts.length).delAcc id

/-- Everything that a team still has outstanding is cancelled, and what its windows still hold is lost. -/
def cancelTeam (s : State) (tk : Nat) (t : Team) : State :=
  let d := dieOf t.core
  let s := s.accs.foldl (fun s a => if a.2.team = tk then cancelAcc s a.1 else s) s
  let s := unpark (unpark (unpark s d (.matrix tk)) d (.copy tk)) d (.save tk)
  t.stash.foldl (fun s x => dropSector s tk x) s

/-- A team that a fault domain stops can leave: its passes have ended, and its stores and the write-backs of its windows have
completed or wait for a replay (R65, R174). -/
def stopReady (s : State) (tk : Nat) (t : Team) : Bool :=
  t.leave == some .stop && !(s.passes.any fun p => p.2.tids.any t.tids.contains) &&
  !(s.accs.any fun a => a.2.team == tk && mustFinish a.2 && !accParked s (dieOf t.core) a.1)

/-- A team that has ended leaves its core when nothing of it is under way; so does one that a fault domain stops, once its
windows have been unbound as at a team's end (R65, R75, R174). -/
def reapTeam (s : State) (tk : Nat) : State :=
  match s.team tk with
  | none => s
  | some t =>
    let out (s : State) (t : Team) : State :=
      removeTeam (cancelTeam (s.updLaunch t.launch fun l => { l with ended := l.ended + 1 }) tk t) tk
    if t.ended && teamQuiet s tk t then out s t
    else if stopReady s tk t then
      let s := endWindows s tk
      match s.team tk with
      | none => s
      | some t => if stopReady s tk t then out s t else s
    else s

/-- Every team that can leave its core does. -/
def reap (s : State) : State := s.teams.foldl (fun s t => reapTeam s t.1) s

end Sys2Proof.Machine
end

