-- ==== Sys2Proof/Machine/Access.lean ====
section
/-! DEFINITION. When an outstanding access may be performed: program order at one location, fences, acquires and releases,
and the ordering kinds of pages (spec 09 R214-R231, 15 R351). -/
namespace Sys2Proof.Machine

/-- The access creates read events. -/
def AccKind.reads : AccKind → Bool
  | .ld .. | .atom .. | .ldfe .. | .pubv | .devl => true
  | .stashFill _ _ own _ => !own
  | .spad wr .. => !wr
  | _ => false

/-- The access creates write events, or signals. -/
def AccKind.writes : AccKind → Bool
  | .st _ | .atom .. | .lup _ | .cwb | .pubv | .stfe .. | .bsig .. => true
  | .stashFill _ _ own _ => own
  | .spad wr .. => wr
  | _ => false

/-- The access takes part in the order of its thread's events; what the engines' tiles and the expand unit order
themselves, and background write-backs, do not. -/
def AccKind.ordered : AccKind → Bool
  | .expn | .mxrd .. | .mxwr .. | .mxclr _ | .stashWb .. | .pref _ => false
  | _ => true

/-- An outstanding acquire of the thread: what follows it waits (R223). -/
def AccKind.acquires : AccKind → Bool
  | .atom _ _ o _ => o == .acq || o == .ar
  | .ldfe .. => true
  | .await acq => acq
  | _ => false

/-- A release by an atomic: it waits for every event before it, but for those on UO pages (R220, R223, R321). -/
def AccKind.releases : AccKind → Bool
  | .atom _ _ o _ => o == .rel || o == .ar
  | _ => false

/-- An access that waits for every event before it, whatever its page: the signal of a BSIG.REL (R328), the fill of an STFE
(R393), and a PUBV, for the writes to HV pages of every kind (R231, R379). -/
def AccKind.waitsAll : AccKind → Bool
  | .bsig _ _ _ rel => rel
  | .stfe .. | .pubv => true
  | _ => false

/-- The bytes that an undone part of an access names: a range of virtual addresses. A CWB names its line. -/
def Access.ranges (a : Access) : List (Nat × Nat) :=
  match a.kind with
  | .cwb => [(a.va / 256 * 256, 256)]
  | .fence .. | .bsig .. | .pubv | .ldfe .. | .spad .. | .stfe .. | .await _ | .expn | .mxrd .. | .mxwr .. | .mxclr _
  | .stashWb .. => []
  | _ => (a.parts.filter (!·.done)).map fun p => (p.va, p.n)

/-- The address context of an access. -/
def Access.ctx (s : State) (a : Access) : Nat := ((s.launch a.launch).map (·.actx)).getD 0

/-- The location of a scratchpad byte, beside the keys of memory (R215). -/
def spadKey (g p : Nat) : Nat := 2 ^ 80 + 2 ^ 19 * g + p

/-- The locations that an access names beside its virtual ranges: scratchpad bytes, and the counter of a PUBV. -/
def Access.places (a : Access) : List (Nat × Nat) :=
  match a.kind with
  | .spad _ _ g p | .stfe g p | .ldfe _ g p => [(spadKey g p, a.size)]
  | .pubv => [(2 ^ 64 + a.va, 8)]
  | _ => []

/-- The locations of an access (R215), as ranges of keys. -/
def Access.keys (s : State) (a : Access) : List (Nat × Nat) :=
  a.places ++ a.ranges.filterMap fun x => (keyOf s (dieOf a.core) (a.ctx s) x.1).map fun k => (k, x.2)

/-- Two ranges name a common byte. -/
def rangesMeet (x y : Nat × Nat) : Bool := decide (x.1 < y.1 + y.2) && decide (y.1 < x.1 + x.2)

/-- Two LUPs act on one copy of a sector, whose updates keep their order (R193): their ranges widen to the sector. -/
def lupWide (a b : AccKind) (x : Nat × Nat) : Nat × Nat :=
  match a, b with
  | .lup _, .lup _ => (x.1 / 64 * 64, 64)
  | _, _ => x

/-- Two accesses name a common byte, by virtual or by physical address (R215). -/
def overlap (s : State) (a b : Access) : Bool :=
  let w := lupWide a.kind b.kind
  if a.ranges.isEmpty && b.ranges.isEmpty then a.places.any fun x => b.places.any (rangesMeet x)
  else
    (a.launch == b.launch && a.ranges.any fun x => b.ranges.any fun y => rangesMeet (w x) (w y)) ||
    (a.keys s).any fun x => (b.keys s).any fun y => rangesMeet (w x) (w y)

/-- ORD of the page of an access of one part (R220): 1 SO, 2 UO. -/
def Access.ord (s : State) (a : Access) : Nat :=
  match a.ranges with
  | [] => 0
  | x :: _ => ((leafOf s (dieOf a.core) (a.ctx s) x.1).map fun e => fld e 4 2).getD 0

/-- An access cut into its undone parts, each of which follows the ordering kind of its own page (R218). -/
def Access.split (a : Access) : List Access :=
  match a.parts.filter (!·.done) with
  | [] => [a]
  | ps => ps.map fun p => { a with parts := [p] }

/-! ## Scopes (R221, R222) -/

/-- The scopes nest (R221). -/
def scopeRank : Scope → Nat
  | .team => 0
  | .cluster => 1
  | .die => 2
  | .domain => 3
  | .system => 4

/-- The narrower of two scopes (R222). -/
def narrower (a b : Scope) : Scope := if scopeRank a ≤ scopeRank b then a else b

/-- Two parties lie in one instance of a scope: each is a thread or an engine of a team on a core. Every die of the package is in one
load-store domain (R221). -/
def oneInstance (sc : Scope) (t c t' c' : Nat) : Bool :=
  match sc with
  | .team => t == t'
  | .cluster => c / 64 == c' / 64
  | .die => dieOf c == dieOf c'
  | .domain | .system => true

/-- The scope of an ATOM or CAS with a release (R223). -/
def AccKind.relScope : AccKind → Option Scope
  | .atom _ _ o sc => if o = .rel ∨ o = .ar then some sc else none
  | _ => none

/-- The scope of an acquire that may observe the release of an ATOM or CAS: an ATOM or CAS with an acquire, or a fence for the reads
before it (R223). -/
def AccKind.acqScope : AccKind → Option Scope
  | .atom _ _ o sc => if o = .acq ∨ o = .ar then some sc else none
  | .fence k sc => if k = .rel then none else some sc
  | _ => none

/-- SCOPE of an engine command's block (R248, R249, R255). -/
def cmdScope (cp : Bool) (b : SecData) : Nat := fld b (if cp then 10 else 18) 3

/-- The scope of an engine command with ACQ (R223, R248). -/
def cmdAcquire (cp : Bool) (b : SecData) : Option Scope :=
  if fld b (if cp then 8 else 16) 1 = 0 then none
  else match cmdScope cp b with
    | 0 => some .team
    | 1 => some .cluster
    | 2 => some .die
    | _ => some .domain

/-- A release of scope x synchronises with an acquire of another party that observes it (R222). -/
def synchronises (x : Scope) (t c : Nat) (y : Option Scope) (t' c' : Nat) : Bool :=
  match y with
  | none => false
  | some y => oneInstance (narrower x y) t c t' c'

/-- The queue that a push kind enters: the copy queue for 0, else the matrix queue. -/
def Team.cmds (t : Team) (k : Nat) : List Cmd := if k = 0 then t.q9 else t.q8

/-- A command's run on one of the two engines. -/
def Team.run (t : Team) (cp : Bool) : Option Run := if cp then t.cp else t.mx

/-- A queued command or the running one of some engine makes an acquire that could observe a release of an access. -/
def engineSees (s : State) (x : Scope) (a : Access) : Bool :=
  s.teams.any fun t => [false, true].any fun cp =>
    let cmds := t.2.cmds (if cp then 0 else 1) ++ ((t.2.run cp).map (·.cmd)).toList
    cmds.any fun q => synchronises x a.team a.core (cmdAcquire cp q.blk) t.1 t.2.core

/-- A release by an ATOM or CAS of a scope within the die may be performed before an earlier store or LUP of its thread that is not
parked: nobody who would synchronise with it has an acquire under way that is older, and a younger one waits for the write (R222;
log 116). A wider scope has parties on other dies, in other packages and on hosts, so the write comes first. -/
def goesBefore (s : State) (id : Nat) (a : Access) (b : Nat × Access) : Bool :=
  (match b.2.kind with
    | .st _ | .lup _ => true
    | _ => false) &&
  (match a.kind.relScope with
    | none => false
    | some x => decide (scopeRank x ≤ scopeRank .die) && !accParked s (dieOf b.2.core) b.1 && !engineSees s x a &&
        !(s.accs.any fun c => c.1 < id && c.2.tid != a.tid && synchronises x a.team a.core c.2.kind.acqScope c.2.team c.2.core))

/-- Writes that a release went before, and that an acquire which would synchronise with the release waits for, those of saved teams
among them (R222; log 116). No thread of a saved team is left to acquire. -/
def owedTo (s : State) (tid : Option Nat) (team core : Nat) (y : Option Scope) (id : Nat) : Bool :=
  (s.accs.any fun b => some b.2.tid != tid && b.2.owed.any fun r =>
    decide (r.id < id) && synchronises r.scope b.2.team r.core y team core) ||
  s.launches.any fun l => l.2.kept.any fun k => k.2.notes.any fun n => n.2.any fun r =>
    r.scope != .team && decide (r.id < id) && synchronises r.scope 0 r.core y team core

/-- A release has been performed: every write of its thread that it went before notes it (log 116). -/
def oweEarlier (s : State) (id : Nat) (a : Access) : State :=
  match a.kind.relScope with
  | none => s
  | some x =>
    { s with accs := s.accs.map fun b =>
        if b.1 < id ∧ b.2.tid = a.tid ∧ b.2.kind.writes = true then (b.1, { b.2 with owed := b.2.owed ++ [⟨id, x, a.core⟩] }) else b }

/-- An earlier event of the same thread holds a later one. `early`: a release may be performed before it (`goesBefore`). -/
def eventHolds (s : State) (early : Bool) (b a : Access) : Bool :=
  b.kind == .cwb || a.kind.waitsAll || overlap s b a || (b.ord s == 1 && a.ord s == 1) ||
  (match b.kind with
    | .fence .full .system => true
    | .fence k _ => a.ord s != 2 && (k != .rel || a.kind.writes)
    | k =>
      match a.kind with
      | .fence .full .system => true
      | .fence f _ => b.ord s != 2 && (f != .acq || k.reads)
      | _ => a.ord s != 2 && b.ord s != 2 && (k.acquires || (a.kind.releases && !early)))

/-- An earlier access of the same thread holds a later one: some undone part of it does. -/
def threadHolds (s : State) (early : Bool) (b a : Access) : Bool :=
  b.split.any fun x => a.split.any fun y => eventHolds s early x y

/-- Two STFEs of one slot, which act together (R393). -/
def sameStfe (a b : Access) : Bool :=
  match a.kind, b.kind with
  | .stfe .., .stfe .. => a.va == b.va
  | _, _ => false

/-- An LDFE creates its event when its granule is full, and holds nobody else before. -/
def AccKind.isLdfe : AccKind → Bool
  | .ldfe .. => true
  | _ => false

/-- An earlier access of another thread of the pass holds a later one: the same location, not both reads (R217, R363). -/
def passHolds (s : State) (b a : Access) : Bool :=
  (b.kind.writes || a.kind.writes) && !b.kind.isLdfe && !sameStfe b a && overlap s b a

/-- A sector of the n scratchpad bytes still waits for its write-back (R174). -/
def wbAt (s : State) (g p n : Nat) : Bool :=
  s.accs.any fun b => b.2.core == g && (match b.2.kind with
    | .stashWb _ q _ => decide (p < q + 64) && decide (q < p + n)
    | _ => false)

/-- A local access to a sector that still waits for its write-back waits for it in the replay queue (R174). -/
def wbHolds (s : State) (a : Access) : Bool :=
  match a.kind with
  | .spad _ _ g p | .stfe g p | .ldfe _ g p => wbAt s g p a.size
  | _ => false

/-- An access with an order number may be performed: no earlier one holds it, and an acquire waits for what its release owes it. -/
def readyAs (s : State) (id : Nat) (a : Access) : Bool :=
  !a.queued && !wbHolds s a && !owedTo s (some a.tid) a.team a.core a.kind.acqScope id && s.accs.all fun b =>
    !(b.1 < id && b.2.kind.ordered &&
      ((b.2.tid == a.tid && threadHolds s (goesBefore s id a b) b.2 a) ||
       (b.2.tid != a.tid && b.2.pass == a.pass && coreOf b.2.tid == coreOf a.tid && passHolds s b.2 a)))

/-- An outstanding access may be performed. -/
def accReady (s : State) (id : Nat) : Bool :=
  match s.acc id with
  | none => false
  | some a => readyAs s id a

/-- The order number of the thread's wait, or the next one where it waits for nothing. -/
def awaitId (s : State) (tid : Nat) : Nat :=
  ((s.accs.find? fun a => a.2.tid == tid && a.2.kind.isAwait).map (·.1)).getD s.seq

/-- Every event of the thread before its wait has reached its point of coherence. -/
def eventsDone (s : State) (tid : Nat) : Bool :=
  let n := awaitId s tid
  !(s.accs.any fun b => b.2.tid == tid && b.2.kind.ordered && decide (b.1 < n))

/-- Every store, atomic, LUP, CWB and signal of the thread has (R343). -/
def writesDone (s : State) (tid : Nat) : Bool :=
  !(s.accs.any fun b => b.2.tid == tid && (b.2.kind.writes || (match b.2.kind with
    | .mxwr .. | .mxclr _ => true
    | _ => false)))

/-- What a party of this package has modified in a sector of another package reaches the home before a request for it (R205). -/
def recallFar (s : State) (key : Nat) : State :=
  match kvGet s.dir (key / 64) with
  | some (.modified ..) => toHome s (key / 64)
  | _ => s

/-- A request that leaves a core or an engine for a home: it is charged to the launch (R63; log 22), the home's die cache
allocates its line as the page and the hint say (R178, R179), and one for another package goes out in a flit
(R309; log 98). -/
def request (s : State) (lid key : Nat) (al : Alloc) (m : LinkMsg) : State :=
  match farPackage key with
  | none => allocLine (charge s lid 0 64 0) (key / 64) al
  | some _ => sendFar (charge (recallFar s key) lid 0 64 128) key m

/-- The same for the write-back of modified data, which the recall of its sector sends (R205). -/
def writeRequest (s : State) (lid key : Nat) (al : Alloc) : State :=
  match farPackage key with
  | none => allocLine (charge s lid 0 64 0) (key / 64) al
  | some _ => charge s lid 0 64 128

/-- A request that the device makes for a launch beside those of its threads and engines: for its code, its record or its saves. It
is charged to the launch where a link port sends it (R63; log 63). -/
def sideRequest (s : State) (lid : Option Nat) (key : Nat) (m : LinkMsg) : State :=
  match farPackage key with
  | none => s
  | some _ => sendFar (recallFar (match lid with
      | some l => charge s l 0 0 128
      | none => s) key) key m

/-- A request of 64 bytes for a sector that a read or a recall needs. -/
def readReq (s : State) (lid key : Nat) (al : Alloc) : State := request s lid key al (.read (key / 64 * 64) 64)

/-- A sector that is latent starts to develop, and the access waits at its home; likewise where a develop is under way
(DEVELOP_START; R197). A .REPL load that finds a latent sector is a plain load from then on (R180). True: it waits. -/
def awaitDev (s : State) (k id part : Nat) (latentToo : Bool) : State × Bool :=
  let s := match kvGet s.dir k with
    | some (.latent ..) => if latentToo then startDevelop s k else s
    | _ => s
  match kvGet s.devs k with
  | none => (s, false)
  | some v =>
    let s := { s with devs := kvPut s.devs k { v with waiting := v.waiting ++ [wakeEvent s id part] } }
    (match s.acc id with
      | some a => s.setAcc id { a with queued := true, kind := match a.kind with
          | .ld sx .repl => .ld sx .none
          | k => k }
      | none => s, true)

/-- Fences whose condition holds go (R351). -/
def dropFences (s : State) : State :=
  s.accs.foldl (fun s b => match b.2.kind with
    | .fence .. => if accReady s b.1 then s.delAcc b.1 else s
    | _ => s) s

end Sys2Proof.Machine
end

