-- ==== Sys2Proof/Machine/Compress.lean ====
section
/-! DEFINITION. Inline compression: the class of a line, the overflow pool, and stores to CMP pages (spec 07 R181-R184). A
line of a CMP page is the key of its first byte div 256. -/
namespace Sys2Proof.Machine

/-- Classes of a compressed line (R182). -/
inductive LineClass | u64 | u128 | overflow
deriving DecidableEq, Repr

/-- The differences from word 0 fit k bits, as signed numbers (R182). -/
def diffsFit (ws : List Nat) (k : Nat) : Bool :=
  ws.all fun w =>
    let d := sextNat ((w + 2 ^ 32 - ws.headD 0) % 2 ^ 32) 32
    if k = 0 then d == 0 else decide (-(2 ^ (k - 1) : Int) ≤ d) && decide (d < 2 ^ (k - 1))

/-- The compressed size of a line's 64 words; none of the difference forms fits: 8 + 4 nz alone counts (R182). -/
def lineSize (ws : List Nat) : Nat :=
  let z := 8 + 4 * (ws.filter (· != 0)).length
  match [0, 4, 8].find? (diffsFit ws) with
  | some k => min (4 + 8 * k) z
  | none => z

/-- The class of a line (R182). -/
def lineClass (ws : List Nat) : LineClass :=
  if lineSize ws ≤ 64 then .u64 else if lineSize ws ≤ 128 then .u128 else .overflow

/-- The words of a line as they stand. -/
def lineWords (s : State) (line : Nat) : List Nat :=
  (List.range 64).map fun i => ofLe ((List.range 4).map fun j => s.byteAt (256 * line + 4 * i + j))

/-- OVPPUSH: adds a block to the pool; the device links it through its first 8 bytes (R184). -/
def pushBlock (s : State) (d a : Nat) : State :=
  let x := s.die d
  (storePhys s d a (leBytes 8 x.ovpHead)).updDie d fun x => { x with ovpHead := a, ovpfree := x.ovpfree + 1 }

/-- Takes the first free block of a pool that is not empty (R184). -/
def popBlock (s : State) (d : Nat) : State × Nat :=
  let x := s.die d
  let r := readPhys s d x.ovpHead 8
  (r.1.updDie d fun y => { y with ovpHead := (r.2.map ofLe).getD 0 / 256 * 256, ovpfree := y.ovpfree - 1 }, x.ovpHead)

/-- One more, saturating. -/
def satInc (w : DWord) : DWord := if w = 0xFFFFFFFFFFFFFFFF then w else w + 1

/-- Counts a write that left a line in a class (R184). -/
def countClass (d : Die) : LineClass → Die
  | .u64 => { d with cmpn64 := satInc d.cmpn64 }
  | .u128 => { d with cmpn128 := satInc d.cmpn128 }
  | .overflow => { d with cmpnovf := satInc d.cmpnovf }

/-- The die of a CMP key. -/
def cmpDie (a : Nat) : Nat := (a - 2 ^ 54) / 2 ^ 40

/-- The line's block after a write, or none when a block is needed and the pool is empty (R183). -/
def rehome (s : State) (line : Nat) (cls : LineClass) : Option State :=
  let d := cmpDie (256 * line)
  let x := s.die d
  match kvGet x.ovpUsed line, cls with
  | none, .overflow =>
    if x.ovpfree = 0 then none
    else
      let r := popBlock s d
      some (r.1.updDie d fun y => { y with ovpUsed := kvPut y.ovpUsed line r.2, ovpinuse := y.ovpinuse + 1 })
  | some b, .u64 | some b, .u128 =>
    some (pushBlock (s.updDie d fun y => { y with ovpUsed := kvDel y.ovpUsed line, ovpinuse := y.ovpinuse - 1 }) d b)
  | _, _ => some s

/-- A store within one line of a CMP page, at its home slice; none: the compression pool is exhausted and nothing is
written (R183). -/
def cmpStore (s : State) (a : Nat) (bs : List Byte) : Option State :=
  let line := a / 256
  let old := (List.range 256).map fun i => s.byteAt (256 * line + i)
  let off := a % 256
  let new := old.take off ++ bs ++ old.drop (off + bs.length)
  let ws := (List.range 64).map fun i => ofLe ((new.drop (4 * i)).take 4)
  let cls := lineClass ws
  (rehome s line cls).map fun s => (storeHome s a bs).updDie (cmpDie a) fun d => countClass d cls

/-- The key lies in a CMP page. -/
def isCmp (a : Nat) : Bool := decide (2 ^ 54 ≤ a) && decide (a < 2 ^ 55)

/-- Stores of an agent without a cache, sector by sector; the second part tells that the pool was exhausted, with the
sectors before it written. -/
def putHome (s : State) (a : Nat) (bs : List Byte) : State × Bool :=
  (sectorsOf a bs.length).foldl (fun r p =>
    if r.2 then r
    else
      let part := (bs.drop p.2.2.1).take p.2.2.2
      if isCmp a then
        match cmpStore r.1 (64 * p.1 + p.2.1) part with
        | some s => (s, false)
        | none => (r.1, true)
      else (storeFor r.1 p.1 none p.2.1 part, false)) (s, false)

end Sys2Proof.Machine
end

