-- ==== Sys2Proof/WellFormed.lean ====
section
/-! DEFINITION. What makes an instruction term one that a word of the Chaermor can hold: register groups (spec 04 R87),
MOD values (05 R124), register classes (R101) and the sub-encodings of 05 R127-R135. What depends on the kernel (REGS,
NKREGS, NTILES, SLOTS) is checked at issue (Sys2Proof/Machine/Issue.lean). -/
namespace Sys2Proof

/-- `r` can name a group of `n` registers (R87). -/
def aligned (n : Nat) (r : Reg) : Bool := r.toNat % n == 0

/-- A pair (R87). -/
def isX (r : Reg) : Bool := aligned 2 r
/-- A quad (R87). -/
def isY (r : Reg) : Bool := aligned 4 r

/-- The type is of the code int4 of R124. -/
def isInt4 : IntTy → Bool
  | .i32s | .n32s => false
  | _ => true

/-- The type is of the code sgn of R124. -/
def isSgn : IntTy → Bool
  | .i32 | .i64 | .i32s => true
  | _ => false

/-- The type's operands are pairs. -/
def is64 : IntTy → Bool
  | .i64 | .n64 => true
  | _ => false

/-- A register of the class that a width fixes. -/
def okW : Width → Reg → Bool
  | .w32, _ => true
  | .w64, r => isX r

/-- A register of the class that an integer type fixes. -/
def okTy (ty : IntTy) (r : Reg) : Bool := !is64 ty || isX r

/-- A register of the class that a float type fixes (R346). -/
def okFTy : FTy → Reg → Bool
  | .d, r => isX r
  | _, _ => true

/-- A register of the class that a scalar float type fixes. -/
def okFSc : FSc → Reg → Bool
  | .d, r => isX r
  | .f32, _ => true

/-- A register of the class that an access size fixes. -/
def okSz : MSize → Reg → Bool
  | .b64, r => isX r
  | .b128, r => isY r
  | _, _ => true

/-- A register of the class that an LDFE or STFE size fixes. -/
def okFe : FeSize → Reg → Bool
  | .b32, _ => true
  | .b64, r => isX r
  | .b128, r => isY r

/-- A register of the class that an LDS kind fixes. -/
def okLds : LdsKind → Reg → Bool
  | .b64, r => isX r
  | .b128, r => isY r
  | _, _ => true

/-- Conditions that ICMP accepts (R128). -/
def isICond : Cond → Bool
  | .un | .ord => false
  | _ => true

/-- The conversion code widens, and is exact (R129). -/
def cvtWidens : CvtCode → Bool
  | .dF32 | .f32F16 | .f32Bf16 | .f32H2 | .f32B2 => true
  | _ => false

/-- D of an FCVT names a pair (R129). -/
def cvtDX : CvtCode → Bool
  | .dF32 | .f32H2 | .f32B2 => true
  | _ => false

/-- A of an FCVT names a pair (R129). -/
def cvtAX : CvtCode → Bool
  | .f32D | .h2F32 | .b2F32 => true
  | _ => false

/-- The CSR numbers that R107 assigns. -/
def csrAssigned (n : Nat) : Bool :=
  n == 0x0000 || (0x0010 ≤ n && n ≤ 0x0016) || n == 0x0018 || (0x0020 ≤ n && n ≤ 0x0022) ||
  (0x0100 ≤ n && n ≤ 0x0102) || (0x0140 ≤ n && n ≤ 0x0180) || (0x0200 ≤ n && n ≤ 0x0204) ||
  (0x0208 ≤ n && n ≤ 0x020C) || n == 0x0210 || (0x1000 ≤ n && n ≤ 0x1002) || (0x1010 ≤ n && n ≤ 0x1015) ||
  (0x1020 ≤ n && n ≤ 0x1023) || n == 0x1030 || n == 0x1031 || n == 0x1040 || n == 0x1041 ||
  n == 0x1050 || n == 0x1051 || (0x1060 ≤ n && n ≤ 0x107F)

/-- The CSR is 64 bits wide (R107). -/
def csr64 (n : Nat) : Bool :=
  n == 0x0010 || n == 0x0014 || n == 0x0022 || n == 0x0100 || n == 0x0101 || n == 0x0180 || n == 0x0200 ||
  n == 0x0203 || n == 0x0210 || (0x1000 ≤ n && n ≤ 0x1002) || (0x1010 ≤ n && n ≤ 0x1014) || n == 0x1020 ||
  n == 0x1023 || n == 0x1030 || n == 0x1031 || n == 0x1040 || n == 0x1051 || (0x1060 ≤ n && n ≤ 0x107F)

/-- A CSR instruction names an assigned number and a register of its width (R106, R335). -/
def okCsr (d : Reg) (n : BitVec 14) : Bool := csrAssigned n.toNat && (!csr64 n.toNat || isX d)

/-- The instruction can stand in a slot; the other constructors are events. -/
def inSlot : Instr → Bool
  | .passStart .. | .dataWaitResolve .. | .entryClose .. | .gangTimeout .. | .accessComplete .. | .exitComplete ..
  | .barArrival .. | .remoteBendSignal .. | .stashFillComplete .. | .stashWritebackComplete .. | .collect ..
  | .compositeReport .. | .earlyMerge .. | .directoryEntryEviction .. | .multicastRequest ..
  | .multicastMergeTimeout .. | .multicastResponse .. | .matrixOperation .. | .tileDrain .. | .copyLinear ..
  | .copyStrided .. | .planeTranspose .. | .scalePlacement .. | .multicastRead .. | .engineCommandComplete ..
  | .expnDeal .. | .periodBoundary .. | .launchAccept .. | .teamPlace .. | .gridComplete .. | .preemptRequest ..
  | .drainDeadline .. | .teamSave .. | .teamDiscard .. | .resumeRequest .. | .swapTick .. | .doorbell ..
  | .replayAccess .. | .replayDeliver .. | .tlbInvalidatePages .. | .tlbInvalidateContext .. | .tlbInvalidateAll ..
  | .invalidationRequest .. | .invalidationAck .. | .exprevoke .. | .revokeComplete .. | .ovppush .. | .ovppop ..
  | .heatdecay .. | .bendtake .. | .bendcntWrite .. | .bendctlWrite .. | .fqheadWrite .. | .gstatClear .. | .attgo ..
  | .linkRetrain .. | .registerWrite .. | .linkDataFlit .. | .linkStopFlit .. | .linkGoFlit .. | .linkAckFlit ..
  | .linkNakFlit .. | .linkIdleFlit .. | .linkTimeout .. | .linkTrained .. | .hostRead .. | .hostWrite ..
  | .hostPortTrained .. | .moduleReset | .dieAuthentication .. | .functionReady .. | .powerSample ..
  | .thermalStop .. | .thermalRestart .. | .uncorrectableError .. | .l1Eviction .. | .pointOfCoherenceReached ..
  | .illegalInstruction => false
  | _ => true

/-- The term is one that a word can hold. Events hold in every shape. -/
def wellFormed : Instr → Bool
  | .bri a | .calli a => isX a
  | .iadd ty d a b | .isub ty d a b | .imul ty d a b | .imad ty d a b =>
      okTy ty d && okTy ty a && okTy ty b
  | .imulh ty d a b | .imin ty d a b | .imax ty d a b =>
      isInt4 ty && okTy ty d && okTy ty a && okTy ty b
  | .iabs ty d a | .ineg ty d a => isSgn ty && okTy ty d && okTy ty a
  | .icmp cc ty _ a b => isICond cc && isInt4 ty && okTy ty a && okTy ty b
  | .lea _ d a _ => isX d && isX a
  | .mov pair d a => !pair || (isX d && isX a)
  | .movPop _ q => q == 0 || q == 1
  | .movPush _ _ => true
  | .andB w d a b | .andn w d a b | .orB w d a b | .xorB w d a b => okW w d && okW w a && okW w b
  | .notB w d a | .brev w d a => okW w d && okW w a
  | .shl w d a _ | .shr w d a _ | .sha w d a _ | .rot w d a _ | .bfi w d a _ => okW w d && okW w a
  | .bfx ty d a _ => isInt4 ty && okTy ty d && okTy ty a
  | .popc w _ a | .clz w _ a | .ctz w _ a => okW w a
  | .fadd ty _ d a b | .fsub ty _ d a b | .fmul ty _ d a b | .ffma ty _ d a b | .fmin ty d a b | .fmax ty d a b =>
      okFTy ty d && okFTy ty a && okFTy ty b
  | .fcmp _ ty _ a b => okFSc ty a && okFSc ty b
  | .fclass ty _ a | .fexpo ty _ a => okFSc ty a
  | .frnd ty _ d a | .fscale ty _ d a _ | .fmant ty d a => okFSc ty d && okFSc ty a
  | .fcvt c rm d a => (!cvtWidens c || rm == .dyn) && (!cvtDX c || isX d) && (!cvtAX c || isX a)
  | .ftoi it ft _ d a => isInt4 it && okTy it d && okFSc ft a
  | .itof it ft _ d a => isInt4 it && okFSc ft d && okTy it a
  | .expred d _ | .logred d _ | .sinred d _ => isX d
  | .dot8s _ _ a b => isX a && isX b
  | .spars d a => isX d && isX a
  | .ld sz sx _ d a _ => (!sx || sz == .b8 || sz == .b16) && okSz sz d && isX a
  | .st sz h d a _ => h != .repl && okSz sz d && isX a
  | .lds k d _ _ => okLds k d
  | .sts sz d _ _ => okSz sz d
  | .ldfe sz _ d _ _ => okFe sz d
  | .stfe sz d _ _ => okFe sz d
  | .pref _ a _ | .cwb a _ | .lup _ _ a _ | .devl a _ => isX a
  | .atomAdd _ w _ d a | .atomAnd _ w _ d a | .atomOr _ w _ d a | .atomXor _ w _ d a | .atomXchg _ w _ d a
  | .atomMin _ w _ _ d a | .atomMax _ w _ _ d a => okW w d && isX a
  | .atomFadd _ _ _ a => isX a
  | .cas _ w _ d a => (match w with | .w32 => isX d | .w64 => isY d) && isX a
  | .pubv d | .cyc d | .expn d _ => isX d
  | .vote k d _ => k == .ballot || d.toNat < 8
  | .matchKey w _ a => okW w a
  | .mxrd d _ _ => isY d
  | .mxwr _ a _ => isY a
  | .qstat _ q => q == 0 || q == 1 || q == 8 || q == 9
  | .csrr d n | .csrw d n => okCsr d n
  | .passStart core port => core < 1024 && port < 2
  | .entryClose core | .gangTimeout core _ _ => core < 1024
  | _ => true

end Sys2Proof
end

