-- ==== Sys2Proof/Decode.lean ====
section
/-! DEFINITION. Decoding a slot word and encoding an instruction (spec 04 R100-R105, 05 R122-R135), the control word
(04 R93), and `decodeTableWord`. Decoding is total: a word is an instruction or is rejected by name. -/
namespace Sys2Proof

/-- The five fields of forms T and M (R100). Forms B and S spread over MOD, D, A and B. -/
structure Fields where
  op : BitVec 8
  mod : BitVec 3
  d : Reg
  a : Reg
  b : BitVec 7
deriving DecidableEq, Repr

/-- Cuts a word at [31:24], [23:21], [20:14], [13:7], [6:0] (R100). -/
def splitWord (w : Word) : Fields :=
  { op := w.extractLsb' 24 8, mod := w.extractLsb' 21 3, d := w.extractLsb' 14 7, a := w.extractLsb' 7 7,
    b := w.extractLsb' 0 7 }

/-- Puts the five fields together (R100). -/
def joinWord (f : Fields) : Word := f.op ++ f.mod ++ f.d ++ f.a ++ f.b

/-- Why a word is no instruction (R104). -/
inductive Reject
  | zeroWord | reserved | illFormed
deriving DecidableEq, Repr

-- MOD and field codes, each beside its inverse

def intTyOfMod (m : BitVec 3) : Option IntTy :=
  match m.toNat with
  | 0 => some .i32 | 1 => some .n32 | 2 => some .i64 | 3 => some .n64 | 4 => some .i32s | 5 => some .n32s | _ => none

def modOfIntTy : IntTy → BitVec 3
  | .i32 => 0 | .n32 => 1 | .i64 => 2 | .n64 => 3 | .i32s => 4 | .n32s => 5

def widthOfMod (m : BitVec 3) : Option Width :=
  match m.toNat with | 0 => some .w32 | 2 => some .w64 | _ => none

def modOfWidth : Width → BitVec 3
  | .w32 => 0 | .w64 => 2

def rndOfMod (m : BitVec 3) : Option Rnd :=
  match m.toNat with
  | 0 => some .dyn | 1 => some .rne | 2 => some .rtz | 3 => some .rup | 4 => some .rdn | _ => none

def modOfRnd : Rnd → BitVec 3
  | .dyn => 0 | .rne => 1 | .rtz => 2 | .rup => 3 | .rdn => 4

def scopeOfMod (m : BitVec 3) : Option Scope :=
  match m.toNat with
  | 0 => some .team | 1 => some .cluster | 2 => some .die | 3 => some .domain | 4 => some .system | _ => none

def modOfScope : Scope → BitVec 3
  | .team => 0 | .cluster => 1 | .die => 2 | .domain => 3 | .system => 4

/-- FMT-independent float type: opcode bits [1:0] (R126). -/
def ftyOfOp (op : BitVec 8) : FTy :=
  match op.toNat % 4 with | 0 => .f32 | 1 => .h2 | 2 => .b2 | _ => .d

def opOfFTy (base : BitVec 8) : FTy → BitVec 8
  | .f32 => base | .h2 => base + 1 | .b2 => base + 2 | .d => base + 3

def opOfFSc (base : BitVec 8) : FSc → BitVec 8
  | .f32 => base | .d => base + 1

def condOfCode (n : Nat) : Option Cond :=
  match n with
  | 0 => some .eq | 1 => some .ne | 2 => some .lt | 3 => some .le | 4 => some .gt | 5 => some .ge | 6 => some .un
  | 7 => some .ord | _ => none

def codeOfCond : Cond → BitVec 4
  | .eq => 0 | .ne => 1 | .lt => 2 | .le => 3 | .gt => 4 | .ge => 5 | .un => 6 | .ord => 7

def sgOfMod (m : BitVec 3) : Option Sg :=
  match m.toNat with | 0 => some .ii | 1 => some .nn | 2 => some .inn | 3 => some .ni | _ => none

def modOfSg : Sg → BitVec 3
  | .ii => 0 | .nn => 1 | .inn => 2 | .ni => 3

/-- Hints stand in MOD[2:1] (R133). -/
def hintOfMod (m : BitVec 3) : Hint :=
  match m.toNat / 2 with | 0 => .none | 1 => .repl | 2 => .strm | _ => .byp

def modOfHint : Hint → BitVec 3
  | .none => 0 | .repl => 2 | .strm => 4 | .byp => 6

def msizeOfIdx (n : Nat) : MSize :=
  match n with | 0 => .b8 | 1 => .b16 | 2 => .b32 | 3 => .b64 | _ => .b128

def opOfMSize (base : BitVec 8) : MSize → BitVec 8
  | .b8 => base | .b16 => base + 1 | .b32 => base + 2 | .b64 => base + 3 | .b128 => base + 4

def ldsOfMod (m : BitVec 3) : Option LdsKind :=
  match m.toNat with
  | 0 => some .n8 | 1 => some .i8 | 2 => some .n16 | 3 => some .i16 | 4 => some .b32 | 5 => some .b64
  | 6 => some .b128 | _ => none

def modOfLds : LdsKind → BitVec 3
  | .n8 => 0 | .i8 => 1 | .n16 => 2 | .i16 => 3 | .b32 => 4 | .b64 => 5 | .b128 => 6

def stsOfMod (m : BitVec 3) : Option MSize :=
  match m.toNat with
  | 0 => some .b8 | 2 => some .b16 | 4 => some .b32 | 5 => some .b64 | 6 => some .b128 | _ => none

def modOfSts : MSize → BitVec 3
  | .b8 => 0 | .b16 => 2 | .b32 => 4 | .b64 => 5 | .b128 => 6

def feOfMod (m : BitVec 3) : Option FeSize :=
  match m.toNat / 2 with | 0 => some .b32 | 1 => some .b64 | 2 => some .b128 | _ => none

def modOfFe (sz : FeSize) (clr : Bool) : BitVec 3 :=
  (match sz with | .b32 => 0 | .b64 => 2 | .b128 => 4) + (if clr then 1 else 0)

def ordOfCode (n : Nat) : Ord2 :=
  match n with | 0 => .rlx | 1 => .acq | 2 => .rel | _ => .ar

def codeOfOrd : Ord2 → BitVec 2
  | .rlx => 0 | .acq => 1 | .rel => 2 | .ar => 3

def lupOfMod (m : BitVec 3) : Option LupOp :=
  match m.toNat with
  | 0 => some .addI | 1 => some .minI | 2 => some .minN | 3 => some .maxI | 4 => some .maxN | 5 => some .orB
  | 6 => some .bacc | _ => none

def modOfLup : LupOp → BitVec 3
  | .addI => 0 | .minI => 1 | .minN => 2 | .maxI => 3 | .maxN => 4 | .orB => 5 | .bacc => 6

/-- The SEGR column of R134; EXPB's operator field uses it too (R261). -/
def segOfMod (m : BitVec 3) : Option RedOp :=
  match m.toNat with
  | 0 => some .addI | 1 => some .addF | 2 => some .minI | 3 => some .minN | 4 => some .maxI | 5 => some .maxN
  | 6 => some .orB | _ => none

def modOfSeg : RedOp → BitVec 3
  | .addI => 0 | .addF => 1 | .minI => 2 | .minN => 3 | .maxI => 4 | .maxN => 5 | .orB => 6

def gredOfMod (m : BitVec 3) : Option RedOp :=
  match m.toNat with
  | 0 => some .addI | 1 => some .minI | 2 => some .minN | 3 => some .maxI | 4 => some .maxN | 5 => some .orB
  | 6 => some .addF | _ => none

def modOfGred : RedOp → BitVec 3
  | .addI => 0 | .minI => 1 | .minN => 2 | .maxI => 3 | .maxN => 4 | .orB => 5 | .addF => 6

/-- Bend scopes stand in MOD[2:1] (R135). -/
def bscopeOfMod (m : BitVec 3) : BScope :=
  match m.toNat / 2 with | 0 => .team | 1 => .cluster | 2 => .die | _ => .domain

def modOfBScope (sc : BScope) (f : Bool) : BitVec 3 :=
  (match sc with | .team => 0 | .cluster => 2 | .die => 4 | .domain => 6) + (if f then 1 else 0)

def voteOfMod (m : BitVec 3) : Option VoteKind :=
  match m.toNat with | 0 => some .all | 1 => some .any | 2 => some .uni | 3 => some .ballot | _ => none

def modOfVote : VoteKind → BitVec 3
  | .all => 0 | .any => 1 | .uni => 2 | .ballot => 3

def shfOfMod (m : BitVec 3) : Option ShfMode :=
  match m.toNat with | 0 => some .idx | 1 => some .up | 2 => some .down | 3 => some .xor | _ => none

def modOfShf : ShfMode → BitVec 3
  | .idx => 0 | .up => 1 | .down => 2 | .xor => 3

def grpOfMod (m : BitVec 3) : Option GrpSize :=
  match m.toNat with | 0 => some .g1 | 1 => some .g2 | 2 => some .g4 | 3 => some .g8 | _ => none

def modOfGrp : GrpSize → BitVec 3
  | .g1 => 0 | .g2 => 1 | .g4 => 2 | .g8 => 3

def cvtOfCode (n : Nat) : Option CvtCode :=
  match n with
  | 0 => some .dF32 | 1 => some .f32D | 2 => some .f16F32 | 3 => some .f32F16 | 4 => some .bf16F32
  | 5 => some .f32Bf16 | 6 => some .h2F32 | 7 => some .f32H2 | 8 => some .b2F32 | 9 => some .f32B2
  | 10 => some .b2H2 | 11 => some .h2B2 | _ => none

def codeOfCvt : CvtCode → BitVec 7
  | .dF32 => 0 | .f32D => 1 | .f16F32 => 2 | .f32F16 => 3 | .bf16F32 => 4 | .f32Bf16 => 5 | .h2F32 => 6
  | .f32H2 => 7 | .b2F32 => 8 | .f32B2 => 9 | .b2H2 => 10 | .h2B2 => 11

/-- The integer type of FTOI and ITOF in B[2:0] (R130). -/
def convIntOf (n : Nat) : Option IntTy :=
  match n with | 0 => some .i32 | 1 => some .n32 | 2 => some .i64 | 3 => some .n64 | _ => none

def fscBit : FSc → BitVec 1
  | .f32 => 0 | .d => 1

/-- Low three bits of a field whose other bits must be zero: a predicate (R88, R101). -/
def predField (r : Reg) : Option Pred := if r.toNat < 8 then some (r.extractLsb' 0 3) else none
def kField (r : Reg) : Option (BitVec 5) := if r.toNat < 32 then some (r.extractLsb' 0 5) else none
def qField (r : Reg) : Option (BitVec 4) := if r.toNat < 16 then some (r.extractLsb' 0 4) else none
def tileField (r : Reg) : Option (BitVec 2) := if r.toNat < 4 then some (r.extractLsb' 0 2) else none

/-- `i` when the fields that it does not use are zero (R101). -/
def whenZ (c : Bool) (i : Instr) : Option Instr := if c then some i else none

/-- Opcodes 0x00 to 0x0F (R126). -/
def decodeControl (f : Fields) : Option Instr :=
  let off : BitVec 24 := f.mod ++ f.d ++ f.a ++ f.b
  let z := f.mod == 0 && f.d == 0 && f.a == 0 && f.b == 0
  match f.op.toNat with
  | 0x01 => whenZ z .nop
  | 0x02 => some (.bra off)
  | 0x03 => whenZ (f.mod == 0 && f.d == 0 && f.b == 0) (.bri f.a)
  | 0x04 => some (.call off)
  | 0x05 => whenZ (f.mod == 0 && f.d == 0 && f.b == 0) (.calli f.a)
  | 0x06 => whenZ z .ret
  | 0x07 => whenZ z .exit
  | 0x08 => whenZ (f.mod == 0 && f.d.toNat < 4) (.trap (f.d.extractLsb' 0 2 ++ f.a ++ f.b))
  | 0x09 => whenZ z .rte
  | _ => none

/-- Opcodes 0x10 to 0x1F (R126). -/
def decodeInt (f : Fields) : Option Instr :=
  match f.op.toNat with
  | 0x10 => (intTyOfMod f.mod).map fun ty => .iadd ty f.d f.a f.b
  | 0x11 => (intTyOfMod f.mod).map fun ty => .isub ty f.d f.a f.b
  | 0x12 => (intTyOfMod f.mod).map fun ty => .imul ty f.d f.a f.b
  | 0x13 => (intTyOfMod f.mod).map fun ty => .imulh ty f.d f.a f.b
  | 0x14 => (intTyOfMod f.mod).map fun ty => .imad ty f.d f.a f.b
  | 0x15 => (intTyOfMod f.mod).map fun ty => .imin ty f.d f.a f.b
  | 0x16 => (intTyOfMod f.mod).map fun ty => .imax ty f.d f.a f.b
  | 0x17 => (intTyOfMod f.mod).bind fun ty => whenZ (f.b == 0) (.iabs ty f.d f.a)
  | 0x18 => (intTyOfMod f.mod).bind fun ty => whenZ (f.b == 0) (.ineg ty f.d f.a)
  | 0x19 => (intTyOfMod f.mod).bind fun ty => (condOfCode (f.d.toNat / 8)).map fun cc =>
      .icmp cc ty (f.d.extractLsb' 0 3) f.a f.b
  | 0x1A => some (.lea f.mod f.d f.a f.b)
  | 0x1B => some (.sel f.mod f.d f.a f.b)
  | 0x1C =>
    match f.mod.toNat with
    | 0 => whenZ (f.b == 0) (.mov false f.d f.a)
    | 1 => whenZ (f.b == 0) (.mov true f.d f.a)
    | 2 => (kField f.a).bind fun k => whenZ (f.b == 0) (.movK f.d k)
    | 3 => (qField f.a).bind fun q => whenZ (f.b == 0) (.movPop f.d q)
    | 4 => (qField f.d).bind fun q => whenZ (f.b == 0) (.movPush q f.a)
    | _ => none
  | _ => none

/-- Opcodes 0x20 to 0x2F (R126). -/
def decodeLogic (f : Fields) : Option Instr :=
  match f.op.toNat with
  | 0x20 => (widthOfMod f.mod).map fun w => .andB w f.d f.a f.b
  | 0x21 => (widthOfMod f.mod).map fun w => .andn w f.d f.a f.b
  | 0x22 => (widthOfMod f.mod).map fun w => .orB w f.d f.a f.b
  | 0x23 => (widthOfMod f.mod).map fun w => .xorB w f.d f.a f.b
  | 0x24 => (widthOfMod f.mod).bind fun w => whenZ (f.b == 0) (.notB w f.d f.a)
  | 0x25 => (widthOfMod f.mod).map fun w => .shl w f.d f.a f.b
  | 0x26 => (widthOfMod f.mod).map fun w => .shr w f.d f.a f.b
  | 0x27 => (widthOfMod f.mod).map fun w => .sha w f.d f.a f.b
  | 0x28 => (widthOfMod f.mod).map fun w => .rot w f.d f.a f.b
  | 0x29 => (intTyOfMod f.mod).map fun ty => .bfx ty f.d f.a f.b
  | 0x2A => (widthOfMod f.mod).map fun w => .bfi w f.d f.a f.b
  | 0x2B => (widthOfMod f.mod).bind fun w => whenZ (f.b == 0) (.popc w f.d f.a)
  | 0x2C => (widthOfMod f.mod).bind fun w => whenZ (f.b == 0) (.clz w f.d f.a)
  | 0x2D => (widthOfMod f.mod).bind fun w => whenZ (f.b == 0) (.ctz w f.d f.a)
  | 0x2E => (widthOfMod f.mod).bind fun w => whenZ (f.b == 0) (.brev w f.d f.a)
  | 0x2F => (predField f.d).bind fun pd => (predField f.b).bind fun pb =>
      whenZ (f.mod == 0) (.plop (f.a.extractLsb' 3 4) pd (f.a.extractLsb' 0 3) pb)
  | _ => none

/-- Opcodes 0x30 to 0x3F: the type is opcode bits [1:0] (R126, R346). -/
def decodeFloatA (f : Fields) : Option Instr :=
  (rndOfMod f.mod).map fun rm =>
    match f.op.toNat / 4 with
    | 0xC => .fadd (ftyOfOp f.op) rm f.d f.a f.b
    | 0xD => .fsub (ftyOfOp f.op) rm f.d f.a f.b
    | 0xE => .fmul (ftyOfOp f.op) rm f.d f.a f.b
    | _ => .ffma (ftyOfOp f.op) rm f.d f.a f.b

/-- Opcodes 0x40 to 0x5F (R126). -/
def decodeFloatB (f : Fields) : Option Instr :=
  let fcmpF (ty : FSc) : Option Instr :=
    (condOfCode (f.d.toNat / 8)).bind fun cc => whenZ (f.mod == 0) (.fcmp cc ty (f.d.extractLsb' 0 3) f.a f.b)
  let un (i : Instr) : Option Instr := whenZ (f.mod == 0 && f.b == 0) i
  let conv (k : IntTy → FSc → Rnd → Instr) : Option Instr :=
    (rndOfMod f.mod).bind fun rm => (convIntOf (f.b.toNat % 8)).bind fun it =>
      whenZ (f.b.toNat < 16) (k it (if f.b.toNat < 8 then .f32 else .d) rm)
  match f.op.toNat with
  | 0x40 => whenZ (f.mod == 0) (.fmin .f32 f.d f.a f.b)
  | 0x41 => whenZ (f.mod == 0) (.fmin .h2 f.d f.a f.b)
  | 0x42 => whenZ (f.mod == 0) (.fmin .b2 f.d f.a f.b)
  | 0x43 => whenZ (f.mod == 0) (.fmin .d f.d f.a f.b)
  | 0x44 => whenZ (f.mod == 0) (.fmax .f32 f.d f.a f.b)
  | 0x45 => whenZ (f.mod == 0) (.fmax .h2 f.d f.a f.b)
  | 0x46 => whenZ (f.mod == 0) (.fmax .b2 f.d f.a f.b)
  | 0x47 => whenZ (f.mod == 0) (.fmax .d f.d f.a f.b)
  | 0x48 => fcmpF .f32
  | 0x49 => fcmpF .d
  | 0x4A => un (.fclass .f32 f.d f.a)
  | 0x4B => un (.fclass .d f.d f.a)
  | 0x4C => (rndOfMod f.mod).bind fun rm => whenZ (f.b == 0) (.frnd .f32 rm f.d f.a)
  | 0x4D => (rndOfMod f.mod).bind fun rm => whenZ (f.b == 0) (.frnd .d rm f.d f.a)
  | 0x4E => (rndOfMod f.mod).bind fun rm => (cvtOfCode f.b.toNat).map fun c => .fcvt c rm f.d f.a
  | 0x4F => conv fun it ft rm => .ftoi it ft rm f.d f.a
  | 0x50 => conv fun it ft rm => .itof it ft rm f.d f.a
  | 0x51 => (rndOfMod f.mod).map fun rm => .fscale .f32 rm f.d f.a f.b
  | 0x52 => (rndOfMod f.mod).map fun rm => .fscale .d rm f.d f.a f.b
  | 0x53 => un (.fexpo .f32 f.d f.a)
  | 0x54 => un (.fexpo .d f.d f.a)
  | 0x55 => un (.fmant .f32 f.d f.a)
  | 0x56 => un (.fmant .d f.d f.a)
  | 0x57 => un (.rcpseed f.d f.a)
  | 0x58 => un (.rsqseed f.d f.a)
  | 0x59 => un (.expred f.d f.a)
  | 0x5A => un (.logred f.d f.a)
  | 0x5B => un (.sinred f.d f.a)
  | _ => none

/-- Opcodes 0x60 to 0x6F (R126). -/
def decodePacked (f : Fields) : Option Instr :=
  match f.op.toNat with
  | 0x60 => (sgOfMod f.mod).map fun sg => .dot8 sg f.d f.a f.b
  | 0x61 => (sgOfMod f.mod).map fun sg => .dot4 sg f.d f.a f.b
  | 0x62 => some (.dotf8 f.mod f.d f.a f.b)
  | 0x63 => some (.dotf4 f.mod f.d f.a f.b)
  | 0x64 => (sgOfMod f.mod).map fun sg => .dot8s sg f.d f.a f.b
  | 0x65 => some (.packn f.mod f.d f.a f.b)
  | 0x66 => some (.unpkn f.mod f.d f.a f.b)
  | 0x67 => whenZ (f.mod == 0 && f.b == 0) (.spars f.d f.a)
  | _ => none

/-- The flags of ATOM and CAS in IMM7 (R132): W64, UNS, ORD, with [2:0] zero. -/
def atomFlags (b : BitVec 7) : Option (Width × Bool × Ord2) :=
  if b.toNat % 8 = 0 then
    some (if b.toNat / 64 = 1 then .w64 else .w32, b.toNat / 32 % 2 == 1, ordOfCode (b.toNat / 8 % 4))
  else none

def atomBits (w : Width) (uns : Bool) (o : Ord2) : BitVec 7 :=
  (match w with | .w32 => 0#1 | .w64 => 1#1) ++ (if uns then 1#1 else 0#1) ++ codeOfOrd o ++ 0#3

/-- Opcodes 0x70 to 0x7F (R126, R133). -/
def decodeMemA (f : Fields) : Option Instr :=
  let odd : Bool := f.mod.toNat % 2 == 1
  match f.op.toNat with
  | 0x70 => some (.ld .b8 odd (hintOfMod f.mod) f.d f.a f.b)
  | 0x71 => some (.ld .b16 odd (hintOfMod f.mod) f.d f.a f.b)
  | 0x72 => some (.ld .b32 odd (hintOfMod f.mod) f.d f.a f.b)
  | 0x73 => some (.ld .b64 odd (hintOfMod f.mod) f.d f.a f.b)
  | 0x74 => some (.ld .b128 odd (hintOfMod f.mod) f.d f.a f.b)
  | 0x75 => whenZ (!odd) (.st .b8 (hintOfMod f.mod) f.d f.a f.b)
  | 0x76 => whenZ (!odd) (.st .b16 (hintOfMod f.mod) f.d f.a f.b)
  | 0x77 => whenZ (!odd) (.st .b32 (hintOfMod f.mod) f.d f.a f.b)
  | 0x78 => whenZ (!odd) (.st .b64 (hintOfMod f.mod) f.d f.a f.b)
  | 0x79 => whenZ (!odd) (.st .b128 (hintOfMod f.mod) f.d f.a f.b)
  | 0x7A => (ldsOfMod f.mod).map fun k => .lds k f.d f.a f.b
  | 0x7B => (stsOfMod f.mod).map fun sz => .sts sz f.d f.a f.b
  | 0x7C => (feOfMod f.mod).map fun sz => .ldfe sz odd f.d f.a f.b
  | 0x7D => (feOfMod f.mod).bind fun sz => whenZ (!odd) (.stfe sz f.d f.a f.b)
  | 0x7E => whenZ (!odd && f.d == 0) (.pref (hintOfMod f.mod) f.a f.b)
  | 0x7F => whenZ (f.mod == 0 && f.d == 0) (.cwb f.a f.b)
  | _ => none

/-- Opcodes 0x80 to 0x8F (R126, R132, R134, R135). -/
def decodeMemB (f : Fields) : Option Instr :=
  let atom (uns : Bool) (k : Scope → Width → Bool → Ord2 → Instr) : Option Instr :=
    (scopeOfMod f.mod).bind fun sc => (atomFlags f.b).bind fun fl => whenZ (uns || !fl.2.1) (k sc fl.1 fl.2.1 fl.2.2)
  match f.op.toNat with
  | 0x80 => atom false fun sc w _ o => .atomAdd sc w o f.d f.a
  | 0x81 => atom true fun sc w u o => .atomMin sc w u o f.d f.a
  | 0x82 => atom true fun sc w u o => .atomMax sc w u o f.d f.a
  | 0x83 => atom false fun sc w _ o => .atomAnd sc w o f.d f.a
  | 0x84 => atom false fun sc w _ o => .atomOr sc w o f.d f.a
  | 0x85 => atom false fun sc w _ o => .atomXor sc w o f.d f.a
  | 0x86 => atom false fun sc w _ o => .atomXchg sc w o f.d f.a
  | 0x87 => (scopeOfMod f.mod).bind fun sc => (atomFlags f.b).bind fun fl =>
      whenZ (fl.1 == .w32 && !fl.2.1) (.atomFadd sc fl.2.2 f.d f.a)
  | 0x88 => atom false fun sc w _ o => .cas sc w o f.d f.a
  | 0x89 => (lupOfMod f.mod).map fun op => .lup op f.d f.a f.b
  | 0x8A => whenZ (f.mod == 0 && f.d == 0) (.devl f.a f.b)
  | 0x8B => (scopeOfMod f.mod).bind fun sc =>
      if f.d == 0 && f.a == 0 then
        match f.b.toNat with
        | 1 => some (.fence sc .acq) | 2 => some (.fence sc .rel) | 3 => some (.fence sc .full) | _ => none
      else none
  | 0x8C => whenZ (f.mod == 0 && f.a == 0 && f.b == 0) (.pubv f.d)
  | 0x8D => whenZ (f.d == 0 && f.a == 0 && f.b == 0) (.sbind f.mod)
  | 0x8E => if f.d == 0 && f.a == 0 then
        match f.b.toNat with | 0 => some (.sunb f.mod) | 1 => some (.sunbDisc f.mod) | _ => none
      else none
  | _ => none

/-- Opcodes 0x90 to 0x9F (R126, R135). -/
def decodeSync (f : Fields) : Option Instr :=
  let odd : Bool := f.mod.toNat % 2 == 1
  match f.op.toNat with
  | 0x90 => whenZ (f.d == 0 && f.a == 0) (.bsig odd (bscopeOfMod f.mod) f.b)
  | 0x91 => whenZ (f.d == 0 && f.a == 0) (.bwait odd (bscopeOfMod f.mod) f.b)
  | 0x92 => (predField f.d).bind fun pd => whenZ (f.a == 0) (.btry odd (bscopeOfMod f.mod) pd f.b)
  | 0x93 => whenZ (f.d == 0 && f.a == 0 && f.b == 0) (.bar f.mod)
  | 0x94 => (predField f.d).bind fun pd => whenZ (f.mod == 0 && f.a == 0 && f.b == 0) (.elect pd)
  | 0x95 => (kField f.d).bind fun k => whenZ (f.mod == 0 && f.b == 0) (.kmov k f.a)
  | 0x96 => (voteOfMod f.mod).bind fun k => (predField f.a).bind fun pa => whenZ (f.b == 0) (.vote k f.d pa)
  | 0x97 => (widthOfMod f.mod).bind fun w => whenZ (f.b == 0) (.matchKey w f.d f.a)
  | 0x98 => (gredOfMod f.mod).bind fun op => whenZ (f.b == 0) (.gred op f.d f.a)
  | 0x99 => (shfOfMod f.mod).map fun m => .gshf m f.d f.a f.b
  | _ => none

/-- Opcodes 0xA0 to 0xAF (R126, R261). -/
def decodeExpand (f : Fields) : Option Instr :=
  match f.op.toNat with
  | 0xA0 => (grpOfMod f.mod).bind fun g => (predField f.d).map fun op => .expb g op f.a f.b
  | 0xA1 => (predField f.b).bind fun pb => whenZ (f.mod == 0 && f.a == 0) (.expn f.d pb)
  | 0xA2 => whenZ (f.mod == 0 && f.a == 0 && f.b == 0) (.expq f.d)
  | 0xA3 => (segOfMod f.mod).bind fun op => whenZ (f.d == 0 && f.b == 0) (.segr op f.a)
  | 0xA4 => whenZ (f.mod == 0 && f.d == 0 && f.b == 0) (.expsv f.a)
  | 0xA5 => whenZ (f.mod == 0 && f.d == 0 && f.b == 0) (.exprs f.a)
  | _ => none

/-- Opcodes 0xB0 to 0xBF (R126). -/
def decodeEngine (f : Fields) : Option Instr :=
  match f.op.toNat with
  | 0xB0 => whenZ (f.mod == 0 && f.d == 0 && f.b == 0) (.mxiss f.a)
  | 0xB1 => whenZ (f.mod == 0 && f.d == 0 && f.b == 0) (.mxdrn f.a)
  | 0xB2 => (tileField f.d).bind fun t => whenZ (f.mod == 0 && f.a == 0 && f.b == 0) (.mxclr t)
  | 0xB3 => (tileField f.a).bind fun t => whenZ (f.mod == 0) (.mxrd f.d t f.b)
  | 0xB4 => (tileField f.d).bind fun t => whenZ (f.mod == 0) (.mxwr t f.a f.b)
  | 0xB5 => whenZ (f.mod == 0 && f.d == 0 && f.b == 0) (.cpiss f.a)
  | 0xB6 => (qField f.a).bind fun q => whenZ (f.mod == 0 && f.b == 0) (.qstat f.d q)
  | _ => none

/-- Opcodes 0xE0 to 0xEF (R126, R335). -/
def decodeSystem (f : Fields) : Option Instr :=
  match f.op.toNat with
  | 0xE0 => whenZ (f.mod == 0) (.csrr f.d (f.a ++ f.b))
  | 0xE1 => whenZ (f.mod == 0) (.csrw f.d (f.a ++ f.b))
  | 0xE2 => whenZ (f.mod == 0 && f.a == 0 && f.b == 0) (.cyc f.d)
  | _ => none

/-- The opcode map (R122), by the high digit of the opcode. -/
def decodeFields (f : Fields) : Option Instr :=
  match f.op.toNat / 16 with
  | 0x0 => decodeControl f
  | 0x1 => decodeInt f
  | 0x2 => decodeLogic f
  | 0x3 => decodeFloatA f
  | 0x4 => decodeFloatB f
  | 0x5 => decodeFloatB f
  | 0x6 => decodePacked f
  | 0x7 => decodeMemA f
  | 0x8 => decodeMemB f
  | 0x9 => decodeSync f
  | 0xA => decodeExpand f
  | 0xB => decodeEngine f
  | 0xE => decodeSystem f
  | _ => none

/-- Decodes a slot word: the static part of R104. -/
def decodeWord (w : Word) : Except Reject Instr :=
  if w = 0 then .error .zeroWord
  else
    match decodeFields (splitWord w) with
    | none => .error .reserved
    | some i => if wellFormed i then .ok i else .error .illFormed

/-- One word of four bytes, little-endian (R92). -/
def wordOfBytes (bs : List Byte) : Word :=
  (bs.getD 3 0) ++ (bs.getD 2 0) ++ (bs.getD 1 0) ++ (bs.getD 0 0)

/-- The four bytes of a word, little-endian (R92). -/
def bytesOfWord (w : Word) : List Byte :=
  [w.extractLsb' 0 8, w.extractLsb' 8 8, w.extractLsb' 16 8, w.extractLsb' 24 8]

/-- Decodes the first instruction word of a list of bytes and gives the rest of the list. -/
def decodeBytes (bs : List Byte) : Except Reject (Instr × List Byte) :=
  match decodeWord (wordOfBytes (bs.take 4)) with
  | .ok i => .ok (i, bs.drop 4)
  | .error r => .error r

/-- The instruction the decoder reads from a table word: the low 32 bits of `w`, laid out little-endian. -/
def decodeTableWord (_nbits w : Nat) : Option Instr :=
  match decodeBytes (bytesOfWord (BitVec.ofNat 32 w)) with
  | .ok (i, _) => some i
  | .error _ => none

/-- The fields of an instruction, from the same tables (R122-R135); an event has none. -/
def encodeFields : Instr → Option Fields
  | .nop => some ⟨0x01, 0, 0, 0, 0⟩
  | .bra off => some ⟨0x02, off.extractLsb' 21 3, off.extractLsb' 14 7, off.extractLsb' 7 7, off.extractLsb' 0 7⟩
  | .bri a => some ⟨0x03, 0, 0, a, 0⟩
  | .call off => some ⟨0x04, off.extractLsb' 21 3, off.extractLsb' 14 7, off.extractLsb' 7 7, off.extractLsb' 0 7⟩
  | .calli a => some ⟨0x05, 0, 0, a, 0⟩
  | .ret => some ⟨0x06, 0, 0, 0, 0⟩
  | .exit => some ⟨0x07, 0, 0, 0, 0⟩
  | .trap c => some ⟨0x08, 0, 0#5 ++ c.extractLsb' 14 2, c.extractLsb' 7 7, c.extractLsb' 0 7⟩
  | .rte => some ⟨0x09, 0, 0, 0, 0⟩
  | .iadd ty d a b => some ⟨0x10, modOfIntTy ty, d, a, b⟩
  | .isub ty d a b => some ⟨0x11, modOfIntTy ty, d, a, b⟩
  | .imul ty d a b => some ⟨0x12, modOfIntTy ty, d, a, b⟩
  | .imulh ty d a b => some ⟨0x13, modOfIntTy ty, d, a, b⟩
  | .imad ty d a b => some ⟨0x14, modOfIntTy ty, d, a, b⟩
  | .imin ty d a b => some ⟨0x15, modOfIntTy ty, d, a, b⟩
  | .imax ty d a b => some ⟨0x16, modOfIntTy ty, d, a, b⟩
  | .iabs ty d a => some ⟨0x17, modOfIntTy ty, d, a, 0⟩
  | .ineg ty d a => some ⟨0x18, modOfIntTy ty, d, a, 0⟩
  | .icmp cc ty pd a b => some ⟨0x19, modOfIntTy ty, codeOfCond cc ++ pd, a, b⟩
  | .lea n d a b => some ⟨0x1A, n, d, a, b⟩
  | .sel p d a b => some ⟨0x1B, p, d, a, b⟩
  | .mov false d a => some ⟨0x1C, 0, d, a, 0⟩
  | .mov true d a => some ⟨0x1C, 1, d, a, 0⟩
  | .movK d k => some ⟨0x1C, 2, d, 0#2 ++ k, 0⟩
  | .movPop d q => some ⟨0x1C, 3, d, 0#3 ++ q, 0⟩
  | .movPush q a => some ⟨0x1C, 4, 0#3 ++ q, a, 0⟩
  | .andB w d a b => some ⟨0x20, modOfWidth w, d, a, b⟩
  | .andn w d a b => some ⟨0x21, modOfWidth w, d, a, b⟩
  | .orB w d a b => some ⟨0x22, modOfWidth w, d, a, b⟩
  | .xorB w d a b => some ⟨0x23, modOfWidth w, d, a, b⟩
  | .notB w d a => some ⟨0x24, modOfWidth w, d, a, 0⟩
  | .shl w d a b => some ⟨0x25, modOfWidth w, d, a, b⟩
  | .shr w d a b => some ⟨0x26, modOfWidth w, d, a, b⟩
  | .sha w d a b => some ⟨0x27, modOfWidth w, d, a, b⟩
  | .rot w d a b => some ⟨0x28, modOfWidth w, d, a, b⟩
  | .bfx ty d a b => some ⟨0x29, modOfIntTy ty, d, a, b⟩
  | .bfi w d a b => some ⟨0x2A, modOfWidth w, d, a, b⟩
  | .popc w d a => some ⟨0x2B, modOfWidth w, d, a, 0⟩
  | .clz w d a => some ⟨0x2C, modOfWidth w, d, a, 0⟩
  | .ctz w d a => some ⟨0x2D, modOfWidth w, d, a, 0⟩
  | .brev w d a => some ⟨0x2E, modOfWidth w, d, a, 0⟩
  | .plop t pd pa pb => some ⟨0x2F, 0, 0#4 ++ pd, t ++ pa, 0#4 ++ pb⟩
  | .fadd ty rm d a b => some ⟨opOfFTy 0x30 ty, modOfRnd rm, d, a, b⟩
  | .fsub ty rm d a b => some ⟨opOfFTy 0x34 ty, modOfRnd rm, d, a, b⟩
  | .fmul ty rm d a b => some ⟨opOfFTy 0x38 ty, modOfRnd rm, d, a, b⟩
  | .ffma ty rm d a b => some ⟨opOfFTy 0x3C ty, modOfRnd rm, d, a, b⟩
  | .fmin ty d a b => some ⟨opOfFTy 0x40 ty, 0, d, a, b⟩
  | .fmax ty d a b => some ⟨opOfFTy 0x44 ty, 0, d, a, b⟩
  | .fcmp cc ty pd a b => some ⟨opOfFSc 0x48 ty, 0, codeOfCond cc ++ pd, a, b⟩
  | .fclass ty d a => some ⟨opOfFSc 0x4A ty, 0, d, a, 0⟩
  | .frnd ty rm d a => some ⟨opOfFSc 0x4C ty, modOfRnd rm, d, a, 0⟩
  | .fcvt c rm d a => some ⟨0x4E, modOfRnd rm, d, a, codeOfCvt c⟩
  | .ftoi it ft rm d a => some ⟨0x4F, modOfRnd rm, d, a, 0#3 ++ fscBit ft ++ modOfIntTy it⟩
  | .itof it ft rm d a => some ⟨0x50, modOfRnd rm, d, a, 0#3 ++ fscBit ft ++ modOfIntTy it⟩
  | .fscale ty rm d a b => some ⟨opOfFSc 0x51 ty, modOfRnd rm, d, a, b⟩
  | .fexpo ty d a => some ⟨opOfFSc 0x53 ty, 0, d, a, 0⟩
  | .fmant ty d a => some ⟨opOfFSc 0x55 ty, 0, d, a, 0⟩
  | .rcpseed d a => some ⟨0x57, 0, d, a, 0⟩
  | .rsqseed d a => some ⟨0x58, 0, d, a, 0⟩
  | .expred d a => some ⟨0x59, 0, d, a, 0⟩
  | .logred d a => some ⟨0x5A, 0, d, a, 0⟩
  | .sinred d a => some ⟨0x5B, 0, d, a, 0⟩
  | .dot8 sg d a b => some ⟨0x60, modOfSg sg, d, a, b⟩
  | .dot4 sg d a b => some ⟨0x61, modOfSg sg, d, a, b⟩
  | .dotf8 f d a b => some ⟨0x62, f, d, a, b⟩
  | .dotf4 f d a b => some ⟨0x63, f, d, a, b⟩
  | .dot8s sg d a b => some ⟨0x64, modOfSg sg, d, a, b⟩
  | .packn f d a b => some ⟨0x65, f, d, a, b⟩
  | .unpkn f d a b => some ⟨0x66, f, d, a, b⟩
  | .spars d a => some ⟨0x67, 0, d, a, 0⟩
  | .ld sz sx h d a imm => some ⟨opOfMSize 0x70 sz, modOfHint h + (if sx then 1 else 0), d, a, imm⟩
  | .st sz h d a imm => some ⟨opOfMSize 0x75 sz, modOfHint h, d, a, imm⟩
  | .lds k d a imm => some ⟨0x7A, modOfLds k, d, a, imm⟩
  | .sts sz d a imm => some ⟨0x7B, modOfSts sz, d, a, imm⟩
  | .ldfe sz clr d a imm => some ⟨0x7C, modOfFe sz clr, d, a, imm⟩
  | .stfe sz d a imm => some ⟨0x7D, modOfFe sz false, d, a, imm⟩
  | .pref h a imm => some ⟨0x7E, modOfHint h, 0, a, imm⟩
  | .cwb a imm => some ⟨0x7F, 0, 0, a, imm⟩
  | .atomAdd sc w o d a => some ⟨0x80, modOfScope sc, d, a, atomBits w false o⟩
  | .atomMin sc w u o d a => some ⟨0x81, modOfScope sc, d, a, atomBits w u o⟩
  | .atomMax sc w u o d a => some ⟨0x82, modOfScope sc, d, a, atomBits w u o⟩
  | .atomAnd sc w o d a => some ⟨0x83, modOfScope sc, d, a, atomBits w false o⟩
  | .atomOr sc w o d a => some ⟨0x84, modOfScope sc, d, a, atomBits w false o⟩
  | .atomXor sc w o d a => some ⟨0x85, modOfScope sc, d, a, atomBits w false o⟩
  | .atomXchg sc w o d a => some ⟨0x86, modOfScope sc, d, a, atomBits w false o⟩
  | .atomFadd sc o d a => some ⟨0x87, modOfScope sc, d, a, atomBits .w32 false o⟩
  | .cas sc w o d a => some ⟨0x88, modOfScope sc, d, a, atomBits w false o⟩
  | .lup op d a imm => some ⟨0x89, modOfLup op, d, a, imm⟩
  | .devl a imm => some ⟨0x8A, 0, 0, a, imm⟩
  | .fence sc .acq => some ⟨0x8B, modOfScope sc, 0, 0, 1⟩
  | .fence sc .rel => some ⟨0x8B, modOfScope sc, 0, 0, 2⟩
  | .fence sc .full => some ⟨0x8B, modOfScope sc, 0, 0, 3⟩
  | .pubv d => some ⟨0x8C, 0, d, 0, 0⟩
  | .sbind w => some ⟨0x8D, w, 0, 0, 0⟩
  | .sunb w => some ⟨0x8E, w, 0, 0, 0⟩
  | .sunbDisc w => some ⟨0x8E, w, 0, 0, 1⟩
  | .bsig r sc b => some ⟨0x90, modOfBScope sc r, 0, 0, b⟩
  | .bwait r sc b => some ⟨0x91, modOfBScope sc r, 0, 0, b⟩
  | .btry r sc pd b => some ⟨0x92, modOfBScope sc r, 0#4 ++ pd, 0, b⟩
  | .bar n => some ⟨0x93, n, 0, 0, 0⟩
  | .elect pd => some ⟨0x94, 0, 0#4 ++ pd, 0, 0⟩
  | .kmov k a => some ⟨0x95, 0, 0#2 ++ k, a, 0⟩
  | .vote k d pa => some ⟨0x96, modOfVote k, d, 0#4 ++ pa, 0⟩
  | .matchKey w d a => some ⟨0x97, modOfWidth w, d, a, 0⟩
  | .gred op d a => some ⟨0x98, modOfGred op, d, a, 0⟩
  | .gshf m d a b => some ⟨0x99, modOfShf m, d, a, b⟩
  | .expb n op a b => some ⟨0xA0, modOfGrp n, 0#4 ++ op, a, b⟩
  | .expn d pb => some ⟨0xA1, 0, d, 0, 0#4 ++ pb⟩
  | .expq d => some ⟨0xA2, 0, d, 0, 0⟩
  | .segr op a => some ⟨0xA3, modOfSeg op, 0, a, 0⟩
  | .expsv a => some ⟨0xA4, 0, 0, a, 0⟩
  | .exprs a => some ⟨0xA5, 0, 0, a, 0⟩
  | .mxiss a => some ⟨0xB0, 0, 0, a, 0⟩
  | .mxdrn a => some ⟨0xB1, 0, 0, a, 0⟩
  | .mxclr t => some ⟨0xB2, 0, 0#5 ++ t, 0, 0⟩
  | .mxrd d t b => some ⟨0xB3, 0, d, 0#5 ++ t, b⟩
  | .mxwr t a b => some ⟨0xB4, 0, 0#5 ++ t, a, b⟩
  | .cpiss a => some ⟨0xB5, 0, 0, a, 0⟩
  | .qstat d q => some ⟨0xB6, 0, d, 0#3 ++ q, 0⟩
  | .csrr d n => some ⟨0xE0, 0, d, n.extractLsb' 7 7, n.extractLsb' 0 7⟩
  | .csrw d n => some ⟨0xE1, 0, d, n.extractLsb' 7 7, n.extractLsb' 0 7⟩
  | .cyc d => some ⟨0xE2, 0, d, 0, 0⟩
  | _ => none

/-- The word of an instruction; none for an event. -/
def encode (i : Instr) : Option Word := (encodeFields i).map joinWord

/-- The control word (R93). -/
structure Ctl where
  hold : Nat
  be : Bool
  bs : Bool
  lit : Nat
  ngc : Bool
  gc : Pred
  ngb : Bool
  gb : Pred
  nga : Bool
  ga : Pred
  chbc : Bool
  chab : Bool
  stc : Nat
  stb : Nat
  sta : Nat
deriving DecidableEq, Repr

/-- Reads a control word (R93). -/
def decodeCtl (w : Word) : Ctl :=
  { hold := (w.extractLsb' 30 2).toNat, be := w.getLsbD 29, bs := w.getLsbD 28, lit := (w.extractLsb' 26 2).toNat,
    ngc := w.getLsbD 25, gc := w.extractLsb' 22 3, ngb := w.getLsbD 21, gb := w.extractLsb' 18 3,
    nga := w.getLsbD 17, ga := w.extractLsb' 14 3, chbc := w.getLsbD 13, chab := w.getLsbD 12,
    stc := (w.extractLsb' 8 4).toNat, stb := (w.extractLsb' 4 4).toNat, sta := (w.extractLsb' 0 4).toNat }

end Sys2Proof
end

