-- ==== Sys2Proof/Machine/Operands.lean ====
section
/-! DEFINITION. Operand forms: registers, groups, widened literals and form M offsets (spec 04 R86-R103), and the two
ways a slot acts on the threads whose guard is true (R318). -/
namespace Sys2Proof.Machine

/-- The slot acts in each active thread on its own, in ascending home lane (R318). -/
def mapLanes (s : State) (f : Thread → Thread) : State :=
  s.cur.tids.foldl (fun s' tid => s'.setThread tid (f (s.thread tid))) s

/-- The slot acts in each active thread with the whole state, in ascending home lane. -/
def eachLane (s : State) (f : State → Nat → State) : State := s.cur.tids.foldl f s

/-- Registers of a width. -/
def wRegs : Width → Nat
  | .w32 => 1
  | .w64 => 2
/-- Bits of a width. -/
def wBits (w : Width) : Nat := 32 * wRegs w
/-- The width of an integer type. -/
def tyWidth : IntTy → Width
  | .i64 | .n64 => .w64
  | _ => .w32
/-- The type is signed. -/
def tySigned : IntTy → Bool
  | .i32 | .i64 | .i32s => true
  | _ => false
/-- The type saturates (R142). -/
def tySat : IntTy → Bool
  | .i32s | .n32s => true
  | _ => false

/-- A register operand of a width, as an unsigned number. -/
def rdW (t : Thread) (w : Width) (r : Reg) : Nat := t.group (wRegs w) r.toNat
/-- Writes a result of a width. -/
def wrW (t : Thread) (w : Width) (r : Reg) (v : Nat) : Thread := t.setGroup (wRegs w) r.toNat v

/-- sext(literal, 32) as 64 bits (R103). -/
def litSext (l : DWord) : Nat := lowBits (sextNat l.toNat 32) 64

/-- The B operand of a width, or the literal widened to it (R103). -/
def rdB (c : Issue) (t : Thread) (w : Width) (b : Reg) : Nat :=
  match c.lit with
  | none => rdW t w b
  | some l =>
    match w with
    | .w32 => l.toNat % 2 ^ 32
    | .w64 => if c.lit64 then l.toNat else litSext l

/-- An F64 B operand: a 32-bit literal is an F32 value converted exactly (R103). -/
def rdBD (c : Issue) (t : Thread) (b : Reg) : Nat :=
  match c.lit with
  | none => t.group 2 b.toNat
  | some l => if c.lit64 then l.toNat else F64.round .rne (F32.value (l.toNat % 2 ^ 32))

/-- The byte offset of a form M instruction: IMM7 in its unit, or the literal (R100, R103). -/
def offM (c : Issue) (imm : BitVec 7) (unit : Nat) : Int :=
  match c.lit with
  | none => imm.toInt * unit
  | some l => if c.lit64 then l.toInt else sextNat l.toNat 32

/-- A global address: (a + off) mod 2^64. -/
def gAddr (c : Issue) (t : Thread) (a : Reg) (imm : BitVec 7) (unit : Nat) : Nat :=
  lowBits ((t.group 2 a.toNat : Int) + offM c imm unit) 64

/-- A scratchpad address: (va + off) mod 2^32. -/
def sAddr (c : Issue) (t : Thread) (a : Reg) (imm : BitVec 7) (unit : Nat) : Nat :=
  lowBits (((t.reg a.toNat).toNat : Int) + offM c imm unit) 32

/-- Bytes of an access size. -/
def szBytes : MSize → Nat
  | .b8 => 1
  | .b16 => 2
  | .b32 => 4
  | .b64 => 8
  | .b128 => 16
def feBytes : FeSize → Nat
  | .b32 => 4
  | .b64 => 8
  | .b128 => 16
def ldsBytes : LdsKind → Nat
  | .n8 | .i8 => 1
  | .n16 | .i16 => 2
  | .b32 => 4
  | .b64 => 8
  | .b128 => 16

/-- Registers that hold an access of n bytes. -/
def regsFor (n : Nat) : Nat := (n + 3) / 4

/-- The launch and team of the pass being executed. -/
def curLaunch (s : State) : Option Launch := (s.pass s.curPass).bind fun p => s.launch p.launch
/-- The block of the pass is a GANG block. -/
def curGang (s : State) : Bool := ((s.pass s.curPass).map (·.gang)).getD false

/-- A format slot of the pass's launch that SLOTS allows (R69, R102). -/
def fmtSlot (s : State) (f : Nat) : Option (BitVec 128) :=
  match curLaunch s with
  | none => none
  | some l => if l.slots / 2 ^ f % 2 = 1 then some (l.fslot f) else none

end Sys2Proof.Machine
end

