-- ==== Sys2Proof/Machine/Info.lean ====
section
/-! DEFINITION. What the opcode map fixes for each instruction: pipe, latency class, the registers and predicates that it
reads and writes, what a literal replaces, and where it may stand (spec 05 R124-R135, 04 R94-R103, 02 R29, R48). -/
namespace Sys2Proof.Machine

/-- Pipes (R96). -/
inductive Pipe | none | v | m | x
deriving DecidableEq, Repr

/-- Latency classes (R97): a stall-count class with its λ, S, L, or no result. -/
inductive Lat
  | fixed (n : Nat)
  | s
  | l
  | no
deriving DecidableEq, Repr

/-- What a literal replaces (R94, R103): nothing, a 32-bit operand, a 64-bit operand, or the offset of form M. -/
inductive Lit | no | w32 | w64 | off
deriving DecidableEq, Repr

/-- Where an instruction may stand (R29). -/
inductive Stand | any | wait | transfer
deriving DecidableEq, Repr

/-- The attributes of one instruction. -/
structure Info where
  pipe : Pipe
  lat : Lat
  /-- v registers that it reads, other than a B operand that a literal may replace. -/
  rd : List Nat
  /-- v registers of the B operand. -/
  rb : List Nat
  wr : List Nat
  prd : List Nat
  pwr : List Nat
  lit : Lit
  /-- The B or IMM7 field that a literal replaces is zero. -/
  zero : Bool
  /-- Registers of the group that A names as a source: 0 where HOLD may not name it (R99). -/
  hold : Nat
  aReg : Nat
  /-- Team register, tile and queue that it names. -/
  kreg : Option Nat
  tile : Option Nat
  queue : Option Nat
  stand : Stand
  gang : Bool
deriving DecidableEq, Repr

/-- Registers of a group (R87). -/
def grp (n : Nat) (r : Reg) : List Nat := (List.range n).map (r.toNat + ·)

/-- Registers of a float type's operand (R346). -/
def ftyRegs : FTy → Nat
  | .d => 2
  | _ => 1
def fscRegs : FSc → Nat
  | .d => 2
  | .f32 => 1
/-- Latency of a float type (R126). -/
def ftyLat : FTy → Lat
  | .d => .fixed 12
  | _ => .fixed 6
def fscLat : FSc → Lat
  | .d => .fixed 12
  | .f32 => .fixed 6
/-- The literal class of a B operand of n registers. -/
def litOf (n : Nat) : Lit := if n = 2 then .w64 else .w32
def tyRegs (ty : IntTy) : Nat := wRegs (tyWidth ty)
/-- Registers of D of an FCVT, and of A (R129). -/
def cvtD (c : CvtCode) : Nat := if cvtDX c then 2 else 1
def cvtA (c : CvtCode) : Nat := if cvtAX c then 2 else 1
/-- Registers of a CSR operand (R335). -/
def csrRegs (n : Nat) : Nat := if csr64 n then 2 else 1

/-- An instruction that names nothing. -/
def Info.base (p : Pipe) (lt : Lat) : Info :=
  { pipe := p, lat := lt, rd := [], rb := [], wr := [], prd := [], pwr := [], lit := .no, zero := true, hold := 0, aReg := 0,
    kreg := none, tile := none, queue := none, stand := .any, gang := false }

/-- A on n registers, readable through HOLD. -/
def Info.a (i : Info) (n : Nat) (a : Reg) : Info := { i with rd := i.rd ++ grp n a, hold := n, aReg := a.toNat }
/-- B on n registers, or a literal. -/
def Info.b (i : Info) (n : Nat) (b : Reg) : Info := { i with rb := grp n b, lit := litOf n, zero := b == 0 }
/-- D is written on n registers. -/
def Info.d (i : Info) (n : Nat) (d : Reg) : Info := { i with wr := i.wr ++ grp n d }
/-- D is read on n registers. -/
def Info.r (i : Info) (n : Nat) (d : Reg) : Info := { i with rd := i.rd ++ grp n d }
/-- The offset of form M. -/
def Info.m (i : Info) (imm : BitVec 7) : Info := { i with lit := .off, zero := imm == 0 }
/-- A predicate is written. p7 is not, and so is none that two slots write: the spec does not say whether a write that is ignored counts
(R88, R96; log 124). -/
def Info.pd (i : Info) (p : Pred) : Info := { i with pwr := if p == 7 then [] else [p.toNat] }

/-- D, A and B of n registers each, on the V pipe. -/
def tri (lam n : Nat) (d a b : Reg) : Info := (((Info.base .v (.fixed lam)).a n a).b n b).d n d
/-- D and A on the V pipe. -/
def duo (lt : Lat) (n m : Nat) (d a : Reg) : Info := ((Info.base .v lt).a m a).d n d

/-- The attributes of an instruction. `g` is the number of registers of the group operand of PACKN and UNPKN, which the
slot's format selects (R374). -/
def info (g : Nat) : Instr → Info
  | .nop => Info.base .none .no
  | .bra _ | .exit | .trap _ | .rte => Info.base .x .no
  | .ret => { Info.base .x .no with rd := [126, 127] }
  | .bri a => (Info.base .x .no).a 2 a
  | .call _ => { Info.base .x (.fixed 2) with wr := [126, 127] }
  | .calli a => { (Info.base .x (.fixed 2)).a 2 a with wr := [126, 127] }
  | .iadd ty d a b | .isub ty d a b | .imin ty d a b | .imax ty d a b => tri 4 (tyRegs ty) d a b
  | .imul ty d a b | .imulh ty d a b => tri 6 (tyRegs ty) d a b
  | .imad ty d a b => (tri 6 (tyRegs ty) d a b).r (tyRegs ty) d
  | .iabs ty d a | .ineg ty d a => duo (.fixed 4) (tyRegs ty) (tyRegs ty) d a
  | .icmp _ ty pd a b => (((Info.base .v (.fixed 4)).a (tyRegs ty) a).b (tyRegs ty) b).pd pd
  | .lea _ d a b => (((Info.base .v (.fixed 4)).a 2 a).b 1 b).d 2 d
  | .sel p d a b => { tri 4 1 d a b with prd := [p.toNat] }
  | .mov pair d a => duo (.fixed 4) (if pair then 2 else 1) (if pair then 2 else 1) d a
  | .movK d k => { (Info.base .v (.fixed 4)).d 1 d with kreg := some k.toNat }
  | .movPop d q => { (Info.base .x .l).d 1 d with queue := some q.toNat }
  | .movPush q a => { (Info.base .x .no).a 1 a with queue := some q.toNat }
  | .andB w d a b | .andn w d a b | .orB w d a b | .xorB w d a b => tri 4 (wRegs w) d a b
  | .notB w d a | .brev w d a => duo (.fixed 4) (wRegs w) (wRegs w) d a
  | .shl w d a b | .shr w d a b | .sha w d a b | .rot w d a b =>
      (((Info.base .v (.fixed 4)).a (wRegs w) a).b 1 b).d (wRegs w) d
  | .bfx ty d a b => (((Info.base .v (.fixed 4)).a (tyRegs ty) a).b 1 b).d (tyRegs ty) d
  | .bfi w d a b => ((((Info.base .v (.fixed 4)).a (wRegs w) a).b 1 b).d (wRegs w) d).r (wRegs w) d
  | .popc w d a | .clz w d a | .ctz w d a => duo (.fixed 4) 1 (wRegs w) d a
  | .plop _ pd pa pb => { (Info.base .v (.fixed 4)).pd pd with prd := [pa.toNat, pb.toNat] }
  | .fadd ty _ d a b | .fsub ty _ d a b | .fmul ty _ d a b | .fmin ty d a b | .fmax ty d a b =>
      { tri 6 (ftyRegs ty) d a b with lat := ftyLat ty }
  | .ffma ty _ d a b => { (tri 6 (ftyRegs ty) d a b).r (ftyRegs ty) d with lat := ftyLat ty }
  | .fcmp _ ty pd a b => (((Info.base .v (fscLat ty)).a (fscRegs ty) a).b (fscRegs ty) b).pd pd
  | .fclass ty d a | .fexpo ty d a => duo (fscLat ty) 1 (fscRegs ty) d a
  | .frnd ty _ d a | .fmant ty d a => duo (fscLat ty) (fscRegs ty) (fscRegs ty) d a
  | .fcvt c _ d a => duo (.fixed 6) (cvtD c) (cvtA c) d a
  | .ftoi it ft _ d a => duo (.fixed 6) (tyRegs it) (fscRegs ft) d a
  | .itof it ft _ d a => duo (.fixed 6) (fscRegs ft) (tyRegs it) d a
  | .fscale ty _ d a b => (((Info.base .v (fscLat ty)).a (fscRegs ty) a).b 1 b).d (fscRegs ty) d
  | .rcpseed d a | .rsqseed d a => duo (.fixed 6) 1 1 d a
  | .expred d a | .logred d a | .sinred d a => duo (.fixed 6) 2 1 d a
  | .dot8 _ d a b | .dot4 _ d a b | .dotf8 _ d a b | .dotf4 _ d a b => (tri 6 1 d a b).r 1 d
  | .dot8s _ d a b => ((((Info.base .v (.fixed 6)).a 2 a).d 1 d).r 1 d).r 2 b
  | .packn _ d a b => (((Info.base .v (.fixed 6)).a g a).b 1 b).d 1 d
  | .unpkn _ d a b => (((Info.base .v (.fixed 6)).a 1 a).b 1 b).d g d
  | .spars d a => duo (.fixed 6) 2 2 d a
  | .ld sz _ _ d a imm => (((Info.base .m .l).a 2 a).d (regsFor (szBytes sz)) d).m imm
  | .st sz _ d a imm => (((Info.base .m .no).a 2 a).r (regsFor (szBytes sz)) d).m imm
  | .lds k d a imm => (((Info.base .m .s).a 1 a).d (regsFor (ldsBytes k)) d).m imm
  | .sts sz d a imm => (((Info.base .m .no).a 1 a).r (regsFor (szBytes sz)) d).m imm
  | .ldfe sz _ d a imm => (((Info.base .m .l).a 1 a).d (regsFor (feBytes sz)) d).m imm
  | .stfe sz d a imm => (((Info.base .m .no).a 1 a).r (regsFor (feBytes sz)) d).m imm
  | .pref _ a imm | .cwb a imm | .devl a imm => ((Info.base .m .no).a 2 a).m imm
  | .atomAdd _ w _ d a | .atomMin _ w _ _ d a | .atomMax _ w _ _ d a | .atomAnd _ w _ d a | .atomOr _ w _ d a
  | .atomXor _ w _ d a | .atomXchg _ w _ d a => (((Info.base .m .l).a 2 a).d (wRegs w) d).r (wRegs w) d
  | .atomFadd _ _ d a => (((Info.base .m .l).a 2 a).d 1 d).r 1 d
  | .cas _ w _ d a => (((Info.base .m .l).a 2 a).d (2 * wRegs w) d).r (2 * wRegs w) d
  | .lup _ d a imm => (((Info.base .m .no).a 2 a).r 1 d).m imm
  | .fence .. | .sbind _ | .sunb _ | .sunbDisc _ => Info.base .m .no
  | .pubv d => (Info.base .m .l).d 2 d
  | .bsig _ _ b => (Info.base .x .no).b 1 b
  | .bwait _ _ b => (Info.base .x .no).b 1 b
  | .btry _ _ pd b => ((Info.base .x (.fixed 2)).b 1 b).pd pd
  | .bar _ => Info.base .x .no
  | .elect pd => (Info.base .x (.fixed 2)).pd pd
  | .kmov k a => { (Info.base .x .no).a 1 a with kreg := some k.toNat }
  | .vote .ballot d pa => { (Info.base .x (.fixed 2)).d 1 d with prd := [pa.toNat], gang := true }
  | .vote _ d pa =>
      { Info.base .x (.fixed 2) with prd := [pa.toNat], pwr := if d == 7 then [] else [d.toNat], gang := true }
  | .matchKey w d a => { (((Info.base .x (.fixed 2)).a (wRegs w) a).d 1 d) with gang := true }
  | .gred _ d a => { (((Info.base .x (.fixed 2)).a 1 a).d 1 d) with gang := true }
  | .gshf _ d a b => { ((((Info.base .x (.fixed 2)).a 1 a).b 1 b).d 1 d) with gang := true }
  | .expb _ _ a b => { (((Info.base .x .no).a 1 a).b 1 b) with gang := true }
  | .expn d pb => { (((Info.base .x .l).d 2 d).pd pb) with gang := true }
  | .expq d => (Info.base .x (.fixed 2)).d 1 d
  | .segr _ a => (Info.base .x .no).a 1 a
  | .expsv a | .exprs a => (Info.base .m .no).a 1 a
  | .mxiss a | .mxdrn a => { (Info.base .x .no).a 1 a with queue := some 8 }
  | .cpiss a => { (Info.base .x .no).a 1 a with queue := some 9 }
  | .mxclr t => { Info.base .x .no with tile := some t.toNat }
  | .mxrd d t b => { (((Info.base .x .l).b 1 b).d 4 d) with tile := some t.toNat }
  | .mxwr t a b => { (((Info.base .x .no).a 4 a).b 1 b) with tile := some t.toNat }
  | .qstat d _ => (Info.base .x (.fixed 2)).d 1 d
  | .csrr d n => (Info.base .x (.fixed 2)).d (csrRegs n.toNat) d
  | .csrw d n => (Info.base .x .no).r (csrRegs n.toNat) d
  | .cyc d => (Info.base .x (.fixed 2)).d 2 d
  | _ => Info.base .none .no

/-- Where an instruction may stand (R29). -/
def standOf : Instr → Stand
  | .bwait .. | .bar _ | .movPop .. | .movPush .. | .exit | .mxiss _ | .mxdrn _ | .cpiss _ => .wait
  | .bra _ | .bri _ | .call _ | .calli _ | .ret | .rte | .trap _ => .transfer
  | _ => .any

/-- Elements of a format of R374, and so the registers of its group; none for F32. -/
def fmtElems (fmt : Nat) : Option Nat :=
  match fmt with
  | 2 | 3 => some 2
  | 4 | 5 => some 4
  | 6 => some 8
  | 7 | 8 => some 4
  | 9 | 10 => some 8
  | 11 | 12 => some 2
  | _ => none

end Sys2Proof.Machine
end

