-- ==== Sys2Proof/Machine/Scratch.lean ====
section
/-! DEFINITION. Scratchpad addresses and their checks, banks, full-empty fills, and stash accesses (spec 07 R163-R174,
15 R362-R363, 16 R392-R393). -/
namespace Sys2Proof.Machine

/-! ## Addresses (R163, R164) -/

/-- Where a scratchpad address leads: physical offset `p` of core `g`, through the local space or the cluster window; or
byte `off` of sector `idx` of stash window `w`. -/
inductive SPlace
  | phys (g p : Nat) (own : Bool)
  | stash (w idx off : Nat)
deriving DecidableEq, Repr

/-- Two ranges of bytes meet. -/
def meets (a n b m : Nat) : Bool := decide (a < b + m) && decide (b < a + n)

/-- Bytes at a local offset meet the backing range of a bound window. -/
def inBacking (s : State) (t : Team) (o n : Nat) : Bool :=
  (List.range 8).any fun w => winBound s t w && meets o n (winSoff s t w) (winLen s t w)

/-- Bytes at a local offset meet the descriptor of a bound window. -/
def inDescriptor (s : State) (t : Team) (o n : Nat) : Bool :=
  (List.range 8).any fun w => winBound s t w && meets o n (descOff t w) 32

/-- Bytes at a local offset meet the table of an open expansion (R263). -/
def inTable (t : Team) (o n : Nat) : Bool :=
  t.expand.st != 0 && meets o n (tableOff t t.expand.gangs).toNat (32 * t.expand.parts)

/-- The protections of SUB 0x06 and 0x08 on bytes of a team's allotment: none, or the reason. A cluster-window access of
another team may write a backing range (log 94). -/
def protect (s : State) (t : Team) (o n : Nat) (loc wr : Bool) : Option Nat :=
  if (loc && inBacking s t o n) || (wr && inDescriptor s t o n) then some 0x06
  else if wr && inTable t o n then some 0x08
  else none

/-- The team of a launch with a rank on a core (R165). -/
def teamOfRank (s : State) (launch g r : Nat) : Option Team :=
  let ts := s.teams.filter fun t => t.2.core == g && t.2.launch == launch
  ((sortBy (fun k => ((s.team k).map (·.num)).getD 0) (ts.map (·.1)))[r]?).bind s.team

/-- Resolves and checks an access of n bytes by a team (R164): the place, or the SUB of the first reason. -/
def spadResolve (s : State) (t : Team) (va n : Nat) (wr stashOk : Bool) : Except Nat SPlace :=
  match va / 2 ^ 30 with
  | 0 =>
    let o := va % 2 ^ 19
    if va / 2 ^ 19 ≠ 0 then .error 0x01
    else if va % n ≠ 0 then .error 0x07
    else if 1024 * t.spadK < o + n then .error 0x02
    else
      match protect s t o n true wr with
      | some r => .error r
      | none => .ok (.phys t.core (t.spadBase + o) true)
  | 1 =>
    let o := va % 2 ^ 19
    if va % n ≠ 0 then .error 0x07
    else
      let g := clusterOf t.core * 64 + bitsOf va 24 6
      match teamOfRank s t.launch g (bitsOf va 19 5) with
      | none => .error 0x03
      | some u =>
        if 1024 * u.spadK < o + n then .error 0x02
        else
          match protect s u o n false wr with
          | some r => .error r
          | none => .ok (.phys g (u.spadBase + o) false)
  | 2 =>
    let w := bitsOf va 27 3
    let j := va % 2 ^ 27
    if !stashOk then .error 0x01
    else if va % n ≠ 0 then .error 0x07
    else if !(1024 * t.spadK ≥ 256 && winBound s t w) || winLen s t w ≤ j then .error 0x04
    else if wr && !winWr s t w then .error 0x05
    else .ok (.stash w (j / 64) (j % 64))
  | _ => .error 0x01

/-! ## Banks (R167-R169) -/

/-- Parity of the low n bits. -/
def parity : (n x : Nat) → Nat
  | 0, _ => 0
  | n + 1, x => (x % 2 + parity n (x / 2)) % 2

/-- The bank of a physical offset under the hash masks. -/
def bankOf (masks : List Word) (p : Nat) : Nat :=
  ((masks.mapIdx fun i m => parity 19 (p &&& fld m 0 19) * 2 ^ i)).foldl (· + ·) 0

/-- Words that an access touches. -/
def wordsOf (p n : Nat) : List Nat := (List.range ((p % 4 + n + 3) / 4)).map (p / 4 + ·)

/-- A lane-port slot of a core needed more than one cycle, and some lanes entered the replay queue (R169). -/
def countReplay (s : State) (g lanes : Nat) : State :=
  s.updCore g fun c =>
    { c with sbconf := setFld (setFld c.sbconf 0 32 (min 0xFFFFFFFF (fld c.sbconf 0 32 + 1))) 32 32
               (min 0xFFFFFFFF (fld c.sbconf 32 32 + lanes)) }

/-- Counts one lane-port slot: `reqs` is the offset and size of each lane's access, in ascending home lane, but for `waits` lanes that
wait in the replay queue for a write-back (R168, R169, R174). -/
def countConflicts (s : State) (g : Nat) (masks : List Word) (reqs : List (Nat × Nat)) (waits : Nat) : State :=
  let ws := (reqs.flatMap fun r => wordsOf r.1 r.2).foldl (fun l w => if l.contains w then l else l ++ [w]) []
  -- the words that the first cycle serves: for every bank, the word asked for first
  let served := ws.foldl (fun l w =>
    if l.any (fun v => bankOf masks (4 * v) == bankOf masks (4 * w)) then l else l ++ [w]) []
  if served.length = ws.length ∧ waits = 0 then s
  else countReplay s g ((reqs.filter fun r => (wordsOf r.1 r.2).any fun w => !served.contains w).length + waits)

/-! ## Poison consumed by a thread (R299) -/

/-- The thread takes a trap when it would enter its successor: a delivered fault, or poison that it consumed. Of several it takes
the one that came first, and the others are no more (log 107). -/
def setDue (s : State) (tid cause sub : Nat) (word : Word) : State :=
  s.updThread tid fun t => { t with due := match t.due with
    | some d => some d
    | none => some ⟨cause, sub, word⟩ }

/-! ## Full-empty fills (R170, R171) -/

/-- Completes a waiting LDFE: reads its bytes, and clears the bit for .CLR. -/
def serveLdfe (s : State) (id : Nat) : State :=
  match s.acc id with
  | some a =>
    match a.kind with
    | .ldfe clr g p =>
      let v := ofLe (spadGet s g p a.size)
      let s := if spadPoisoned s g p a.size then setDue s a.tid 0x18 0 a.word else s
      let s := if clr then setEmpty s g p else s
      finishAcc s id v
    | _ => s
  | none => s

/-- When an LDFE reached its granule: the order number that it then took, or now (R171). Those of one slot that nothing holds
arrive together, when the slot issues. -/
def ldfeArrival (s : State) (a : Access) : Nat := if a.data = 0 then s.seq else a.data.toNat

/-- LDFE accesses that wait on the granule of an offset, in order of arrival; a tie goes to the lower core and then to the lower thread slot (R171).
One that an earlier acquire or fence of its thread still holds has not arrived. -/
def ldfeWaiters (s : State) (g p : Nat) (clr : Bool) : List Nat :=
  let mine := s.accs.filter fun a => (match a.2.kind with
    | .ldfe c g' p' => c == clr && g' == g && p' / 16 == p / 16
    | _ => false) && accReady s a.1
  sortBy (fun id => match s.acc id with
    | some a => ldfeArrival s a * 2 ^ 24 + a.tid
    | none => 0) (mine.map (·.1))

/-- LDFE_FILL_WAKE: a granule becomes full; every waiting LDFE completes, then the first LDFE.CLR. -/
def fillGranule (s : State) (g p : Nat) : State :=
  let s := setFull s g p
  let s := (ldfeWaiters s g p false).foldl serveLdfe s
  match ldfeWaiters s g p true with
  | [] => s
  | id :: _ => serveLdfe s id

/-- An LDFE at a full granule completes at once (R171). -/
def tryLdfe (s : State) (id : Nat) : State :=
  match s.acc id with
  | some a =>
    match a.kind with
    | .ldfe _ g p => if isFull s g p && accReady s id then serveLdfe s id else s
    | _ => s
  | none => s

/-- LDFEs that no earlier acquire or fence of their threads holds any more reach their granules, and complete at once where one is
full; that may let others go (R171, R223). -/
def arriveLdfes (s : State) : (fuel : Nat) → State
  | 0 => s
  | fuel + 1 =>
    let new := (s.accs.filter fun a => a.2.kind.isLdfe && a.2.data == 0 && accReady s a.1).map (·.1)
    if new.isEmpty then s
    else
      let put (a : Nat × Access) : Nat × Access :=
        if new.contains a.1 then (a.1, { a.2 with data := BitVec.ofNat 128 s.seq }) else a
      let s' : State := { s with accs := s.accs.map put }
      let order := sortBy (fun id => ((s.acc id).map (·.tid)).getD 0) new
      arriveLdfes (order.foldl tryLdfe s'.bump) fuel

/-- Every LDFE that has become free. -/
def stampLdfes (s : State) : State :=
  if s.accs.any fun a => a.2.kind.isLdfe && a.2.data == 0 then arriveLdfes s s.accs.length else s

/-- Fills every granule of n bytes that an engine has written. -/
def fillRange (s : State) (g p n : Nat) : State :=
  (List.range ((p % 16 + n + 15) / 16)).foldl (fun s i => fillGranule s g (p / 16 * 16 + 16 * i)) s

/-! ## Stash write-backs (R174) -/

/-- The data of a sector that a team's windows own modified. -/
def ownData (s : State) (tk key : Nat) : Option SecData :=
  match kvGet s.dir key with
  | some (.modified (.stash t) d) => if t = tk then some d else none
  | _ => none

/-- Performs the write-back of a stash sector: translated as a write, the directory's modified data goes to the home (R284);
a fault parks it as its thread's access (R36). A sector that has been taken away since was written back then (R173). -/
def doStashWb (s : State) (id : Nat) : State :=
  match s.acc id with
  | some a =>
    match a.kind with
    | .stashWb w _ key =>
      let mine (x : StashSec) : Bool := x.key == key && x.win == w && x.modified
      let done (s : State) : State := (s.updTeam a.team fun t => { t with stash := t.stash.filter (!mine ·) }).delAcc id
      if (ownData s a.team key).isNone || !((s.team a.team).any (·.stash.any mine)) then done s
      else
        let va := (a.parts.map (·.va)).headD 0
        let x := xlate s a.core (a.ctx s) va .wr
        (match x.2 with
          | .wait => x.1
          | .bad cause sub lvl =>
            park (x.1.setAcc id { a with faulted := true }) (dieOf a.core) (threadRec x.1 a.tid cause sub 1 lvl va) (.access id 0)
          | .ok tr => done (toHome (heatTick (writeRequest x.1 a.launch (64 * key) tr.alloc) key) key))
    | _ => s
  | none => s

/-- Write-backs outstanding for a window of a team. -/
def stashWbs (s : State) (tk : Nat) (w : Option Nat) : List (Nat × Nat) :=
  s.accs.filterMap fun a => match a.2.kind with
    | .stashWb w' p _ => if a.2.team = tk ∧ (w = none ∨ w = some w') then some (a.1, p) else none
    | _ => none

/-- Teams of some threads. -/
def teamsOf (s : State) (tids : List Nat) : List Nat := (tids.map fun t => (s.thread t).team).eraseDups

/-- A write-back of an earlier binding of window w is not done, for some team of some threads (R385). -/
def sbindWaits (s : State) (tids : List Nat) (w : Nat) : Bool :=
  (teamsOf s tids).any fun tk => stashWbs s tk (some w) != []

/-! ## Accesses of a thread -/

/-- The team of a thread. -/
def teamOfTid (s : State) (tid : Nat) : Option Team := s.team (s.thread tid).team

/-- An access of the thread at the slot being executed. -/
def newAcc (s : State) (tid : Nat) (k : AccKind) : Access :=
  let t := s.thread tid
  Access.blank tid t.team (((s.team t.team).map (·.launch)).getD 0) (((s.pass s.curPass).map (·.id)).getD 0) k s.cur.word

/-- The value that a load writes for the n bytes it read, sign-extended to 32 bits or not (R360, R363). -/
def extVal (sx : Bool) (n v : Nat) : Nat := if sx then lowBits (sextNat v (8 * n)) 32 else v

/-- The stash sector that window w of a team holds at an index. -/
def stashAt (t : Team) (w idx : Nat) : Option StashSec := t.stash.find? fun x => x.win == w && x.idx == idx

/-- The window of a stash access still stands for the global address it was checked against. -/
def stashLive (s : State) (a : Access) (w idx : Nat) : Bool :=
  match s.team a.team with
  | none => false
  | some t => decide (w < 8) && winBound s t w && winGva s t w + 64 * idx == a.va / 64 * 64

/-- Physical offset of a sector's backing bytes. -/
def stashP (s : State) (t : Team) (w idx : Nat) : Nat := t.spadBase + winSoff s t w + 64 * idx

/-- Marks scratchpad words that stand for poisoned granules (R299). -/
def carryPoison (s : State) (g p key n : Nat) : State :=
  (List.range ((n + 3) / 4)).foldl (fun s i =>
    if poisoned s (key + 4 * i) 4 then s.updCore g fun c => { c with spadPoison := natAdd c.spadPoison (p / 4 + i) } else s) s

/-- The poisoned granules of a sector. -/
def sectorMarks (s : State) (k : Nat) : List Nat := s.poison.filter (· / 4 == k)

/-- The marks of a sector follow those of the scratchpad words that stand for it (R299). -/
def markSector (s : State) (g p k : Nat) : State :=
  let others := s.poison.filter fun x => x / 4 != k
  let marks := (List.range 4).foldl (fun l q => if spadPoisoned s g (p + 16 * q) 16 then natAdd l (4 * k + q) else l) others
  { s with poison := marks }

/-- Fills an absent sector: a plain read of its 64 bytes (R173). What another window of the team has modified of it is taken away first,
and so written back, although the directory knows both under one number (R173, R174). -/
def fillSector (s : State) (tk : Nat) (t : Team) (w idx key : Nat) (al : Alloc) : State :=
  match stashAt t w idx with
  | some _ => s
  | none =>
    let k := key / 64
    let s := if (ownData s tk k).isSome then toHome (heatTick (writeRequest s t.launch key al) k) k else s
    let s := readFor (readReq s t.launch key al) k (some (.stash tk))
    let p := stashP s t w idx
    let s := spadRaw s t.core p (secGet (secValue s k) 0 64)
    let s := s.updCore t.core fun c => { c with spadPoison := clearWords c.spadPoison p 64 }
    let s := carryPoison s t.core p (64 * k) 64
    s.updTeam tk fun t => { t with stash := t.stash ++ [⟨w, idx, k, false, sectorMarks s k⟩] }

/-- Writes bytes with their poison, for an engine or a window (R299). -/
def spadWrite (s : State) (g p : Nat) (bs : List (Byte × Bool)) : State :=
  let s := spadPut s g p (bs.map (·.1))
  let ws := ((bs.mapIdx fun i b => (b.2, (p + i) / 4)).filter (·.1)).map (·.2)
  if ws.isEmpty then s else s.updCore g fun c => { c with spadPoison := ws.foldl natAdd c.spadPoison }

/-- Stores bytes into a present sector of a window, with ownership: the sector leaves every other holder and every other
window of the team (R173). `bad` tells the bytes that are poisoned. -/
def stashStore (s : State) (tk : Nat) (t : Team) (w idx k off : Nat) (bs : List (Byte × Bool)) : State :=
  let was := match stashAt t w idx with
    | some x => if x.modified then x.was else sectorMarks s k
    | none => sectorMarks s k
  let p := stashP s t w idx
  let s := storeFor s k (some (.stash tk)) off (bs.map (·.1))
  let s := markSector (spadWrite s t.core (p + off) bs) t.core p k
  s.updTeam tk fun t => { t with stash := t.stash.filter (·.key != k) ++ [⟨w, idx, k, true, was⟩] }

/-- The bytes of a stash store at a key; those that a higher lane of its slot writes in its place stay as they are (R168). -/
def storeBytes (s : State) (a : Access) (key : Nat) : List Byte :=
  (leBytes a.size a.data.toNat).mapIdx fun i b => if a.got.getLsbD i then s.byteAt (key + i) else b

/-- A stash access that is performed at the home: its page is uncached, its line is of a CMP page and it writes, or its window
no longer stands for the address (R178, R183, R384). -/
def stashAtHome (s : State) (id : Nat) (a : Access) (key : Nat) (al : Alloc) (own sx : Bool) : State :=
  let bs := storeBytes s a key
  let s := request s a.launch key al (if own then .write key bs else .read key a.size)
  if own then
    if isCmp key then
      match cmpStore s key bs with
      | some s => s.delAcc id
      | none =>
        park (s.setAcc id { a with faulted := true }) (dieOf a.core) (threadRec s a.tid 0x15 0 1 15 a.va) (.access id 0)
    else (storeHome s key bs).delAcc id
  else
    let r := readHome s key a.size
    let s := if poisoned r.1 key a.size then setDue r.1 a.tid 0x18 0 a.word else r.1
    finishAcc s id (extVal sx a.size (ofLe r.2))

/-- Completes a stash access whose translation is known: fills the sector, then reads or, with ownership, writes. -/
def finishStash (s : State) (id : Nat) (a : Access) (w idx : Nat) (tr : Trans) (own sx : Bool) : State :=
  match s.team a.team with
  | none => s.delAcc id
  | some t =>
    let key := tr.key
    let off := a.va % 64
    if (own && isCmp key) || tr.uncached || !stashLive s a w idx then stashAtHome s id a key tr.alloc own sx
    else
      let s := fillSector s a.team t w idx (key / 64 * 64) tr.alloc
      let p := stashP s t w idx + off
      if own then
        (stashStore s a.team ((s.team a.team).getD t) w idx (key / 64) off ((storeBytes s a key).map fun b => (b, false))).delAcc id
      else
        let v := ofLe (spadGet s t.core p a.size)
        let s := if spadPoisoned s t.core p a.size then setDue s a.tid 0x18 0 a.word else s
        finishAcc s id (extVal sx a.size v)

/-- What a stash access needs of its page: its fill reads, and a write at the home writes (R284). -/
def stashXlate (s : State) (g actx va : Nat) (own : Bool) : State × Xres :=
  let x := xlate s g actx va .rd
  match x.2 with
  | .ok tr => if own && (tr.uncached || isCmp tr.key) then xlate x.1 g actx va .wr else x
  | _ => x

/-- ACC of the record of a stash access that faults: 001 for an STS, though its fill only reads (log 108). -/
def stashAcc (own : Bool) : Nat := if own then 1 else 0

/-- STASH_FILL_COMPLETE: a stash access is translated and performed, behind a develop of its sector (R197); a replayable
fault parks it (R173, R37). -/
def doStashFill (s : State) (id : Nat) : State :=
  match s.acc id with
  | none => s
  | some a =>
    match a.kind, s.launch a.launch with
    | .stashFill w idx own sx, some l =>
      let d := dieOf a.core
      let x := stashXlate s a.core l.actx a.va own
      match x.2 with
      | .wait => x.1
      | .bad cause sub lvl =>
        let r := { threadRec x.1 a.tid cause sub (stashAcc own) lvl a.va with repl := true }
        park (x.1.setAcc id { a with faulted := true }) d r (.access id 0)
      | .ok t =>
        let v := awaitDev x.1 (t.key / 64) id 0 true
        if v.2 then v.1 else finishStash v.1 id a w idx t own sx
    | _, _ => s

/-- Starts a stash access of one thread: at once when its sector is present, else it waits for the fill. One whose global address has a
non-canonical byte traps as any access to it does (R161, R173; log 45). `skip`: bytes that a higher lane of its slot writes in its
place (R168). -/
def startStash (s : State) (tid va : Nat) (w idx : Nat) (own sx : Bool) (n v : Nat) (skip : BitVec 128) (dst : List Nat) :
    State :=
  let a := { newAcc s tid (.stashFill w idx own sx) with
    va := va, size := n, data := BitVec.ofNat 128 v, got := skip, dst := dst, parts := [⟨va, 0, n, false⟩] }
  let id := s.seq
  let s' := addAcc s a
  if !canonicalAll va n then raise s tid 0x09 0
  else
  match teamOfTid s tid with
  | none => s'
  | some t =>
    match stashAt t w idx with
    | some x => if accReady s' id && (x.modified || !own) then finishStash s' id a w idx ⟨64 * x.key + va % 64, 0⟩ own sx else s'
    | none => s'

end Sys2Proof.Machine
end

