-- ==== Sys2Proof/Machine/Waits.lean ====
section
/-! DEFINITION. Queue registers and what resolves parked pops and pushes; what settles after every event (spec 02 R32, 10
R244, 15 R368-R370). -/
namespace Sys2Proof.Machine

/-- Threads of a team parked on a wait that meets a test, in the order in which they parked; a tie goes to the lower home
lane. -/
def parkedOn (s : State) (t : Team) (f : Wait → Bool) : List Nat :=
  let ts := t.tids.filter fun i => match (s.thread i).status with
    | .parked w => f w
    | _ => false
  sortBy (fun i => 32 * (s.thread i).parkedAt + laneOf i) ts

/-- Tokens of q0 or q1. -/
def Team.tokens (t : Team) (q : Nat) : List Word := if q = 0 then t.q0 else t.q1
def Team.setTokens (t : Team) (q : Nat) (l : List Word) : Team := if q = 0 then { t with q0 := l } else { t with q1 := l }

/-- QUEUE_POP_RESOLVE: parked pops of a token queue take one entry each (R32, R368). -/
def servePops (s : State) (tk q : Nat) : (fuel : Nat) → State
  | 0 => s
  | fuel + 1 =>
    match s.team tk with
    | none => s
    | some t =>
      match t.tokens q, parkedOn s t (fun w => match w with
          | .pop q' _ => q' == q
          | _ => false) with
      | tok :: rest, tid :: _ =>
        let d := match (s.thread tid).status with
          | .parked (.pop _ d) => d
          | _ => 0
        let s := s.setTeam tk (t.setTokens q rest)
        servePops (resolveWait (s.updThread tid fun x => if d < 128 then { x.setReg d tok with bad := x.bad.filter (· != d) } else x) tid) tk q fuel
      | _, _ => s

/-- Replaces a queue of commands. -/
def Team.setCmds (t : Team) (k : Nat) (l : List Cmd) : Team := if k = 0 then { t with q9 := l } else { t with q8 := l }

/-- Threads parked on a push into the copy queue (`cp`) or the matrix queue. -/
def pushers (s : State) (t : Team) (cp : Bool) : List Nat :=
  parkedOn s t fun w => match w with
    | .push k _ => (k == 0) == cp
    | _ => false

/-- A store that an earlier slot of a pass makes to n bytes of scratchpad waits still (R393). -/
def storesWait (s : State) (pass upto g p n : Nat) : Bool :=
  s.accs.any fun b => decide (b.1 < upto) && b.2.pass == pass && (match b.2.kind with
    | .spad true _ g' q | .stfe g' q => g' == g && meets q b.2.size p n
    | _ => false)

/-- A parked push of a block may enter: its thread's earlier events are complete, and so are the stores of earlier slots of its pass
to the block, the block waits for no write-back, and no lower lane of its slot still waits (R244, R393, R174). -/
def pushReady (s : State) (t : Team) (ps : List Nat) (tid : Nat) : Bool :=
  eventsDone s tid &&
  (match (s.thread tid).status with
    | .parked (.push _ addr) =>
      !wbAt s t.core (t.spadBase + addr) 64 &&
      ((s.thread tid).parkPass == 0 || !storesWait s (s.thread tid).parkPass (awaitId s tid) t.core (t.spadBase + addr) 64)
    | _ => true) &&
  !(ps.any fun u => (s.thread u).parkedAt == (s.thread tid).parkedAt && laneOf u < laneOf tid)

/-- The 64-byte block at a local address of a team, as it stands (R244). What poison of its words does is left open: the stored bits are
the command (log 121). -/
def cmdBlock (s : State) (t : Team) (addr : Nat) : SecData :=
  BitVec.ofNat 512 (ofLe (spadGet s t.core (t.spadBase + addr) 64))

/-- QUEUE_PUSH_RESOLVE: parked pushes enter while there is room (R32, R244). -/
def servePushes (s : State) (tk : Nat) (cp : Bool) : (fuel : Nat) → State
  | 0 => s
  | fuel + 1 =>
    match s.team tk with
    | none => s
    | some t =>
      let ps := pushers s t cp
      let k := if cp then 0 else 1
      match ps.find? (pushReady s t ps) with
      | none => s
      | some tid =>
        if Config.queueDepth ≤ (t.cmds k).length then s
        else
          match (s.thread tid).status with
          | .parked (.push kind addr) =>
            let c : Cmd := { by_ := kind, blk := cmdBlock s t addr, tid := tid, seq := s.seq }
            let s := (s.setTeam tk (t.setCmds k (t.cmds k ++ [c]))).bump
            servePushes (resolveWait s tid) tk cp fuel
          | _ => s

/-- Pops and pushes of a team; a team that its core is to lose keeps its waits for the save or the stop. -/
def serveTeam (s : State) (tk : Nat) : State :=
  match s.team tk with
  | none => s
  | some t =>
    if t.leave.isSome && t.leave != some .drain then s
    else servePushes (servePushes (servePops (servePops s tk 0 16) tk 1 16) tk false 16) tk true 16

/-- Bends with units left serve the threads parked on them (R329). -/
def serveBends (s : State) : State := s.bends.foldl (fun s b => if b.2.count = 0 then s else serveBend s b.1) s

/-- Records that a home has put behind the others are written while the queue has room (R289). -/
def flushAll (s : State) : State := s.dies.foldl (fun s d => if d.2.held.isEmpty then s else flush s d.1) s

/-- What follows every event without further delay: fences that hold nothing go, parked waits, pops and pushes are served,
teams that have ended leave, and fault records are written. -/
def settle (s : State) : State :=
  let s := stampLdfes (serveBends (dropFences s))
  flushAll (markAll (reap (s.teams.foldl (fun s t => serveTeam s t.1) s)))

/-- A request to a die's port: it waits there while the clock is stopped, has no effect on a die that is not up, and is
served otherwise (R311, R314, R317). -/
def atPort (s : State) (d : Nat) (i : Instr) (f : State → State) : State :=
  if !dieUp s d then s
  else if (s.die d).stopped then s.updDie d fun x => { x with waiting := x.waiting ++ [i] }
  else f s

end Sys2Proof.Machine
end

