-- ==== Sys2Proof/Machine/Issue.lean ====
section
/-! DEFINITION. The issue of one slot of a running pass: control-word checks, guards, literals, encoded cycles, the stall
rule, chains, HOLD, resume points, and the end of the pass (spec 02 R28-R37, R43-R44, 04 R92-R105). -/
namespace Sys2Proof.Machine

/-! ## Slots of a packet -/

/-- Slot n of a packet: 1 A, 2 B, 3 C; 0 the control word. -/
def Packet.word (pk : Packet) : Nat → Word
  | 0 => pk.ctl
  | 1 => pk.a
  | 2 => pk.b
  | _ => pk.c

/-- The word of NOP (R92). -/
def nopWord : Word := 0x01000000

/-- Slot n holds literal data (R94). -/
def isLit (lit n : Nat) : Bool := (n == 3 && lit != 0) || (n == 2 && lit == 3)

/-- Slot n consumes the literal (R94). -/
def isFed (lit n : Nat) : Bool := (lit == 1 && n == 2) || (2 ≤ lit && n == 1)

/-- The literal's data (R94). -/
def litData (pk : Packet) (lit : Nat) : DWord := if lit = 3 then pk.c ++ pk.b else BitVec.setWidth 64 pk.c

/-- Guard predicate and negate bit of slot n (R93). -/
def guardOf (c : Ctl) (n : Nat) : Nat × Bool :=
  if n = 1 then (c.ga.toNat, c.nga) else if n = 2 then (c.gb.toNat, c.ngb) else (c.gc.toNat, c.ngc)

/-- Stall count of slot n (R93). -/
def stallOf (c : Ctl) (n : Nat) : Nat := if n = 1 then c.sta else if n = 2 then c.stb else c.stc

/-- Slot n is chained to the slot after it (R93). -/
def chained (c : Ctl) (n : Nat) : Bool := (n == 1 && c.chab) || (n == 2 && c.chbc)

/-! ## What the kernel and the launch allow (R86-R91, R374) -/

/-- Registers of the group of a PACKN or UNPKN: the slot's format fixes them. -/
def groupOf (l : Launch) : Instr → Nat
  | .packn f .. | .unpkn f .. => if l.slots / 2 ^ f.toNat % 2 = 1 then (fmtElems (fld (l.fslot f.toNat) 0 4)).getD 1 else 1
  | _ => 1

/-- The group operand of PACKN or UNPKN has a number of its class (R87, R374). -/
def groupOk (l : Launch) : Instr → Bool
  | .packn f d a b => aligned (groupOf l (.packn f d a b)) a
  | .unpkn f d a b => aligned (groupOf l (.unpkn f d a b)) d
  | _ => true

/-- The attributes of an instruction under a launch. -/
def infoOf (l : Launch) (i : Instr) : Info := info (groupOf l i) i

/-- Every register, team register, queue and tile that it names exists; `fed`: a literal replaces B. -/
def ctxOk (l : Launch) (i : Instr) (fed : Bool) : Bool :=
  let f := infoOf l i
  (f.rd ++ f.wr ++ (if fed then [] else f.rb)).all (· < l.regs) &&
  f.kreg.all (· < l.nkregs) && f.tile.all (· < l.ntiles) && groupOk l i &&
  (match i with
    | .movPush .. => false
    | _ => true)

/-- The instruction of slot n, or none where its word is illegal (R104). -/
def slotInstr (l : Launch) (pk : Packet) (lit n : Nat) : Option Instr :=
  match decodeWord (pk.word n) with
  | .error _ => none
  | .ok i => if ctxOk l i (isFed lit n) then some i else none

/-! ## Control-word checks (R94, R96, R99, R105) -/

/-- Item 1: a literal slot has no guard, stall or chain. -/
def litSlotOk (c : Ctl) : Bool :=
  (c.lit == 0) ||
  (c.stc == 0 && c.gc == 0 && !c.ngc && !c.chbc &&
    (c.lit != 3 || (c.stb == 0 && c.gb == 0 && !c.ngb && !c.chab)))

/-- Item 2: the consumer can take the literal. -/
def litUseOk (l : Launch) (pk : Packet) (c : Ctl) : Bool :=
  (c.lit == 0) ||
  (match slotInstr l pk c.lit (if c.lit = 1 then 2 else 1) with
    | none => false
    | some i =>
      let f := infoOf l i
      f.pipe != .none && f.lit != .no && f.zero && (c.lit != 3 || f.lit != .w32))

/-- Slot n is an instruction that can be chained: not a NOP, not a literal. -/
def chainInfo (l : Launch) (pk : Packet) (c : Ctl) (n : Nat) : Option Info :=
  if isLit c.lit n || pk.word n == nopWord then none else (slotInstr l pk c.lit n).map (infoOf l)

/-- An expand request on the X pipe (R262). -/
def isExpX : Instr → Bool
  | .expb .. | .expn .. | .segr .. | .expq _ => true
  | _ => false

/-- An EXPSV or EXPRS in slot n whose cycle also issues an expand request on the X pipe in a later slot: the unit takes that
one first (R262). -/
def imageLater (l : Launch) (pk : Packet) (n : Nat) (i : Instr) : Bool :=
  let c := decodeCtl pk.ctl
  let after := if chained c n then (n + 1) :: (if chained c (n + 1) then [n + 2] else []) else []
  (match i with
    | .expsv _ | .exprs _ => true
    | _ => false) && after.any fun m => (slotInstr l pk c.lit m).any isExpX

/-- Two instructions write no common register, predicate or queue. -/
def apart (f g : Info) : Bool :=
  !(f.wr.any g.wr.contains) && !(f.pwr.any g.pwr.contains) && (f.queue.isNone || f.queue != g.queue)

/-- A pair joins one V-pipe slot with one M- or X-pipe slot (R96). -/
def pairOk (f g : Info) : Bool :=
  ((f.pipe == .v && (g.pipe == .m || g.pipe == .x)) || (g.pipe == .v && (f.pipe == .m || f.pipe == .x))) && apart f g

/-- Three slots use the three pipes (R96). -/
def tripleOk (f g h : Info) : Bool :=
  [Pipe.v, Pipe.m, Pipe.x].all (fun p => f.pipe == p || g.pipe == p || h.pipe == p) && apart f g && apart f h && apart g h

/-- Items 3 and 4: chains. -/
def chainOk (l : Launch) (pk : Packet) (c : Ctl) : Bool :=
  (!c.chab || c.sta == 0) && (!c.chbc || c.stb == 0) &&
  (match c.chab, c.chbc with
    | false, false => true
    | true, false =>
      match chainInfo l pk c 1, chainInfo l pk c 2 with
      | some f, some g => pairOk f g
      | _, _ => false
    | false, true =>
      match chainInfo l pk c 2, chainInfo l pk c 3 with
      | some f, some g => pairOk f g
      | _, _ => false
    | true, true =>
      match chainInfo l pk c 1, chainInfo l pk c 2, chainInfo l pk c 3 with
      | some f, some g, some h => tripleOk f g h
      | _, _, _ => false)

/-- Item 5: HOLD. -/
def holdOk (l : Launch) (pk : Packet) (c : Ctl) : Bool :=
  (c.hold == 0) ||
  (match chainInfo l pk c c.hold with
    | none => false
    | some f => f.hold != 0)

/-- Item 6: BS and BE agree with the block table (R28). -/
def edgeOk (p : Pass) (c : Ctl) : Bool :=
  c.bs == (p.pkt == p.start) && c.be == (p.pkt + 1 == p.start + p.count)

/-- The control word is legal (R105). -/
def controlOk (l : Launch) (p : Pass) (pk : Packet) : Bool :=
  let c := decodeCtl pk.ctl
  litSlotOk c && litUseOk l pk c && chainOk l pk c && holdOk l pk c && edgeOk p c

/-! ## Placement (R29) -/

/-- Slot n may hold an instruction of its kind: waits, queue writes and transfers stand in the last packet, one of
either kind. -/
def standOk (l : Launch) (p : Pass) (pk : Packet) (n : Nat) (i : Instr) : Bool :=
  let c := decodeCtl pk.ctl
  match standOf i with
  | .any => true
  | k =>
    p.pkt + 1 == p.start + p.count &&
    !((List.range n).any fun m => 0 < m && !isLit c.lit m && (match slotInstr l pk c.lit m with
      | some j => standOf j == k
      | none => false))

/-! ## The next slot -/

/-- What the next slot of a pass does: run an instruction, or raise a trap in every thread that reaches it. -/
inductive Plan
  | run (n : Nat) (i : Instr)
  | trap (n cause : Nat)
deriving DecidableEq, Repr

/-- The first slot at or after n that is not a literal; a packet's last such slot always exists. -/
def firstSlot (lit n : Nat) : Nat := if isLit lit n then 4 else n

/-- The packet at which a pass stands. -/
def curPacket (p : Pass) : Packet := p.code.getD (p.pkt - p.entry) ⟨0, 0, 0, 0, false⟩

/-- Items that an instruction reads and writes (R97): 128 + i is predicate i. -/
def readItems (f : Info) (fed : Bool) : List Nat := f.rd ++ (if fed then [] else f.rb) ++ f.prd.map (128 + ·)
def writeItems (f : Info) : List Nat := f.wr ++ f.pwr.map (128 + ·)

/-- The latch that a slot's A field reads (R99). -/
def latchFor (p : Pass) (f : Info) : Option Latch :=
  p.latches.find? fun x => f.hold != 0 && x.cls == f.hold && x.reg == f.aReg && 0 < x.left

/-- Registers that a slot reads but for its A field, which a latch stands for (R99; log 80). -/
def restReads (f : Info) : List Nat := ((List.range f.hold).map (f.aReg + ·)).foldl List.erase f.rd

/-- Items that a slot reads in the registers themselves: a latched A field is read in the latch (R99). -/
def regReads (p : Pass) (f : Info) (fed : Bool) : List Nat :=
  if (latchFor p f).isSome then readItems { f with rd := restReads f } fed else readItems f fed

/-- The stall rule is broken: a producer of the pass is nearer than its latency, or a long-latency destination of this
block is touched, or a latched register has been written (R34, R97-R99). -/
def hazard (p : Pass) (f : Info) (items : List Nat) : Bool :=
  p.prods.any (fun x => p.ecyc < x.e + x.lam && x.items.any items.contains) || p.ldest.any items.contains ||
  ((latchFor p f).map (·.written)).getD false

/-- What the next slot does, by the packet alone and the pass's history. -/
def planOf (l : Launch) (p : Pass) : Plan :=
  let pk := curPacket p
  let c := decodeCtl pk.ctl
  if p.slot = 0 ∧ pk.bad then .trap 0 0x0F
  else if p.slot = 0 ∧ !controlOk l p pk then .run 0 .illegalInstruction
  else
    let n := max 1 p.slot
    match slotInstr l pk c.lit n with
    | none => .run n .illegalInstruction
    | some i =>
      if !standOk l p pk n i then .run n .illegalInstruction
      else
        let f := infoOf l i
        let g := if pk.word n = nopWord then 7 else (guardOf c n).1
        let items := regReads p f (isFed c.lit n) ++ writeItems f ++ (if g = 7 then [] else [128 + g])
        if p.csr.sbchk.getLsbD 0 && hazard p f items then .trap n 0x02 else .run n i

/-- The slot that a plan concerns. -/
def Plan.slot : Plan → Nat
  | .run n _ | .trap n _ => n

/-- The instruction that a plan runs. -/
def Plan.instr : Plan → Instr
  | .run _ i => i
  | .trap .. => .illegalInstruction

/-! ## Items of a thread -/

/-- The value of an item (see `Old`). -/
def itemOf (t : Thread) (k : Nat) : Word :=
  if k < 128 then t.reg k
  else if k < 136 then (if t.pred (k - 128) then 1 else 0)
  else if k = 200 then t.fpmode
  else if k = 201 then t.pubaddr.extractLsb' 0 32
  else if k = 202 then t.pubaddr.extractLsb' 32 32
  else 0

/-- Sets an item. -/
def setItem (t : Thread) (k : Nat) (v : Word) : Thread :=
  if k < 128 then t.setReg k v
  else if k < 136 then t.setPred (k - 128) (v != 0)
  else if k = 200 then { t with fpmode := v }
  else if k = 201 then { t with pubaddr := t.pubaddr.extractLsb' 32 32 ++ v }
  else if k = 202 then { t with pubaddr := v ++ t.pubaddr.extractLsb' 0 32 }
  else t

/-- Items beyond registers and predicates that a slot writes at issue: FPMODE, PUBADDR, a team register (R96, R147). -/
def sideItems : Instr → List Nat
  | .csrw _ n => if n = 0 then [200] else if n = 0x22 then [201, 202] else []
  | .kmov k _ => [300 + k.toNat]
  | _ => []

/-- The present values of items in some threads; a team register is taken from the thread's team. -/
def takeItems (s : State) (tids items : List Nat) : List Old :=
  tids.flatMap fun tid => items.map fun k =>
    ⟨tid, k, if 300 ≤ k then
        ((s.team (s.thread tid).team).map fun t => kvGetD 0 t.kregs (k - 300)).getD 0
      else itemOf (s.thread tid) k⟩

/-- Puts values into threads. -/
def putItems (s : State) (os : List Old) : State :=
  os.foldl (fun s o => if 300 ≤ o.item then s else s.updThread o.tid fun t => setItem t o.item o.val) s

/-! ## Reads that come too early (R98) -/

/-- Each of some old values is taken, or not: the device does not fix which (log 3). -/
def chooseOlds (s : State) : List Old → State × List Old
  | [] => (s, [])
  | o :: os =>
    let r := s.choose
    let q := chooseOlds r.1 os
    (q.1, if r.2 then o :: q.2 else q.2)

/-- Producers whose latency the pass's next slot does not await (R97). -/
def nearProds (p : Pass) : List Prod := p.prods.filter fun x => p.ecyc < x.e + x.lam

/-- Values other than the present ones that reads of some items in some threads may return: what stood before a producer that is
too near, and its result (R98). -/
def staleFor (s : State) (p : Pass) (tids items : List Nat) : List Old :=
  (nearProds p).flatMap fun x => (x.old ++ x.new).filter fun o =>
    items.contains o.item && tids.contains o.tid && o.val != itemOf (s.thread o.tid) o.item

/-- Tokens that pops of the pass are to bring into some items, where the queue holds them already: a read of the destination may
return them (R34). -/
def popReads (s : State) (p : Pass) (tids items : List Nat) : List Old :=
  tids.filterMap fun tid => match kvGet p.waits tid with
    | some (.pop q d) =>
      let tk := (s.thread tid).team
      let ahead := p.waits.filter fun w => (s.thread w.1).team == tk && laneOf w.1 < laneOf tid && (match w.2 with
        | .pop q' _ => q' == q
        | _ => false)
      if items.contains d then
        (s.team tk).bind fun t => ((if q = 0 then t.q0 else t.q1)[ahead.length]?).map fun v => ⟨tid, d, v⟩
      else none
    | _ => none

/-! ## Stalls and resume points (R37, R82, R97) -/

/-- The stash sector of the scratchpad access that an LDS or STS makes in a thread. -/
def slotSector (s : State) (t : Team) (tid : Nat) (c : Issue) : Instr → Option (Nat × Nat)
  | .lds k _ a imm =>
    match spadResolve s t (sAddr c (s.thread tid) a imm (ldsBytes k)) (ldsBytes k) false true with
    | .ok (.stash w i _) => some (w, i)
    | _ => none
  | .sts sz _ a imm =>
    match spadResolve s t (sAddr c (s.thread tid) a imm (szBytes sz)) (szBytes sz) true true with
    | .ok (.stash w i _) => some (w, i)
    | _ => none
  | _ => none

/-- Stash accesses of the pass that a slot meets in a thread: its destination, or its sector (R37, R97). -/
def meetsFill (s : State) (p : Pass) (c : Issue) (i : Instr) (items : List Nat) (tid : Nat) : List Access :=
  (s.accs.filter fun a => a.2.tid == tid && a.2.pass == p.id && (match a.2.kind with
    | .spad .. => a.2.dst.any items.contains
    | .stashFill w x _ _ =>
      a.2.dst.any items.contains ||
      (match teamOfTid s tid with
        | some t => slotSector s t tid c i == some (w, x)
        | none => false)
    | _ => false)).map (·.2)

/-- Outstanding long-latency results of a thread, a pop of its pass among them (R34, R82). -/
def longCount (s : State) (p : Pass) (tid : Nat) : Nat :=
  (match kvGet p.waits tid with
    | some (.pop ..) => 1
    | _ => 0) +
  (s.accs.filter fun a => a.2.tid == tid && (a.2.dst != [] || a.2.dstP.isSome) && (match a.2.kind with
    | .stashFill .. | .spad .. => false
    | _ => true)).length

/-- The answer to the check of a signal to a remote bend waits for a clock that stands still (R317, R328). -/
def checkWaits (s : State) (c : Issue) (tid : Nat) : Instr → Bool
  | .bsig _ _ b =>
    let v := rdB c (s.thread tid) .w32 b
    anyStopped s && bitsOf v 31 1 == 1 && bitsOf v 19 9 == fld (s.die (dieOf c.core)).pkgid 0 9 &&
    ((s.die (bitsOf v 16 3)).stopped || s.hubStopped)
  | _ => false

/-- The pass holds at an SBIND until the write-backs of earlier bindings of its window are done (R385). -/
def sbindStays (s : State) (tids : List Nat) : Instr → Bool
  | .sbind w => sbindWaits s tids w.toNat
  | _ => false

/-- Scratchpad and stash accesses that issued earlier take effect before an SBIND or SUNB.DISC of their team: stores to the
descriptor, and accesses to the window that do not wait for a replay (R384). -/
def bindHolds (s : State) (tids : List Nat) (i : Instr) : Bool :=
  let mine (f : Nat → Access → Bool) : Bool := (teamsOf s tids).any fun tk => s.accs.any fun a => a.2.team == tk && f tk a.2
  match i with
  | .sbind w => sbindStays s tids i || mine fun tk a => (match a.kind, s.team tk with
      | .spad true _ g p, some t | .stfe g p, some t => g == t.core && meets p a.size (t.spadBase + descOff t w.toNat) 32
      | _, _ => false)
  | .sunbDisc w => mine fun _ a => (match a.kind with
      | .stashFill w' .. => w' == w.toNat && !a.faulted
      | _ => false)
  | _ => false

/-- The lane-port loads of an EXPRS by a team lead may not be made yet (R344). -/
def imageWaits (s : State) (p : Pass) (tid : Nat) : Instr → Bool
  | .exprs a =>
    (teamOfTid s tid).any fun t =>
      let q := t.spadBase + ((s.thread tid).reg a.toNat).toNat % 2 ^ 19
      leadOf s t == some tid &&
      !readyAs s s.seq { Access.blank tid (s.thread tid).team p.launch p.id (.spad false false t.core q) 0 with size := 2048 }
  | _ => false

/-- The pass holds at the slot: a class S result or fill that is on its way, an SBIND whose earlier write-backs are not
done is served at once, a seventeenth long-latency result, or the check of a remote signal. -/
def holds (s : State) (p : Pass) (c : Issue) (i : Instr) (f : Info) (items : List Nat) : Bool :=
  p.tids.any (fun tid => (meetsFill s p c i items tid).any (!·.faulted)) ||
  (f.lat == .l && c.tids.any fun tid => Config.maxOutstanding ≤ longCount s p tid) ||
  bindHolds s c.tids i || c.tids.any fun tid => checkWaits s c tid i || imageWaits s p tid i

/-- A thread leaves its pass at a resume point: the slot about to issue (R37); what earlier slots of the packet left for the
pass's end stays with it. -/
def leaveAtResume (s : State) (pk : Nat) (p : Pass) (n tid : Nat) : State :=
  (dropAwait (leavePass s pk tid p.pkt n) tid).updThread tid fun t =>
    { t with status := .dataWait, blk := p.blk, pkt := p.pkt, slot := n, resume := true, fall := none }

/-! ## Before the slot -/

/-- Threads that reach slot n: at the entry packet of a resumed thread, the slots before its resume point are
suppressed (R55). -/
def reaching (s : State) (p : Pass) (n : Nat) : List Nat :=
  p.tids.filter fun tid => !(p.pkt == p.entry && n != 0 && n < (s.thread tid).slot)

/-- The context of the slot, with the threads whose guard is true, in ascending home lane. -/
def issueOf (s : State) (pkey : Nat) (l : Launch) (p : Pass) (n : Nat) (flip : List Nat) : Issue :=
  let pk := curPacket p
  let c := decodeCtl pk.ctl
  let all := (sortBy laneOf (reaching s p n)).eraseDups
  let g := guardOf c n
  { core := pkey / 2, port := pkey % 2, pass := p.id, code := l.code, pkt := p.pkt, slot := n, word := pk.word n,
    lit := if isFed c.lit n then some (litData pk c.lit) else none, lit64 := c.lit == 3,
    all := all, tids := all.filter fun tid => ((s.thread tid).pred g.1 != g.2) != flip.contains tid }

/-- Threads whose guard, read too early, takes the other value (R98). -/
def flipped (s : State) (p : Pass) (n : Nat) : State × List Nat :=
  let g := (guardOf (decodeCtl (curPacket p).ctl) n).1
  let r := chooseOlds s (staleFor (putItems s p.chain) p p.tids [128 + g])
  let os := p.chain.filter (·.item == 128 + g) ++ r.2
  (r.1, (os.filter fun o => ((o.val != 0) != (s.thread o.tid).pred g)).map (·.tid))

/-- Cycles pass on a core; its die's time follows the core that is furthest on. -/
def tick (s : State) (g n : Nat) : State :=
  let c := (s.core g).cyc + n
  (s.updCore g fun x => { x with cyc := c }).updDie (dieOf g) fun x => { x with cyc := max x.cyc c }

/-- The threads of which a slot makes its access: those whose guard is true. -/
def guarded (s : State) (p : Pass) (n : Nat) (tids : List Nat) : List Nat :=
  let g := guardOf (decodeCtl (curPacket p).ctl) n
  tids.filter fun tid => (s.thread tid).pred g.1 != g.2

/-- A thread leaves at a slot: its stash access waits for a replay, and the slot touches its destination, or makes an access
to the same sector (R37). -/
def leaves (s : State) (p : Pass) (c : Issue) (i : Instr) (items : List Nat) (n tid : Nat) : Bool :=
  let i := if (guarded s p n [tid]).isEmpty then .nop else i
  (meetsFill s p c i items tid).any (·.faulted)

/-- A latch's values stand in registers that a slot does not name: the first group of eight that is free, and that no result on
its way to a thread of the pass is to enter, if there is one (R99). -/
def spareGroup (s : State) (p : Pass) (f : Info) : Nat :=
  let free := (List.range 16).filter fun q => !((f.rd ++ f.rb ++ f.wr).any fun r => r / 8 == q)
  let due (q : Nat) : Bool := s.accs.any fun a => p.tids.contains a.2.tid && a.2.dst.any fun r => r / 8 == q
  8 * ((free.find? (!due ·)).getD (free.headD 0))

/-- The instruction of a word with another A field. -/
def withA (w : Word) (i : Instr) (r : Nat) : Instr :=
  match decodeWord (setFld w 7 7 r) with
  | .ok j => j
  | .error _ => i

/-- The instruction that acts for a slot: one whose A field a latch stands for reads the spare group (R99). -/
def Plan.acts (s : State) (l : Launch) (p : Pass) : Plan → Instr
  | .run n i =>
    let f := infoOf l i
    if (latchFor p f).isSome then withA ((curPacket p).word n) i (spareGroup s p f) else i
  | .trap .. => .illegalInstruction

/-- What stands in the spare group `g` for a slot whose A field a latch serves: the latched values, or in a thread that has none,
since it resumed past the held slot, its registers (R99). -/
def latchView (s : State) (g : Nat) (p : Pass) (f : Info) (tids : List Nat) : List Old :=
  match latchFor p f with
  | none => []
  | some x => tids.flatMap fun tid => (List.range f.hold).map fun i =>
      ⟨tid, g + i, match x.vals.find? fun o => o.tid == tid && o.item == f.aReg + i with
        | some o => o.val
        | none => (s.thread tid).reg (f.aReg + i)⟩

/-- Threads of which a slot's latch holds no value (R99). -/
def unlatched (p : Pass) (f : Info) (tids : List Nat) : List Nat :=
  match latchFor p f with
  | none => []
  | some x => tids.filter fun tid => !x.vals.any (·.tid == tid)

/-- The state as the next slot's sources show it: co-issued slots see nothing of each other, and a latch stands for its
register (R96, R99). -/
def slotView (s : State) (l : Launch) (p : Pass) (plan : Plan) : State :=
  let f := infoOf l plan.instr
  let g := spareGroup s p f
  let s := putItems s p.chain
  putItems s (latchView s g p f p.tids)

/-- Everything before the slot's own effect: encoded cycles go by, threads at resume points leave, the guard picks the
threads, and early reads, chains and latches give the values that the slot reads. The list holds the values to be put back
afterwards. -/
def prepare (s : State) (pkey : Nat) (l : Launch) (p : Pass) (plan : Plan) : State × List Old :=
  let n := plan.slot
  let i := plan.instr
  let s := tick s (pkey / 2) (p.ecyc - p.eprev)
  let c := decodeCtl (curPacket p).ctl
  match plan with
  | .trap .. => ({ s with cur := issueOf s pkey l p n [] }, [])
  | .run _ .illegalInstruction => ({ s with cur := issueOf s pkey l p n [] }, [])
  | .run .. =>
    let f := infoOf l i
    let items := readItems f (isFed c.lit n) ++ writeItems f
    let g := spareGroup s p f
    let v := slotView s l p plan
    let gone := (reaching s p n).filter (leaves v p (issueOf v pkey l p n []) (plan.acts s l p) items n)
    let s := gone.foldl (fun s tid => leaveAtResume s pkey p n tid) s
    let p := (s.pass pkey).getD p
    let fl := flipped s p n
    let cur := issueOf fl.1 pkey l p n fl.2
    let co := putItems fl.1 p.chain
    let reads := regReads p f (isFed c.lit n)
    let ro := chooseOlds fl.1 (popReads co p cur.tids reads ++ staleFor co p cur.tids reads ++
      staleFor co p (unlatched p f cur.tids) ((List.range f.hold).map (f.aReg + ·)))
    let read := putItems ro.1 (p.chain ++ ro.2)
    let view := p.chain ++ ro.2 ++ latchView read g p f cur.all
    let back := takeItems ro.1 (view.map (·.tid)).eraseDups (view.map (·.item)).eraseDups
    ({ putItems ro.1 view with cur := cur }, back)

/-! ## After the slot -/

/-- A slot of class L has written its destination in a thread already: an LDFE at a full granule (R171); every other result is
written when its access, wait or deal completes (R125). -/
def servedNow (s : State) (i : Instr) (upto tid : Nat) : Bool :=
  match i with
  | .ldfe .. => !(s.accs.any fun a => upto ≤ a.1 && a.2.tid == tid)
  | _ => false

/-- Items that a slot has written in a thread. -/
def writtenNow (s : State) (f : Info) (i : Instr) (upto tid : Nat) : List Nat :=
  match f.lat with
  | .l => if servedNow s i upto tid then writeItems f else []
  | _ => writeItems f

/-- Values that the slot overwrote are put back where they only stood in for a read: a thread that took the slot's effect
keeps what it wrote at issue. -/
def keepResults (s : State) (p : Pass) (f : Info) (i : Instr) (upto : Nat) (tids : List Nat) (back : List Old) : List Old :=
  let left := ((s.pass s.curPass).map (·.tids)).getD []
  back.filter fun o => !(p.tids.contains o.tid && left.contains o.tid && tids.contains o.tid &&
    (writtenNow s f i upto o.tid).contains o.item)

/-- Results of producers that are too near to some items of a thread: a write that comes too early leaves its own value or the
producer's result (R98). -/
def offended (p : Pass) (tid : Nat) (items : List Nat) : List Old :=
  (nearProds p).flatMap fun x => x.new.filter fun o => o.tid == tid && items.contains o.item

/-- What a slot that writes at issue may leave in place of its own values (R98). -/
def lateWrites (s : State) (p : Pass) (f : Info) (i : Instr) (upto : Nat) : List Old :=
  s.cur.tids.flatMap fun tid => offended p tid (writtenNow s f i upto tid)

/-- The present values of what a slot has written in the threads that took its effect. -/
def resultsOf (s : State) (f : Info) : List Old := takeItems s s.cur.tids (writeItems f)

/-- A result of class L that stands already may be read, or written over, as if it were still on its way, anywhere in the rest
of the pass (R34). -/
def servedProd (s : State) (f : Info) (i : Instr) (e upto : Nat) (before new : List Old) : List Prod :=
  match f.lat with
  | .l =>
    let now (o : Old) : Bool := servedNow s i upto o.tid && s.cur.tids.contains o.tid
    let os := before.filter now
    if os.isEmpty then [] else [⟨e, 2 ^ 40, writeItems f, os, new.filter now⟩]
  | _ => []

/-- What is on its way to some items of a thread arrives nowhere: the results of accesses that meet a test. -/
def loseResults (s : State) (tid : Nat) (mine : Nat → Bool) (items : List Nat) : State :=
  { s with accs := s.accs.map fun (a : Nat × Access) =>
      if mine a.1 ∧ a.2.tid = tid then
        (a.1, { a.2 with dst := a.2.dst.map fun x => if items.contains x then 999 else x,
                         dstP := a.2.dstP.filter fun x => !items.contains (128 + x) })
      else a }

/-- The entry that a thread pops at the end of its pass arrives nowhere. -/
def losePop (s : State) (pk tid : Nat) : State :=
  match s.pass pk with
  | none => s
  | some q => s.setPass pk { q with waits := q.waits.map fun (w : Nat × Wait) => match w with
      | (t, .pop n _) => if t = tid then (t, .pop n 999) else w
      | w => w }

/-- A pop of the pass has one of some items as its destination in a thread. -/
def popsInto (p : Pass) (tid : Nat) (items : List Nat) : Bool :=
  match kvGet p.waits tid with
  | some (.pop _ d) => items.contains d
  | _ => false

/-- A long-latency destination that comes too soon after another producer of the register keeps the result that arrives, or
the producer's; the device does not fix which (R98). -/
def lateLong (s : State) (pk : Nat) (p : Pass) (f : Info) (upto tid : Nat) : State :=
  let os := offended p tid (writeItems f)
  if f.lat != .l || os.isEmpty then s
  else
    let r := s.choose
    if r.2 then
      let items := os.map (·.item)
      let s := loseResults r.1 tid (upto ≤ ·) items
      let s := if ((s.pass pk).map fun q => popsInto q tid items).getD false then losePop s pk tid else s
      let q := chooseOlds (putItems s os) os
      putItems q.1 q.2
    else r.1

/-- A write of a register with a long-latency result of the same block on its way, a pop at the end of the pass among them:
either value stays (R34). A result of an earlier block is written when its access completes (R125; log 13), and of two results
on their way the one that comes last stays. `p` is the pass before the slot, `upto` the order number at which it issued. -/
def overtake (s : State) (pk : Nat) (p : Pass) (tid upto : Nat) (isL : Bool) (wr : List Nat) : State :=
  let s := s.accs.foldl (fun s a =>
    if a.1 < upto ∧ a.2.tid = tid ∧ (a.2.dst.any wr.contains ∨ (a.2.dstP.map (128 + ·)).any wr.contains) then
      let r := if a.2.pass ≠ p.id ∨ isL then (s, false) else s.choose
      if r.2 then loseResults r.1 tid (· == a.1) wr else r.1
    else s) s
  if popsInto p tid wr then
    let r := s.choose
    if r.2 then losePop r.1 pk tid else if isL then loseResults r.1 tid (upto ≤ ·) wr else r.1
  else s

/-- The latches after a slot: each counts it; the held slot adds its own (R99). -/
def nextLatches (p : Pass) (c : Ctl) (n : Nat) (f : Info) (vals : List Old) : List Latch :=
  let ls := (p.latches.map fun x =>
    { x with left := x.left - 1, written := x.written || f.wr.any fun r => x.reg ≤ r && r < x.reg + x.cls }).filter (0 < ·.left)
  if c.hold = n ∧ f.hold ≠ 0 then ls ++ [⟨f.hold, f.aReg, 2, false, vals⟩] else ls

/-- The place after slot n: the next slot of the packet, or the next packet. -/
def nextPlace (c : Ctl) (p : Pass) (n : Nat) : Nat × Nat :=
  if n < 3 ∧ !isLit c.lit (n + 1) ∧ n ≠ 0 then (p.pkt, n + 1) else (p.pkt + 1, 0)

/-! ## The end of a pass (R30, R32, R43) -/

/-- The successor of a thread (R30): a transfer's target, or block n + 1; none past the last block. -/
def successor (l : Launch) (p : Pass) (tid : Nat) : Option (Nat × Nat × Nat × Bool) :=
  match kvGet p.targets tid with
  | some v =>
    let b := (l.blkOf (v / 4)).getD 0
    let start := ((l.blk b).map (·.start)).getD 0
    some (b, v / 4, v % 4, v % 4 != 0 || v / 4 != start)
  | none => (l.blk (p.blk + 1)).map fun b => (p.blk + 1, b.start, 0, false)

/-- One thread at the end of its pass: parked, on its way to its successor, or past the end of the code. -/
def endThread (l : Launch) (p : Pass) (moment : Nat) (s : State) (tid : Nat) : State :=
  let be := curPacket p
  let go (t : Thread) : Thread :=
    match successor l p tid with
    | some x => { t with blk := x.1, pkt := x.2.1, slot := x.2.2.1, resume := x.2.2.2, fall := none }
    | none => { t with pkt := p.pkt, slot := 0, resume := false, fall := some be.ctl }
  match kvGet p.waits tid with
  | some w =>
    s.updThread tid fun t =>
      { go t with status := .parked w, parkedAt := moment, parkPass := p.id, parkWord := p.waitWord,
                  fall := if w = .exit then none else (go t).fall }
  | none =>
    match successor l p tid with
    | some _ => s.updThread tid fun t => { go t with status := .dataWait }
    | none => enterTrap (s.updThread tid go) tid 0x03 0 be.ctl (BitVec.ofNat 64 (l.pktVa p.pkt))

/-- Bends that threads of an ended pass wait for are served. -/
def serveParked (s : State) (d : Nat) (p : Pass) : State :=
  p.tids.foldl (fun s tid => match kvGet p.waits tid with
    | some (.bend n _) => serveBend s (65536 * d + n)
    | _ => s) s

/-- The KMOVs of an ended pass are visible to every pass that starts from now on; they are forgotten once no pass that
overlapped runs (R51). -/
def endKmovs (s : State) (g pass : Nat) : State :=
  let seen (x : KPend) : Bool :=
    x.ended == 0 || s.passes.any fun p => p.1 / 2 == g && p.2.id < x.ended
  { s with teams := s.teams.map fun t =>
      if t.2.core = g then
        (t.1, { t.2 with kpend := (t.2.kpend.map fun x => if x.pass = pass then { x with ended := s.seq } else x).filter seen })
      else t }

/-- The pass ends with its BE packet: its team registers' writes are visible, its cycles are charged, its threads go on
or park, and the port is free. -/
def endPass (s : State) (pkey : Nat) (l : Launch) (p : Pass) : State :=
  let d := dieOf (pkey / 2)
  let s := { s with passes := kvDel s.passes pkey }
  let s := endKmovs s (pkey / 2) p.id
  let s := charge s p.launch (p.eprev + 1) 0 0
  let s := (sortBy laneOf p.tids).foldl (endThread l p s.seq) s
  settle (serveParked s.bump d p)

/-- Everything after the slot's own effect (R95-R99); `before` holds what the slot's destinations held, `back` the values
to be put back. -/
def finish (pkey : Nat) (l : Launch) (p : Pass) (plan : Plan) (upto : Nat) (before back vals : List Old) (s : State) :
    State :=
  let pk := curPacket p
  let c := decodeCtl pk.ctl
  let n := plan.slot
  let i := plan.instr
  let f := infoOf l i
  let nop := pk.word n == nopWord && n != 0
  let s := putItems s (keepResults s p f i upto s.cur.tids back)
  let new := resultsOf s f
  let lw := chooseOlds s (lateWrites s p f i upto)
  let s := putItems lw.1 lw.2
  let s := s.cur.tids.foldl (fun s tid => lateLong s pkey p f upto tid) s
  let s := if f.wr = [] ∧ f.pwr = [] then s
    else s.cur.tids.foldl (fun s tid => overtake s pkey p tid upto (f.lat == .l) (writeItems f)) s
  let s := if f.wr == [] then s
    else s.cur.tids.foldl (fun s tid => s.updThread tid fun t =>
      { t with kept := t.kept.filter fun x => !f.wr.contains x.1,
               bad := if f.lat == .l then t.bad else t.bad.filter (!f.wr.contains ·) }) s
  match s.pass pkey with
  | none => s
  | some q =>
    let e := q.ecyc
    let link := chained c n
    let place := nextPlace c p n
    let lam := match f.lat with
      | .fixed m => m
      | _ => 0
    let chain := if link then q.chain ++ before else []
    let prods := (q.prods.filter fun x => e < x.e + max 12 x.lam) ++ servedProd s f i e upto before new
    let q : Pass :=
      { q with
        pkt := place.1
        slot := place.2
        eprev := e
        ecyc := if nop then e + stallOf c n else if link then e else e + 1 + stallOf c n
        prods := if nop || lam == 0 || writeItems f == [] then prods else prods ++ [⟨e, lam, writeItems f, before.filter fun o => s.cur.tids.contains o.tid, new⟩]
        chain := if nop then q.chain else chain
        latches := if nop then q.latches else nextLatches q c n f vals
        ldest := if f.lat == .l then q.ldest ++ writeItems f else q.ldest }
    if sbindStays s s.cur.tids i then s.setPass pkey { q with pkt := p.pkt, slot := p.slot, eprev := e, ecyc := e }
    else
    let s := s.setPass pkey q
    if place.1 < p.start + p.count then s
    else endPass s pkey l { q with pkt := p.pkt }

/-- Threads with an uncorrectable error in a register that the slot reads take the register-error trap (R299). -/
def raiseBad (s : State) (items : List Nat) : State :=
  raiseAll s (s.cur.tids.filter fun tid => (s.thread tid).bad.any items.contains) 0x0F 0

end Sys2Proof.Machine
end

