-- ==== Sys2Proof/Machine/Control.lean ====
section
/-! DEFINITION. Control: NOP, branches, calls, RET, EXIT, TRAP, RTE, the illegal-instruction trap, and the MOV forms that
name team registers and queues (spec 14 R324, R332, R343, 15 R368, 16 R372, R382, 12 R295-R297). -/
namespace Sys2Proof.Machine

/-- The thread waits at an EXIT of this packet, which discards the effect of a transfer (R343). -/
def exiting (s : State) (tid : Nat) : Bool :=
  ((s.pass s.curPass).bind fun p => kvGet p.waits tid) == some .exit

/-- The thread's successor: a packet and a slot (R30, R297). -/
def setTarget (s : State) (tid pkt slot : Nat) : State :=
  match s.pass s.curPass with
  | none => s
  | some p => s.setPass s.curPass { p with targets := kvPut p.targets tid (4 * pkt + slot), tslot := s.cur.slot }

/-- What stands for a wait in the order of its thread's events: BWAIT.ACQ, BAR and MOV.POP are acquires (R223). -/
def Wait.acquires : Wait → Bool
  | .bend _ acq => acq
  | .bar .. | .pop .. => true
  | .push .. | .exit => false

/-- The thread waits at the end of its pass (R32). -/
def setWait (s : State) (tid : Nat) (w : Wait) : State :=
  match s.pass s.curPass with
  | none => s
  | some p =>
    let s := s.setPass s.curPass { p with waits := kvPut p.waits tid w, waitWord := s.cur.word }
    if w = .exit then s else addAcc s (newAcc s tid (.await w.acquires))

/-- A transfer of one thread to a packet number: the START of a block, or the illegal-branch-target trap (R30). -/
def transfer (s : State) (tid : Nat) (pkt : Option Nat) : State :=
  if exiting s tid then s
  else
    match pkt with
    | none => raise s tid 0x03 0
    | some n =>
      match curLaunch s with
      | none => s
      | some l => if (l.blkAt n).isSome then setTarget s tid n 0 else raise s tid 0x03 0

/-- The packet of a relative transfer (R100). -/
def relPacket (s : State) (off : BitVec 24) : Option Nat :=
  let t : Int := s.cur.pkt + off.toInt
  if 0 ≤ t then some t.toNat else none

/-- The packet at a virtual byte address, where it is one (R324). -/
def packetAt (s : State) (va : Nat) : Option Nat :=
  match curLaunch s with
  | none => none
  | some l =>
    let o := (va + 2 ^ 64 - l.code % 2 ^ 64) % 2 ^ 64
    if o % 16 = 0 ∧ o / 16 < l.packets then some (o / 16) else none

/-- The link: the address of the packet after the transfer's (R332). -/
def linkVa (s : State) : Nat := (s.cur.code + 16 * (s.cur.pkt + 1)) % 2 ^ 64

/-- Writes the link pair x126. -/
def setLink (s : State) (tid : Nat) : State := s.updThread tid fun t => t.setGroup 2 126 (linkVa s)

/-- NOP changes nothing (R372). -/
def execNop (s : State) : Host.Outcome State Fault Refusal :=
  .next (s)

/-- BRA (R324). -/
def execBra (off : BitVec 24) (s : State) : Host.Outcome State Fault Refusal :=
  .next (eachLane s fun s tid => transfer s tid (relPacket s off))

/-- BRI (R324). -/
def execBri (a : Reg) (s : State) : Host.Outcome State Fault Refusal :=
  .next (eachLane s fun s tid => transfer s tid (packetAt s ((s.thread tid).group 2 a.toNat)))

/-- A call to a packet: the link is written where the transfer does not trap (R332, R55). -/
def callTo (s : State) (tid : Nat) (pkt : Option Nat) : State :=
  let s' := transfer s tid pkt
  if s'.cur.tids.contains tid && !exiting s tid then setLink s' tid else s'

/-- CALL (R332). -/
def execCall (off : BitVec 24) (s : State) : Host.Outcome State Fault Refusal :=
  .next (eachLane s fun s tid => callTo s tid (relPacket s off))

/-- CALLI reads its pair before it writes the link (R332). -/
def execCalli (a : Reg) (s : State) : Host.Outcome State Fault Refusal :=
  .next (eachLane s fun s' tid => callTo s' tid (packetAt s ((s.thread tid).group 2 a.toNat)))

/-- RET transfers to the address in x126 (R382). -/
def execRet (s : State) : Host.Outcome State Fault Refusal :=
  .next (eachLane s fun s tid => transfer s tid (packetAt s ((s.thread tid).group 2 126)))

/-- EXIT: the thread waits, and becomes EXITED when its writes have reached their point of coherence (R343). -/
def execExit (s : State) : Host.Outcome State Fault Refusal :=
  .next (eachLane s fun s tid => setWait s tid .exit)

/-- TRAP: the software trap, with the packet after it as the return point (R382, R296). -/
def execTrap (_ : BitVec 16) (s : State) : Host.Outcome State Fault Refusal :=
  .next (eachLane s fun s tid => if exiting s tid then s else raiseAt s tid 0x0E 0 (BitVec.ofNat 64 (linkVa s)))

/-- The packet of the code as memory holds it now, where it can be read: RTE's look at a return slot. -/
def peekPacket (s : State) (l : Launch) (pkt : Nat) : Option Packet :=
  match keyOf s l.die l.actx (l.pktVa pkt) with
  | none => none
  | some k =>
    let w (i : Nat) : Word := BitVec.ofNat 32 (ofLe ((List.range 4).map fun j => s.byteAt (k + 4 * i + j)))
    some ⟨w 0, w 1, w 2, w 3, false⟩

/-- SLOT may be returned to: 0, or a slot that is neither a NOP nor a literal (R297). -/
def returnOk (s : State) (l : Launch) (pkt n : Nat) : Bool :=
  n == 0 || (match peekPacket s l pkt with
    | none => true
    | some pk => pk.word n != nopWord && !isLit (decodeCtl pk.ctl).lit n)

/-- RTE: returning from a trap (R297). -/
def execRte (s : State) : Host.Outcome State Fault Refusal :=
  .next (eachLane s fun s tid =>
    let t := s.thread tid
    if exiting s tid then s
    else if t.depth = 0 then raise s tid 0x04 2
    else
      match curLaunch s, packetAt s (t.trap.pc.toNat / 16 * 16) with
      | some l, some pkt =>
        let n := fld t.trap.pc 0 2
        if returnOk s l pkt n then setTarget (s.updThread tid leaveTrap) tid pkt n else raise s tid 0x03 0
      | _, _ => raise s tid 0x03 0)

/-- The illegal-instruction trap, in every thread that reaches the slot, whatever its guard (R104). -/
def execIllegalInstruction (s : State) : Host.Outcome State Fault Refusal :=
  .next (raiseAll s s.cur.all 0x01 0)

/-- The value of team register k that a thread reads: one that a chained KMOV of this slot group overwrote reads as
before; while a KMOV's pass overlaps, either value (R51, R96). -/
def teamReg (s : State) (tid k : Nat) : State × Word :=
  match s.team (s.thread tid).team, s.pass s.curPass with
  | some t, some p =>
    let now := kvGetD 0 t.kregs k
    match p.chain.find? fun o => o.tid == tid && o.item == 300 + k with
    | some o => (s, o.val)
    | none =>
      (t.kpend.filter fun x => x.k == k && (x.ended == 0 || p.id < x.ended)).foldl (fun r x =>
        let c := r.1.choose
        (c.1, if c.2 then x.old else r.2)) (s, now)
  | _, _ => (s, 0)

/-- MOV.K (R368). -/
def execMovK (d : Reg) (k : BitVec 5) (s : State) : Host.Outcome State Fault Refusal :=
  .next (eachLane s fun s tid =>
    let r := teamReg s tid k.toNat
    r.1.updThread tid fun t => t.setReg d.toNat r.2)

/-- MOV.POP: the thread waits for an entry of q0 or q1 (R368). -/
def execMovPop (d : Reg) (q : BitVec 4) (s : State) : Host.Outcome State Fault Refusal :=
  .next (eachLane s fun s tid => setWait s tid (.pop q.toNat d.toNat))

/-- MOV.PUSH: no queue accepts it, and the word is illegal (R90, R104). -/
def execMovPush (_ : BitVec 4) (_ : Reg) (s : State) : Host.Outcome State Fault Refusal :=
  .next (raiseAll s s.cur.all 0x01 0)

end Sys2Proof.Machine
end

