-- ==== Sys2Proof/Machine/Gang.lean ====
section
/-! DEFINITION. The lead and the gang: ELECT, KMOV, VOTE, MATCH, GRED, GSHF (spec 02 R48-R52, 14 R342, 15 R354-R355, R359,
R367, 16 R394). The active lanes of a slot are those of `s.cur.tids`. -/
namespace Sys2Proof.Machine

/-- The thread is its team's lead (R49). -/
def isLead (s : State) (tid : Nat) : Bool :=
  match s.team (s.thread tid).team with
  | some t => leadOf s t == some tid
  | none => false

/-- ELECT (R342). -/
def execElect (pd : Pred) (s : State) : Host.Outcome State Fault Refusal :=
  .next (s.cur.tids.foldl (fun s' tid => s'.updThread tid fun t => t.setPred pd.toNat (isLead s tid)) s)

/-- KMOV in one thread: the lead writes; another thread traps (R359). -/
def kmovLane (s : State) (tid k : Nat) (v : Word) : State :=
  if isLead s tid then
    s.updTeam (s.thread tid).team fun t =>
      { t with kregs := kvSet 0 t.kregs k v, kpend := t.kpend ++ [⟨k, kvGetD 0 t.kregs k, s.cur.pass, 0⟩] }
  else raise s tid 0x05 0

/-- KMOV (R50, R359). -/
def execKmov (k : BitVec 5) (a : Reg) (s : State) : Host.Outcome State Fault Refusal :=
  .next (eachLane s fun s tid => kmovLane s tid k.toNat ((s.thread tid).reg a.toNat))

/-- An instruction that is legal only in a GANG block; elsewhere each thread whose guard is true takes the illegal-context
trap (R48). -/
def gangOnly (s : State) (f : State → State) : State := if curGang s then f s else raiseAll s s.cur.tids 0x04 1

/-- Bit l for every active lane that meets a test. -/
def laneMask (s : State) (f : Nat → Bool) : Nat :=
  (s.cur.tids.filter f).foldl (fun m tid => m ||| 2 ^ laneOf tid) 0

/-- The result of a VOTE kind over the active lanes' values (R394). -/
def voteBit (k : VoteKind) (vs : List Bool) : Bool :=
  match k with
  | .all => vs.all id
  | .any => vs.any id
  | _ => vs.all id || vs.all (!·)

/-- VOTE (R394). -/
def execVote (k : VoteKind) (d : Reg) (pa : Pred) (s : State) : Host.Outcome State Fault Refusal :=
  .next (gangOnly s fun s =>
    let vs := s.cur.tids.map fun tid => (s.thread tid).pred pa.toNat
    match k with
    | .ballot =>
      let m := laneMask s fun tid => (s.thread tid).pred pa.toNat
      mapLanes s fun t => t.setReg d.toNat (BitVec.ofNat 32 m)
    | k => mapLanes s fun t => t.setPred d.toNat (voteBit k vs))

/-- MATCH (R367). -/
def execMatchKey (w : Width) (d a : Reg) (s : State) : Host.Outcome State Fault Refusal :=
  .next (gangOnly s fun s =>
    let key (tid : Nat) : Nat := rdW (s.thread tid) w a
    s.cur.tids.foldl (fun s' tid =>
      s'.updThread tid fun t => t.setReg d.toNat (BitVec.ofNat 32 (laneMask s fun u => key u == key tid))) s)

/-- GRED (R354). -/
def execGred (op : RedOp) (d a : Reg) (s : State) : Host.Outcome State Fault Refusal :=
  .next (gangOnly s fun s =>
    let r := s.cur.tids.foldl (fun r tid => redFold op r ((s.thread tid).reg a.toNat)) (redIdent op)
    mapLanes s fun t => t.setReg d.toNat r)

/-- The source lane of a GSHF (R355). -/
def shfLane (m : ShfMode) (l b : Nat) : Option Nat :=
  match m with
  | .idx => some (b % 32)
  | .up => if b ≤ l then some (l - b) else none
  | .down => if l + b < 32 then some (l + b) else none
  | .xor => some (l ^^^ b % 32)

/-- GSHF (R355): all lanes read before any writes. -/
def execGshf (m : ShfMode) (d a b : Reg) (s : State) : Host.Outcome State Fault Refusal :=
  .next (gangOnly s fun s =>
    s.cur.tids.foldl (fun s' tid =>
      let own := (s.thread tid).reg a.toNat
      let src := (shfLane m (laneOf tid) (rdB s.cur (s.thread tid) .w32 b)).bind fun l =>
        s.cur.tids.find? fun u => laneOf u == l
      let v := match src with
        | some u => (s.thread u).reg a.toNat
        | none => own
      s'.updThread tid fun t => t.setReg d.toNat v) s)

end Sys2Proof.Machine
end

