-- ==== Sys2Proof/Machine/Memory.lean ====
section
/-! DEFINITION. Global memory: the issue of LD, ST, PREF, CWB, ATOM, CAS, LUP, DEVL, FENCE and PUBV, and how their parts
are performed (spec 07 R161-R162, R175-R183, 08 R190-R213, 15 R351, R360, R366, 16 R378-R379, R390, 14 R320-R321, R333,
R336, R338). -/
namespace Sys2Proof.Machine

/-! ## Issue -/

/-- The single-copy atomic parts of n bytes at an address: one per sector, and so one per page (R162, R218). -/
def partsOf (va n : Nat) : List Part :=
  (sectorsOf va n).map fun p => { va := (64 * p.1 + p.2.1) % 2 ^ 64, off := p.2.2.1, n := p.2.2.2, done := false }

/-- One access of a thread at an address; one that has a non-canonical byte traps and is not performed (R161; log 45). -/
def startAcc (s : State) (tid va n : Nat) (k : AccKind) (data : Nat) (dst : List Nat) : State :=
  if !canonicalAll va n then raise s tid 0x09 0
  else
    addAcc s { newAcc s tid k with va := va, size := n, data := BitVec.ofNat 128 data, dst := dst, parts := partsOf va n }

/-- The registers of a group from a register on. -/
def regsFrom (n : Nat) (d : Reg) : List Nat := (List.range n).map (d.toNat + ·)

/-- LD (R360). -/
def execLd (sz : MSize) (sx : Bool) (h : Hint) (d a : Reg) (imm : BitVec 7) (s : State) :
    Host.Outcome State Fault Refusal :=
  .next (eachLane s fun s tid =>
    let n := szBytes sz
    startAcc s tid (gAddr s.cur (s.thread tid) a imm n) n (.ld (sx && decide (n < 4)) h) 0 (regsFrom (regsFor n) d))

/-- ST (R390). -/
def execSt (sz : MSize) (h : Hint) (d a : Reg) (imm : BitVec 7) (s : State) : Host.Outcome State Fault Refusal :=
  .next (eachLane s fun s tid =>
    let n := szBytes sz
    let t := s.thread tid
    startAcc s tid (gAddr s.cur t a imm n) n (.st h) (t.group (regsFor n) d.toNat) [])

/-- PREF: once for all lanes of the slot that name a line; one that would fault is dropped (R378). -/
def execPref (h : Hint) (a : Reg) (imm : BitVec 7) (s : State) : Host.Outcome State Fault Refusal :=
  .next (s.cur.tids.foldl (fun r tid =>
    let va := gAddr r.1.cur (r.1.thread tid) a imm 256 / 256 * 256
    if !canonical va || r.2.contains va then r
    else
      let acc := { newAcc r.1 tid (.pref h) with va := va, size := 256, parts := [⟨va, 0, 256, false⟩] }
      (addAcc r.1 acc, va :: r.2)) (s, [])).1

/-- Where a slot stands in its pass, as one number: lanes of one CWB slot that name a line act once (R336). -/
def slotMark (s : State) : Nat := 4 * s.cur.pkt + s.cur.slot

/-- CWB (R336). -/
def execCwb (a : Reg) (imm : BitVec 7) (s : State) : Host.Outcome State Fault Refusal :=
  .next (eachLane s fun s tid =>
    let va := gAddr s.cur (s.thread tid) a imm 256
    if !canonical va then raise s tid 0x09 0
    else
      addAcc s { newAcc s tid .cwb with va := va, size := 256, data := BitVec.ofNat 128 (slotMark s),
                                        parts := [⟨va / 256 * 256, 0, 256, false⟩] })

/-- A naturally aligned access with its checks: canonical, then aligned (R161, R162). -/
def startAligned (s : State) (tid va n : Nat) (k : AccKind) (data : Nat) (dst : List Nat) : State :=
  if canonical va && va % n != 0 then raise s tid 0x08 0 else startAcc s tid va n k data dst

/-- The shared mould of the ATOM kinds (R320). -/
def atomOp (op : AtomOp) (sc : Scope) (w : Width) (o : Ord2) (d a : Reg) (s : State) : State :=
  eachLane s fun s tid =>
    let t := s.thread tid
    startAligned s tid (t.group 2 a.toNat) (4 * wRegs w) (.atom op w o sc) (rdW t w d) (regsFrom (wRegs w) d)

def execAtomAdd (sc : Scope) (w : Width) (o : Ord2) (d a : Reg) (s : State) : Host.Outcome State Fault Refusal :=
  .next (atomOp .add sc w o d a s)
def execAtomMin (sc : Scope) (w : Width) (uns : Bool) (o : Ord2) (d a : Reg) (s : State) :
    Host.Outcome State Fault Refusal :=
  .next (atomOp (if uns then .umin else .min) sc w o d a s)
def execAtomMax (sc : Scope) (w : Width) (uns : Bool) (o : Ord2) (d a : Reg) (s : State) :
    Host.Outcome State Fault Refusal :=
  .next (atomOp (if uns then .umax else .max) sc w o d a s)
def execAtomAnd (sc : Scope) (w : Width) (o : Ord2) (d a : Reg) (s : State) : Host.Outcome State Fault Refusal :=
  .next (atomOp .andB sc w o d a s)
def execAtomOr (sc : Scope) (w : Width) (o : Ord2) (d a : Reg) (s : State) : Host.Outcome State Fault Refusal :=
  .next (atomOp .orB sc w o d a s)
def execAtomXor (sc : Scope) (w : Width) (o : Ord2) (d a : Reg) (s : State) : Host.Outcome State Fault Refusal :=
  .next (atomOp .xorB sc w o d a s)
def execAtomXchg (sc : Scope) (w : Width) (o : Ord2) (d a : Reg) (s : State) : Host.Outcome State Fault Refusal :=
  .next (atomOp .xchg sc w o d a s)
def execAtomFadd (sc : Scope) (o : Ord2) (d a : Reg) (s : State) : Host.Outcome State Fault Refusal :=
  .next (atomOp .fadd sc .w32 o d a s)

/-- CAS: the group holds the expected value, then the new one (R333). -/
def execCas (sc : Scope) (w : Width) (o : Ord2) (d a : Reg) (s : State) : Host.Outcome State Fault Refusal :=
  .next (eachLane s fun s tid =>
    let t := s.thread tid
    startAligned s tid (t.group 2 a.toNat) (4 * wRegs w) (.atom .cas w o sc) (t.group (2 * wRegs w) d.toNat)
      (regsFrom (2 * wRegs w) d))

/-- LUP (R366). -/
def execLup (op : LupOp) (d a : Reg) (imm : BitVec 7) (s : State) : Host.Outcome State Fault Refusal :=
  .next (eachLane s fun s tid =>
    let t := s.thread tid
    startAligned s tid (gAddr s.cur t a imm 4) 4 (.lup op) (t.reg d.toNat).toNat [])

/-- DEVL: one access to the sector (R338). -/
def execDevl (a : Reg) (imm : BitVec 7) (s : State) : Host.Outcome State Fault Refusal :=
  .next (eachLane s fun s tid =>
    let va := gAddr s.cur (s.thread tid) a imm 64
    if !canonical va then raise s tid 0x09 0
    else addAcc s { newAcc s tid .devl with va := va, size := 64, parts := [⟨va / 64 * 64, 0, 64, false⟩] })

/-- FENCE holds later accesses, never the pass (R351). -/
def execFence (sc : Scope) (k : FenceKind) (s : State) : Host.Outcome State Fault Refusal :=
  .next (dropFences (eachLane s fun s tid => addAcc s (newAcc s tid (.fence k sc))))

/-- PUBV: waits to add to the counter at PUBADDR (R379). -/
def execPubv (d : Reg) (s : State) : Host.Outcome State Fault Refusal :=
  .next (eachLane s fun s tid =>
    addAcc s { newAcc s tid .pubv with va := (s.thread tid).pubaddr.toNat, size := 8, dst := regsFrom 2 d })

/-! ## Performing a part -/

/-- What an access is for the page walk (R284). -/
def AccKind.xacc : AccKind → Xacc
  | .st _ => .wr
  | .atom .. => .rmw
  | .lup _ => .lup
  | .stashFill _ _ own _ => if own then .wr else .rd
  | .stashWb .. => .wr
  | .pubv => .rmw
  | _ => .rd

/-- Parks a part of an access on a replayable fault (R36, R288). -/
def parkPart (s : State) (id part : Nat) (a : Access) (va cause sub lvl : Nat) : State :=
  park (s.updAcc id fun a => { a with faulted := true }) (dieOf a.core) (threadRec s a.tid cause sub a.kind.xacc.code lvl va)
    (.access id part)

/-- The L1 holds every byte of a piece of a non-coherent sector. -/
def ncHit (x : NcSec) (off n : Nat) : Bool := x.filled || bitsOf x.dirty.toNat off n == 2 ^ n - 1

/-- The poisoned granules of what an L1 reads in its copy of a sector, or at the home where it has none: those of modified data are
the sector's (R299). -/
def copyMarks (s : State) (g k : Nat) : List Nat :=
  match holderState s k (.l1 g) with
  | .s | .e => kvGetD [] (s.core g).l1Poison k
  | _ => homeMarks s k

/-- A piece of a sector touches one of its poisoned granules. -/
def marksHit (marks : List Nat) (off n : Nat) : Bool := marks.any fun q => 16 * q < off + n && off < 16 * q + 16

/-- Marks that are left when bytes of a sector are overwritten: a granule that is written whole loses its own (R299). -/
def marksAfter (marks : List Nat) (off n : Nat) : List Nat := marks.filter fun q => !(off ≤ 16 * q && 16 * q + 16 ≤ off + n)

/-- The home's data under the dirty bytes of a non-coherent sector. -/
def ncMerge (x : NcSec) (home : SecData) : SecData :=
  BitVec.ofNat 512 (ofLe ((List.range 64).map fun i =>
    BitVec.ofNat 8 ((if x.dirty.getLsbD i then x.data else home).toNat / 2 ^ (8 * i))))

/-- The coherent copy that an L1 itself holds goes home before the sector becomes non-coherent (log 23). -/
def dropOwn (s : State) (g k : Nat) : State := if heldBy s k (.l1 g) then toHome s k else s

/-- Nothing of a sector yet. -/
def NcSec.none : NcSec := { data := 0, dirty := 0, filled := false, poison := [] }

/-- Fills a sector as non-coherent from its home (R208). -/
def ncFill (s : State) (g k : Nat) : State :=
  let s := readFor (dropOwn s g k) k none
  let x := kvGetD NcSec.none (s.core g).nc k
  let marks := natUnion x.poison ((homeMarks s k).filter fun q => bitsOf x.dirty.toNat (16 * q) 16 != 2 ^ 16 - 1)
  s.updCore g fun c => { c with nc := kvPut c.nc k { x with data := ncMerge x (secValue s k), filled := true, poison := marks } }

/-- Marks of a sector after the dirty bytes of a non-coherent copy have reached it: a granule of which they are poisoned is
marked, and one that they cover whole loses its mark (R299). -/
def ncMarks (poison : List Nat) (k : Nat) (mask : BitVec 64) (bad : List Nat) : List Nat :=
  let left := poison.filter fun q => !(q / 4 == k && bitsOf mask.toNat (16 * (q % 4)) 16 == 2 ^ 16 - 1)
  (bad.filter fun q => bitsOf mask.toNat (16 * q) 16 != 0).foldl (fun p q => natAdd p (4 * k + q)) left

/-- The dirty bytes of a non-coherent copy reach the home: a plain store of them (R209). -/
def ncHome (s : State) (k : Nat) (data : SecData) (mask : BitVec 64) (bad : List Nat) : State :=
  let s := toHome (heatTick s k) k
  let ds := (List.range 64).filter mask.getLsbD
  { s with
    mem := ds.foldl (fun m i => cellPut m (64 * k + i) (BitVec.ofNat 8 (data.toNat / 2 ^ (8 * i)))) s.mem
    poison := ncMarks s.poison k mask bad }

/-- Writes a non-coherent sector back, the dirty bytes alone with their marks, and drops it (R209, R299). The launch that pays for
it, if one does, is the one whose instruction asks for it, under the policy of its page (R63; log 22). -/
def ncWriteBack (s : State) (g k : Nat) (lid : Option (Nat × Alloc)) : State :=
  match kvGet (s.core g).nc k with
  | none => s
  | some x =>
    let s := s.updCore g fun c => { c with nc := kvDel c.nc k }
    if x.dirty = 0 then s
    else
      let m : LinkMsg := .dirty (64 * k) x.data x.dirty x.poison
      let s := match lid with
        | none => sendFar s (64 * k) m
        | some l => request s l.1 (64 * k) l.2 m
      ncHome s k x.data x.dirty x.poison

/-- A part is done; its access completes with its last part. -/
def partDone (s : State) (id part : Nat) (got : BitVec 128) (bad : Bool) : State :=
  match s.acc id with
  | none => s
  | some a =>
    let parts := a.parts.mapIdx fun i p => if i = part then { p with done := true } else p
    let bad := a.poisoned || bad
    let s := s.setAcc id { a with parts := parts, got := got, poisoned := bad }
    if parts.all (·.done) then
      let s := if bad then setDue s a.tid 0x18 0 a.word else s
      let v := match a.kind with
        | .ld sx _ => extVal sx a.size got.toNat
        | _ => got.toNat
      finishAcc s id v
    else s

/-- The near slice of a core (R180). -/
def nearSlice (g : Nat) : Nat := g % 128 / 4

/-- A replica that a .REPL load of a launch may read: one in the core's near slice (R180). -/
def replicaFor (s : State) (g lid k : Nat) : Option Replica :=
  (s.die (dieOf g)).replicas.find? fun r => r.launch == lid && r.key == k && r.slice == nearSlice g

/-- A .REPL load may be served by a replica at the device's choice; else it is a plain load that leaves one (R180,
log 3). What it reads, with the poisoned granules. -/
def replLoad (s : State) (a : Access) (k va : Nat) : State × SecData × List Nat :=
  let g := a.core
  let plain (s : State) : State × SecData × List Nat :=
    let s := readFor s k (some (.l1 g))
    (s, secValue s k, homeMarks s k)
  match replicaFor s g a.launch k with
  | some r =>
    let c := s.choose
    if c.2 then (c.1, r.data, r.poison) else plain c.1
  | none =>
    let r := plain s
    (r.1.updDie (dieOf g) fun x =>
      let x := if (sliceReplicas x (nearSlice g)).contains (a.launch, k / 4) then x else makeRoom x (nearSlice g)
      { x with replicas := x.replicas ++ [⟨a.launch, k, nearSlice g, r.2.1, r.2.2, va / 4096⟩] }, r.2)

/-- The sector is latent. -/
def isLatent (s : State) (k : Nat) : Bool :=
  match kvGet s.dir k with
  | some (.latent ..) => true
  | _ => false

/-- How a request's line is placed: as its page says, under its hint, which never overrides policy 10 (R178, R179). -/
def hintAlloc (h : Hint) (t : Trans) : Alloc :=
  match h with
  | .byp => .no
  | .strm => if t.alloc = .no then .no else .low
  | _ => t.alloc

/-- A load's part (R360, R196, R208). -/
def loadPart (s : State) (id part : Nat) (a : Access) (p : Part) (t : Trans) (actx : Nat) (h : Hint) : State :=
  let k := t.key / 64
  let off := t.key % 64
  let g := a.core
  -- a .REPL load of a latent sector is a plain load (R180)
  let h := if h = .repl ∧ isLatent s k then .none else h
  let give (s : State) (d : SecData) (marks : List Nat) : State :=
    partDone s id part (setFld a.got (8 * p.off) (8 * p.n) (ofLe (secGet d off p.n))) (marksHit marks off p.n)
  let giveNc (s : State) : State :=
    let x := kvGetD NcSec.none (s.core g).nc k
    give s x.data x.poison
  let giveNow (s : State) : State := give s (secValue s k) (copyMarks s g k)
  let nc := kvGet (s.core g).nc k
  if nc.any (ncHit · off p.n) then giveNc s
  else if nc.isNone && heldBy s k (.l1 g) && h != .repl then giveNow s
  else
    let w := awaitDev s k id part true
    if w.2 then w.1
    else
      let s := readReq w.1 a.launch t.key (hintAlloc h t)
      if nc.isSome then giveNc (ncFill s g k)
      else if t.uncached then giveNow (readFor s k none)
      else if inNcWindow (s.die (dieOf g)) actx p.va then giveNc (ncFill s g k)
      else if h = .repl then
        let r := replLoad s a k p.va
        give r.1 r.2.1 r.2.2
      else giveNow (readFor s k (some (.l1 g)))

/-- Stores bytes into a non-coherent sector that an L1 holds; `dirty`: they are its own, to be written back. -/
def ncStore (s : State) (g k off : Nat) (bs : List Byte) (dirty : Bool) : State :=
  s.updCore g fun c =>
    let x := kvGetD NcSec.none c.nc k
    let mask := if dirty then setFld x.dirty off bs.length (2 ^ bs.length - 1) else x.dirty
    let x := { x with data := secPut x.data off bs, dirty := mask, poison := marksAfter x.poison off bs.length }
    { c with nc := kvPut c.nc k x }

/-- The L1 owns the sector: E or M. -/
def ownedBy (s : State) (k g : Nat) : Bool :=
  match kvGet s.dir k with
  | some (.modified h _) | some (.excl h) => h == .l1 g
  | _ => false

/-- A store's part (R390-R391, R183, R208). A store to a CMP page is performed at the home; the non-coherent copy that the L1
holds of its sector takes the bytes as well, so that the L1's own loads see them (R227; log 96). A page of policy 10 keeps its policy
inside a non-coherent window, for which R208 and R178 differ (log 120). -/
def storePart (s : State) (id part : Nat) (a : Access) (p : Part) (t : Trans) (actx : Nat) (h : Hint) : State :=
  let k := t.key / 64
  let off := t.key % 64
  let g := a.core
  let bs := leBytes p.n (a.data.toNat / 2 ^ (8 * p.off))
  let held := (kvGet (s.core g).nc k).isSome
  if !t.cmp && !t.uncached && (held || inNcWindow (s.die (dieOf g)) actx p.va) then
    partDone (ncStore (if held then s else dropOwn s g k) g k off bs true) id part a.got false
  else
    let w := awaitDev s k id part true
    if w.2 then w.1
    else
      let s := if ownedBy w.1 k g then w.1 else request w.1 a.launch t.key (hintAlloc h t) (.write t.key bs)
      if t.cmp then
        match cmpStore s t.key bs with
        | some s => partDone (if held then ncStore s g k off bs false else s) id part a.got false
        | none => parkPart s id part a p.va 0x15 0 15
      else partDone (storeFor s k (if t.uncached then none else some (.l1 g)) off bs) id part a.got false

/-- The new value of an ATOM, and what D receives (R320, R333). -/
def atomNew (op : AtomOp) (w : Width) (old d : Nat) : Nat × Nat :=
  let n := wBits w
  let so := sextNat old n
  let sd := sextNat d n
  match op with
  | .add => ((old + d) % 2 ^ n, old)
  | .min => (if sd < so then d else old, old)
  | .max => (if so < sd then d else old, old)
  | .umin => (min d old, old)
  | .umax => (max d old, old)
  | .andB => (old &&& d, old)
  | .orB => (old ||| d, old)
  | .xorB => (old ^^^ d, old)
  | .xchg => (d, old)
  | .fadd => ((f32Add (BitVec.ofNat 32 old) (F32.value d)).toNat, old)
  | .cas =>
    let exp := d % 2 ^ n
    if old = exp then (d / 2 ^ n % 2 ^ n, old + 2 ^ n) else (old, old)

/-- The bounce counter of a line rises or falls by one within 0 to 3 (R211). -/
def bounceDown (s : State) (g line : Nat) : State :=
  s.updCore g fun c => { c with bc := kvSet 0 c.bc line (kvGetD 0 c.bc line - 1) }

/-- An ATOM that is not always performed far (R211). -/
def nearable (s : State) (g : Nat) (p : Part) (t : Trans) (actx : Nat) : Bool :=
  !t.uncached && !t.cmp && !t.peer && (farPackage t.key).isNone && !inNcWindow (s.die (dieOf g)) actx p.va

/-- Where an ATOM is performed: near in the L1, or far at the home (R211). -/
def atomNear (s : State) (a : Access) (p : Part) (t : Trans) (actx : Nat) : Bool :=
  let k := t.key / 64
  nearable s a.core p t actx && (ownedBy s k a.core || kvGetD 0 (s.core a.core).bc (k / 4) ≤ 1)

/-- The request of an ATOM: one that its L1 owns makes none, and its bounce counter falls; another goes to the home, and one
performed near notes when it obtained the sector (R63, R211). -/
def atomAsk (s : State) (a : Access) (t : Trans) (near : Bool) (op : AtomOp) (w : Width) : State :=
  let k := t.key / 64
  let g := a.core
  if ownedBy s k g && near then bounceDown s g (k / 4)
  else
    let s := request s a.launch t.key t.alloc (.atomic t.key op w a.data.toNat)
    if near then s.updCore g fun c => { c with obtained := kvPut c.obtained k c.cyc } else s

/-- The L1 owns a sector whose poisoned word an ATOM leaves as it is (R299); far, the home has it, and no L1 holds it (R211, R212). -/
def atomHold (s : State) (g k : Nat) (near : Bool) : State :=
  if !near then toHome (heatTick s k) k
  else if ownedBy s k g then s
  else let s := toHome (heatTick s k) k; fillMarks { s with dir := kvPut s.dir k (.excl (.l1 g)) } k (.l1 g)

/-- Performs an ATOM or CAS (R211-R213, R320-R321, R333). -/
def atomPart (s : State) (id part : Nat) (a : Access) (p : Part) (t : Trans) (actx : Nat) (op : AtomOp) (w : Width) :
    State :=
  let k := t.key / 64
  let off := t.key % 64
  let g := a.core
  if !roomFor s t.key 4 then s
  else
  let s := ncWriteBack s g k (some (a.launch, t.alloc))
  let v := awaitDev s k id part true
  if v.2 then v.1
  else
    let s := oweEarlier v.1 id a
    let old := ofLe (secGet (secValue s k) off p.n)
    let r := atomNew op w old a.data.toNat
    let near := atomNear s a p t actx
    let bad := marksHit (if near then copyMarks s g k else homeMarks s k) off p.n
    let s := atomAsk s a t near op w
    if bad then
      -- a poisoned word is not replaced (R299, R333)
      partDone (atomHold s g k near) id part (BitVec.ofNat 128 (if op = .cas then old else r.2)) true
    else
      let bs := leBytes p.n r.1
      if t.cmp then
        match cmpStore s t.key bs with
        | some s => partDone s id part (BitVec.ofNat 128 r.2) false
        | none => parkPart s id part a p.va 0x15 0 15
      else partDone (storeFor s k (if near then some (.l1 g) else none) off bs) id part (BitVec.ofNat 128 r.2) false

/-- Folds an LUP's value into the core's copy (R192-R194, R202). -/
def applyLup (op : LupOp) (g actx va off : Nat) (v : Word) (copies : List LCopy) : List LCopy :=
  let x := (copies.find? (·.num == g)).getD ⟨g, identSec op, [], []⟩
  let e := off / 4
  let x : LCopy :=
    { x with
      data := setFld x.data (32 * e) 32 (lupUpdate op (secElem x.data e) v).toNat
      pages := if x.pages.contains (actx, va / 4096) then x.pages else x.pages ++ [(actx, va / 4096)] }
  copies.filter (·.num != g) ++ [x]

/-- The L1 holds a latent copy of a sector under an operator, which a develop has not collected (R194, R197). -/
def holdsCopy (s : State) (k g : Nat) (op : LupOp) : Bool :=
  match kvGet s.dir k with
  | some (.latent op' copies) => op' == op && copies.any (·.num == g)
  | _ => false

/-- The update enters the L1's latent copy, which is granted at the identity if it holds none (R192-R194). -/
def foldLup (s : State) (k g actx va off : Nat) (op : LupOp) (v : Word) : State :=
  let copies := match kvGet s.dir k with
    | some (.latent _ cs) => cs
    | _ => []
  { s with dir := kvPut s.dir k (.latent op (applyLup op g actx va off v copies)) }

/-- Every copy of a sector goes home before it is granted latent copies (R194). -/
def clearForLup (s : State) (k : Nat) : State :=
  match kvGet s.dir k with
  | some (.latent ..) => s
  | _ => toHome s k

/-- Performs an LUP (R194, R366). A non-coherent copy of the L1 stays beside it (log 95). -/
def lupPart (s : State) (id part : Nat) (a : Access) (p : Part) (t : Trans) (actx : Nat) (op : LupOp) : State :=
  let k := t.key / 64
  let g := a.core
  let v := BitVec.ofNat 32 a.data.toNat
  let fold (s : State) : State := partDone (foldLup s k g actx p.va (t.key % 64) op v) id part 0 false
  if holdsCopy s k g op then fold s
  else
    let other : Bool := match kvGet s.dir k with
      | some (.latent op' _) => op' != op
      | _ => false
    let w := awaitDev s k id part other
    if w.2 then w.1
    else
      fold (heatTick (request (clearForLup w.1 k) a.launch t.key .no (.latent t.key op)) k)

/-- Performs a DEVL: a develop, or a plain read at the home (R338). -/
def devlPart (s : State) (id part : Nat) (a : Access) (t : Trans) : State :=
  let k := t.key / 64
  let w := awaitDev s k id part true
  if w.2 then w.1 else partDone (readFor (readReq w.1 a.launch t.key .no) k none) id part 0 false

/-- The write-back of a sector that an L1 holds in M goes to its home, with the launch that asked for it (R63). -/
def sendHome (s : State) (k : Nat) (lid : Nat) (al : Alloc) : State := toHome (heatTick (writeRequest s lid (64 * k) al) k) k

/-- What CWB does with one sector that no develop is under way for (R210). -/
def cwbSector (s : State) (g k lid : Nat) (al : Alloc) : State :=
  let s := ncWriteBack s g k (some (lid, al))
  match kvGet s.dir k with
  | some (.latent ..) => s
  | some (.modified (.l1 h) _) => if h = g then sendHome s k lid al else s
  | _ => dropClean s k (.l1 g)

/-- The CWB accesses that act together: those of one slot that name one line (R336). -/
def cwbGroup (s : State) (a : Access) : List Nat :=
  (s.accs.filter fun b => b.2.kind == .cwb && b.2.core == a.core && b.2.pass == a.pass && b.2.data == a.data &&
    b.2.va / 256 == a.va / 256).map (·.1)

/-- Starts the develop of every sector of a line that the L1 holds latent, or holds non-coherent over a latent one; true: a
sector of the line develops (R197, R210). -/
def cwbDevelops (s : State) (g line : Nat) : State × Bool :=
  (List.range 4).foldl (fun r i =>
    let k := 4 * line + i
    let mine : Bool := match kvGet r.1.dir k with
      | some (.latent _ copies) => copies.any (·.num == g) || (kvGet (r.1.core g).nc k).any (·.dirty != 0)
      | _ => false
    if mine then let m := mustWait r.1 k; (m.1, r.2 || m.2) else r) (s, false)

/-- An L1 has given a line up: its bounce counter starts at 0 when the line is allocated anew (R211). -/
def dropTag (s : State) (g line : Nat) : State :=
  s.updCore g fun c => { c with bc := kvDel c.bc line, streamed := c.streamed.filter (· != line) }

/-- Performs the CWBs of a slot on one line: once its latent sectors have developed, the others go home (R210). -/
def cwbPart (s : State) (a : Access) (t : Trans) : State :=
  let line := t.key / 256
  let v := cwbDevelops s a.core line
  if v.2 then v.1
  else if !roomFor s t.key 12 then s
  else
    let s := (List.range 4).foldl (fun s i => cwbSector s a.core (4 * line + i) a.launch t.alloc) v.1
    (cwbGroup s a).foldl (fun s i => cancelAcc s i) (dropTag s a.core line)

/-- Performs a PREF, or drops it on a fault (R378-R379, R179). -/
def prefPart (s : State) (id : Nat) (a : Access) (t : Trans) (actx : Nat) (h : Hint) : State :=
  let g := a.core
  if t.uncached then s.delAcc id
  else if !roomFor s t.key 12 then s
  else
    let r := (List.range 4).foldl (fun r i =>
      let k := t.key / 256 * 4 + i
      let s := r.1
      if (kvGet (s.core g).nc k).isSome || heldBy s k (.l1 g) then r
      else
        let m := mustWait s k
        if m.2 then (m.1, true)
        else
          let s := readReq m.1 a.launch (64 * k) (hintAlloc h t)
          (if inNcWindow (s.die (dieOf g)) actx a.va then ncFill s g k else readFor s k (some (.l1 g)), r.2)) (s, false)
    if r.2 then r.1 else r.1.delAcc id

/-- Performs a PUBV's add, or raises host publication failed (R379, R231). -/
def pubvPart (s : State) (id : Nat) (a : Access) : State :=
  let d := dieOf a.core
  if a.va = 0 then parkPart s id 0 a a.va 0x17 1 15
  else if !hostUp s d then parkPart s id 0 a a.va 0x17 2 15
  else
    let key := 2 ^ 64 + a.va
    let r := readHome s key 8
    let v := (ofLe r.2 + 1) % 2 ^ 64
    finishAcc (storeHome r.1 key (leBytes 8 v)) id v

/-- The accesses that must be ready together are: all CWBs of a group, else the part itself. -/
def groupReady (s : State) (id : Nat) (a : Access) (p : Part) : Bool :=
  match a.kind with
  | .cwb => (cwbGroup s a).all (accReady s)
  | _ => readyAs s id { a with parts := [p] }

/-- A part of an access can be performed now. -/
def partReady (s : State) (id part : Nat) : Bool :=
  match s.acc id with
  | none => false
  | some a =>
    (match a.parts[part]? with
      | some p => !p.done && groupReady s id a p
      | none => false) && !isParked s (dieOf a.core) (.access id part)

/-- HINT of an access (R133). -/
def AccKind.hint : AccKind → Hint
  | .ld _ h | .st h | .pref h => h
  | _ => .none

/-- The L1's line that an access uses counts as streaming while the last access to it was to a page of policy 01, or had the hint .STRM
(R178, R179). -/
def noteUse (s : State) (g : Nat) (t : Trans) (h : Hint) : State :=
  let line := t.key / 256
  let low := t.alloc == .low || h == .strm
  if t.uncached || (s.core g).streamed.contains line == low then s
  else s.updCore g fun c => { c with streamed := if low then natAdd c.streamed line else c.streamed.filter (· != line) }

/-- Translates a part of an access and performs it; a replayable fault parks it (R36, R278). -/
def doPart (s : State) (id part : Nat) : State :=
  match s.acc id with
  | none => s
  | some a =>
    match a.parts[part]?, s.launch a.launch with
    | some p, some l =>
      let x := xlate s a.core l.actx p.va a.kind.xacc
      let s := x.1
      match x.2 with
      | .wait => s
      | .bad cause sub lvl =>
        (match a.kind with
          | .pref _ => s.delAcc id
          | .cwb => (cwbGroup s a).foldl (fun s i => match s.acc i with
              | some b => parkPart s i 0 b p.va cause sub lvl
              | none => s) s
          | _ => parkPart s id part a p.va cause sub lvl)
      | .ok t =>
        let s := noteUse s a.core t a.kind.hint
        (match a.kind with
          | .ld _ h => loadPart s id part a p t l.actx h
          | .st h => storePart s id part a p t l.actx h
          | .atom op w _ _ => atomPart s id part a p t l.actx op w
          | .lup op => lupPart s id part a p t l.actx op
          | .devl => devlPart s id part a t
          | .cwb => cwbPart s a t
          | .pref h => prefPart s id a t l.actx h
          | _ => s)
    | _, _ => s

end Sys2Proof.Machine
end

