-- ==== Sys2Proof/Machine/ScratchOps.lean ====
section
/-! DEFINITION. LDS, STS, LDFE, STFE, SBIND and SUNB (spec 07 R163-R174, 15 R362-R363, 16 R384-R385, R392-R393). -/
namespace Sys2Proof.Machine

/-- One scratchpad address of a thread, resolved and checked (R164). -/
def resolveFor (s : State) (tid va n : Nat) (wr stashOk : Bool) : Except Nat SPlace :=
  match teamOfTid s tid with
  | none => .error 0x03
  | some t => spadResolve s t va n wr stashOk

/-- The physical offset at which the lane port serves a place: the core's own allotment, or a stash sector that is present. A lane
whose sector is absent has no word in the slot's cycles: whether it counts is left open (R166, R167, R169; log 119). -/
def laneOffset (s : State) (tid : Nat) : SPlace → Option Nat
  | .phys _ p true => some p
  | .phys _ _ false => none
  | .stash w idx off =>
    match teamOfTid s tid with
    | none => none
    | some t => if (stashAt t w idx).isSome then some (stashP s t w idx + off) else none

/-- A lane's access waits in the replay queue for the write-back of its sector (R174). -/
def laneWaits (s : State) (n : Nat) : SPlace → Bool
  | .phys g p true => wbAt s g p n
  | _ => false

/-- Counts the slot at the lane port (R168, R169). -/
def countSlot (s : State) (n : Nat) (wr stashOk : Bool) (addr : Nat → Nat) : State :=
  let places := s.cur.tids.filterMap fun tid => (resolveFor s tid (addr tid) n wr stashOk).toOption.map fun pl => (tid, pl)
  let reqs := places.filterMap fun x => if laneWaits s n x.2 then none else (laneOffset s x.1 x.2).map fun p => (p, n)
  let masks := ((s.pass s.curPass).map (·.csr.sbhash)).getD CoreCsr.reset.sbhash
  countConflicts s s.cur.core masks reqs (places.filter fun x => laneWaits s n x.2).length

/-- A scratchpad slot: each thread's address is checked, and the place is handed on, or the thread traps (R164). -/
def spadSlot (s : State) (n : Nat) (wr stashOk : Bool) (addr : Nat → Nat) (act : State → Nat → SPlace → State) : State :=
  eachLane (countSlot s n wr stashOk addr) fun s' tid =>
    match resolveFor s tid (addr tid) n wr stashOk with
    | .error sub => raise s' tid 0x0A sub
    | .ok pl => act s' tid pl

/-- Reads n scratchpad bytes into a thread's registers (R363, R299). -/
def readSpad (s : State) (tid g p n : Nat) (sx : Bool) (dst : Nat) (word : Word) : State :=
  let s := if spadPoisoned s g p n then setDue s tid 0x18 0 word else s
  s.updThread tid fun t => t.setGroup (regsFor n) dst (extVal sx n (ofLe (spadGet s g p n)))

/-- An LDS of a physical place: at once, unless an earlier event of the thread or pass, or a write-back, holds it. -/
def startLds (s : State) (tid va g p n : Nat) (sx : Bool) (d : Reg) : State :=
  let a := { newAcc s tid (.spad false sx g p) with va := va, size := n, dst := regsFrom (regsFor n) d }
  if readyAs s s.seq a then readSpad s tid g p n sx d.toNat s.cur.word else addAcc s a

/-- An STS of a physical place, likewise; `skip`: bytes that a higher lane of the slot writes in its place. -/
def startSts (s : State) (tid g p n : Nat) (skip : BitVec 128) (v : Nat) : State :=
  let a := { newAcc s tid (.spad true false g p) with size := n, data := BitVec.ofNat 128 v, got := skip }
  if readyAs s s.seq a then spadPutBut s g p skip (leBytes n v) else addAcc s a

/-- ACCESS_COMPLETE of a scratchpad access that waited. -/
def serveSpad (s : State) (id : Nat) : State :=
  match s.acc id with
  | some a =>
    match a.kind with
    | .spad wr sx g p =>
      if wr then (spadPutBut s g p a.got (leBytes a.size a.data.toNat)).delAcc id
      else
        let s := if spadPoisoned s g p a.size then setDue s a.tid 0x18 0 a.word else s
        finishAcc s id (extVal sx a.size (ofLe (spadGet s g p a.size)))
    | _ => s
  | none => s

/-- The words of n bytes at a place: those of a core's scratchpad, and those of a team's stash window. -/
def placeWords (tk n : Nat) : SPlace → List (Nat × Nat)
  | .phys g p _ => (wordsOf p n).map (2 * g, ·)
  | .stash w idx off => (wordsOf (64 * idx + off) n).map (2 * (8 * tk + w) + 1, ·)

/-- The bytes of a lane's store that a higher home lane of the slot writes in its place: a word is written once, with the data of
the highest lane that writes it (R168, R393; log 84). `pl` is the lane's own place. -/
def laneSkip (s : State) (n : Nat) (addr : Nat → Nat) (tid : Nat) (pl : SPlace) : BitVec 128 :=
  let words (u : Nat) (pl : SPlace) : List (Nat × Nat) := placeWords (s.thread u).team n pl
  let above := s.cur.tids.filterMap fun u =>
    if laneOf tid < laneOf u then (resolveFor s u (addr u) n true true).toOption.map (words u) else none
  let off := match pl with
    | .phys _ p _ => p
    | .stash _ _ o => o
  let mine := words tid pl
  BitVec.ofNat 128 (((List.range n).map fun i =>
    if above.any (·.contains (mine.getD ((off % 4 + i) / 4) (0, 0))) then 2 ^ i else 0).foldl (· + ·) 0)

/-- Bytes and sign of an LDS kind. -/
def ldsSigned : LdsKind → Bool
  | .i8 | .i16 => true
  | _ => false

/-- LDS (R363). -/
def execLds (k : LdsKind) (d a : Reg) (imm : BitVec 7) (s : State) : Host.Outcome State Fault Refusal :=
  let n := ldsBytes k
  let sx := ldsSigned k
  let addr (tid : Nat) : Nat := sAddr s.cur (s.thread tid) a imm n
  .next (spadSlot s n false true addr fun s tid pl =>
    match pl with
    | .phys g p _ => startLds s tid (addr tid) g p n sx d
    | .stash w idx off =>
      let va := match teamOfTid s tid with
        | some t => (winGva s t w + 64 * idx + off) % 2 ^ 64
        | none => 0
      startStash s tid va w idx false sx n 0 0 (regsFrom (regsFor n) d))

/-- STS (R392-R393). -/
def execSts (sz : MSize) (d a : Reg) (imm : BitVec 7) (s : State) : Host.Outcome State Fault Refusal :=
  let n := szBytes sz
  let addr (tid : Nat) : Nat := sAddr s.cur (s.thread tid) a imm n
  .next (spadSlot s n true true addr fun s' tid pl =>
    let v := (s'.thread tid).group (regsFor n) d.toNat % 2 ^ (8 * n)
    match pl with
    | .phys g p _ => startSts s' tid g p n (laneSkip s n addr tid pl) v
    | .stash w idx off =>
      let va := match teamOfTid s tid with
        | some t => (winGva s t w + 64 * idx + off) % 2 ^ 64
        | none => 0
      startStash s' tid va w idx true false n v (laneSkip s n addr tid pl) [])

/-- LDFE of one thread: it reaches its granule at the moment `now` of its slot, or once nothing holds it any more. -/
def startLdfe (s : State) (now tid va g p n : Nat) (clr : Bool) (d : Reg) : State :=
  let a := { newAcc s tid (.ldfe clr g p) with va := va, size := n, dst := regsFrom (regsFor n) d }
  addAcc s { a with data := if readyAs s s.seq a then BitVec.ofNat 128 now else 0 }

/-- LDFE and LDFE.CLR: every lane reaches its granule, then those at full granules complete, a tie going to the lower thread
slot (R171, R362). -/
def execLdfe (sz : FeSize) (clr : Bool) (d a : Reg) (imm : BitVec 7) (s : State) : Host.Outcome State Fault Refusal :=
  let n := feBytes sz
  let addr (tid : Nat) : Nat := sAddr s.cur (s.thread tid) a imm n
  let s' := spadSlot s n false false addr fun s' tid pl =>
    match pl with
    | .phys g p _ => startLdfe s' s.seq tid (addr tid) g p n clr d
    | .stash .. => s'
  let ids := (s'.accs.filter fun b => s.seq ≤ b.1).map (·.1)
  .next ((sortBy (fun id => ((s'.acc id).map fun a => slotOf a.tid).getD 0) ids).foldl tryLdfe s')

/-- The fills that act together: those of one STFE slot on one granule (R393). -/
def stfeGroup (s : State) (a : Access) : List Nat :=
  match a.kind with
  | .stfe g p =>
    (s.accs.filter fun b => (match b.2.kind with
      | .stfe g' p' => g' == g && p' / 16 == p / 16
      | _ => false) && b.2.core == a.core && b.2.pass == a.pass && b.2.va == a.va).map (·.1)
  | _ => []

/-- The bytes of an STFE that may release are written. -/
def putStfe (s : State) (id : Nat) : State :=
  match s.acc id with
  | some a =>
    match a.kind with
    | .stfe g p => (spadPutBut s g p a.got (leBytes a.size a.data.toNat)).delAcc id
    | _ => s
  | none => s

/-- The stores of an STFE slot to a granule are made once every thread that made one may release, and then the granule becomes
full (R393, R223). -/
def tryFill (s : State) (id : Nat) : State :=
  match s.acc id with
  | some a =>
    match a.kind with
    | .stfe g p =>
      let ids := stfeGroup s a
      if ids.all (accReady s) then fillGranule (ids.foldl putStfe s) g p else s
    | _ => s
  | none => s

/-- STFE of one thread: its bytes and the fill wait to release. -/
def startStfe (s : State) (tid g p n : Nat) (skip : BitVec 128) (v : Nat) : State :=
  addAcc s { newAcc s tid (.stfe g p) with va := slotMark s, size := n, data := BitVec.ofNat 128 v, got := skip }

/-- STFE (R392-R393). -/
def execStfe (sz : FeSize) (d a : Reg) (imm : BitVec 7) (s : State) : Host.Outcome State Fault Refusal :=
  let n := feBytes sz
  let addr (tid : Nat) : Nat := sAddr s.cur (s.thread tid) a imm n
  let s' := spadSlot s n true false addr fun s' tid pl =>
    match pl with
    | .phys g p _ =>
      startStfe s' tid g p n (laneSkip s n addr tid pl) ((s'.thread tid).group (regsFor n) d.toNat)
    | .stash .. => s'
  .next ((s'.accs.filter fun b => s.seq ≤ b.1).foldl (fun s b => tryFill s b.1) s')

/-! ## Stash windows -/

/-- Teams with a thread of the slot whose guard is true, each with those threads, in ascending lane of the first. -/
def slotTeams (s : State) : List (Nat × List Nat) :=
  (s.cur.tids.foldl (fun l tid =>
    let k := (s.thread tid).team
    if l.contains k then l else l ++ [k]) []).map fun k => (k, s.cur.tids.filter fun tid => (s.thread tid).team == k)

/-- The descriptor can be bound (R172, R385; log 24). -/
def bindable (s : State) (t : Team) (w : Nat) : Bool :=
  let x := descOf s t w
  let gva := fld x 128 64
  let len := fld x 64 32
  let soff := fld x 32 32
  fld x 192 64 == 0 && fld x 96 32 == 0 && fld x 2 30 == 0 && gva % 64 == 0 && canonical gva && len != 0 && len % 64 == 0 &&
  soff % 64 == 0 && soff + len ≤ 1024 * t.spadK - 256 && !inBacking s t soff len && !inTable t soff len

/-- A team has a descriptor area (R385 step 1). -/
def hasDescs (s : State) (tk : Nat) : Bool := (s.team tk).any fun t => 256 ≤ 1024 * t.spadK

/-- SBIND for one team, with window w unbound and its write-backs done: the descriptor is checked, and w is bound (R385 steps 4
and 5). -/
def bindWindow (s : State) (tk : Nat) (tids : List Nat) (w : Nat) : State :=
  match s.team tk with
  | none => s
  | some t =>
    if 1024 * t.spadK < 256 then raiseAll s tids 0x0A 0x02
    else if bindable s t w then setBound s t w true
    else raiseAll s tids 0x0A 0x01

/-- SBIND (R384-R385): the window of every team of the slot is unbound first; while a write-back of an earlier binding is not
done the pass holds at the slot, which `sbindStays` tells the issue, and then every team binds. -/
def execSbind (w : BitVec 3) (s : State) : Host.Outcome State Fault Refusal :=
  let s' := ((slotTeams s).filter fun x => hasDescs s x.1).foldl (fun s x => unbindLazy s x.1 w.toNat) s
  .next (if sbindWaits s' (s.cur.tids) w.toNat then s' else (slotTeams s).foldl (fun s x => bindWindow s x.1 x.2 w.toNat) s')

/-- SUNB without discard (R174, R385). -/
def execSunb (w : BitVec 3) (s : State) : Host.Outcome State Fault Refusal :=
  .next ((slotTeams s).foldl (fun s x => unbindLazy s x.1 w.toNat) s)

/-- SUNB.DISC drops modified sectors without a write-back, and the stores of the binding that wait for a replay of their fill
(R174, R384). -/
def discardWindow (s : State) (tk w : Nat) : State :=
  match s.team tk with
  | none => s
  | some t =>
    if winBound s t w then
      let s := (t.stash.filter (·.win == w)).foldl (fun s x => dropSector s tk x) s
      let s := s.accs.foldl (fun s a => match a.2.kind with
        | .stashFill w' _ true _ => if w' = w ∧ a.2.team = tk then cancelAcc s a.1 else s
        | _ => s) s
      setBound (detach s tk w) t w false
    else s

def execSunbDisc (w : BitVec 3) (s : State) : Host.Outcome State Fault Refusal :=
  .next ((slotTeams s).foldl (fun s x => discardWindow s x.1 w.toNat) s)

end Sys2Proof.Machine
end

