-- ==== Sys2Proof/Machine/Sync.lean ====
section
/-! DEFINITION. BSIG, BWAIT, BTRY and BAR (spec 14 R322, R326-R331). -/
namespace Sys2Proof.Machine

/-- The bend that a name denotes (R326): its package and die, its number, and whether it is remote. -/
structure BendName where
  rem : Bool
  pkg : Nat
  die : Nat
  num : Nat
deriving DecidableEq, Repr

/-- Reads a bend name as a thread of a die names it, or the bend-misuse SUB 0x04 (R326, R331). -/
def bendName (s : State) (d : Nat) (v : Nat) : Option BendName :=
  let pkg := bitsOf v 19 9
  let die := bitsOf v 16 3
  let num := bitsOf v 0 16
  let own := fld (s.die d).pkgid 0 9
  if bitsOf v 28 3 ≠ 0 then none
  else if bitsOf v 31 1 = 0 then (if pkg = 0 ∧ die = 0 then some ⟨false, own, d, num⟩ else none)
  else if pkg = own then (if dieUp s die then some ⟨true, pkg, die, num⟩ else none)
  else if (portFor s pkg).isSome then some ⟨true, pkg, die, num⟩ else none

/-- The identity of a thread's team as a party: its launch record and team number (R327). -/
def partyOf (s : State) (tid : Nat) : Nat × Nat :=
  match teamOfTid s tid with
  | none => (0, 0)
  | some t => (((s.launch t.launch).map (·.addr)).getD 0, t.num)

/-- A bend lies in this package. -/
def bendHere (s : State) (d : Nat) (b : BendName) : Bool := b.pkg == fld (s.die d).pkgid 0 9

/-- The check of a signal by the holding die device; another package's answer, its SUB among those of R331 that can hold
there, is a free choice (R328, R331; log 25). -/
def checkSignal (s : State) (tid : Nat) (b : BendName) : State × Option Nat :=
  let p := partyOf s tid
  if bendHere s (dieOf (coreOf tid)) b then (s, sigCheck (s.bend (65536 * b.die + b.num)) 1 p.1 p.2)
  else
    let r := s.choose
    if r.2 then (r.1, none)
    else
      let q := r.1.choose
      let z := q.1.choose
      (z.1, some (if q.2 then 1 else if z.2 then 2 else 4))

/-- Performs the signal of an access: it is counted at its bend, and is outstanding no more. One for another package goes out
over a link and stays outstanding until that package has counted it (R328). -/
def performSignal (s : State) (id : Nat) (a : Access) (pkg die num : Nat) : State :=
  if pkg = fld (s.die (dieOf a.core)).pkgid 0 9 then countSignal (s.delAcc id) (65536 * die + num)
  else
    match portFor s pkg with
    | some i =>
      let p := partyOf s a.tid
      sendFlit (charge (s.setAcc id { a with queued := true }) a.launch 0 0 128) i (.signal die num 1 p.1 p.2)
    | none => s

/-- Another package has counted a signal of this one: the oldest that went to that bend is outstanding no more (R328). -/
def signalCounted (s : State) (pkg die num : Nat) : State :=
  match s.accs.find? fun a => a.2.queued && (match a.2.kind with
      | .bsig p d n _ => p == pkg && d == die && n == num
      | _ => false) with
  | some a => s.delAcc a.1
  | none => s

/-- A remote signal can leave: the holding die's clock runs, or the link takes a flit (R309, R317). The ring passes it on though
clocks on its way stand still (log 92). -/
def signalGoes (s : State) (d pkg die : Nat) : Bool :=
  if pkg = fld (s.die d).pkgid 0 9 then !(s.die die).stopped && (die == d || !s.hubStopped)
  else
    match portFor s pkg with
    | some i => mayFlit (s.port i)
    | none => false

/-- BSIG of one thread: the check, then the signal, at once or when it may release (R328). -/
def signalLane (s : State) (tid v : Nat) (rel : Bool) : State :=
  let d := dieOf (coreOf tid)
  match bendName s d v with
  | none => raise s tid 0x0D 4
  | some b =>
    let r := checkSignal s tid b
    match r.2 with
    | some sub => raise r.1 tid 0x0D sub
    | none =>
      let a := newAcc r.1 tid (.bsig b.pkg b.die b.num rel)
      if !b.rem && readyAs r.1 r.1.seq a then countSignal r.1 (65536 * b.die + b.num) else addAcc r.1 a

/-- BSIG (R328). -/
def execBsig (rel : Bool) (_ : BScope) (b : Reg) (s : State) : Host.Outcome State Fault Refusal :=
  .next (eachLane s fun s tid => signalLane s tid (rdB s.cur (s.thread tid) .w32 b) rel)

/-- The check of BWAIT and BTRY: the bend, or the SUB of R331. -/
def checkTake (s : State) (tid v : Nat) : Except Nat Nat :=
  let d := dieOf (coreOf tid)
  match bendName s d v with
  | none => .error 4
  | some b =>
    if b.rem then .error 5
    else
      let p := partyOf s tid
      match waitCheck (s.bend (65536 * d + b.num)) 1 p.1 p.2 with
      | some sub => .error sub
      | none => .ok b.num

/-- BWAIT: the thread waits for a unit (R329). -/
def execBwait (acq : Bool) (_ : BScope) (b : Reg) (s : State) : Host.Outcome State Fault Refusal :=
  .next (eachLane s fun s tid =>
    match checkTake s tid (rdB s.cur (s.thread tid) .w32 b) with
    | .error sub => raise s tid 0x0D sub
    | .ok num => setWait s tid (.bend num acq))

/-- BTRY: takes a unit when one is left once the parked BWAITs of the bend have been served, and tells whether it did
(R330). -/
def execBtry (_ : Bool) (_ : BScope) (pd : Pred) (b : Reg) (s : State) : Host.Outcome State Fault Refusal :=
  .next (eachLane s fun s tid =>
    match checkTake s tid (rdB s.cur (s.thread tid) .w32 b) with
    | .error sub => raise s tid 0x0D sub
    | .ok num =>
      let key := 65536 * dieOf (coreOf tid) + num
      let s := serveBend s key
      let x := s.bend key
      let s := if x.count = 0 then s else s.setBend key { x with count := x.count - 1 }
      s.updThread tid fun t => t.setPred pd.toNat (x.count != 0))

/-- BAR: the thread waits at barrier n (R322). -/
def execBar (n : BitVec 3) (s : State) : Host.Outcome State Fault Refusal :=
  .next (eachLane s fun s tid => setWait s tid (.bar n.toNat false))

end Sys2Proof.Machine
end

