-- ==== Sys2Proof/Machine/ExpandOps.lean ====
section
/-! DEFINITION. The expand unit: EXPB, EXPN and its deals, SEGR, EXPQ, EXPSV and EXPRS (spec 11 R260-R274, 14 R344, 16
R386). -/
namespace Sys2Proof.Machine

/-- The operator of an EXPB's D field; none for 111 (R134). -/
def expOp (op : BitVec 3) : Option RedOp := if op = 7 then none else some (redOfCode op.toNat)

/-- log2 of the group size (R135). -/
def grpLog : GrpSize → Nat
  | .g1 => 0
  | .g2 => 1
  | .g4 => 2
  | .g8 => 3

/-- The check of SUB 0x06: where the table would lie (R270). -/
def tableBad (s : State) (t : Team) (n : Nat) : Bool :=
  let base := tableOff t n
  let scratch := ((s.launch t.launch).map (·.scratch)).getD 0
  base < 0 || base < (scratch : Int) || inBacking s t base.toNat (32 * (32 * n))

/-- The lengths that the executing gang contributes, by lane: the thread's A and B values, or zeros (R265). -/
def gangGives (s : State) (a b : Reg) (base : Nat) : List (Nat × Nat) :=
  (List.range 32).map fun l =>
    if s.cur.tids.contains (base + l) then
      (((s.thread (base + l)).reg a.toNat).toNat, rdB s.cur (s.thread (base + l)) .w32 b)
    else (0, 0)

/-- The first check of R270 that an EXPB fails, if any. -/
def expbBad (s : State) (t : Team) (scope h : Nat) (op : BitVec 3) (sum : Nat) : Option Nat :=
  let n := 2 ^ scope
  let g0 := h - h % n
  let e := t.expand
  let teamg := ((s.launch t.launch).map (·.teamg)).getD t.gangs
  if teamg < g0 + n then some 0x01
  else if e.st = 2 ∨ (e.st = 1 ∧ (e.scope ≠ scope ∨ e.g0 ≠ g0)) then some 0x02
  else if e.st = 1 ∧ e.cmask / 2 ^ (h - g0) % 2 = 1 then some 0x03
  else if op = 7 ∨ (e.st = 1 ∧ e.oper ≠ op.toNat) then some 0x04
  else if 0xFFFFFFFF < (if e.st = 1 then e.total else 0) + sum then some 0x05
  else if e.st = 0 ∧ tableBad s t n then some 0x06
  else none

/-- Opens an expansion for a group (R265). Its table is not cleared: the entries of a gang that counts without ever contributing keep
the bytes that stand there as START and LEN (log 105). -/
def openExp (s : State) (tk : Nat) (t : Team) (scope g0 oper : Nat) : State :=
  let t := { t with expand := { Expand.reset with st := 1, scope := scope, g0 := g0, oper := oper } }
  let s := s.setTeam tk t
  (List.range t.expand.parts).foldl (fun s p => spadRaw s t.core (entryAt t p 20) (leBytes 4 0xFFFF)) s

/-- A gang's contribution: its entries, the total, and its CMASK bit (R265). -/
def contribute (s : State) (tk h : Nat) (gives : List (Nat × Nat)) : State :=
  match s.team tk with
  | none => s
  | some t =>
    let i := h - t.expand.g0
    let s := (List.range 32).foldl (fun s l =>
      let x := gives.getD l (0, 0)
      spadRaw s t.core (entryAt t (32 * i + l) 0) (leBytes 4 x.1 ++ leBytes 4 x.2 ++ leBytes 8 0)) s
    s.setTeam tk { t with expand :=
      { t.expand with total := t.expand.total + (gives.map (·.2)).foldl (· + ·) 0, cmask := t.expand.cmask ||| 2 ^ i } }

/-- EXPB of a pass with an active thread. -/
def doExpb (s : State) (tid : Nat) (scope : Nat) (op : BitVec 3) (a b : Reg) : State :=
  let tk := (s.thread tid).team
  match s.team tk with
  | none => s
  | some t =>
    let h := gangOf tid - t.g0
    let gives := gangGives s a b (tid - laneOf tid)
    match expbBad s t scope h op ((gives.map (·.2)).foldl (· + ·) 0) with
    | some sub => raiseAll s s.cur.tids 0x0B sub
    | none =>
      let s := if t.expand.st = 0 then openExp s tk t scope (h - h % 2 ^ scope) op.toNat else s
      tickEnd (contribute s tk h gives) tk

/-- The owner at a global index: zero-length owners are passed over (R266). -/
def passOver (s : State) (t : Team) (cursor : Nat) : (fuel obase owner : Nat) → Nat × Nat
  | 0, ob, ow => (ob, ow)
  | fuel + 1, ob, ow =>
    let len := entWord s t ow 4
    if ob + len ≤ cursor then passOver s t cursor fuel (ob + len) (ow + 1) else (ob, ow)

/-- A deal to a request that is ready (R266). A participant that still holds an open iteration, drawn by an earlier request
that was taken after this one issued, closes it first, and the request is ready again once that has settled. -/
def dealOne (s : State) (tk : Nat) (t : Team) (r : ExpReq) : State :=
  let e := t.expand
  let p := r.part
  let later (s : State) : State := s.updTeam tk fun t => { t with expq := t.expq.map fun q => if q = r then { q with ready := 0 } else q }
  if e.held.contains p && !e.clsd.contains p then later (closeIter s tk p none)
  else if e.cursor < e.total then
    let o := passOver s t e.cursor (e.parts + 1) e.obase e.owner
    let j := e.cursor - o.1
    let start := entWord s t o.2 0
    let s := setEntWord s t p 16 e.cursor
    let s := setEntWord s t p 24 j
    let s := setHown s t p (32 * e.g0 + o.2)
    let t' : Team := { t with
      expq := t.expq.filter (· != r)
      expand := { e with obase := o.1, owner := o.2, cursor := e.cursor + 1, held := natAdd e.held p } }
    let s := s.setTeam tk (t'.unowe p)
    expnResult s r.acc ((start + j) % 2 ^ 32) (32 * e.g0 + o.2) true
  else
    later (s.updTeam tk fun t => { t with expand := { e with done := natAdd e.done p } })

/-- Deals to the oldest ready request of a team, if there is one. -/
def dealNext (s : State) (tk : Nat) : Option State :=
  match s.team tk with
  | none => none
  | some t =>
    let rs := t.expq.filter fun r => r.live && r.ready != 0
    match minBy id (rs.map (·.ready)) with
    | none => none
    | some m => (rs.find? (·.ready == m)).bind fun r =>
        if t.expand.st = 2 then some (tickEnd (dealOne s tk t r) tk) else none

/-- Deals to every request of a team that is ready. -/
def dealAll (s : State) (tk : Nat) : (fuel : Nat) → State
  | 0 => s
  | fuel + 1 =>
    match dealNext s tk with
    | none => s
    | some s' => dealAll s' tk fuel

/-- What the units of the slot's teams have taken before takes effect before the slot's own requests (R262, R269). A request
is dealt to at most three times: to close, to draw, to complete. -/
def afterRequests (s : State) : State :=
  (teamsOf s s.cur.tids).foldl (fun s tk => dealAll s tk (3 * ((s.team tk).map (·.expq.length)).getD 0)) s

/-- EXPN_DEAL: deals to the oldest ready request of a team. -/
def execExpnDeal (team : Nat) (s : State) : Host.Outcome State Fault Refusal :=
  .next (match s.team team with
    | none => s
    | some t => if dieGo s (dieOf t.core) then (dealNext s team).getD s else s)

/-- EXPB acts once for its pass (R265). In a pass in which no thread's guard is true it makes no request (R262; log 87). -/
def execExpb (n : GrpSize) (op : BitVec 3) (a b : Reg) (s : State) : Host.Outcome State Fault Refusal :=
  .next (gangOnly s fun s =>
    let s := afterRequests s
    match s.cur.tids with
    | [] => s
    | tid :: _ => doExpb s tid (grpLog n) op a b)

/-- The participant that a thread is in its team's expansion. -/
def myPart (s : State) (tid : Nat) : Option Nat := (teamOfTid s tid).bind fun t => partOf t tid

/-- EXPN of one thread: its open iteration closes, and the request waits for a deal (R266). -/
def requestIter (s : State) (tid p : Nat) (d : Reg) (pb : Pred) : State :=
  let tk := (s.thread tid).team
  let s := closeIter s tk p none
  let id := s.seq
  let s := addAcc s { newAcc s tid .expn with size := 8, dst := regsFrom 2 d, dstP := if pb = 7 then none else some pb.toNat }
  tickExp (s.updTeam tk fun t =>
    { t with expq := t.expq ++ [⟨id, p, 0, true⟩], expand := { t.expand with owed := natAdd t.expand.owed p } }) tk

/-- The slot has made its requests: those that became ready in it take their order (R266). -/
def endRequests (tks : List Nat) (s : State) : State := tks.foldl markReady s

/-- EXPN (R266, R344). -/
def execExpn (d : Reg) (pb : Pred) (s : State) : Host.Outcome State Fault Refusal :=
  .next (gangOnly s fun s =>
    endRequests (teamsOf s s.cur.tids) (eachLane (afterRequests s) fun s tid =>
      match myPart s tid with
      | none => raise s tid 0x0B 0x07
      | some p => requestIter s tid p d pb))

/-- SEGR of one thread (R268, R270). -/
def segrLane (s : State) (tid : Nat) (op : RedOp) (v : Word) : State :=
  match teamOfTid s tid, myPart s tid with
  | some t, some p =>
    if !t.expand.held.contains p || t.expand.clsd.contains p then raise s tid 0x0B 0x08
    else if redOfCode t.expand.oper ≠ op then raise s tid 0x0B 0x09
    else tickExp (closeIter s (s.thread tid).team p (some v)) (s.thread tid).team
  | _, _ => raise s tid 0x0B 0x07

/-- SEGR (R386). -/
def execSegr (op : RedOp) (a : Reg) (s : State) : Host.Outcome State Fault Refusal :=
  .next (endRequests (teamsOf s s.cur.tids)
    (eachLane (afterRequests s) fun s tid => segrLane s tid op ((s.thread tid).reg a.toNat)))

/-- What EXPQ reads (R269). -/
def expCount (e : Expand) : Nat := if e.st = 2 then e.total - e.cursor else if e.st = 1 then e.total else 0

/-- EXPQ (R269). -/
def execExpq (d : Reg) (s : State) : Host.Outcome State Fault Refusal :=
  .next (eachLane (afterRequests s) fun s tid =>
    let n := ((teamOfTid s tid).map fun t => expCount t.expand).getD 0
    s.updThread tid fun t => t.setReg d.toNat (BitVec.ofNat 32 n))

/-! ## Images (R264, R272) -/

/-- A list of participants as a mask of 256 bits. -/
def maskOf (l : List Nat) : Nat := l.foldl (fun m p => m ||| 2 ^ p) 0
/-- A mask as a rising list. -/
def ofMask (m : Nat) : List Nat := (List.range 256).filter fun p => m / 2 ^ p % 2 == 1

/-- The 2,048 bytes of an expand state (R264). -/
def Expand.image (e : Expand) : List Byte :=
  if e.st = 0 then leBytes 2048 0
  else
    leBytes 4 (e.st + e.scope * 2 ^ 6 + e.g0 * 2 ^ 8 + e.oper * 2 ^ 13 + e.cmask * 2 ^ 24) ++ leBytes 4 0 ++
    leBytes 4 e.total ++ leBytes 4 e.cursor ++ leBytes 4 e.obase ++ leBytes 2 e.owner ++ leBytes 42 0 ++
    leBytes 32 (maskOf e.held) ++ leBytes 32 (maskOf e.clsd) ++ leBytes 32 (maskOf e.pendv) ++
    leBytes 32 (maskOf e.done) ++ leBytes 32 (maskOf e.owed) ++ leBytes 800 0 ++
    (List.range 256).flatMap fun p => leBytes 4 (e.accOf p).toNat

/-- A 2,048-byte image as a state, or none where a reserved field or value stands, or an idle image is not all zero. -/
def Expand.ofImage (bs : List Byte) : Option Expand :=
  let x : BitVec 16384 := BitVec.ofNat 16384 (ofLe bs)
  let e : Expand :=
    { st := fld x 0 2, scope := fld x 6 2, g0 := fld x 8 5, oper := fld x 13 3, cmask := fld x 24 8, total := fld x 64 32,
      cursor := fld x 96 32, obase := fld x 128 32, owner := fld x 160 16, held := ofMask (fld x 512 256),
      clsd := ofMask (fld x 768 256), pendv := ofMask (fld x 1024 256), done := ofMask (fld x 1280 256),
      owed := ofMask (fld x 1536 256), acc := (List.range 256).map fun p => (p, BitVec.ofNat 32 (fld x (8192 + 32 * p) 32)) }
  if fld x 2 4 ≠ 0 ∨ fld x 16 8 ≠ 0 ∨ fld x 32 32 ≠ 0 ∨ fld x 176 336 ≠ 0 ∨ fld x 1792 6400 ≠ 0 then none
  else if e.st = 3 ∨ e.oper = 7 ∨ 32 * 2 ^ e.scope < e.owner then none
  else if e.st = 0 then (if x = 0 then some Expand.reset else none)
  else some e

/-- A block of n bytes in the local space, aligned: its offset, or the SUB of R164. -/
def localBlock (s : State) (t : Team) (va n align : Nat) (wr : Bool) : Except Nat Nat :=
  let o := va % 2 ^ 19
  if va / 2 ^ 19 ≠ 0 then .error 0x01
  else if va % align ≠ 0 then .error 0x07
  else if 1024 * t.spadK < o + n then .error 0x02
  else
    match protect s t o n true wr with
    | some r => .error r
    | none => .ok o

/-- A trap of an EXPSV or EXPRS in a thread that is still in the pass: an expand request of the same cycle that the unit took
first may have trapped in it (R262). -/
def raiseHere (s : State) (tid cause sub : Nat) : State :=
  if (s.pass s.curPass).any (·.tids.contains tid) then raise s tid cause sub else s

/-- Counts an EXPSV or EXPRS at the lane port: the image of each lead's 512 words stands for more words than there are banks, so the
slot needs more than one cycle and each such lead waits in the replay queue (R168, R169, R344; log 119). -/
def countImages (s : State) (save : Bool) (addr : Nat → Nat) : State :=
  let leads := s.cur.tids.filter fun tid => match teamOfTid s tid with
    | none => false
    | some t => leadOf s t == some tid && (localBlock s t (addr tid) 2048 64 save).toOption.isSome && (save || t.expand.st == 0)
  if leads.isEmpty then s else countReplay s s.cur.core leads.length

/-- EXPSV of one thread (R272): the unit is idle at once, and the image is written by lane-port stores of the lead, which
order as STS does (R344). -/
def saveExpand (s : State) (tid va : Nat) : State :=
  let tk := (s.thread tid).team
  match s.team tk with
  | none => s
  | some t =>
    if leadOf s t != some tid then raiseHere s tid 0x0B 0x0A
    else
      match localBlock s t va 2048 64 true with
      | .error sub => raiseHere s tid 0x0A sub
      | .ok o =>
        let img := t.expand.image
        let s := s.updTeam tk fun t =>
          { t with expand := Expand.reset, expq := t.expq.map fun q => { q with live := false, ready := 0 } }
        (List.range 128).foldl (fun s i =>
          startSts s tid t.core (t.spadBase + o + 16 * i) 16 0 (ofLe ((img.drop (16 * i)).take 16))) s

/-- EXPSV (R272). -/
def execExpsv (a : Reg) (s : State) : Host.Outcome State Fault Refusal :=
  let s := afterRequests s
  .next (eachLane (countImages s true fun tid => ((s.thread tid).reg a.toNat).toNat) fun s tid =>
    saveExpand s tid ((s.thread tid).reg a.toNat).toNat)

/-- The unit takes a state: of the requests that EXPSV put away, those that its threads are owed in it wait for it (R272). -/
def reviveExp (s : State) (t : Team) (e : Expand) : Team :=
  let t := { t with expand := e }
  { t with expq := t.expq.map fun q =>
      if e.owed.contains q.part && (s.acc q.acc).any fun a => a.tid == partTid t q.part then { q with live := true } else q }

/-- EXPRS of one thread (R270, R272). The pass holds at the slot until its lane-port loads may be made (R344). -/
def restoreExpand (s : State) (tid va : Nat) : State :=
  let tk := (s.thread tid).team
  match s.team tk with
  | none => s
  | some t =>
    if leadOf s t != some tid then raiseHere s tid 0x0B 0x0A
    else
      match localBlock s t va 2048 64 false with
      | .error sub => raiseHere s tid 0x0A sub
      | .ok o =>
        match t.expand.st, Expand.ofImage (spadGet s t.core (t.spadBase + o) 2048) with
        | 0, some e =>
          if e.st ≠ 0 ∧ tableBad s t e.gangs then raiseHere s tid 0x0B 0x0B
          else
            let s := if spadPoisoned s t.core (t.spadBase + o) 2048 then setDue s tid 0x18 0 s.cur.word else s
            tickEnd (s.updTeam tk fun t => reviveExp s t e) tk
        | _, _ => raiseHere s tid 0x0B 0x0B

/-- EXPRS (R272). -/
def execExprs (a : Reg) (s : State) : Host.Outcome State Fault Refusal :=
  let s := afterRequests s
  .next (eachLane (countImages s false fun tid => ((s.thread tid).reg a.toNat).toNat) fun s tid =>
    restoreExpand s tid ((s.thread tid).reg a.toNat).toNat)

end Sys2Proof.Machine
end

