-- ==== Sys2Proof/Machine/Run.lean ====
section
/-! DEFINITION. Which slot issues next, what surrounds its meaning, and the placing of one instruction where the next step
finds it. -/
namespace Sys2Proof.Machine

/-- The next issue: the pass's key, its launch, the pass, and what its next slot does. -/
structure Next where
  pkey : Nat
  launch : Launch
  pass : Pass
  plan : Plan
deriving DecidableEq, Repr

/-- What a pass issues next, or none while it holds, its die's clock is stopped, or its die is out of reach (R37, R95,
R316, R317). -/
def nextOf (s : State) (pkey : Nat) : Option Next :=
  match s.pass pkey with
  | none => none
  | some p =>
    if !dieGo s (dieOf (pkey / 2)) then none
    else
      match s.launch p.launch with
      | none => none
      | some l =>
        let plan := planOf l p
        let held := match plan with
          | .trap .. => false
          | .run n i =>
            let f := infoOf l i
            let lit := (decodeCtl (curPacket p).ctl).lit
            let v := slotView s l p plan
            holds v p (issueOf v pkey l p n []) (plan.acts s l p) f (readItems f (isFed lit n) ++ writeItems f)
        if held then none else some ⟨pkey, l, p, plan⟩

/-- One of several: the spec does not order the issue of different cores and ports, nor the events that are due (log 3, 30). -/
def chooseOne {α : Type} (s : State) : List α → State × Option α
  | [] => (s, none)
  | [x] => (s, some x)
  | x :: y :: l => let r := s.choose; if r.2 then (r.1, some x) else chooseOne r.1 (y :: l)

/-- The pass that issues next, if any. -/
def nextIssue (s : State) : State × Option Next := chooseOne s (s.passes.filterMap fun p => nextOf s p.1)

/-- Items that an issue writes at once. -/
def Next.dests (x : Next) : List Nat := writeItems (infoOf x.launch x.plan.instr) ++ sideItems x.plan.instr

/-- The state in which the slot's meaning acts: encoded cycles have gone by, the guard has picked the threads, early reads
have their values, and threads with a register error have trapped (R95-R99, R299). -/
def issueStart (s : State) (x : Next) : State :=
  let f := infoOf x.launch x.plan.instr
  let lit := (decodeCtl (curPacket x.pass).ctl).lit
  let s' := (prepare s x.pkey x.launch x.pass x.plan).1
  match x.plan with
  | .trap .. => s'
  | .run _ .illegalInstruction => s'
  | .run n _ => raiseBad s' (readItems f (isFed lit n))

/-- Sets aside an EXPSV or EXPRS, with the addresses that its threads read in its issue cycle. -/
def noteLate (s : State) (pkey : Nat) (i : Instr) : State :=
  let put (save : Bool) (a : Reg) : State :=
    let vas := s.cur.tids.map fun t => (t, ((s.thread t).reg a.toNat).toNat)
    match s.pass pkey with
    | none => s
    | some p => s.setPass pkey { p with late := some ⟨s.cur, save, vas⟩ }
  match i with
  | .expsv a => put true a
  | .exprs a => put false a
  | _ => s

/-- The unit takes the request that was set aside (R262). -/
def runLate (s : State) (pkey : Nat) : State :=
  match s.pass pkey with
  | none => s
  | some p =>
    match p.late with
    | none => s
    | some z =>
      let cur := s.cur
      let s := { s.setPass pkey { p with late := none } with cur := z.cur }
      let s := afterRequests s
      let s := z.vas.foldl (fun s v => if z.save then saveExpand s v.1 v.2 else restoreExpand s v.1 v.2)
        (countImages s z.save fun tid => kvGetD 0 z.vas tid)
      let here := ((s.pass pkey).map (·.tids)).getD []
      { s with cur := { cur with tids := cur.tids.filter here.contains, all := cur.all.filter here.contains } }

/-- A result that was on its way to an item of a thread has come while a slot acted (R99). -/
def arrived (s0 s : State) (o : Old) : Bool :=
  s0.accs.any fun a => a.2.tid == o.tid && a.2.dst.contains o.item && (s.acc a.1).isNone

/-- What follows the slot's meaning: values that stood in for reads go back, the pass moves on, and at its last packet it
ends. `s0` is the state before the issue. -/
def issueEnd (s0 : State) (x : Next) (s : State) : State :=
  let r := prepare s0 x.pkey x.launch x.pass x.plan
  let s := if isExpX x.plan.instr || !chained (decodeCtl (curPacket x.pass).ctl) x.plan.slot then runLate s x.pkey else s
  let f := infoOf x.launch x.plan.instr
  let before := takeItems s0 x.pass.tids x.dests
  let at_ := if (latchFor x.pass f).isSome then spareGroup s0 x.pass f else f.aReg
  let s := stampLdfes (markAll s)
  let back := r.2.filter fun o => !arrived s0 s o
  let vals := (takeItems r.1 r.1.cur.all ((List.range f.hold).map (at_ + ·))).map fun o => { o with item := o.item - at_ + f.aReg }
  { finish x.pkey x.launch x.pass x.plan s0.seq before back vals s with cur := Issue.reset }

/-- Applies a function to a next state. -/
def onNext (f : State → State) : Host.Outcome State Fault Refusal → Host.Outcome State Fault Refusal
  | .next s => .next (f s)
  | .fault r => .fault r
  | .refused r => .refused r

/-- What an issue does, given the meaning of instructions. -/
def runIssue (meaning : Instr → State → Host.Outcome State Fault Refusal) (s : State) (x : Next) :
    Host.Outcome State Fault Refusal :=
  match x.plan with
  | .trap _ cause =>
    let s' := issueStart s x
    .next (issueEnd s x (raiseAll s' s'.cur.all cause 0))
  | .run n i =>
    let act := x.plan.acts s x.launch x.pass
    if imageLater x.launch (curPacket x.pass) n i then .next (issueEnd s x (noteLate (issueStart s x) x.pkey act))
    else onNext (issueEnd s x) (meaning act (issueStart s x))

/-- Nothing can happen but time: 35 core cycles, 4 of the die schedulers', pass on every die that is up and its cores, each of which
has had every cycle of its die's clock by then (R63, R78, R337). -/
def idle (s : State) : State :=
  let runs (s : State) (d : Nat) : Bool := (s.die d).ready && !(s.die d).stopped
  let s' := (List.range Config.dies).foldl (fun s d =>
    if runs s d then s.updDie d fun x => { x with cyc := x.cyc + 35 } else s) s
  { s' with cores := s'.cores.map fun c =>
      if runs s (dieOf c.1) then (c.1, { c.2 with cyc := max c.2.cyc (s.die (dieOf c.1)).cyc + 35 }) else c }

/-! ## One instruction where the next step finds it -/

/-- A launch of one team of one gang, with every register, team register, tile and format slot allowed, and no budget of its
own (R60). -/
def stageLaunch : Launch :=
  { die := 0, addr := 0, phase := .running, status := 0,
    record := BitVec.ofNat 4096
      (0x3C * 2 ^ 32 + 1 * 2 ^ 592 + 128 * 2 ^ 600 + 32 * 2 ^ 608 + 4 * 2 ^ 616 + 4 * 2 ^ 624 + 1 * 2 ^ 704),
    header := BitVec.ofNat 2048 (128 * 2 ^ 192 + 0xFF * 2 ^ 224 + 16 * 2 ^ 384),
    blocks := [⟨0, 1, 0, true, 0⟩], up := [], order := 0, nextTeam := 1, again := [], saved := [], swapped := [], kept := [], ended := 0, passes := 1,
    frozen := 0, missing := 0 }

/-- A team as it stands at placement (R74). -/
def Team.placed (launch num core g0 gangs spadBase spadK ntiles tpass cyc0 since : Nat) : Team :=
  { launch := launch, num := num, core := core, g0 := g0, gangs := gangs, kregs := [], kpend := [], spadBase := spadBase,
    spadK := spadK, tiles := List.replicate ntiles Tile.reset, q0 := [], q1 := [], q8 := [], q9 := [], mx := none, cp := none,
    cpprog := 0, stash := [], expand := Expand.reset, expq := [], tpass := tpass, cyc0 := cyc0, since := since,
    leave := none, deadline := none, reqs := [], ended := false }

/-- A pass as it starts. -/
def Pass.started (id launch blk : Nat) (b : Blk) (code : List Packet) (pkt : Nat) (tids : List Nat)
    (cyc : Nat) (csr : CoreCsr) : Pass :=
  { id := id, launch := launch, blk := blk, start := b.start, count := b.count, gang := b.gang, code := code,
    entry := pkt, pkt := pkt, slot := 0, tids := tids, ecyc := 0, eprev := 0, cyc0 := cyc, prods := [], chain := [],
    latches := [], ldest := [], csr := csr, targets := [], tslot := 0, waits := [], waitWord := 0, late := none }

/-- The control word of a block of one packet: BS and BE, guards p7 (R93). -/
def stageCtl : Word := BitVec.ofNat 32 (3 * 2 ^ 28 + 7 * 2 ^ 22 + 7 * 2 ^ 18 + 7 * 2 ^ 14)

/-- One instruction word in slot A of a pass of one gang on core 0, port 0 of a die that is up. -/
def placeWord (s : State) (w : Nat) : State :=
  let tids := List.range 32
  let s := s.updDie 0 fun d => { d with ready := true, auth := true }
  let s := s.setLaunch 0 stageLaunch
  let s := s.setTeam 0 (Team.placed 0 0 0 0 1 0 4 4 1 0 0)
  let s := tids.foldl (fun s t => s.setThread t { Thread.reset with status := .running }) s
  let p := Pass.started s.seq 0 0 ⟨0, 1, 0, true, 0⟩ [⟨stageCtl, BitVec.ofNat 32 w, nopWord, nopWord, false⟩] 0 tids 0
    CoreCsr.reset
  { s with passes := [(0, p)], agenda := [], turn := false, seq := s.seq + 1 }

end Sys2Proof.Machine
end

