-- ==== Sys2Proof/Machine/Flags.lean ====
section
/-! DEFINITION. The device keeps no flags (spec 06 R142, R149); what takes their place are predicates. This file holds
every computation of a predicate: comparisons, the truth table of PLOP, and votes (spec 05 R128, R131, 16 R394). -/
namespace Sys2Proof.Machine

/-- An integer comparison (R358). -/
def intCond (cc : Cond) (x y : Int) : Bool :=
  match cc with
  | .eq => x == y
  | .ne => x != y
  | .lt => x < y
  | .le => x ≤ y
  | .gt => y < x
  | .ge => y ≤ x
  | .un => false
  | .ord => true

/-- A float comparison with the results of R128 for NaN operands. -/
def fltCond (cc : Cond) (x y : Val) : Bool :=
  let un := x.isNan || y.isNan
  match cc with
  | .eq => x.eqv y
  | .ne => !x.eqv y
  | .lt => x.lt y
  | .le => x.lt y || x.eqv y
  | .gt => y.lt x
  | .ge => y.lt x || x.eqv y
  | .un => un
  | .ord => !un

/-- PLOP: bit (2a + b) of the truth table (R131). -/
def plopBit (table : BitVec 4) (a b : Bool) : Bool := table.getLsbD (2 * a.toNat + b.toNat)

/-- VOTE over the active lanes' predicates (R394). -/
def voteOf (k : VoteKind) (ps : List Bool) : Bool :=
  match k with
  | .all => ps.all id
  | .any => ps.any id
  | .uni => ps.all id || ps.all (!·)
  | .ballot => false

end Sys2Proof.Machine
end

