-- ==== Sys2Proof/Machine/FloatOps.lean ====
section
/-! DEFINITION. Floating-point instructions (spec 06 R138-R160, 15 R346-R353, 14 R345, 15 R365, 16 R381, R388). -/
namespace Sys2Proof.Machine

/-! ## FPMODE and formats -/

/-- FTZI and FTZO of a thread (R109). -/
def ftzi (t : Thread) : Bool := t.fpmode.getLsbD 4
def ftzo (t : Thread) : Bool := t.fpmode.getLsbD 5
/-- FPMODE.RM of a thread; 001 is RNE (R109). A thread record can hold another code, for which the spec names no mode: it is RNE
(R148; log 125). -/
def rmOf (t : Thread) : Mode :=
  match fld t.fpmode 0 3 with
  | 2 => .rtz
  | 3 => .rup
  | 4 => .rdn
  | _ => .rne
/-- The rounding mode of a MOD: static, or the thread's (R146). -/
def modeOf (t : Thread) : Rnd → Mode
  | .dyn => rmOf t
  | .rne => .rne
  | .rtz => .rtz
  | .rup => .rup
  | .rdn => .rdn

/-- Format and number of elements of a float type (R346). -/
def fmtOfTy : FTy → Fmt
  | .f32 => F32
  | .h2 => F16
  | .b2 => BF16
  | .d => F64
def fmtOfSc : FSc → Fmt
  | .f32 => F32
  | .d => F64
def elemsOf : FTy → Nat
  | .h2 | .b2 => 2
  | _ => 1
def widthOfTy : FTy → Width
  | .d => .w64
  | _ => .w32
def widthOfSc : FSc → Width
  | .d => .w64
  | .f32 => .w32

/-- A source element, after FTZI, as a value. -/
def srcVal (t : Thread) (F : Fmt) (b : Nat) : Val := F.value (F.flush (ftzi t) b)
/-- A result element, rounded, after FTZO. -/
def resVal (t : Thread) (F : Fmt) (m : Mode) (v : Val) : Nat := F.flush (ftzo t) (F.round m v)

/-- Element i of width w of an operand (R144). -/
def elem (w i x : Nat) : Nat := x / 2 ^ (w * i) % 2 ^ w

/-- Builds an operand from n elements of width w. -/
def packElems (w n : Nat) (f : Nat → Nat) : Nat :=
  (List.range n).foldr (fun i acc => acc + f i % 2 ^ w * 2 ^ (w * i)) 0

/-- A B operand of a float type (R103, R346). -/
def rdBF (c : Issue) (t : Thread) (ty : FTy) (b : Reg) : Nat :=
  match ty with
  | .d => rdBD c t b
  | _ => rdB c t .w32 b
def rdBS (c : Issue) (t : Thread) (ty : FSc) (b : Reg) : Nat :=
  match ty with
  | .d => rdBD c t b
  | .f32 => rdB c t .w32 b

/-! ## FADD, FSUB, FMUL, FFMA, FMIN, FMAX -/

/-- The mould of R347: `f` maps the elements of A, B and D, as encodings after FTZI, to the result's encoding. -/
def fltOp (ty : FTy) (d a b : Reg) (f : Thread → Fmt → Nat → Nat → Nat → Nat) (s : State) : State :=
  mapLanes s fun t =>
    let w := widthOfTy ty
    let F := fmtOfTy ty
    let x := rdW t w a
    let y := rdBF s.cur t ty b
    let z := rdW t w d
    let g (v i : Nat) : Nat := F.flush (ftzi t) (elem F.width i v)
    wrW t w d (packElems F.width (elemsOf ty) fun i => F.flush (ftzo t) (f t F (g x i) (g y i) (g z i)))

/-- A computed result: rounded once by the mode. -/
def fltArith (rm : Rnd) (f : Mode → Val → Val → Val → Val) (t : Thread) (F : Fmt) (x y z : Nat) : Nat :=
  F.round (modeOf t rm) (f (modeOf t rm) (F.value x) (F.value y) (F.value z))

/-- The sum under a mode: an exact zero of opposite signs is −0 in RDN alone (R145). -/
def addIn (m : Mode) (x y : Val) : Val := x.add (m == .rdn) y

def execFadd (ty : FTy) (rm : Rnd) (d a b : Reg) (s : State) : Host.Outcome State Fault Refusal :=
  .next (fltOp ty d a b (fltArith rm fun m x y _ => addIn m x y) s)
def execFsub (ty : FTy) (rm : Rnd) (d a b : Reg) (s : State) : Host.Outcome State Fault Refusal :=
  .next (fltOp ty d a b (fltArith rm fun m x y _ => addIn m x y.neg) s)
def execFmul (ty : FTy) (rm : Rnd) (d a b : Reg) (s : State) : Host.Outcome State Fault Refusal :=
  .next (fltOp ty d a b (fltArith rm fun _ x y _ => x.mul y) s)
def execFfma (ty : FTy) (rm : Rnd) (d a b : Reg) (s : State) : Host.Outcome State Fault Refusal :=
  .next (fltOp ty d a b (fltArith rm fun m x y z => addIn m (x.mul y) z) s)

/-- x is ordered below y, −0 below +0 (R140). -/
def fltBelow (F : Fmt) (x y : Nat) : Bool :=
  (F.value x).lt (F.value y) || ((F.value x).eqv (F.value y) && (F.value x).isNeg && !(F.value y).isNeg)

/-- The lesser, or with `hi` the greater, of two operands (R140). -/
def fltPick (hi : Bool) (_t : Thread) (F : Fmt) (x y _z : Nat) : Nat :=
  if (F.value x).isNan then (if (F.value y).isNan then F.qnan else y)
  else if (F.value y).isNan then x
  else if fltBelow F x y != hi then x else y

def execFmin (ty : FTy) (d a b : Reg) (s : State) : Host.Outcome State Fault Refusal :=
  .next (fltOp ty d a b (fltPick false) s)
def execFmax (ty : FTy) (d a b : Reg) (s : State) : Host.Outcome State Fault Refusal :=
  .next (fltOp ty d a b (fltPick true) s)

/-! ## FCMP, FCLASS -/

def execFcmp (cc : Cond) (ty : FSc) (pd : Pred) (a b : Reg) (s : State) : Host.Outcome State Fault Refusal :=
  .next (mapLanes s fun t => t.setPred pd.toNat
    (fltCond cc (srcVal t (fmtOfSc ty) (rdW t (widthOfSc ty) a)) (srcVal t (fmtOfSc ty) (rdBS s.cur t ty b))))

/-- The class bit of an encoding (R348). -/
def classBit (F : Fmt) (x : Nat) : Nat :=
  match F.value x with
  | .nan => 8
  | .inf s => if s then 0 else 7
  | .fin s n _ => if n = 0 then (if s then 3 else 4) else if F.isSub x then (if s then 2 else 5) else (if s then 1 else 6)

def execFclass (ty : FSc) (d a : Reg) (s : State) : Host.Outcome State Fault Refusal :=
  .next (mapLanes s fun t => wrW t .w32 d (2 ^ classBit (fmtOfSc ty) (rdW t (widthOfSc ty) a)))

/-! ## FRND, FSCALE, FEXPO, FMANT (R159, R352) -/

/-- FRND on a value. -/
def frndVal (m : Mode) : Val → Val
  | .fin s n d => .fin s (roundInt m s n d) 1
  | v => v

def execFrnd (ty : FSc) (rm : Rnd) (d a : Reg) (s : State) : Host.Outcome State Fault Refusal :=
  .next (mapLanes s fun t =>
    wrW t (widthOfSc ty) d (resVal t (fmtOfSc ty) (modeOf t rm)
      (frndVal (modeOf t rm) (srcVal t (fmtOfSc ty) (rdW t (widthOfSc ty) a)))))

/-- The exponent of FSCALE, clamped where every larger one gives the same result in either format. -/
def scaleExp (b : Nat) : Int := max (-2400) (min 2400 (sextNat b 32))

def execFscale (ty : FSc) (rm : Rnd) (d a b : Reg) (s : State) : Host.Outcome State Fault Refusal :=
  .next (mapLanes s fun t =>
    wrW t (widthOfSc ty) d (resVal t (fmtOfSc ty) (modeOf t rm)
      ((srcVal t (fmtOfSc ty) (rdW t (widthOfSc ty) a)).scale (scaleExp (rdB s.cur t .w32 b)))))

/-- FEXPO on a value. -/
def fexpoVal : Val → Nat
  | .nan | .inf _ => 0x7FFFFFFF
  | .fin s n d => if n = 0 then 0x80000000 else lowBits (Val.fin s n d).expo 32

def execFexpo (ty : FSc) (d a : Reg) (s : State) : Host.Outcome State Fault Refusal :=
  .next (mapLanes s fun t => wrW t .w32 d (fexpoVal (srcVal t (fmtOfSc ty) (rdW t (widthOfSc ty) a))))

/-- FMANT on a value. -/
def fmantVal : Val → Val
  | .fin s n d => if n = 0 then .fin s n d else (Val.fin s n d).scale (-(Val.fin s n d).expo)
  | v => v

def execFmant (ty : FSc) (d a : Reg) (s : State) : Host.Outcome State Fault Refusal :=
  .next (mapLanes s fun t =>
    wrW t (widthOfSc ty) d (resVal t (fmtOfSc ty) .rne (fmantVal (srcVal t (fmtOfSc ty) (rdW t (widthOfSc ty) a)))))

/-! ## Conversions (R129, R350, R353) -/

/-- Source format, target format and elements of a conversion code. -/
def cvtShape : CvtCode → Fmt × Fmt × Nat
  | .dF32 => (F32, F64, 1)
  | .f32D => (F64, F32, 1)
  | .f16F32 => (F32, F16, 1)
  | .f32F16 => (F16, F32, 1)
  | .bf16F32 => (F32, BF16, 1)
  | .f32Bf16 => (BF16, F32, 1)
  | .h2F32 => (F32, F16, 2)
  | .f32H2 => (F16, F32, 2)
  | .b2F32 => (F32, BF16, 2)
  | .f32B2 => (BF16, F32, 2)
  | .b2H2 => (F16, BF16, 2)
  | .h2B2 => (BF16, F16, 2)

/-- FCVT of an operand, element by element. -/
def cvtVal (t : Thread) (c : CvtCode) (m : Mode) (x : Nat) : Nat :=
  let p := cvtShape c
  packElems p.2.1.width p.2.2 fun i => resVal t p.2.1 m (srcVal t p.1 (elem p.1.width i x))

def execFcvt (code : CvtCode) (rm : Rnd) (d a : Reg) (s : State) : Host.Outcome State Fault Refusal :=
  .next (mapLanes s fun t =>
    let x := rdW t (if cvtAX code then .w64 else .w32) a
    wrW t (if cvtDX code then .w64 else .w32) d (cvtVal t code (modeOf t rm) x))

/-- Least and greatest values, width and signedness of an integer type of a conversion. -/
def convLo (it : IntTy) : Int := if it == .i32 then -2 ^ 31 else if it == .i64 then -2 ^ 63 else 0
def convHi (it : IntTy) : Int :=
  match it with
  | .i32 | .i32s => 2 ^ 31 - 1
  | .n32 | .n32s => 2 ^ 32 - 1
  | .i64 => 2 ^ 63 - 1
  | .n64 => 2 ^ 64 - 1

def execFtoi (it : IntTy) (ft : FSc) (rm : Rnd) (d a : Reg) (s : State) : Host.Outcome State Fault Refusal :=
  .next (mapLanes s fun t =>
    let v := srcVal t (fmtOfSc ft) (rdW t (widthOfSc ft) a)
    wrW t (tyWidth it) d (lowBits (v.toInt (modeOf t rm) (convLo it) (convHi it)) (wBits (tyWidth it))))

def execItof (it : IntTy) (ft : FSc) (rm : Rnd) (d a : Reg) (s : State) : Host.Outcome State Fault Refusal :=
  .next (mapLanes s fun t =>
    let x := rdW t (tyWidth it) a
    let z : Int := if tySigned it then sextNat x (wBits (tyWidth it)) else (x : Int)
    wrW t (widthOfSc ft) d (resVal t (fmtOfSc ft) (modeOf t rm) (Val.ofInt z)))

/-! ## Seeds and reductions (R154-R158) -/

def execRcpseed (d a : Reg) (s : State) : Host.Outcome State Fault Refusal :=
  .next (mapLanes s fun t => wrW t .w32 d (F32.flush (ftzo t) (rcpSeed (srcVal t F32 (rdW t .w32 a)))))
def execRsqseed (d a : Reg) (s : State) : Host.Outcome State Fault Refusal :=
  .next (mapLanes s fun t => wrW t .w32 d (F32.flush (ftzo t) (rsqSeed (srcVal t F32 (rdW t .w32 a)))))

/-- Writes a reduction: the float to the low register, the integer to the high one. -/
def wrRed (t : Thread) (d : Reg) (r : Nat) (n : Nat) : Thread :=
  wrW t .w64 d (F32.flush (ftzo t) r + 2 ^ 32 * (n % 2 ^ 32))

def execExpred (d a : Reg) (s : State) : Host.Outcome State Fault Refusal :=
  .next (mapLanes s fun t =>
    let r := expRed (srcVal t F32 (rdW t .w32 a))
    wrRed t d r.1 (lowBits r.2 32))
def execLogred (d a : Reg) (s : State) : Host.Outcome State Fault Refusal :=
  .next (mapLanes s fun t =>
    let r := logRed (srcVal t F32 (rdW t .w32 a))
    wrRed t d r.1 (lowBits r.2 32))
def execSinred (d a : Reg) (s : State) : Host.Outcome State Fault Refusal :=
  .next (mapLanes s fun t =>
    let r := sinRed (srcVal t F32 (rdW t .w32 a))
    wrRed t d r.1 r.2)

end Sys2Proof.Machine
end

