-- ==== Sys2Proof/Machine/Packed.lean ====
section
/-! DEFINITION. Packed narrow and sparse instructions (spec 06 R144, R150-R153, 11 R275-R276, 14 R339-R341, 16 R374-R375,
R389). -/
namespace Sys2Proof.Machine

/-! ## DOT8, DOT4 -/

/-- The two operands of a signedness are signed (R135). -/
def sgA : Sg → Bool
  | .ii | .inn => true
  | _ => false
def sgB : Sg → Bool
  | .ii | .ni => true
  | _ => false

/-- An element of a width as an integer. -/
def elemInt (signed : Bool) (w i x : Nat) : Int := if signed then sextNat (elem w i x) w else (elem w i x : Int)

/-- The exact dot product of n elements (R339). -/
def dotInt (sg : Sg) (w n x y : Nat) : Int :=
  (List.range n).foldl (fun acc i => acc + elemInt (sgA sg) w i x * elemInt (sgB sg) w i y) 0

/-- DOT8 and DOT4 on n elements of width w. -/
def dotOp (sg : Sg) (w n : Nat) (d a b : Reg) (s : State) : State :=
  mapLanes s fun t =>
    wrW t .w32 d (lowBits (sextNat (rdW t .w32 d) 32 + dotInt sg w n (rdW t .w32 a) (rdB s.cur t .w32 b)) 32)

def execDot8 (sg : Sg) (d a b : Reg) (s : State) : Host.Outcome State Fault Refusal := .next (dotOp sg 8 4 d a b s)
def execDot4 (sg : Sg) (d a b : Reg) (s : State) : Host.Outcome State Fault Refusal := .next (dotOp sg 4 8 d a b s)

/-! ## Formats of a slot -/

/-- The float format of FMT (R68). -/
def fmtOfCode (fmt : Nat) : Option Fmt :=
  match fmt with
  | 1 => some F32
  | 2 => some F16
  | 3 => some BF16
  | 4 => some F8A
  | 5 => some F8B
  | 6 => some F4
  | _ => none

/-- Signedness and width of an integer FMT (R68). -/
def intOfCode (fmt : Nat) : Option (Bool × Nat) :=
  match fmt with
  | 7 => some (true, 8)
  | 8 => some (false, 8)
  | 9 => some (true, 4)
  | 10 => some (false, 4)
  | 11 => some (true, 16)
  | 12 => some (false, 16)
  | _ => none

/-- Width in bits of an element of FMT. -/
def fmtWidth (fmt : Nat) : Nat :=
  match fmtOfCode fmt with
  | some F => F.width
  | none => ((intOfCode fmt).map (·.2)).getD 0

/-- The value of an element of FMT (R138, R144). -/
def fmtValue (fmt b : Nat) : Val :=
  match fmtOfCode fmt with
  | some F => F.value b
  | none =>
    match intOfCode fmt with
    | some (sg, w) => Val.ofInt (if sg then sextNat b w else (b % 2 ^ w : Nat))
    | none => .nan

/-- FMT, RND and OVF of a slot. -/
def slotFmt (f : BitVec 128) : Nat := fld f 0 4
def slotMode (f : BitVec 128) : Mode := if fld f 16 1 = 1 then .rtz else .rne
def slotOvf (f : BitVec 128) : Bool := fld f 17 1 == 1

/-- Conversion into a float format under a slot (R150, R151). -/
def narrowFlt (F : Fmt) (m : Mode) (ovf : Bool) : Val → Nat
  | .nan => if F.nan then F.qnan else 0
  | .inf s => overflow s
  | .fin s n d =>
    let g := F.grid m s n d
    if g ≤ F.top then F.sign s g else overflow s
where
  /-- The overflow value of R150. -/
  overflow (s : Bool) : Nat := if !ovf then F.sign s F.top else if F.inf then F.sign s F.infEnc else F.qnan

/-- Conversion into an integer format under a slot: clamped (R150, R151). -/
def narrowInt (sg : Bool) (w : Nat) (m : Mode) (v : Val) : Nat :=
  lowBits (v.toInt m (if sg then -(2 ^ (w - 1) : Int) else 0)
    (if sg then (2 ^ (w - 1) : Int) - 1 else (2 ^ w : Int) - 1)) w

/-- convert(v, slot) (R150). -/
def convertTo (f : BitVec 128) (v : Val) : Nat :=
  match fmtOfCode (slotFmt f) with
  | some F => narrowFlt F (slotMode f) (slotOvf f) v
  | none =>
    match intOfCode (slotFmt f) with
    | some (sg, w) => narrowInt sg w (slotMode f) v
    | none => 0

/-! ## DOTF8, DOTF4 (R341) -/

/-- The exact sum of products of n elements (R153). -/
def dotFlt (F : Fmt) (n x y : Nat) : Val :=
  exactSum ((List.range n).map fun i => (F.value (elem F.width i x)).mul (F.value (elem F.width i y)))

/-- D + Σ products in one rounding. -/
def dotfOp (F : Fmt) (n : Nat) (d a b : Reg) (s : State) : State :=
  mapLanes s fun t =>
    wrW t .w32 d (F32.round .rne ((F32.value (rdW t .w32 d)).add false
      (dotFlt F n (rdW t .w32 a) (rdB s.cur t .w32 b))))

def execDotf8 (f : BitVec 3) (d a b : Reg) (s : State) : Host.Outcome State Fault Refusal :=
  match fmtSlot s f.toNat with
  | some x =>
    match slotFmt x with
    | 4 => .next (dotfOp F8A 4 d a b s)
    | 5 => .next (dotfOp F8B 4 d a b s)
    | _ => .next (raiseAll s s.cur.tids 0x06 f.toNat)
  | none => .next (raiseAll s s.cur.tids 0x06 f.toNat)

def execDotf4 (f : BitVec 3) (d a b : Reg) (s : State) : Host.Outcome State Fault Refusal :=
  match fmtSlot s f.toNat with
  | some x =>
    match slotFmt x with
    | 6 => .next (dotfOp F4 8 d a b s)
    | _ => .next (raiseAll s s.cur.tids 0x06 f.toNat)
  | none => .next (raiseAll s s.cur.tids 0x06 f.toNat)

/-! ## PACKN, UNPKN (R374, R375) -/

/-- The packed register of n elements of a group. -/
def packWord (f : BitVec 128) (n group sc : Nat) : Nat :=
  packElems (fmtWidth (slotFmt f)) n fun i => convertTo f ((F32.value (elem 32 i group)).mul (F32.value sc))

/-- The group of n F32 values of a packed register. -/
def unpackGroup (fmt n x sc : Nat) : Nat :=
  packElems 32 n fun i => F32.round .rne ((fmtValue fmt (elem (fmtWidth fmt) i x)).mul (F32.value sc))

/-- A slot that PACKN and UNPKN accept: its number of elements. -/
def packSlot (s : State) (f : Nat) : Option (BitVec 128 × Nat) :=
  match fmtSlot s f with
  | none => none
  | some x => (fmtElems (slotFmt x)).map fun n => (x, n)

def execPackn (f : BitVec 3) (d a b : Reg) (s : State) : Host.Outcome State Fault Refusal :=
  match packSlot s f.toNat with
  | some (x, n) => .next (mapLanes s fun t => wrW t .w32 d (packWord x n (t.group n a.toNat) (rdB s.cur t .w32 b)))
  | none => .next (raiseAll s s.cur.tids 0x06 f.toNat)

def execUnpkn (f : BitVec 3) (d a b : Reg) (s : State) : Host.Outcome State Fault Refusal :=
  match packSlot s f.toNat with
  | some (x, n) => .next (mapLanes s fun t =>
      t.setGroup n d.toNat (unpackGroup (slotFmt x) n (rdW t .w32 a) (rdB s.cur t .w32 b)))
  | none => .next (raiseAll s s.cur.tids 0x06 f.toNat)

/-! ## SPARS, DOT8S (R275, R276) -/

/-- Magnitude of I8 element i. -/
def mag8 (x i : Nat) : Nat := (elemInt true 8 i x).natAbs

/-- Element i is one of the four that SPARS keeps: fewer than four others come before it. -/
def sparsKeeps (x i : Nat) : Bool :=
  ((List.range 8).filter fun j => mag8 x i < mag8 x j || (mag8 x i == mag8 x j && j < i)).length < 4

/-- The values and metadata that SPARS writes. -/
def sparsVal (x : Nat) : Nat :=
  let ks := (List.range 8).filter (sparsKeeps x)
  packElems 8 4 (fun k => elem 8 (ks.getD k 0) x) + 2 ^ 32 * packElems 3 4 (fun k => ks.getD k 0)

def execSpars (d a : Reg) (s : State) : Host.Outcome State Fault Refusal :=
  .next (mapLanes s fun t => wrW t .w64 d (sparsVal (rdW t .w64 a)))

/-- Metadata is well formed (R276). -/
def metaOk (m : Nat) : Bool :=
  m / 2 ^ 12 == 0 && elem 3 0 m < elem 3 1 m && elem 3 1 m < elem 3 2 m && elem 3 2 m < elem 3 3 m

/-- The sparse dot product of values, metadata and eight elements. -/
def dotSparse (sg : Sg) (vals m y : Nat) : Int :=
  (List.range 4).foldl (fun acc k => acc + elemInt (sgA sg) 8 k vals * elemInt (sgB sg) 8 (elem 3 k m) y) 0

def execDot8s (sg : Sg) (d a b : Reg) (s : State) : Host.Outcome State Fault Refusal :=
  .next (eachLane s fun s' tid =>
    let t := s.thread tid
    let x := rdW t .w64 a
    if metaOk (x / 2 ^ 32) then
      s'.setThread tid (wrW t .w32 d (lowBits (sextNat (rdW t .w32 d) 32 +
        dotSparse sg (x % 2 ^ 32) (x / 2 ^ 32) (rdW t .w64 b)) 32))
    else raise s' tid 0x0C 0)

end Sys2Proof.Machine
end

