-- ==== Sys2Proof/Machine/System.lean ====
section
/-! DEFINITION. CSRR, CSRW and CYC (spec 04 R106-R116, 06 R147, 14 R335, R337). -/
namespace Sys2Proof.Machine

/-- READY of a die device (R113). -/
def readyReg (s : State) (d : Nat) : Nat :=
  let bit (b : Bool) (i : Nat) : Nat := if b then 2 ^ i else 0
  1 + bit (s.die d).hostReady 1 + bit (s.hubReady && !s.hubFenced) 2 +
  (List.range 8).foldl (fun n i => n + bit (dieUp s i) (4 + i)) 0 +
  (List.range 32).foldl (fun n i => n + bit (s.port i).ready (16 + i)) 0

/-- A thread CSR (R107, R108). -/
def threadCsr (s : State) (tid n : Nat) : Option Nat :=
  let t := s.thread tid
  match n with
  | 0x00 => some t.fpmode.toNat
  | 0x10 => some t.trap.pc.toNat
  | 0x11 => some t.trap.cause.toNat
  | 0x12 => some t.trap.word.toNat
  | 0x13 => some t.depth
  | 0x14 => some (if t.depth = 2 then t.outer.pc.toNat else 0)
  | 0x15 => some (if t.depth = 2 then t.outer.cause.toNat else 0)
  | 0x16 => some (if t.depth = 2 then t.outer.word.toNat else 0)
  | 0x18 => some (((curLaunch s).map (·.trapblk)).getD 0)
  | 0x20 => some (slotOf tid)
  | 0x21 => some (coreOf tid)
  | 0x22 => some t.pubaddr.toNat
  | _ => none

/-- A team CSR (R107, R110). -/
def teamCsr (s : State) (tid n : Nat) : Option Nat :=
  match teamOfTid s tid with
  | none => none
  | some t =>
    match n with
    | 0x100 => some t.tpass
    | 0x101 => some ((s.core t.core).cyc - t.cyc0)
    | 0x102 => some (((s.launch t.launch).map (·.gridt)).getD 0)
    | 0x180 => some t.cpprog
    | n =>
      if 0x140 ≤ n ∧ n < 0x180 then
        some (match t.tiles[(n - 0x140) / 16]? with
          | some x => kvGetD 0 x.cursors ((n - 0x140) % 16)
          | none => 0)
      else none

/-- A core CSR; those whose writes wait for the next pass read as the running pass has them (R116). -/
def coreCsr (s : State) (n : Nat) : Option Nat :=
  let c := s.core s.cur.core
  let x := ((s.pass s.curPass).map (·.csr)).getD c.eff
  match n with
  | 0x200 => some c.passcnt
  | 0x201 => some x.agelim.toNat
  | 0x202 => some x.gtimeout.toNat
  | 0x203 => some c.gstat.toNat
  | 0x204 => some x.sbchk.toNat
  | 0x210 => some c.sbconf.toNat
  | n => if 0x208 ≤ n ∧ n < 0x20D then some (x.sbhash.getD (n - 0x208) 0).toNat else none

/-- The value of a CSR that a thread may read; none where it is privileged (R106, R107). -/
def csrValue (s : State) (tid n : Nat) : Option Nat :=
  if n < 0x100 then threadCsr s tid n
  else if n < 0x200 then teamCsr s tid n
  else if n < 0x400 then coreCsr s n
  else if n = 0x1000 then some Config.caps0.toNat
  else if n = 0x1001 then some Config.caps1.toNat
  else if n = 0x1002 then some (readyReg s (dieOf s.cur.core))
  else none

/-- CSRR (R335). -/
def execCsrr (d : Reg) (n : BitVec 14) (s : State) : Host.Outcome State Fault Refusal :=
  .next (eachLane s fun s tid =>
    match csrValue s tid n.toNat with
    | none => raise s tid 0x07 0
    | some v => s.updThread tid fun t => t.setGroup (csrRegs n.toNat) d.toNat v)

/-- FPMODE after a write: RM keeps its value for 000 and 101 to 111 (R109). -/
def fpmodeWrite (old v : Word) : Word :=
  let rm := if 1 ≤ fld v 0 3 ∧ fld v 0 3 ≤ 4 then fld v 0 3 else fld old 0 3
  BitVec.ofNat 32 (fld v 4 2 * 16 + rm)

/-- What a handler that writes TPC leaves of the transfer that an earlier slot of the trapping packet has executed: it stands
while the return point is a slot of that packet behind it, and is given up otherwise (R55; log 81). -/
def moveHeld (hs : List Held) (same : Bool) (slot : Nat) : List Held :=
  match hs with
  | h :: hs => if same && h.slot < slot then { h with point := h.point / 4 * 4 + slot } :: hs else []
  | [] => []

/-- A thread's CSR write; none where it is privileged (R107, R335). -/
def csrPut (t : Thread) (n v : Nat) : Option Thread :=
  match n with
  | 0x00 => some { t with fpmode := fpmodeWrite t.fpmode (BitVec.ofNat 32 v) }
  | 0x10 => some { t with trap :=
      { t.trap with pc := BitVec.ofNat 64 (v / 16 * 16 + v % 4), held := moveHeld t.trap.held (t.trap.pc.toNat / 16 == v / 16) (v % 4) } }
  | 0x22 => some { t with pubaddr := BitVec.ofNat 64 (v / 8 * 8) }
  | _ => none

/-- CSRW (R335). -/
def execCsrw (d : Reg) (n : BitVec 14) (s : State) : Host.Outcome State Fault Refusal :=
  .next (eachLane s fun s tid =>
    let t := s.thread tid
    match csrPut t n.toNat (t.group (csrRegs n.toNat) d.toNat) with
    | none => raise s tid 0x07 0
    | some t' => s.setThread tid t')

/-- CYC (R337). -/
def execCyc (d : Reg) (s : State) : Host.Outcome State Fault Refusal :=
  .next (mapLanes s fun t => t.setGroup 2 d.toNat (s.core s.cur.core).cyc)

end Sys2Proof.Machine
end

