-- ==== Sys2Proof/Machine/EngineIo.lean ====
section
/-! DEFINITION. How the engines reach scratchpad and global memory, what they report, and which command each takes next
(spec 10 R244-R250, R253-R259, 12 R287, R299). -/
namespace Sys2Proof.Machine

/-! ## Scratchpad -/

/-- How an engine's access ends before it is made: made, a scratchpad address error, or a replayable fault. -/
inductive Touch
  | ok
  | stop
  /-- What it needs stands still for temperature: it is made later (R317). -/
  | wait
  | fault (cause sub lvl va acc : Nat)
deriving DecidableEq, Repr

/-- A byte as an engine reads it where it stands, with its poison; none where the address is wrong (R250). -/
def peekSpad (s : State) (t : Team) (va : Nat) : Option (Byte × Bool) :=
  match spadResolve s t (va % 2 ^ 32) 1 false true with
  | .error _ => none
  | .ok (.phys g p _) => some (cellGet (s.core g).spad p, spadPoisoned s g p 1)
  | .ok (.stash w idx off) =>
    match stashAt t w idx with
    | some _ => let p := stashP s t w idx + off; some (cellGet (s.core t.core).spad p, spadPoisoned s t.core p 1)
    | none =>
      match s.launch t.launch with
      | none => none
      | some l => (keyOf s (dieOf t.core) l.actx (winGva s t w + 64 * idx + off)).map fun k => (s.byteAt k, poisoned s k 1)

/-- Readies a sector of a stash window for an engine's read or write: one that stands for a non-canonical address is no place (R161,
R250; log 45); the others are filled, for which the page needs V alone; a
page that is uncached, or a write to one that is compressed, is served at the home, and a write there needs W (R173, R178,
R183, R284). -/
def touchStash (s : State) (tk : Nat) (t : Team) (w idx off : Nat) (wr : Bool) : State × Touch :=
  match s.launch t.launch with
  | none => (s, .stop)
  | some l =>
    let d := dieOf t.core
    let gva := winGva s t w + 64 * idx + off
    let here := stashAt t w idx
    if !canonical (gva % 2 ^ 64) then (s, .stop)
    else if here.any fun x => !wr || (x.modified && !isCmp (64 * x.key)) then (s, .ok)
    else if vaWaits s d l.actx gva then (s, .wait)
    else if here.any fun x => !isCmp (64 * x.key) then (s, .ok)
    else
      let x := stashXlate s t.core l.actx gva wr
      match x.2 with
      | .wait => (x.1, .wait)
      | .bad cause sub lvl => (x.1, .fault cause sub lvl gva (if wr then 1 else 0))
      | .ok tr =>
        let m := mustWait x.1 (tr.key / 64)
        if m.2 then (m.1, .wait)
        else if wr && (tr.uncached || isCmp tr.key) then (m.1, .ok)
        else if tr.uncached then (readFor (readReq m.1 t.launch tr.key .no) (tr.key / 64) none, .ok)
        else (fillSector m.1 tk t w idx (tr.key / 64 * 64) tr.alloc, .ok)

/-- Readies a piece of an engine's read or write that lies in one sector: its addresses are checked, a sector that waits for
its write-back is waited for, and a stash sector is filled (R173, R174, R253). -/
def touchPiece (s : State) (tk va n : Nat) (wr : Bool) : State × Touch :=
  match s.team tk with
  | none => (s, .stop)
  | some t =>
    let place (i : Nat) := spadResolve s t ((va + i) % 2 ^ 32) 1 wr true
    if (List.range n).any fun i => (place i).toOption.isNone then (s, .stop)
    else
      match place 0 with
      | .error _ => (s, .stop)
      | .ok (.phys g p _) => (s, if wbAt s g p n then .wait else .ok)
      | .ok (.stash w idx off) => touchStash s tk t w idx off wr

/-- The pieces of n bytes of scratchpad: address, offset among the bytes, length. No bytes are no piece (R252). -/
def spadPieces (va n : Nat) : List (Nat × Nat × Nat) :=
  if n = 0 then [] else (sectorsOf va n).map fun p => (64 * p.1 + p.2.1, p.2.2.1, p.2.2.2)

/-- Readies n bytes. -/
def touchSpad (s : State) (tk va n : Nat) (wr : Bool) : State × Touch :=
  (spadPieces va n).foldl (fun r p => match r.2 with
    | .ok => touchPiece r.1 tk p.1 p.2.2 wr
    | _ => r) (s, .ok)

/-- Several ranges in turn. -/
def touchAll (s : State) (tk : Nat) (rs : List (Nat × Nat)) (wr : Bool) : State × Touch :=
  rs.foldl (fun r x => match r.2 with
    | .ok => touchSpad r.1 tk x.1 x.2 wr
    | _ => r) (s, .ok)

/-- Writes bytes with their poison at a key for an agent without a cache; true: the compression pool was exhausted. -/
def putMarked (s : State) (key : Nat) (bs : List (Byte × Bool)) : State × Bool :=
  let w := putHome s key (bs.map (·.1))
  if w.2 then w
  else
    let gs := ((bs.mapIdx fun i b => (b.2, (key + i) / 16)).filter (·.1)).map (·.2)
    ({ w.1 with poison := gs.foldl natAdd w.1.poison }, false)

/-- Writes a piece that has been readied. The granules of scratchpad that it writes become full, those that back a window
among them (R170); a write that is made at the home writes no scratchpad (log 85). A piece is one write to its line (log 86). -/
def writePiece (s : State) (tk va : Nat) (bs : List (Byte × Bool)) : State × Bool :=
  match s.team tk with
  | none => (s, false)
  | some t =>
    match spadResolve s t (va % 2 ^ 32) 1 true true with
    | .error _ => (s, false)
    | .ok (.phys g p _) => (fillRange (spadWrite s g p bs) g p bs.length, false)
    | .ok (.stash w idx off) =>
      let al := allocAt s (dieOf t.core) (((s.launch t.launch).map (·.actx)).getD 0) (winGva s t w + 64 * idx + off)
      match stashAt t w idx with
      | some x =>
        if isCmp (64 * x.key) then putMarked (request s t.launch (64 * x.key) al (.other)) (64 * x.key + off) bs
        else (fillRange (stashStore s tk t w idx x.key off bs) t.core (stashP s t w idx + off) bs.length, false)
      | none =>
        match (s.launch t.launch).bind fun l => keyOf s (dieOf t.core) l.actx (winGva s t w + 64 * idx + off) with
        | none => (s, false)
        | some k => putMarked (request s t.launch k al (.write k (bs.map (·.1)))) k bs

/-- ADDR of the record of a write that found the compression pool exhausted: the virtual address behind a stash window (R183,
R288). -/
def poolAddr (s : State) (tk va : Nat) : Nat :=
  match s.team tk with
  | none => va
  | some t =>
    match spadResolve s t (va % 2 ^ 32) 1 true true with
    | .ok (.stash w idx off) => winGva s t w + 64 * idx + off
    | _ => va

/-- Writes bytes with their poison for an engine at places that have been readied. -/
def writeSpad (s : State) (tk va : Nat) (bs : List (Byte × Bool)) : State × Touch :=
  (spadPieces va bs.length).foldl (fun r p =>
    match r.2 with
    | .ok =>
      let w := writePiece r.1 tk p.1 ((bs.drop p.2.1).take p.2.2)
      (w.1, if w.2 then .fault 0x15 0 15 (poolAddr r.1 tk p.1) 1 else .ok)
    | _ => r) (s, .ok)

/-! ## Global memory -/

/-- Who reaches global memory without an L1: an engine of a core, whose requests its launch pays for, or the die scheduler of a
die for a launch (R64, R66). -/
inductive Agent
  | engine (core launch : Nat)
  | sched (die launch : Nat)
deriving DecidableEq, Repr

/-- Translates an address for an agent. -/
def Agent.xlate (s : State) (ag : Agent) (actx va : Nat) (a : Xacc) : State × Xres :=
  match ag with
  | .engine g _ => Machine.xlate s g actx va a
  | .sched d _ => xlateDie s d actx va a

/-- The die of an agent. -/
def Agent.die : Agent → Nat
  | .engine g _ => dieOf g
  | .sched d _ => d

/-- The request of an agent leaves; the launch pays for the die scheduler's where a link port sends it (R63). -/
def Agent.request (s : State) (ag : Agent) (t : Trans) (m : LinkMsg) : State :=
  match ag with
  | .engine _ l => Machine.request s l t.key t.alloc m
  | .sched _ l => sideRequest s (some l) t.key m

/-- A key can be reached now: no sector of it develops, and a link takes the flit. -/
def reachable (s : State) (key : Nat) : State × Bool :=
  let m := mustWait s (key / 64)
  (m.1, !m.2 && roomFor m.1 key 1)

/-- A plain read of virtual addresses by a party without a cache, with the poison of each byte (R196, R299). -/
def readVirt (s : State) (ag : Agent) (actx va n : Nat) : State × Except Touch (List (Byte × Bool)) :=
  (partsOf va n).foldl (fun r p =>
    match r.2 with
    | .error _ => r
    | .ok bs =>
      let x := ag.xlate r.1 actx p.va .rd
      if vaWaits r.1 ag.die actx p.va then (r.1, .error .wait) else
      match x.2 with
      | .wait => (x.1, .error .wait)
      | .bad cause sub lvl => (x.1, .error (.fault cause sub lvl p.va 0))
      | .ok tr =>
        let m := reachable x.1 tr.key
        if !m.2 then (m.1, .error .wait) else
        let q := readHome (ag.request m.1 tr (.read tr.key p.n)) tr.key p.n
        (q.1, .ok (bs ++ q.2.mapIdx fun i b => (b, poisoned q.1 (tr.key + i) 1)))) (s, .ok [])

/-- A write of virtual addresses by a party without a cache. -/
def writeVirt (s : State) (ag : Agent) (actx va : Nat) (bs : List (Byte × Bool)) : State × Touch :=
  (partsOf va bs.length).foldl (fun r p =>
    match r.2 with
    | .ok =>
      let x := ag.xlate r.1 actx p.va .wr
      if vaWaits r.1 ag.die actx p.va then (r.1, .wait) else
      match x.2 with
      | .wait => (x.1, .wait)
      | .bad cause sub lvl => (x.1, .fault cause sub lvl p.va 1)
      | .ok tr =>
        let m := reachable x.1 tr.key
        if !m.2 then (m.1, .wait) else
        let part := (bs.drop p.off).take p.n
        let w := putMarked (ag.request m.1 tr (.write tr.key (part.map (·.1)))) tr.key part
        (w.1, if w.2 then .fault 0x15 0 15 p.va 1 else .ok)
    | _ => r) (s, .ok)

/-- The launch of a resident team. -/
def launchOfTeam (s : State) (tk : Nat) : Option (Team × Launch) :=
  match s.team tk with
  | none => none
  | some t => (s.launch t.launch).map fun l => (t, l)

/-- An engine's plain read of global memory. -/
def readGlobal (s : State) (tk va n : Nat) : State × Except Touch (List (Byte × Bool)) :=
  match launchOfTeam s tk with
  | none => (s, .error .stop)
  | some (t, l) => readVirt s (.engine t.core t.launch) l.actx va n

/-- An engine's write of global memory. -/
def writeGlobal (s : State) (tk va : Nat) (bs : List (Byte × Bool)) : State × Touch :=
  match launchOfTeam s tk with
  | none => (s, .stop)
  | some (t, l) => writeVirt s (.engine t.core t.launch) l.actx va bs

/-! ## Records and completion -/

/-- A record that an engine causes (R287): requester 2 is the plane array, whose slot field names the tile; 3 the copy
engine. -/
def engRec (s : State) (t : Team) (req tile cause sub acc lvl addr : Nat) : FRec :=
  let l := s.launch t.launch
  { addr := addr, iter := 0xFFFFFFFF, owner := 0xFFFF, fdom := (l.map (fdomOf s)).getD 0xFFFF,
    tslot := if req = 2 then tile else 0xFFFF, core := t.core, req := req, cause := cause, sub := sub, acc := acc, level := lvl,
    repl := false, team := t.num, token := 0, ctx := (l.map (·.actx)).getD 0 }

def Team.setRun (t : Team) (cp : Bool) (r : Option Run) : Team := if cp then { t with cp := r } else { t with mx := r }

/-- Changes the run of a team's engine. -/
def updRun (s : State) (tk : Nat) (cp : Bool) (f : Run → Run) : State :=
  s.updTeam tk fun t => t.setRun cp ((t.run cp).map f)

/-- The command has finished with a status (R247). -/
def endRun (s : State) (tk : Nat) (cp : Bool) (status : Nat) : State :=
  updRun s tk cp fun r => { r with status := some (if status = 0 ∧ r.poisoned then 2 else status) }

/-- A stop of a run on a bad address, or its parking on a fault (R247, R253, R259). -/
def haltRun (s : State) (tk : Nat) (cp : Bool) (w : Touch) : State :=
  match s.team tk with
  | none => s
  | some t =>
    match w with
    | .ok | .wait => s
    | .stop => endRun s tk cp 3
    | .fault cause sub lvl va acc =>
      let tile := ((t.run cp).map fun r => fld r.cmd.blk 4 2).getD 0
      park s (dieOf t.core) { engRec s t (if cp then 3 else 2) tile cause sub acc lvl va with repl := true }
        (if cp then .copy tk else .matrix tk)

/-- TOK, BEN, BEND and TAG of a command's block; the copy engine's stand one bit group lower (R249, R255). -/
def cmdTok (cp : Bool) (b : SecData) : Bool := fld b (if cp then 6 else 14) 1 == 1
def cmdBen (cp : Bool) (b : SecData) : Bool := fld b (if cp then 7 else 15) 1 == 1
def cmdBend (b : SecData) : Nat := fld b 32 16
def cmdTag (b : SecData) : Nat := fld b 48 16

/-- The command asks for no signal any more: its bend failed the check at the start (R248). -/
def dropBen (s : State) (tk : Nat) (cp : Bool) : State :=
  updRun s tk cp fun r => { r with cmd := { r.cmd with blk := setFld r.cmd.blk (if cp then 7 else 15) 1 0 } }

/-- The bend check of an engine command: its team's plane array or copy engine is the signalling party (R248). -/
def engBendOk (s : State) (t : Team) (cp : Bool) (b : SecData) : Bool :=
  !cmdBen cp b ||
  sigCheck (s.bend (65536 * dieOf t.core + cmdBend b)) (if cp then 3 else 2)
    (((s.launch t.launch).map (·.addr)).getD 0) t.num == none

/-- The record of a bend that is not bound (R248, R288). -/
def reportBend (s : State) (t : Team) (cp : Bool) (b : SecData) : State :=
  report s (dieOf t.core) (engRec s t (if cp then 3 else 2) (fld b 4 2) 0x22 1 7 15 (cmdBend b))

/-- ENGINE_COMMAND_COMPLETE: pushes the token and signals the bend (R247, R248). -/
def completeRun (s : State) (tk : Nat) (cp : Bool) (t : Team) (r : Run) (status : Nat) : State :=
  let b := r.cmd.blk
  let q := if cp then 1 else 0
  let tok : Word := BitVec.ofNat 32 (status * 2 ^ 24 + cmdTag b)
  let s := s.setTeam tk ((if cmdTok cp b then t.setTokens q (t.tokens q ++ [tok]) else t).setRun cp none)
  if !cmdBen cp b then s
  else if engBendOk s t cp b then countSignal s (65536 * dieOf t.core + cmdBend b)
  else reportBend s t cp b

/-- The team of a core whose engine command has finished. -/
def finishedTeam (s : State) (g : Nat) (cp : Bool) : Option Nat :=
  (s.teams.find? fun t => t.2.core == g && dieGo s (dieOf g) && ((t.2.run cp).any fun r => r.status.isSome)).map (·.1)

def execEngineCommandComplete (core : Nat) (copy : Bool) (s : State) : Host.Outcome State Fault Refusal :=
  .next (match finishedTeam s core copy with
    | none => s
    | some tk =>
      match s.team tk with
      | none => s
      | some t =>
        match t.run copy with
        | none => s
        | some r =>
          match r.status with
          | none => s
          | some st => settle (completeRun s tk copy t r st))

/-! ## What an engine takes next (R245) -/

/-- Tile accesses of a team that wait, with their order numbers and tiles (R246). -/
def tileAccs (s : State) (tk : Nat) : List (Nat × Nat) :=
  s.accs.filterMap fun a =>
    if a.2.team = tk then
      match a.2.kind with
      | .mxrd t _ | .mxwr t _ | .mxclr t => some (a.1, t)
      | _ => none
    else none

/-- The command may start or go on: its run is stopped and not parked, or it heads the queue with room for its token and
no earlier access of its tile waiting; its acquire waits for what a release owes it (R222, R245, R246, R248; log 116). -/
def cmdReady (s : State) (tk : Nat) (t : Team) (cp : Bool) : Bool :=
  match t.run cp with
  | some r => r.status.isNone && !isParked s (dieOf t.core) (if cp then .copy tk else .matrix tk)
  | none =>
    match t.cmds (if cp then 0 else 1) with
    | [] => false
    | c :: _ =>
      !owedTo s none tk t.core (cmdAcquire cp c.blk) s.seq &&
      (!cmdTok cp c.blk || (t.tokens (if cp then 1 else 0)).length < Config.queueDepth) &&
      (cp || !(tileAccs s tk).any fun a => a.1 < c.seq && a.2 == fld c.blk 4 2)

/-- The command that the engine takes next of a team. -/
def nextCmd (t : Team) (cp : Bool) : Cmd :=
  match t.run cp with
  | some r => r.cmd
  | none => ((t.cmds (if cp then 0 else 1)).head?).getD ⟨0, 0, 0, 0⟩

/-- The team's die runs, and its launch has budget left (R64). -/
def engGo (s : State) (t : Team) : Bool :=
  dieGo s (dieOf t.core) &&
  (match s.launch t.launch with
    | none => false
    | some l => !spent s l)

/-- A team's engines may take work: it is not on its way off the core, and its launch has budget left (R64, R65, R80). -/
def engAllowed (s : State) (t : Team) : Bool := (t.leave.isNone || t.leave == some .drain) && engGo s t

/-- The save of a team completes the tile accesses that wait behind the plane array's commands: those go on (R371, R80; log 61). -/
def saveOwes (s : State) (tk : Nat) (t : Team) : Bool :=
  t.leave == some .save && engGo s t && cmdReady s tk t false && (tileAccs s tk).any fun a => (nextCmd t false).seq < a.1

/-- The team that a core's engine serves next. It runs one command at a time: the one under way is that of the team that it turned to
last, until it has ended or something stops it. Otherwise it turns to the next in ascending gang row with a command that may start or,
after a stop, go on; to none while a finished command waits for its completion (R245, R253; log 104). -/
def engNext (s : State) (g : Nat) (cp : Bool) : Option (Nat × Team) :=
  if (finishedTeam s g cp).isSome then none
  else
    let c := s.core g
    let turn := if cp then c.cpTurn else c.mxTurn
    let cs := s.teams.filter fun t =>
      t.2.core == g && ((engAllowed s t.2 && cmdReady s t.1 t.2 cp) || (!cp && saveOwes s t.1 t.2))
    match cs.find? (fun t => (t.2.run cp).isSome && t.2.g0 == turn) with
    | some t => some t
    | none =>
      match cs.find? (fun t => turn < t.2.g0) with
      | some t => some t
      | none => cs.head?

/-- The engine has turned to a team (R245). -/
def turnTo (s : State) (t : Team) (cp : Bool) : State :=
  s.updCore t.core fun x => if cp then { x with cpTurn := t.g0 } else { x with mxTurn := t.g0 }

/-- Starts the command at the head of a team's queue, or goes on with a stopped one; true: it is new. -/
def takeCmd (s : State) (tk : Nat) (t : Team) (cp : Bool) : State × Bool :=
  match t.run cp with
  | some _ => (turnTo s t cp, false)
  | none =>
    match t.cmds (if cp then 0 else 1) with
    | [] => (s, false)
    | c :: rest =>
      let s := s.setTeam tk ((t.setCmds (if cp then 0 else 1) rest).setRun cp (some ⟨c, 0, 0, [], none, false, [], 0, none⟩))
      (turnTo s t cp, true)

/-! ## MXISS, MXDRN, CPISS, QSTAT -/

/-- A queue write of one thread: the block's address is checked, and the thread waits to push (R244). -/
def pushLane (s : State) (tid kind va : Nat) : State :=
  match teamOfTid s tid with
  | none => s
  | some t =>
    match localBlock s t va 64 64 false with
    | .error sub => raise s tid 0x0A sub
    | .ok o => setWait s tid (.push kind o)

def execMxiss (a : Reg) (s : State) : Host.Outcome State Fault Refusal :=
  .next (eachLane s fun s tid => pushLane s tid 1 ((s.thread tid).reg a.toNat).toNat)
def execMxdrn (a : Reg) (s : State) : Host.Outcome State Fault Refusal :=
  .next (eachLane s fun s tid => pushLane s tid 2 ((s.thread tid).reg a.toNat).toNat)
def execCpiss (a : Reg) (s : State) : Host.Outcome State Fault Refusal :=
  .next (eachLane s fun s tid => pushLane s tid 0 ((s.thread tid).reg a.toNat).toNat)

/-- What QSTAT reads of a queue (R380). -/
def queueStat (t : Team) (q : Nat) : Nat :=
  match q with
  | 0 => t.q0.length
  | 1 => t.q1.length
  | 8 => t.q8.length + (if t.mx.isSome then 256 else 0)
  | 9 => t.q9.length + (if t.cp.isSome then 256 else 0)
  | _ => 0

/-- QSTAT (R380). -/
def execQstat (d : Reg) (q : BitVec 4) (s : State) : Host.Outcome State Fault Refusal :=
  .next (eachLane s fun s tid =>
    let v := ((teamOfTid s tid).map fun t => queueStat t q.toNat).getD 0
    s.updThread tid fun t => t.setReg d.toNat (BitVec.ofNat 32 v))

/-! ## MXCLR, MXRD, MXWR (R246, R369, R371) -/

/-- The index of the four elements of a tile row (R371). -/
def tileIdx (b : Nat) : Nat := bitsOf b 7 7 * 128 + 4 * bitsOf b 2 5

/-- MXCLR acts once for its slot for each team (R369). -/
def execMxclr (t : BitVec 2) (s : State) : Host.Outcome State Fault Refusal :=
  .next ((slotTeams s).foldl (fun s x => match x.2 with
    | tid :: _ => addAcc s (newAcc s tid (.mxclr t.toNat))
    | [] => s) s)

/-- MXRD (R371). -/
def execMxrd (d : Reg) (t : BitVec 2) (b : Reg) (s : State) : Host.Outcome State Fault Refusal :=
  .next (eachLane s fun s tid =>
    let idx := tileIdx (rdB s.cur (s.thread tid) .w32 b)
    addAcc s { newAcc s tid (.mxrd t.toNat idx) with size := 16, dst := regsFrom 4 d })

/-- MXWR (R371). -/
def execMxwr (t : BitVec 2) (a b : Reg) (s : State) : Host.Outcome State Fault Refusal :=
  .next (eachLane s fun s tid =>
    let th := s.thread tid
    let idx := tileIdx (rdB s.cur th .w32 b)
    addAcc s { newAcc s tid (.mxwr t.toNat idx) with size := 16, data := BitVec.ofNat 128 (th.group 4 a.toNat) })

/-- Every command and tile access of the team that came before an access at its tile is done (R246). -/
def tileReady (s : State) (id : Nat) : Bool :=
  match s.acc id with
  | none => false
  | some a =>
    match s.team a.team with
    | none => false
    | some t =>
      let tile := match a.kind with
        | .mxrd t _ | .mxwr t _ | .mxclr t => t
        | _ => 4
      let cmds := t.q8 ++ (t.mx.map (·.cmd)).toList
      !(cmds.any fun c => c.seq < id && fld c.blk 4 2 == tile) && !((tileAccs s a.team).any fun x => x.1 < id && x.2 == tile)

/-- Changes a tile of a team. -/
def updTile (s : State) (tk tile : Nat) (f : Tile → Tile) : State :=
  s.updTeam tk fun t => { t with tiles := t.tiles.mapIdx fun i x => if i = tile then f x else x }

/-- A tile of a team. -/
def Team.tile (t : Team) (i : Nat) : Tile := t.tiles.getD i Tile.reset

/-- Performs a tile access (R369, R371). -/
def doTile (s : State) (id : Nat) : State :=
  match s.acc id with
  | none => s
  | some a =>
    match s.team a.team with
    | none => s
    | some t =>
      match a.kind with
      | .mxclr i => (updTile s a.team i fun x => { x with elems := [], poison := [] }).delAcc id
      | .mxrd i idx =>
        let x := t.tile i
        let v := (List.range 4).foldr (fun j n => (kvGetD 0 x.elems (idx + j)).toNat + 2 ^ 32 * n) 0
        let s := if (List.range 4).any (fun j => x.poison.contains (idx + j)) then setDue s a.tid 0x18 0 a.word else s
        finishAcc s id v
      | .mxwr i idx =>
        (updTile s a.team i fun x =>
          { x with elems := (List.range 4).foldl (fun m j => kvSet 0 m (idx + j) (a.data.extractLsb' (32 * j) 32)) x.elems,
                   poison := x.poison.filter fun e => !(idx ≤ e && e < idx + 4) }).delAcc id
      | _ => s

end Sys2Proof.Machine
end

