-- ==== Sys2Proof/Machine/Matrix.lean ====
section
/-! DEFINITION. The plane array: matrix operations and drains (spec 10 R234-R254). -/
namespace Sys2Proof.Machine

/-! ## Formats and parameter blocks -/

/-- A format that R237 permits as an operand. -/
def operandFmt (fmt : Nat) : Bool := 2 ≤ fmt && fmt ≤ 12

/-- Full plane width W of FMT (R68). -/
def planeWidth (fmt : Nat) : Nat :=
  match fmtOfCode fmt with
  | some F => F.f + 1
  | none => fmtWidth fmt

/-- PCOUNT, SKIND and SBLK of a slot (R68). -/
def slotPlanes (f : BitVec 128) : Nat := let p := fld f 18 5; if p = 0 then planeWidth (slotFmt f) else p
def slotKind (f : BitVec 128) : Nat := fld f 4 2
def slotBlk (f : BitVec 128) : Nat := fld f 8 8
/-- Bytes of a scale of SKIND (R239). -/
def scaleSize (kind : Nat) : Nat := if kind = 1 then 1 else 2
/-- The last scale block that scale memory holds (R239). -/
def lastBlock (kind : Nat) : Nat := if kind = 1 then 31 else 15

/-- A slot of the kernel (R69). -/
def slotIn (l : Launch) (i : Nat) : Option (BitVec 128) := if l.slots / 2 ^ i % 2 = 1 then some (l.fslot i) else none

/-- Bytes of a plane-stack record of FMT (R234), and its bytes that hold the planes below P. -/
def recBytes (fmt planes : Nat) : Nat := (if (fmtOfCode fmt).isSome then 144 else 0) + 16 * planes

/-- The MXISS parameter block (R249). -/
structure MxOp where
  tile : Nat
  abm : Bool
  bbm : Bool
  fa : BitVec 128
  fb : BitVec 128
  k : Nat
  m : Nat
  n : Nat
  sb0 : Nat
  aaddr : Nat
  baddr : Nat
  abmaddr : Nat
  bbmaddr : Nat
deriving DecidableEq, Repr

/-- The fields of a block. -/
def mxOp (l : Launch) (b : SecData) : MxOp :=
  { tile := fld b 4 2, abm := fld b 6 1 == 1, bbm := fld b 7 1 == 1, fa := l.fslot (fld b 8 3), fb := l.fslot (fld b 11 3),
    k := fld b 64 32, m := fld b 96 8, n := fld b 104 8, sb0 := fld b 112 5, aaddr := fld b 160 32, baddr := fld b 192 32,
    abmaddr := fld b 224 32, bbmaddr := fld b 256 32 }

/-- Length in k of a scale block, the one that the scaled slots share; 1 where none is scaled. -/
def MxOp.sblk (o : MxOp) : Nat := if slotKind o.fa ≠ 0 then slotBlk o.fa else if slotKind o.fb ≠ 0 then slotBlk o.fb else 1

/-- The scale blocks of a scaled slot lie in scale memory (R250). -/
def blocksOk (o : MxOp) (f : BitVec 128) : Bool :=
  slotKind f == 0 || o.sb0 + (o.k - 1) / (max 1 (slotBlk f)) ≤ lastBlock (slotKind f)

/-- The checks of R250 on the block of an MXISS. -/
def mxOk (l : Launch) (b : SecData) : Bool :=
  let o := mxOp l b
  fld b 0 4 == 1 && fld b 288 224 == 0 && fld b 117 43 == 0 && fld b 21 11 == 0 && fld b 18 3 ≤ 3 &&
  o.tile < l.ntiles && (slotIn l (fld b 8 3)).isSome && (slotIn l (fld b 11 3)).isSome &&
  operandFmt (slotFmt o.fa) && operandFmt (slotFmt o.fb) &&
  1 ≤ o.m && o.m ≤ 128 && 1 ≤ o.n && o.n ≤ 128 && 0 < o.k && o.k % 4 == 0 && o.k ≤ 65536 &&
  o.aaddr % 16 == 0 && o.baddr % 16 == 0 && (!o.abm || o.abmaddr % 16 == 0) && (!o.bbm || o.bbmaddr % 16 == 0) &&
  (slotKind o.fa == 0 || slotKind o.fb == 0 || slotBlk o.fa == slotBlk o.fb) && blocksOk o o.fa && blocksOk o o.fb

/-! ## Operands -/

/-- The value of row i in a plane-stack record, with the planes below P (R235, R236). -/
def planeValue (fmt planes rec i : Nat) : Val :=
  let bit (off j : Nat) : Nat := bitsOf rec (8 * (off + 16 * j) + i) 1
  match fmtOfCode fmt with
  | some _ =>
    let neg := bit 0 0 == 1
    let x := bitsOf rec (8 * (16 + i)) 8
    let sig := (List.range planes).foldl (fun v j => 2 * v + bit 144 j) 0
    if x = 255 then (if sig = 0 then .inf neg else .nan) else scaled neg sig ((x : Int) - 127 - (planes - 1 : Nat))
  | none =>
    let w := planeWidth fmt
    let signed := ((intOfCode fmt).map (·.1)).getD false
    let mag := (List.range planes).foldl (fun v j => v + bit 0 j * 2 ^ (w - 1 - j)) 0
    Val.ofInt (if signed then sextNat mag w else (mag : Int))

/-- Some bit of row i of a record is set in a mask of its bytes. -/
def planeBad (fmt planes mask i : Nat) : Bool :=
  let bit (off j : Nat) : Bool := bitsOf mask (8 * (off + 16 * j) + i) 1 == 1
  match fmtOfCode fmt with
  | some _ => bit 0 0 || bitsOf mask (8 * (16 + i)) 8 != 0 || (List.range planes).any (bit 144)
  | none => (List.range planes).any (bit 0)

/-- A scale's value (R143). -/
def scaleVal (kind raw : Nat) : Val :=
  if kind = 1 then (if raw % 256 = 255 then .nan else scaled false 1 ((raw % 256 : Nat) - 127)) else BF16.value raw

/-- Offset in scale memory of the scale of a row (half 0) or column (half 1) in a block (R239). -/
def scaleOff (kind half blk i : Nat) : Nat := 4096 * half + scaleSize kind * (blk * 128 + i)

/-- The scale that a slot contributes, and whether it is poisoned. -/
def scaleOf (t : Tile) (f : BitVec 128) (half blk i : Nat) : Val × Bool :=
  if slotKind f = 0 then (.fin false 1 1, false)
  else
    let o := scaleOff (slotKind f) half blk i
    let n := scaleSize (slotKind f)
    (scaleVal (slotKind f) (ofLe ((List.range n).map fun j => kvGetD 0 t.scales (o + j))),
     t.scalePoison.any fun e => o ≤ e && e < o + n)

/-- Bytes that stand in scratchpad, and the mask of the poisoned ones, as numbers. -/
def peekRange (s : State) (t : Team) (va n : Nat) : Nat × Nat :=
  let bs := (List.range n).map fun i => (peekSpad s t (va + i)).getD (0, false)
  (ofLe (bs.map (·.1)), ofLe (bs.map fun b => if b.2 then 255 else 0))

/-- What the array has read for one k: A and B records and the two bitmaps, each with its poison mask. -/
structure MxK where
  k : Nat
  a : Nat × Nat
  b : Nat × Nat
  am : Nat × Nat
  bm : Nat × Nat
deriving DecidableEq, Repr

/-- Row i is present in the A bitmap, column j in the B bitmap (R241). -/
def MxK.rowOn (x : MxK) (i : Nat) : Bool := bitsOf x.am.1 i 1 == 1
def MxK.colOn (x : MxK) (j : Nat) : Bool := bitsOf x.bm.1 j 1 == 1

/-- The bitmaps at k: all ones where none is in use. -/
def readMaps (s : State) (t : Team) (o : MxOp) (k : Nat) : MxK :=
  { k := k, a := (0, 0), b := (0, 0), am := if o.abm then peekRange s t (o.abmaddr + 16 * k) 16 else (2 ^ 128 - 1, 0),
    bm := if o.bbm then peekRange s t (o.bbmaddr + 16 * k) 16 else (2 ^ 128 - 1, 0) }

/-- k is active for a row-group (R242). -/
def activeFor (o : MxOp) (x : MxK) (g : Nat) : Bool :=
  8 * g < o.m && bitsOf x.am.1 (8 * g) (min 8 (o.m - 8 * g)) != 0 && bitsOf x.bm.1 0 o.n != 0

/-- Where the records of k stand: what the array reads of A, and B. -/
def aRange (o : MxOp) (k : Nat) : Nat × Nat :=
  (o.aaddr + recBytes (slotFmt o.fa) (planeWidth (slotFmt o.fa)) * k, recBytes (slotFmt o.fa) (slotPlanes o.fa))
def bRange (o : MxOp) (k : Nat) : Nat × Nat := let n := 16 * fmtWidth (slotFmt o.fb); (o.baddr + n * k, n)

/-- Reads the records of an active k. -/
def readRecs (s : State) (t : Team) (o : MxOp) (x : MxK) : MxK :=
  let a := aRange o x.k
  let b := bRange o x.k
  { x with a := peekRange s t a.1 a.2, b := peekRange s t b.1 b.2 }

/-! ## Cursors (R243) -/

/-- The first k of the row-group's next chunk from a chunk on that holds an active k. A bitmap that cannot be read counts as full:
the array has yet to find its address wrong; and one with an error does, since its chunk must be read (R254). -/
def nextActive (s : State) (t : Team) (o : MxOp) (g c : Nat) : Nat :=
  let seen (k : Nat) : Bool :=
    let readable (va : Nat) : Bool := (List.range 16).all fun i => (peekSpad s t (va + i)).isSome
    if (o.abm && !readable (o.abmaddr + 16 * k)) || (o.bbm && !readable (o.bbmaddr + 16 * k)) then 8 * g < o.m
    else
      let x := readMaps s t o k
      if x.am.2 != 0 || x.bm.2 != 0 then 8 * g < o.m else activeFor o x g
  match ((List.range (o.k / 4)).drop c).find? (fun c => (List.range 4).any fun j => seen (4 * c + j)) with
  | some c => 4 * c
  | none => o.k

/-- Row-group g has yet to add chunk c. -/
def pending (cs : Kv Nat) (g c : Nat) : Bool := kvGetD 0 cs g ≤ 4 * c

/-- The cursors when every chunk below c that a row-group had left is added. -/
def cursorsAt (s : State) (t : Team) (o : MxOp) (cs : Kv Nat) (c : Nat) : Kv Nat :=
  (List.range 16).foldl (fun m g =>
    let v := kvGetD 0 cs g
    kvSet 0 m g (if 4 * c < v then v else nextActive s t o g c)) []

/-- Writes the cursors of the tile. -/
def setCursors (s : State) (tk : Nat) (o : MxOp) (cs : Kv Nat) (c : Nat) : State :=
  match s.team tk with
  | none => s
  | some t => updTile s tk o.tile fun x => { x with cursors := cursorsAt s t o cs c }

/-! ## A chunk (R238) -/

/-- The k's of a chunk at which element (i, j) is active. -/
def activeKs (xs : List MxK) (i j : Nat) : List MxK := xs.filter fun x => x.rowOn i && x.colOn j

/-- The scaled sum of a chunk for an element. -/
def chunkSum (o : MxOp) (t : Tile) (xs : List MxK) (blk i j : Nat) : Val :=
  let w := fmtWidth (slotFmt o.fb)
  let s := exactSum (xs.map fun x =>
    (planeValue (slotFmt o.fa) (slotPlanes o.fa) x.a.1 i).mul (fmtValue (slotFmt o.fb) (elem w j x.b.1)))
  (s.mul (scaleOf t o.fa 0 blk i).1).mul (scaleOf t o.fb 1 blk j).1

/-- An element after a chunk: unchanged when the scaled sum is an exact zero. -/
def addChunk (old : Word) (v : Val) : Word :=
  if v.isZero then old else BitVec.ofNat 32 (F32.round .rne ((F32.value old.toNat).add false v))

/-- Poison reaches row i, in every column below N: a bit of the row, or its scale, is poisoned (R254). -/
def rowBad (o : MxOp) (t : Tile) (xs : List MxK) (blk i : Nat) : Bool :=
  let row := xs.filter fun x => x.rowOn i && bitsOf x.bm.1 0 o.n != 0
  row.any (fun x => planeBad (slotFmt o.fa) (slotPlanes o.fa) x.a.2 i) || (!row.isEmpty && (scaleOf t o.fa 0 blk i).2)

/-- Poison reaches column j, in every row below M: an element of the column, or its scale, is poisoned (R254). -/
def colBad (o : MxOp) (t : Tile) (xs : List MxK) (blk j : Nat) : Bool :=
  let w := fmtWidth (slotFmt o.fb)
  let col := xs.filter fun x => x.colOn j && bitsOf x.am.1 0 o.m != 0
  col.any (fun x => elem w j x.b.2 != 0) || (!col.isEmpty && (scaleOf t o.fb 1 blk j).2)

/-- The elements below M and N of the row-groups that add the chunk. -/
def chunkElems (o : MxOp) (cs : Kv Nat) (c : Nat) : List (Nat × Nat) :=
  (((List.range o.m).filter fun i => pending cs (i / 8) c).map fun i => (List.range o.n).map fun j => (i, j)).flatten

/-- Adds a chunk to a tile; `allBad`: a bitmap that was read for it is poisoned, and so is every element of the tile
(R254). -/
def tileChunk (o : MxOp) (cs : Kv Nat) (c : Nat) (allBad : Bool) (xs : List MxK) (t : Tile) : Tile :=
  let blk := o.sb0 + 4 * c / o.sblk
  let es := chunkElems o cs c
  let rows := (List.range o.m).filter fun i => pending cs (i / 8) c && rowBad o t xs blk i
  let cols := (List.range o.n).filter (colBad o t xs blk)
  let bad := (rows.flatMap fun i => (List.range o.n).map (128 * i + ·)) ++ cols.flatMap fun j => (List.range o.m).map (128 * · + j)
  { t with
    elems := es.foldl (fun m e =>
      match activeKs xs e.1 e.2 with
      | [] => m
      | ks => kvSet 0 m (128 * e.1 + e.2) (addChunk (kvGetD 0 m (128 * e.1 + e.2)) (chunkSum o t ks blk e.1 e.2))) t.elems,
    poison := if allBad then List.range 16384 else bad.foldl natAdd t.poison }

/-- An element that the chunk updates stands poisoned after it, or a column that it poisons. -/
def chunkPoisons (o : MxOp) (cs : Kv Nat) (c : Nat) (xs : List MxK) (t : Tile) : Bool :=
  (chunkElems o cs c).any (fun e => t.poison.contains (128 * e.1 + e.2) && !(activeKs xs e.1 e.2).isEmpty) ||
  (List.range o.n).any (colBad o t xs (o.sb0 + 4 * c / o.sblk))

/-- The scratchpad address that a record of poisoned output names: the poisoned bitmap word (R254). -/
def poisonAddr (o : MxOp) (xs : List MxK) : Option Nat :=
  let word (base k mask : Nat) : Nat := base + 16 * k + 4 * (((List.range 4).find? fun i => bitsOf mask (32 * i) 32 != 0).getD 0)
  match xs.find? (fun x => x.am.2 != 0) with
  | some x => some (word o.abmaddr x.k x.am.2)
  | none =>
    (xs.find? fun x => x.bm.2 != 0).map fun x => word o.bbmaddr x.k x.bm.2

/-- What a record of poisoned output gives as the address of a byte of scratchpad: in a stash window the die-physical address
of its home, else the scratchpad address (R288; log 90). -/
def spadAddr (s : State) (tk va : Nat) : Nat :=
  match s.team tk with
  | none => 0
  | some t =>
    match spadResolve s t (va % 2 ^ 32) 1 false true with
    | .ok (.stash w idx off) =>
      let l := s.launch t.launch
      let home := match stashAt t w idx with
        | some x => some (64 * x.key + off)
        | none => l.bind fun l => keyOf s (dieOf t.core) l.actx (winGva s t w + 64 * idx + off)
      (home.map dieAddr).getD va
    | _ => va

/-- The first byte of the poisoned A and B records of a chunk; 0 where only a scale or an accumulator is poisoned, which has no
address (R288; log 90). -/
def operandAddr (s : State) (tk : Nat) (o : MxOp) (xs : List MxK) : Nat :=
  let first (r : Nat × Nat) (mask : Nat) : Option Nat :=
    ((List.range r.2).find? fun i => bitsOf mask (8 * i) 8 != 0).map fun i => spadAddr s tk (r.1 + i)
  ((xs.findSome? fun x => (first (aRange o x.k) x.a.2).or (first (bRange o x.k) x.b.2))).getD 0

/-- The first poisoned byte that a row of a drain writes, in its data or its scale (R288; log 90). -/
def rowAddr (s : State) (tk : Nat) (p : BitVec 128 × Nat × Nat) (w : List (Byte × Bool) × List (Byte × Bool)) : Nat :=
  match w.1.findIdx? (·.2) with
  | some i => spadAddr s tk (p.2.1 + i)
  | none => spadAddr s tk (p.2.2 + (w.2.findIdx? (·.2)).getD 0)

/-- The first poison of a command's output writes a record (R254). -/
def notePoison (s : State) (tk addr : Nat) : State :=
  match s.team tk with
  | none => s
  | some t =>
    match t.mx with
    | none => s
    | some r =>
      if r.poisoned then s
      else report (updRun s tk false fun r => { r with poisoned := true }) (dieOf t.core)
        (engRec s t 2 (fld r.cmd.blk 4 2) 0x25 0 7 15 addr)

/-- Adds one chunk for every row-group that has it left; what stopped it otherwise. -/
def runChunk (s : State) (tk : Nat) (o : MxOp) (cs : Kv Nat) (c : Nat) : State × Touch :=
  let ks := (List.range 4).map (4 * c + ·)
  let maps := (if o.abm then ks.map fun k => (o.abmaddr + 16 * k, 16) else []) ++
    (if o.bbm then ks.map fun k => (o.bbmaddr + 16 * k, 16) else [])
  let r := touchAll s tk maps false
  match r.2, r.1.team tk with
  | .ok, some t =>
    let seen := ks.map (readMaps r.1 t o)
    let bad := poisonAddr o seen
    let xs := seen.filter fun x =>
      (List.range 16).any fun g => pending cs g c && activeFor o x g
    let recs := (xs.map fun x => [aRange o x.k, bRange o x.k]).flatten
    let r := touchAll r.1 tk recs false
    match r.2, r.1.team tk with
    | .ok, some t =>
      let xs := xs.map (readRecs r.1 t o)
      let s := updTile r.1 tk o.tile (tileChunk o cs c bad.isSome xs)
      let poisons := ((s.team tk).map fun t => chunkPoisons o cs c xs (t.tile o.tile)).getD false
      (if poisons || bad.isSome then notePoison s tk (bad.getD (operandAddr s tk o xs)) else s, .ok)
    | w, _ => (r.1, w)
  | w, _ => (r.1, w)

/-- The first chunk that some row-group has yet to add. -/
def chunkNext (o : MxOp) (cs : Kv Nat) : Option Nat :=
  (List.range (o.k / 4)).find? fun c => (List.range 16).any fun g => pending cs g c

/-- The cursors of a tile of a team. -/
def cursorsOf (s : State) (tk tile : Nat) : Kv Nat := ((s.team tk).map fun t => (t.tile tile).cursors).getD []

/-- Adds the next chunk of an operation, in ascending k, and ends the operation when no chunk is left. Between two chunks it
can be stopped; it stops at a chunk boundary on a bad address or on a fault (R253). -/
def stepChunk (s : State) (tk : Nat) (o : MxOp) : State :=
  let cs := cursorsOf s tk o.tile
  match chunkNext o cs with
  | none => endRun s tk false 0
  | some c =>
    let r := runChunk s tk o cs c
    match r.2 with
    | .ok =>
      let s := setCursors r.1 tk o cs (c + 1)
      if (chunkNext o (cursorsOf s tk o.tile)).isSome then s else endRun s tk false 0
    | w => haltRun (setCursors r.1 tk o cs c) tk false w

/-! ## Drains (R251, R252) -/

/-- The MXDRN parameter block. -/
structure DrOp where
  tile : Nat
  trn : Bool
  clr : Bool
  fo : BitVec 128
  ft : BitVec 128
  m : Nat
  n : Nat
  odata : Nat
  oscale : Nat
  tdata : Nat
  tscale : Nat
  ostride : Nat
  tstride : Nat
deriving DecidableEq, Repr

/-- The fields of a block. -/
def drOp (l : Launch) (b : SecData) : DrOp :=
  { tile := fld b 4 2, trn := fld b 6 1 == 1, clr := fld b 7 1 == 1, fo := l.fslot (fld b 8 3), ft := l.fslot (fld b 11 3),
    m := fld b 64 8, n := fld b 72 8, odata := fld b 96 32, oscale := fld b 128 32, tdata := fld b 160 32,
    tscale := fld b 192 32, ostride := fld b 224 16, tstride := fld b 240 16 }

/-- A slot that a drain writes: its format, and a row of whole words; a scale address aligned to its scale. -/
def drSlotOk (l : Launch) (i n scaleAddr : Nat) (f32 : Bool) : Bool :=
  match slotIn l i with
  | none => false
  | some f =>
    (operandFmt (slotFmt f) || (f32 && slotFmt f == 1 && slotKind f == 0)) && n * fmtWidth (slotFmt f) % 32 == 0 &&
    (slotKind f == 0 || scaleAddr % scaleSize (slotKind f) == 0)

/-- The checks of R250 and R251 on the block of an MXDRN. -/
def drOk (l : Launch) (b : SecData) : Bool :=
  let o := drOp l b
  fld b 0 4 == 2 && fld b 256 256 == 0 && fld b 80 16 == 0 && fld b 21 11 == 0 && fld b 18 3 ≤ 3 && o.tile < l.ntiles &&
  1 ≤ o.m && o.m ≤ 128 && 1 ≤ o.n && o.n ≤ 128 && o.odata % 16 == 0 && o.ostride % 16 == 0 &&
  drSlotOk l (fld b 8 3) o.n o.oscale true &&
  (!o.trn || (o.tdata % 16 == 0 && o.tstride % 16 == 0 && drSlotOk l (fld b 11 3) o.m o.tscale false))

/-- The largest value of a slot's format (R252). -/
def fmaxOf (fmt : Nat) : Nat × Nat :=
  match fmtOfCode fmt with
  | some F => match F.value F.top with
    | .fin _ n d => (n, d)
    | _ => (1, 1)
  | none => match intOfCode fmt with
    | some (sg, w) => (if sg then 2 ^ (w - 1) - 1 else 2 ^ w - 1, 1)
    | none => (1, 1)

/-- The larger of two magnitudes. -/
def absMax (a : Nat × Nat) (v : Val) : Nat × Nat :=
  match v with
  | .fin _ n d => if a.1 * d < n * a.2 then (n, d) else a
  | _ => a

/-- The scale of a row (R252): its bits, and its value as a quotient. -/
def rowScale (f : BitVec 128) (vs : List Val) : Nat × (Nat × Nat) :=
  let a := vs.foldl absMax (0, 1)
  let fm := fmaxOf (slotFmt f)
  let n := a.1 * fm.2
  let d := a.2 * fm.1
  match slotKind f with
  | 1 =>
    if a.1 = 0 then (127, (1, 1))
    else
      let k := ilog n d
      let exact := if k < 0 then n * 2 ^ (-k).toNat == d else n == d * 2 ^ k.toNat
      let e := (min 254 (max 0 ((if exact then k else k + 1) + 127))).toNat
      (e, match scaled false 1 ((e : Int) - 127) with
        | .fin _ n d => (n, d)
        | _ => (1, 1))
  | 2 =>
    let raw := if a.1 = 0 then 0x3F80 else BF16.round .rup (.fin false n d)
    (raw, match BF16.value raw with
      | .fin _ n d => (n, d)
      | _ => (1, 1))
  | _ => (0, (1, 1))

/-- The exact quotient by a positive scale. -/
def divVal (v : Val) (q : Nat × Nat) : Val :=
  match v with
  | .fin s n d => .fin s (n * q.2) (d * q.1)
  | v => v

/-- Bits packed into bytes from elements of a width, with the poison of each byte. -/
def packBytes (w : Nat) (es : List (Nat × Bool)) : List (Byte × Bool) :=
  let v := es.foldr (fun e acc => e.1 % 2 ^ w + 2 ^ w * acc) 0
  let p := es.foldr (fun e acc => (if e.2 then 2 ^ w - 1 else 0) + 2 ^ w * acc) 0
  let n := es.length * w / 8
  (leBytes n v).zip ((leBytes n p).map (· != 0))

/-- One row of a drain: the bytes of its data, those of its scale, and whether any is poisoned. -/
def drainRow (f : BitVec 128) (es : List (Word × Bool)) : List (Byte × Bool) × List (Byte × Bool) :=
  if slotFmt f = 1 then (packBytes 32 (es.map fun e => (e.1.toNat, e.2)), [])
  else
    let vs := es.map fun e => F32.value e.1.toNat
    let sc := rowScale f vs
    let scaledRow := slotKind f != 0
    let rowBad := scaledRow && es.any (·.2)
    (packBytes (fmtWidth (slotFmt f)) (es.map fun e =>
        (convertTo f (divVal (F32.value e.1.toNat) sc.2), e.2 || rowBad)),
     if scaledRow then (leBytes (scaleSize (slotKind f)) sc.1).map fun b => (b, rowBad) else [])

/-- The elements of row r of the sequence of R252. -/
def drainElems (o : DrOp) (t : Tile) (r : Nat) : List (Word × Bool) :=
  let el (i j : Nat) : Word × Bool := (kvGetD 0 t.elems (128 * i + j), t.poison.contains (128 * i + j))
  if r < o.m then (List.range o.n).map (el r) else (List.range o.m).map fun i => el i (r - o.m)

/-- Slot, data address and scale address of row r. -/
def drainPlace (o : DrOp) (r : Nat) : BitVec 128 × Nat × Nat :=
  if r < o.m then (o.fo, o.odata + r * o.ostride, o.oscale + scaleSize (slotKind o.fo) * r)
  else (o.ft, o.tdata + (r - o.m) * o.tstride, o.tscale + scaleSize (slotKind o.ft) * (r - o.m))

/-- Writes one row and its scale, or nothing of it. -/
def runRow (s : State) (tk : Nat) (o : DrOp) (r : Nat) : State × Touch :=
  match s.team tk with
  | none => (s, .stop)
  | some t =>
    let p := drainPlace o r
    let w := drainRow p.1 (drainElems o (t.tile o.tile) r)
    let x := touchAll s tk [(p.2.1, w.1.length), (p.2.2, w.2.length)] true
    match x.2 with
    | .ok =>
      let y := writeSpad x.1 tk p.2.1 w.1
      match y.2 with
      | .ok =>
        let z := writeSpad y.1 tk p.2.2 w.2
        (match z.2 with
          | .ok => (if (w.1 ++ w.2).any (·.2) then notePoison z.1 tk (rowAddr z.1 tk p w) else z.1, .ok)
          | e => (x.1, e))
      | e => (x.1, e)
    | e => (x.1, e)

/-- The drained elements read +0.0 (R252). -/
def clearDrained (o : DrOp) (t : Tile) : Tile :=
  let inside (e : Nat) : Bool := e / 128 < o.m && e % 128 < o.n
  { t with elems := t.elems.filter fun e => !inside e.1, poison := t.poison.filter fun e => !inside e }

/-- Rows in the sequence of a drain (R252). -/
def DrOp.rows (o : DrOp) : Nat := o.m + if o.trn then o.n else 0

/-- The drain has written a row, and ends with the last one (R252). -/
def rowDone (s : State) (tk : Nat) (o : DrOp) (r : Nat) : State :=
  let s := updRun s tk false fun u => { u with row := r + 1 }
  if r + 1 < o.rows then s else endRun (if o.clr then updTile s tk o.tile (clearDrained o) else s) tk false 0

/-- Writes the next row of a drain. Between two rows it can be stopped; it stops at a row boundary on a bad address or on a
fault (R253). -/
def stepRow (s : State) (tk : Nat) (o : DrOp) : State :=
  let r := (((s.team tk).bind (·.mx)).map (·.row)).getD 0
  let x := runRow s tk o r
  match x.2 with
  | .ok => rowDone x.1 tk o r
  | w => haltRun x.1 tk false w

/-! ## The events -/

/-- Starts a command: true when its checks hold. A command that fails them is done with status 1, and a bend that fails
is reported (R248, R250). -/
def startOk (s : State) (tk : Nat) (cp : Bool) (b : SecData) (ok : Bool) : State × Bool :=
  match s.team tk with
  | none => (s, false)
  | some t =>
    let bend := engBendOk s t cp b
    let s := if bend then s else reportBend (dropBen s tk cp) t cp b
    if ok && bend then (s, true) else (endRun s tk cp 1, false)

/-- MATRIX_OPERATION: the plane array takes the next command if an MXISS pushed it, or goes on with it, and adds one chunk. -/
def execMatrixOperation (core : Nat) (s : State) : Host.Outcome State Fault Refusal :=
  .next (match engNext s core false with
    | none => s
    | some (tk, t) =>
      match s.launch t.launch with
      | none => s
      | some l =>
        let c := nextCmd t false
        if c.by_ ≠ 1 then s
        else
          let o := mxOp l c.blk
          let r := takeCmd s tk t false
          settle (
            if r.2 then
              let x := startOk r.1 tk false c.blk (mxOk l c.blk)
              if x.2 then stepChunk (setCursors x.1 tk o [] 0) tk o else x.1
            else stepChunk r.1 tk o))

/-- TILE_DRAIN: the plane array takes the next command if an MXDRN pushed it, or goes on with it, and writes one row. -/
def execTileDrain (core : Nat) (s : State) : Host.Outcome State Fault Refusal :=
  .next (match engNext s core false with
    | none => s
    | some (tk, t) =>
      match s.launch t.launch with
      | none => s
      | some l =>
        let c := nextCmd t false
        if c.by_ ≠ 2 then s
        else
          let o := drOp l c.blk
          let r := takeCmd s tk t false
          settle (
            if r.2 then
              let x := startOk r.1 tk false c.blk (drOk l c.blk)
              if x.2 then stepRow x.1 tk o else x.1
            else stepRow r.1 tk o))

end Sys2Proof.Machine
end

