-- ==== Sys2Proof/Machine/Copy.lean ====
section
/-! DEFINITION. The copy engine: linear and strided copies, the plane transpose, scale placement (spec 10 R255-R257, R259). -/
namespace Sys2Proof.Machine

/-! ## The parameter block (R255, R256) -/

/-- The CPISS parameter block. -/
structure CpOp where
  kind : Nat
  sg : Bool
  dg : Bool
  slot : Nat
  tile : Nat
  half : Nat
  src : Nat
  dst : Nat
  len : Nat
  rows : Nat
  gtag : Nat
  sstride : Nat
  dstride : Nat
  sb : Nat
  srcb : Nat
  mask : BitVec 128
deriving DecidableEq, Repr

/-- The fields of a block. -/
def cpOp (b : SecData) : CpOp :=
  { kind := fld b 0 4, sg := fld b 4 1 == 1, dg := fld b 5 1 == 1, slot := fld b 13 3, tile := fld b 16 2, half := fld b 18 1,
    src := fld b 64 64, dst := fld b 128 64, len := fld b 192 32, rows := fld b 224 16, gtag := fld b 240 16,
    sstride := fld b 256 32, dstride := fld b 288 32, sb := fld b 320 5, srcb := fld b 328 8,
    mask := BitVec.ofNat 128 (fld b 384 128) }

/-- A place field: a canonical global range, or a scratchpad address with its upper half zero (R255). -/
def placeOk (glob : Bool) (a last : Nat) : Bool :=
  if glob then canonical a && canonical ((a + last) % 2 ^ 64) else a < 2 ^ 32

/-- Offset of the last byte of n rows of len bytes. -/
def lastByte (stride rows len : Nat) : Nat := (rows - 1) * stride + (len - 1)

/-- The slot of kinds 3 and 4. -/
def CpOp.fmt (o : CpOp) (l : Launch) : BitVec 128 := l.fslot o.slot

/-- The checks of R256. `core`: the issuing core on its die. -/
def cpOk (l : Launch) (core : Nat) (b : SecData) : Bool :=
  let o := cpOp b
  let noScale := o.half == 0 && o.tile == 0 && o.sb == 0 && o.srcb == 0
  let noCast := o.gtag == 0 && o.mask == 0
  fld b 336 48 == 0 && fld b 325 3 == 0 && fld b 19 13 == 0 && fld b 10 3 ≤ 3 &&
  (match o.kind with
    | 1 =>
      noScale && noCast && o.slot == 0 && o.rows == 0 && o.sstride == 0 && o.dstride == 0 && o.len != 0 &&
      placeOk o.sg o.src (o.len - 1) && placeOk o.dg o.dst (o.len - 1)
    | 2 =>
      noScale && noCast && o.slot == 0 && o.rows != 0 && o.len != 0 && placeOk o.sg o.src (lastByte o.sstride o.rows o.len) &&
      placeOk o.dg o.dst (lastByte o.dstride o.rows o.len)
    | 3 =>
      noScale && noCast && o.dstride == 0 && !o.dg && 1 ≤ o.rows && o.rows ≤ 128 && o.len != 0 && o.len % 4 == 0 &&
      o.len ≤ 65536 && (slotIn l o.slot).isSome && operandFmt (slotFmt (o.fmt l)) && o.sstride % 4 == 0 && placeOk false o.dst 0 &&
      placeOk o.sg o.src (lastByte o.sstride o.rows (o.len * fmtWidth (slotFmt (o.fmt l)) / 8))
    | 4 =>
      noCast && !o.sg && !o.dg && o.src == 0 && o.dst == 0 && o.rows == 0 && o.sstride == 0 && o.dstride == 0 &&
      (slotIn l o.slot).isSome && slotKind (o.fmt l) != 0 && o.tile < l.ntiles &&
      o.sb + o.len ≤ lastBlock (slotKind (o.fmt l)) + 1
    | 5 =>
      noScale && o.slot == 0 && o.rows == 0 && o.sstride == 0 && o.dstride == 0 && o.sg && !o.dg && o.src % 256 == 0 &&
      o.len != 0 && o.len % 256 == 0 && o.mask.toNat / 2 ^ core % 2 == 1 && placeOk true o.src (o.len - 1) &&
      placeOk false o.dst 0
    | _ => false)

/-! ## Sources and destinations -/

/-- Reads n bytes of a source, with their poison. -/
def readSrc (s : State) (tk : Nat) (glob : Bool) (va n : Nat) : State × Except Touch (List (Byte × Bool)) :=
  if glob then readGlobal s tk (va % 2 ^ 64) n
  else
    let r := touchSpad s tk va n false
    match r.2, r.1.team tk with
    | .ok, some t => (r.1, .ok ((List.range n).map fun i => (peekSpad r.1 t (va + i)).getD (0, false)))
    | .ok, none => (r.1, .error .stop)
    | w, _ => (r.1, .error w)

/-- Writes bytes at a destination. -/
def writeDst (s : State) (tk : Nat) (glob : Bool) (va : Nat) (bs : List (Byte × Bool)) : State × Touch :=
  if glob then writeGlobal s tk (va % 2 ^ 64) bs
  else
    let r := touchSpad s tk va bs.length true
    match r.2 with
    | .ok => writeSpad r.1 tk va bs
    | w => (r.1, w)

/-- Reads several ranges, joined. -/
def readMany (s : State) (tk : Nat) (glob : Bool) (rs : List (Nat × Nat)) : State × Except Touch (List (Byte × Bool)) :=
  rs.foldl (fun r x => match r.2 with
    | .error _ => r
    | .ok bs =>
      let y := readSrc r.1 tk glob x.1 x.2
      (y.1, match y.2 with
        | .ok cs => .ok (bs ++ cs)
        | .error w => .error w)) (s, .ok [])

/-- Writes several ranges from one list of bytes. -/
def writeMany (s : State) (tk : Nat) (glob : Bool) (rs : List (Nat × Nat)) (bs : List (Byte × Bool)) : State × Touch :=
  let r := rs.foldl (fun r x => match r.2.2 with
    | .ok =>
      let y := writeDst r.1 tk glob x.1 (r.2.1.take x.2)
      (y.1, r.2.1.drop x.2, y.2)
    | _ => r) (s, bs, Touch.ok)
  (r.1, r.2.2)

/-- Stored bytes, or what stopped them; a piece that stops is written again from its start (R259). -/
def storePiece (s : State) (tk : Nat) (glob : Bool) (rs : List (Nat × Nat)) (bs : List (Byte × Bool)) : State × Touch :=
  let w := writeMany s tk glob rs bs
  match w.2 with
  | .ok => (if bs.any (·.2) then updRun w.1 tk true fun r => { r with poisoned := true } else w.1, .ok)
  | e => ({ s with blocked := w.1.blocked }, e)

/-! ## Pieces of 256 bytes (R259) -/

/-- The rows of `len` bytes that bytes x to x + n − 1 of a copy touch: row, first byte in it, and how many. -/
def rowParts (len x n : Nat) : List (Nat × Nat × Nat) :=
  (List.range ((x + n - 1) / len - x / len + 1)).map fun i =>
    let r := x / len + i
    let lo := max x (r * len)
    (r, lo - r * len, min (x + n) ((r + 1) * len) - lo)

/-- Source and destination of kinds 1 and 2 reach into each other. -/
def CpOp.overlaps (o : CpOp) : Bool :=
  o.sg == o.dg && o.src ≤ o.dst + lastByte o.dstride o.rows o.len && o.dst ≤ o.src + lastByte o.sstride o.rows o.len

/-- Addresses of several ranges, joined. -/
def rangeAddrs (rs : List (Nat × Nat)) : List Nat := rs.flatMap fun x => (List.range x.2).map (x.1 + ·)

/-- Keeps what the bytes of a destination held before an overlapping copy writes them. -/
def noteOlds (o : CpOp) (s : State) (tk : Nat) (rs : List (Nat × Nat)) : State :=
  if o.overlaps then
    match (readMany s tk o.dg rs).2 with
    | .error _ => s
    | .ok bs => updRun s tk true fun r =>
      { r with olds := ((rangeAddrs rs).zip bs).foldl (fun k x => if (kvGet k x.1).isSome then k else kvPut k x.1 x.2) r.olds }
  else s

/-- A source byte that the copy has written itself: the device takes it, or what stood there before the copy (R256; log 3). -/
def mixOlds (o : CpOp) (s : State) (tk : Nat) (rs : List (Nat × Nat)) (bs : List (Byte × Bool)) : State × List (Byte × Bool) :=
  if o.overlaps then
    let olds := (((s.team tk).bind fun t => t.cp).map (·.olds)).getD []
    ((rangeAddrs rs).zip bs).foldl (fun r x =>
      match kvGet olds x.1 with
      | none => (r.1, r.2 ++ [x.2])
      | some b =>
        let c := r.1.choose
        (c.1, r.2 ++ [if c.2 then b else x.2])) (s, [])
  else (s, bs)

/-- Bytes of one piece that overlap each other: in one direction or the other, a source byte that this piece has just
written is taken as written, or as it stood before the piece; both are free (R256; log 3, 77). -/
def mixPiece (o : CpOp) (s : State) (src dst : List Nat) (bs : List (Byte × Bool)) : State × List (Byte × Bool) :=
  if o.overlaps then
    let d := s.choose
    let z := src.zip (dst.zip bs)
    let r := (if d.2 then z.reverse else z).foldl (fun (r : State × Kv (Byte × Bool) × List (Byte × Bool)) x =>
      let c : State × Byte × Bool := match kvGet r.2.1 x.1 with
        | none => (r.1, x.2.2)
        | some b =>
          let c := r.1.choose
          (c.1, if c.2 then b else x.2.2)
      (c.1, kvPut r.2.1 x.2.1 c.2, c.2 :: r.2.2)) (d.1, [], [])
    (r.1, if d.2 then r.2.2 else r.2.2.reverse)
  else (s, bs)

/-- A piece of kinds 1 and 2. -/
def rowPiece (o : CpOp) (s : State) (tk x n : Nat) : State × Touch :=
  let ps := rowParts o.len x n
  let src := ps.map fun p => (o.src + p.1 * o.sstride + p.2.1, p.2.2)
  let dst := ps.map fun p => (o.dst + p.1 * o.dstride + p.2.1, p.2.2)
  let r := readMany s tk o.sg src
  match r.2 with
  | .error w => (r.1, w)
  | .ok bs =>
    let y := mixOlds o r.1 tk src bs
    let m := mixPiece o y.1 (rangeAddrs src) (rangeAddrs dst) y.2
    storePiece (noteOlds o m.1 tk dst) tk o.dg dst m.2

/-- Sign bit, exponent byte and planes of an element as the plane transpose writes it (R235); plane 0 is the highest bit
of the third number, which has W bits. -/
def planeEnc (fmt e : Nat) : Nat × Nat × Nat :=
  match fmtOfCode fmt with
  | none => (0, 0, e % 2 ^ planeWidth fmt)
  | some F =>
    let s := e / F.signBit % 2
    let ex := e % F.signBit / 2 ^ F.f
    let fr := e % 2 ^ F.f
    match F.value e with
    | .nan => (s, 255, 2 ^ (F.f + 1) - 1)
    | .inf _ => (s, 255, 0)
    | .fin .. =>
      if ex = 0 then (s, if fr = 0 then 0 else 128 - F.bias, fr) else (s, ex + 127 - F.bias, 2 ^ F.f + fr)

/-- A 16-byte plane from the bits of the rows. -/
def planeBytes (bits : List (Bool × Bool)) : List (Byte × Bool) :=
  packBytes 1 ((List.range 128).map fun i => let b := bits.getD i (false, false); (if b.1 then 1 else 0, b.2))

/-- The record of one k from the elements of the rows, with their poison (R234). -/
def planeRec (fmt : Nat) (es : List (Nat × Bool)) : List (Byte × Bool) :=
  let w := planeWidth fmt
  let cs := es.map fun e => (planeEnc fmt e.1, e.2)
  let planes := ((List.range w).map fun j => planeBytes (cs.map fun c => (bitsOf c.1.2.2 (w - 1 - j) 1 == 1, c.2))).flatten
  match fmtOfCode fmt with
  | none => planes
  | some _ =>
    planeBytes (cs.map fun c => (c.1.1 == 1, c.2)) ++
    ((List.range 128).map fun i => let c := cs.getD i ((0, 0, 0), false); (BitVec.ofNat 8 c.1.2.1, c.2)) ++ planes

/-- Element k of packed bytes that start at bit `skip` (R144). -/
def packedElem (w skip k : Nat) (bs : List (Byte × Bool)) : Nat × Bool :=
  let lo := w * k + skip
  (bitsOf (ofLe (bs.map (·.1))) lo w, bitsOf (ofLe (bs.map fun b => if b.2 then 255 else 0)) lo w != 0)

/-- A piece of kind 3: the records that it meets are formed from the packed rows. -/
def planePiece (fmt : Nat) (o : CpOp) (s : State) (tk x n : Nat) : State × Touch :=
  let w := fmtWidth fmt
  let len := recBytes fmt (planeWidth fmt)
  let k0 := x / len
  let k1 := (x + n - 1) / len
  let b0 := w * k0 / 8
  let bn := (w * (k1 + 1) + 7) / 8 - b0
  let r := (List.range o.rows).foldl (fun r i => match r.2 with
    | .error _ => r
    | .ok rows =>
      let y := readSrc r.1 tk o.sg (o.src + i * o.sstride + b0) bn
      (y.1, match y.2 with
        | .ok bs => .ok (rows ++ [bs])
        | .error e => .error e)) ((s, .ok []) : State × Except Touch (List (List (Byte × Bool))))
  match r.2 with
  | .error e => (r.1, e)
  | .ok rows =>
    let recs := ((List.range (k1 + 1 - k0)).map fun j =>
      planeRec fmt (rows.map fun bs => packedElem w (w * k0 - 8 * b0) j bs)).flatten
    storePiece r.1 tk false [(o.dst + x, n)] ((recs.drop (x - len * k0)).take n)

/-- Moves the progress of a command on (R259). -/
def setDone (s : State) (tk n : Nat) : State :=
  (updRun s tk true fun r => { r with done := n }).updTeam tk fun t => { t with cpprog := n }

/-- Bytes of progress of a copy. -/
def copyDone (s : State) (tk : Nat) : Nat := (((s.team tk).bind (·.cp)).map (·.done)).getD 0

/-- Writes the next piece of a command, and ends it when no byte is left. Between two pieces it can be stopped; it stops at a
256-byte boundary on a bad address or on a fault (R259). -/
def stepPiece (piece : State → Nat → Nat → State × Touch) (s : State) (tk total : Nat) : State :=
  let x := copyDone s tk
  if total ≤ x then endRun s tk true 0
  else
    let n := min 256 (total - x)
    let r := piece s x n
    match r.2 with
    | .ok =>
      let s := setDone r.1 tk (x + n)
      if total ≤ x + n then endRun s tk true 0 else s
    | w => haltRun r.1 tk true w

/-! ## Scale placement (R257) -/

/-- The scale layout record: BASE, RSTRIDE, BSTRIDE, and whether its reserved field is zero. -/
structure ScaleLay where
  base : Nat
  rstride : Nat
  bstride : Nat
  ok : Bool
deriving DecidableEq, Repr

/-- The fields of a record. -/
def scaleLay (v : SecData) : ScaleLay := ⟨fld v 0 64, fld v 64 32, fld v 96 32, fld v 128 384 == 0⟩

/-- The layout of a scale placement: the record at its slot's SLAYOUT, read when its first piece needs it, and read again when a
saved command goes on (log 51). What poison of the record does is left open: its stored bits are used (R254, R257, R299; log 121). -/
def readLayout (s : State) (tk : Nat) (f : BitVec 128) : State × Except Touch ScaleLay :=
  match ((s.team tk).bind (·.cp)).bind (·.lay) with
  | some v => (s, .ok (scaleLay v))
  | none =>
    let r := readGlobal s tk (fld f 32 64) 64
    match r.2 with
    | .error e => (r.1, .error e)
    | .ok bs =>
      let v : SecData := BitVec.ofNat 512 (ofLe (bs.map (·.1)))
      (updRun r.1 tk true fun u => { u with lay := some v }, .ok (scaleLay v))

/-- Address of a scale. -/
def ScaleLay.at_ (y : ScaleLay) (o : CpOp) (b i : Nat) : Nat := y.base + i * y.rstride + (o.srcb + b) * y.bstride

/-- The reserved field is zero, and every scale address is aligned and canonical. -/
def ScaleLay.fits (y : ScaleLay) (o : CpOp) (size : Nat) : Bool :=
  y.ok && (List.range o.len).all fun b => (List.range 128).all fun i =>
    y.at_ o b i % size == 0 && canonical (y.at_ o b i % 2 ^ 64)

/-- A piece of kind 4: the scales of one or two blocks go to scale memory. -/
def scalePiece (y : ScaleLay) (kind : Nat) (o : CpOp) (s : State) (tk x n : Nat) : State × Touch :=
  let size := scaleSize kind
  let r := readMany s tk true ((List.range (n / size)).map fun j =>
    let e := x / size + j
    (y.at_ o (e / 128) (e % 128), size))
  match r.2 with
  | .error w => (r.1, w)
  | .ok bs =>
    let at_ (i : Nat) : Nat := scaleOff kind o.half o.sb 0 + x + i
    let cells := bs.mapIdx fun i b => (at_ i, b)
    let s := updTile r.1 tk o.tile fun t =>
      { t with
        scales := cells.foldl (fun m c => kvSet 0 m c.1 c.2.1) t.scales,
        scalePoison := cells.foldl (fun p c => if c.2.2 then natAdd p c.1 else p.filter (· != c.1)) t.scalePoison }
    (if bs.any (·.2) then updRun s tk true fun r => { r with poisoned := true } else s, .ok)

/-- Goes on with a scale placement: a wrong record makes the command malformed. -/
def runScales (s : State) (tk : Nat) (o : CpOp) (f : BitVec 128) : State :=
  if fld f 32 64 = 0 then endRun s tk true 1
  else
    let r := readLayout s tk f
    match r.2 with
    | .error w => haltRun r.1 tk true w
    | .ok y =>
      if !y.fits o (scaleSize (slotKind f)) then endRun r.1 tk true 1
      else stepPiece (fun s x n => scalePiece y (slotKind f) o s tk x n) r.1 tk (o.len * 128 * scaleSize (slotKind f))

/-! ## The events -/

/-- Goes on with a started command of kind 1 to 4. -/
def runCopy (s : State) (tk : Nat) (l : Launch) (o : CpOp) : State :=
  match o.kind with
  | 1 => stepPiece (fun s x n => rowPiece o s tk x n) s tk o.len
  | 2 => stepPiece (fun s x n => rowPiece o s tk x n) s tk (o.rows * o.len)
  | 3 =>
    let fmt := slotFmt (o.fmt l)
    stepPiece (fun s x n => planePiece fmt o s tk x n) s tk (o.len * recBytes fmt (planeWidth fmt))
  | 4 => runScales s tk o (o.fmt l)
  | _ => s

/-- Takes the copy engine's next command if its kind is one of the event's: checks a new one, and goes on with it. -/
def copyEvent (mine : Nat → Bool) (core : Nat) (s : State) (run : State → Nat → Launch → CpOp → State) : State :=
  match engNext s core true with
  | none => s
  | some (tk, t) =>
    match s.launch t.launch with
    | none => s
    | some l =>
      let b := (nextCmd t true).blk
      let o := cpOp b
      if !mine o.kind then s
      else
        let r := takeCmd s tk t true
        settle (
          if r.2 then
            let s := r.1.updTeam tk fun t => { t with cpprog := 0 }
            let x := startOk s tk true b (cpOk l (core % 128) b)
            if x.2 then run x.1 tk l o else x.1
          else run r.1 tk l o)

/-- COPY_LINEAR: kind 1, and the malformed kinds that have no effect of their own. -/
def execCopyLinear (core : Nat) (s : State) : Host.Outcome State Fault Refusal :=
  .next (copyEvent (fun k => k == 1 || k == 0 || 5 < k) core s runCopy)
def execCopyStrided (core : Nat) (s : State) : Host.Outcome State Fault Refusal := .next (copyEvent (· == 2) core s runCopy)
def execPlaneTranspose (core : Nat) (s : State) : Host.Outcome State Fault Refusal := .next (copyEvent (· == 3) core s runCopy)
def execScalePlacement (core : Nat) (s : State) : Host.Outcome State Fault Refusal := .next (copyEvent (· == 4) core s runCopy)

end Sys2Proof.Machine
end

