-- ==== Sys2Proof/Machine/Multicast.lean ====
section
/-! DEFINITION. Multicast reads: requests merged at a home slice and replicated responses (spec 10 R258). -/
namespace Sys2Proof.Machine

/-- Address of line i of a multicast read's source. -/
def mcVa (o : CpOp) (i : Nat) : Nat := (o.src + 256 * i) % 2 ^ 64

/-- Address of the line that a running multicast read asks for next. -/
def mcNextVa (r : Run) (o : CpOp) : Nat := mcVa o r.asks

/-- Counts the lines received beyond the progress into it. -/
def mcAbsorb (got : List Nat) (i : Nat) : (fuel : Nat) → Nat
  | 0 => i
  | n + 1 => if got.contains i then mcAbsorb got (i + 1) n else i

/-- A multicast read stops on a bad address or a fault: it goes on from its progress, so it asks for the lines from there on
again (R259). -/
def mcHalt (s : State) (tk : Nat) (w : Touch) : State :=
  haltRun (match w with
    | .fault .. => updRun s tk true fun r => { r with got := [], asks := r.done / 256 }
    | _ => s) tk true w

/-- The command ends when it has received all its lines and asked for each (R258, R401). -/
def mcEnd (s : State) (tk : Nat) (o : CpOp) : State :=
  match (s.team tk).bind (·.cp) with
  | none => s
  | some r => if o.len ≤ r.done ∧ o.len ≤ 256 * r.asks then endRun s tk true 0 else s

/-- The core has asked for its next line. -/
def mcAsk (s : State) (tk : Nat) : State := updRun s tk true fun r => { r with asks := r.asks + 1 }

/-- Writes a line to the destination of a command; none where it must be written later: what the destination needs is under way
(R174, R197, R317). -/
def mcWrite (s : State) (tk i : Nat) (o : CpOp) (bs : List (Byte × Bool)) : Option State :=
  let w := storePiece s tk false [(o.dst + 256 * i, 256)] bs
  match w.2 with
  | .ok =>
    let s := updRun w.1 tk true fun r => { r with got := natAdd r.got i }
    match (s.team tk).bind (·.cp) with
    | none => some s
    | some r =>
      let n := mcAbsorb r.got (r.done / 256) (o.len / 256)
      some (mcEnd (setDone (updRun s tk true fun r => { r with got := r.got.filter (n ≤ ·) }) tk (256 * n)) tk o)
  | .wait => if w.1.blocked.isEmpty then none else some w.1
  | e => some (mcHalt w.1 tk e)

/-- A core reads a line of its command on its own, as a linear copy of it. -/
def mcAlone (s : State) (tk i : Nat) (o : CpOp) : State :=
  let y := readGlobal s tk (mcVa o i) 256
  match y.2 with
  | .error e => mcHalt y.1 tk e
  | .ok bs => (mcWrite (mcAsk y.1 tk) tk i o bs).getD s

/-- Reads the next line as kind 1 reads it, if its home is not on the issuing die. -/
def mcFar (s : State) (tk : Nat) (l : Launch) (o : CpOp) : State :=
  match s.team tk with
  | none => s
  | some t =>
    match t.cp with
    | none => s
    | some r =>
      if o.len ≤ 256 * r.asks then s
      else
        let x := xlate s t.core l.actx (mcNextVa r o) .rd
        match x.2 with
        | .wait => x.1
        | .bad cause sub lvl => mcHalt x.1 tk (.fault cause sub lvl (mcNextVa r o) 0)
        | .ok tr => if homeDie tr.key = some (dieOf t.core) then x.1 else mcAlone x.1 tk r.asks o

/-- MULTICAST_READ: the copy engine starts a kind 5 command, and reads a line whose home is elsewhere. -/
def execMulticastRead (core : Nat) (s : State) : Host.Outcome State Fault Refusal :=
  .next (copyEvent (· == 5) core s mcFar)

/-- A team's multicast read that has started and is not parked. -/
def mcOf (s : State) (tk : Nat) (t : Team) : Option Run :=
  match t.cp with
  | none => none
  | some r => if fld r.cmd.blk 0 4 = 5 ∧ r.status = none ∧ !isParked s (dieOf t.core) (.copy tk) then some r else none

/-- The multicast read that a core's copy engine is at (R255). -/
def mcRun (s : State) (core : Nat) : Option (Nat × Team × Run) :=
  match engNext s core true with
  | none => none
  | some (tk, t) => (mcOf s tk t).map fun r => (tk, t, r)

/-- A merge, a response or a mark belongs to a key. -/
def Merge.is (m : Merge) (launch gtag : Nat) (mask : BitVec 128) : Bool := m.launch == launch && m.gtag == gtag && m.mask == mask
def McResp.is (m : McResp) (launch gtag : Nat) (mask : BitVec 128) : Bool :=
  m.launch == launch && m.gtag == gtag && m.mask == mask
def Missing.is (m : Missing) (launch gtag line : Nat) (mask : BitVec 128) (core : Nat) : Bool :=
  m.launch == launch && m.gtag == gtag && m.line == line && m.mask == mask && m.core == core

/-- The cores of a mask, on their die. -/
def maskCores (mask : BitVec 128) : List Nat := (List.range 128).filter fun c => mask.toNat / 2 ^ c % 2 == 1

/-- A plain read of a line at its home, for requests that have been counted one by one (R301). -/
def lineRead (s : State) (key : Nat) : State × List Byte :=
  (sectorsOf key 256).foldl (fun r p =>
    let s := readStateHome (developIf r.1 p.1) p.1
    (s, r.2 ++ (List.range 64).map fun i => s.byteAt (64 * p.1 + i))) (s, [])

/-- The slice closes a merge: it reads the line once, sends one response to every core of the mask, and marks the cores
whose requests it lacks. -/
def mcRespond (s : State) (d key : Nat) (m : Merge) : State :=
  let r := lineRead (charge s m.launch 0 256 0) (256 * m.line)
  let bad := (List.range 16).filter fun i => poisoned r.1 (256 * m.line + 16 * i) 16
  let late := (maskCores m.mask).filter (!m.cores.contains ·)
  let resp : McResp :=
    { launch := m.launch, gtag := m.gtag, line := m.line, mask := m.mask, data := BitVec.ofNat 2048 (ofLe r.2), poison := bad,
      toReach := maskCores m.mask }
  (r.1.updDie d fun x =>
    { x with merges := kvDel x.merges key, responses := kvPut x.responses r.1.seq resp,
             missing := (x.missing.filter fun y => !(late.any fun c => y.is m.launch m.gtag m.line m.mask c)) ++
               late.map fun c => ⟨m.launch, m.gtag, m.line, m.mask, c⟩ }).bump

/-- A request at the home slice: late, merged, or the first of its key. A core outside the mask, to which no response goes, is
served on its own (R259; log 52). -/
def mcAtSlice (s : State) (d tk core line : Nat) (t : Team) (i : Nat) (o : CpOp) : State :=
  let c := core % 128
  let x := s.die d
  if !(maskCores o.mask).contains c then mcAlone s tk i o
  else if x.missing.any (fun y => y.is t.launch o.gtag line o.mask c) then
    let u := mcAlone s tk i o
    if ((u.team tk).bind (·.cp)).any (·.asks == i + 1) then
      u.updDie d fun x => { x with missing := x.missing.filter fun y => !y.is t.launch o.gtag line o.mask c }
    else u
  else
    let s := mcEnd (mcAsk (heatTick s (4 * line)) tk) tk o
    let open_ := x.merges.find? fun m => m.2.is t.launch o.gtag o.mask && m.2.line == line
    let key := (open_.map (·.1)).getD s.seq
    let m : Merge := match open_ with
      | some m => { m.2 with cores := natAdd m.2.cores c, pages := natAdd m.2.pages (mcVa o i / 4096) }
      | none =>
        { launch := t.launch, gtag := o.gtag, line := line, mask := o.mask, cores := [c], first := x.cyc, pages := [mcVa o i / 4096] }
    let s := (s.updDie d fun x => { x with merges := kvPut x.merges key m }).bump
    if (maskCores o.mask).all m.cores.contains then mcRespond s d key m else s

/-- MULTICAST_REQUEST: the request of a core for its next line, at physical line `line`, reaches the home slice. A core asks for
its lines in ascending order, and waits for none before it asks for the next (R258, R401). -/
def execMulticastRequest (core line : Nat) (s : State) : Host.Outcome State Fault Refusal :=
  .next (match mcRun s core with
    | none => s
    | some (tk, t, r) =>
      match s.launch t.launch with
      | none => s
      | some l =>
        let o := cpOp r.cmd.blk
        let d := dieOf core
        if !engAllowed s t || o.len ≤ 256 * r.asks || keyOf s d l.actx (mcNextVa r o) != some (256 * line) then s
        else
          let x := xlate s core l.actx (mcNextVa r o) .rd
          settle (match x.2 with
            | .wait => x.1
            | .bad cause sub lvl => mcHalt x.1 tk (.fault cause sub lvl (mcNextVa r o) 0)
            | .ok tr =>
              if tr.key ≠ 256 * line ∨ homeDie tr.key ≠ some d then x.1
              else mcAtSlice x.1 d tk core line t r.asks o))

/-- The die that holds a merge. -/
def mcDie (s : State) (key : Nat) : Option (Nat × Merge) :=
  s.dies.findSome? fun d => (kvGet d.2.merges key).map fun m => (d.1, m)

/-- MULTICAST_MERGE_TIMEOUT: 512 cycles after its first request a merge closes. -/
def execMulticastMergeTimeout (key : Nat) (s : State) : Host.Outcome State Fault Refusal :=
  .next (match mcDie s key with
    | none => s
    | some (d, m) => if (s.die d).cyc < m.first + 512 ∨ !dieGo s d then s else mcRespond s d key m)

/-- The line of a matching command that still needs it; a command that was stopped and waits for the engine to turn to it is running
too (log 104). -/
def mcWants (s : State) (d core : Nat) (m : McResp) : Option (Nat × Nat × CpOp) :=
  s.teams.findSome? fun x =>
    let t := x.2
    match mcOf s x.1 t, s.launch t.launch with
    | some r, some l =>
      let o := cpOp r.cmd.blk
      if t.core ≠ core ∨ !m.is t.launch o.gtag o.mask then none
      else
        (((List.range (o.len / 256)).drop (r.done / 256)).find? fun i =>
          !r.got.contains i && keyOf s d l.actx (mcVa o i) == some (256 * m.line)).map fun i => (x.1, i, o)
    | _, _ => none

/-- MULTICAST_RESPONSE: a response reaches a core, which writes the line or discards it. -/
def execMulticastResponse (core resp : Nat) (s : State) : Host.Outcome State Fault Refusal :=
  let d := dieOf core
  .next (match kvGet (s.die d).responses resp with
    | none => s
    | some m =>
      if !m.toReach.contains (core % 128) ∨ !dieGo s d then s
      else
        let rest := m.toReach.filter (· != core % 128)
        let s' := s.updDie d fun x =>
          { x with responses := if rest.isEmpty then kvDel x.responses resp else kvPut x.responses resp { m with toReach := rest } }
        (match mcWants s' d core m with
          | none => settle s'
          | some (tk, i, o) =>
            -- a line that cannot be written yet stays on its way
            ((mcWrite s' tk i o ((leBytes 256 m.data.toNat).mapIdx fun j b => (b, m.poison.contains (j / 16)))).map settle).getD s))

end Sys2Proof.Machine
end

