-- ==== Sys2Proof/Machine/Capstan.lean ====
section
/-! DEFINITION. The capstan: choosing and starting passes, data waits, closed entries, gang timeouts, exits and barriers
(spec 02 R30-R57, 12 R292, R296). -/
namespace Sys2Proof.Machine

/-! ## Choosing (R41, R42, R47) -/

/-- AGELIM in passes (R40). -/
def ageLimit (c : CoreCsr) : Nat := max 128 (fld c.agelim 0 16)
/-- The GTIMEOUT interval of a class in core cycles (R45). -/
def gangInterval (c : CoreCsr) (tclass : Nat) : Nat := max 64 (fld c.gtimeout 0 24) * 2 ^ (4 * tclass)

/-- The capstan may start passes for a thread: its team is not on its way off the core and its launch has budget left
(R57, R64, R65). -/
def maySelect (s : State) (tid : Nat) : Bool :=
  match s.team (s.thread tid).team with
  | none => false
  | some t => (t.leave.isNone || t.leave == some .drain) && ((s.launch t.launch).any fun l => !spent s l)

/-- A faulted fetch holds every entry of the block (R292). -/
def fetchHeld (s : State) (g : Nat) (e : Entry) : Bool :=
  let mine (w : Parked) : Bool := match w with
    | .fetch c blk _ lidx => c == g && blk == e.blk && lidx == e.lidx
    | _ => false
  let d := s.die (dieOf g)
  d.tokens.any (fun t => t.2.who.any mine) || d.unwritten.any fun t => t.who.any mine

/-- The threads that a pass may take of an entry. -/
def selectable (s : State) (g : Nat) (e : Entry) : List Nat :=
  if fetchHeld s g e then [] else e.issuable.filter (maySelect s)

/-- Order of entries in ties: block, launch index, entry packet. -/
def Entry.before (a b : Entry) : Bool :=
  a.blk < b.blk || (a.blk == b.blk && (a.lidx < b.lidx || (a.lidx == b.lidx && a.pkt < b.pkt)))

/-- The best of some entries under a measure to be made small; ties by `Entry.before`. -/
def bestEntry (m : Entry → Nat) : List Entry → Option Entry
  | [] => none
  | e :: es => match bestEntry m es with
    | none => some e
    | some x => if m e < m x || (m e == m x && e.before x) then some e else some x

/-- The least stamp of some threads. -/
def oldest (s : State) (ts : List Nat) : Nat := ((ts.map fun t => (s.thread t).stamp).foldl min (2 ^ 64))

/-- The thread of a lane with the oldest stamp, tie to the lower slot. -/
def lanePick (s : State) (ts : List Nat) (lane : Nat) : Option Nat :=
  minBy (fun t => (s.thread t).stamp * 2048 + slotOf t) (ts.filter fun t => laneOf t == lane)

/-- The gang group that a pass takes of an entry: the one with the oldest thread, tie to the lower gang. -/
def gangPick (s : State) (e : Entry) (ok : List Nat) : List Nat :=
  let gs := e.groups.filter fun x => x.issuable && !x.tids.isEmpty && x.tids.all ok.contains
  let key (x : Group) : Nat := oldest s x.tids * 64 + x.gang % 64
  match minBy id (gs.map key) with
  | none => []
  | some k => ((gs.find? fun x => key x == k).map (·.tids)).getD []

/-- What a port starts: the entry and the pass's threads in ascending home lane (R41, R42, R47). -/
def choosePass (s : State) (g : Nat) (barred : Entry → Bool) (agelim : Nat) : Option (Entry × List Nat) :=
  let c := s.core g
  let cs := c.census.filter fun e => !barred e && !(selectable s g e).isEmpty
  let aged := cs.filter fun e => agelim ≤ c.passcnt - oldest s (selectable s g e)
  let e := if aged.isEmpty then bestEntry (fun e => 2048 - e.issuable.length) cs
    else bestEntry (fun e => oldest s (selectable s g e)) aged
  e.map fun e =>
    let ok := selectable s g e
    (e, if e.gang then sortBy laneOf (gangPick s e ok) else (List.range 32).filterMap (lanePick s ok))

/-! ## Fetching (R292) -/

/-- Fetches n packets of a kernel, or tells the address of the first faulting one with its fault; none: a sector that it reads
develops (R197), or its port may not send (R309). The launch pays for what a link port sends for it (R63). -/
def fetchFrom (s : State) (g : Nat) (lid : Option Nat) (l : Launch) (pkt : Nat) : (n : Nat) → State × Except (Option (Nat × Nat × Nat × Nat)) (List Packet)
  | 0 => (s, .ok [])
  | n + 1 =>
    let va := l.pktVa pkt
    let x := xlate s g l.actx va .fetch
    match x.2 with
    | .wait => (x.1, .error none)
    | .bad cause sub lvl => (x.1, .error (some (va, cause, sub, lvl)))
    | .ok tr =>
      let m := mustWait x.1 (tr.key / 64)
      if m.2 || !roomFor m.1 tr.key 1 then (m.1, .error none) else
      let r := readHome (sideRequest m.1 lid tr.key (.read tr.key 16)) tr.key 16
      let w (i : Nat) : Word := BitVec.ofNat 32 (ofLe ((r.2.drop (4 * i)).take 4))
      let q := fetchFrom r.1 g lid l (pkt + 1) n
      (q.1, match q.2 with
        | .ok ps => .ok (⟨w 0, w 1, w 2, w 3, poisoned r.1 tr.key 16⟩ :: ps)
        | .error e => .error e)

/-- The record of a fetch fault (R292). -/
def fetchRec (s : State) (g : Nat) (l : Launch) (va cause sub lvl : Nat) : FRec :=
  { FRec.plain 1 cause sub va with fdom := fdomOf s l, core := g, acc := 4, level := lvl, ctx := l.actx }

/-! ## PASS_START -/

/-- The entry that port 0 took in this same cycle, which port 1 may not take (R41). -/
def samePick (s : State) (g : Nat) (e : Entry) : Bool :=
  match s.pass (2 * g) with
  | none => false
  | some p => p.cyc0 == (s.core g).cyc && e.is p.launch p.blk p.entry

/-- What a thread carries for the point at which it goes on (R55). -/
def heldOf (t : Thread) : Option Held :=
  match t.held with
  | h :: _ => if t.resume ∧ h.point = 4 * t.pkt + t.slot then some h else none
  | [] => none

/-- The pass takes up the waits and transfers that its threads carry. -/
def resumeHeld (s : State) (p : Pass) (tids : List Nat) : Pass :=
  tids.foldl (fun p tid => match heldOf (s.thread tid) with
    | none => p
    | some h =>
      { p with targets := match h.target with
                 | some v => kvPut p.targets tid v
                 | none => p.targets
               tslot := if h.target.isSome then h.slot else p.tslot
               waits := match h.wait with
                 | some w => kvPut p.waits tid w
                 | none => p.waits
               waitWord := if h.wait.isSome then h.word else p.waitWord }) p

/-- Starts the pass that was chosen. -/
def startPass (s : State) (g port : Nat) (e : Entry) (b : Blk) (code : List Packet) (tids : List Nat) : State :=
  let c := s.core g
  let s := s.setCore g { c with passcnt := c.passcnt + 1, eff := c.csr }
  let s := leaveCensus s g tids
  let s0 := s
  let s := tids.foldl (fun s t => s.updThread t fun x =>
    { x.takeKept (fun r => x.resume || b.livein.toNat.testBit r) with status := .running, parkPass := 0, held := if (heldOf x).isSome then x.held.drop 1 else [] }) s
  let s := (tids.map fun t => (s.thread t).team).eraseDups.foldl (fun s tk =>
    s.updTeam tk fun t => { t with tpass := t.tpass + 1 }) s
  let s := s.updLaunch e.launch fun l => { l with passes := l.passes + 1 }
  let s := (s.setPass (2 * g + port)
    (resumeHeld s0 (Pass.started s.seq e.launch e.blk b code e.pkt tids (s.core g).cyc (s.core g).eff) tids)).bump
  -- a wait that a thread carries stands in the order of its events again
  tids.foldl (fun s tid => match (heldOf (s0.thread tid)).bind (·.wait) with
    | none | some .exit => s
    | some w =>
      let t := s.thread tid
      addAcc s (Access.blank tid t.team e.launch (s.seq) (.await w.acquires) t.parkWord)) s

/-- PASS_START on a free port (R41): port 0 chooses first. -/
def execPassStart (core port : Nat) (s : State) : Host.Outcome State Fault Refusal :=
  .next (
    let d := dieOf core
    let lim := ageLimit (s.core core).csr
    let first := port = 1 ∧ (s.pass (2 * core)).isNone ∧ (choosePass s core (fun _ => false) lim).isSome
    if 1 < port ∨ (s.pass (2 * core + port)).isSome ∨ first ∨ !dieGo s d then s
    else
      match choosePass s core (fun e => port == 1 && samePick s core e) lim with
      | none => s
      | some (e, tids) =>
        match s.launch e.launch with
        | none => s
        | some l =>
          match l.blk e.blk with
          | none => s
          | some b =>
            if (List.range (b.start + b.count - e.pkt)).any fun i => vaWaits s d l.actx (l.pktVa (e.pkt + i)) then s else
            let r := fetchFrom s core (some e.launch) l e.pkt (b.start + b.count - e.pkt)
            match r.2 with
            | .error none => r.1
            | .error (some (va, cause, sub, lvl)) =>
              park r.1 d { fetchRec r.1 core l va cause sub lvl with repl := true } (.fetch core e.blk e.pkt e.lidx)
            | .ok code => startPass r.1 core port e b code tids)

/-! ## DATA_WAIT_RESOLVE -/

/-- Live-ins of the successor: the block's mask, or every register for a resume point (R33, R55). -/
def liveIn (l : Launch) (t : Thread) (r : Nat) : Bool :=
  t.resume || ((l.blk t.blk).any fun b => b.livein.toNat / 2 ^ r % 2 == 1)

/-- An access that would fault if it were made now: its thread waits for that at the end of the block (R36; log 103). -/
def faultsNext (s : State) (a : Access) : Bool :=
  (match a.kind with
    | .pref _ => false
    | _ => true) &&
  a.parts.any fun p => !p.done && faultsAt s (dieOf a.core) (a.ctx s) p.va a.kind.xacc

/-- Nothing holds the thread in DATA-WAIT any more (R33); an access that has faulted holds it until it completes (R36). -/
def dataReady (s : State) (l : Launch) (tid : Nat) : Bool :=
  let t := s.thread tid
  !(s.accs.any fun a => a.2.tid == tid &&
    (a.2.dst.any (fun r => r < 128 && liveIn l t r) || a.2.dstP.isSome || a.2.faulted || accParked s (dieOf a.2.core) a.1 ||
      faultsNext s a.2))

/-- The thread joins its successor, or takes the trap that is due (R33, R291, R299); one that has left a barrier in the
kernel's last block falls through past the code's end (R30). -/
def execDataWaitResolve (tid : Nat) (s : State) : Host.Outcome State Fault Refusal :=
  .next (match launchOf s tid with
    | none => s
    | some l =>
      let t := s.thread tid
      if t.status ≠ .dataWait ∨ !dieGo s (dieOf (coreOf tid)) then s
      else
        match t.fall with
        | some w => enterTrap s tid 0x03 0 w (BitVec.ofNat 64 (l.pktVa t.pkt))
        | none =>
          if !dataReady s l tid then s
          else
            match t.due with
            | some u =>
              settle (enterTrap (s.updThread tid fun t => { t with due := none }) tid u.cause u.sub u.word
                (BitVec.ofNat 64 (l.pktVa t.pkt + t.slot)))
            | none => enterCensus s tid)

/-! ## ENTRY_CLOSE, GANG_TIMEOUT -/

/-- The head of the overflow list has aged, so the entry with the fewest threads closes (R39). -/
def execEntryClose (core : Nat) (s : State) : Host.Outcome State Fault Refusal :=
  .next (
    let c := s.core core
    match c.overflow with
    | [] => s
    | h :: _ =>
      if c.passcnt - (s.thread h).stamp < ageLimit c.eff ∨ c.census.any (·.closed) ∨ !dieGo s (dieOf core) then s
      else
        match bestEntry (fun e => e.tids.length) c.census with
        | none => s
        | some e =>
          s.setCore core { c with census := c.census.map fun x => if x.is e.launch e.blk e.pkt then { x with closed := true } else x })

/-- The collecting group of a gang in an entry of a block whose interval has passed. -/
def timedOut (s : State) (core gang block : Nat) : Option (Entry × Group) :=
  let c := s.core core
  let cyc := c.cyc
  c.census.findSome? fun e =>
    if e.blk = block ∧ e.gang ∧ dieGo s (dieOf core) then
      (e.groups.find? fun x => x.gang == gang && !x.issuable && x.first + gangInterval c.eff e.tclass ≤ cyc).map fun x => (e, x)
    else none

/-- GSTAT_RECORD: the shortfall, unless an older record stands (R46, R111). -/
def recordGstat (w : DWord) (lidx blk gang mask : Nat) : DWord :=
  if w.getLsbD 0 then w ||| 2
  else BitVec.ofNat 64 (mask * 2 ^ 32 + blk * 2 ^ 16 + gang * 2 ^ 10 + lidx * 2 ^ 5 + w.toNat % 4 / 2 * 2 + 1)

/-- The group issues short, and the lanes of the missing live threads are recorded (R46). -/
def execGangTimeout (core gang block : Nat) (s : State) : Host.Outcome State Fault Refusal :=
  .next (match timedOut s core gang block with
    | none => s
    | some (e, x) =>
      let held := (e.groups.filter fun y => y.gang == gang).flatMap (·.tids)
      let mask := (((liveGang s core gang).filter fun t => !held.contains t).map fun t => 2 ^ laneOf t).foldl (· + ·) 0
      s.updCore core fun c =>
        { c with gstat := recordGstat c.gstat e.lidx e.blk gang mask,
                 census := c.census.map fun y =>
                   if y.is e.launch e.blk e.pkt then
                     { y with groups := y.groups.map fun z => if z = x then { z with issuable := true } else z }
                   else y })

/-! ## EXIT_COMPLETE, BAR_ARRIVAL -/

/-- Every engine command that the thread pushed has completed (R32). -/
def cmdsDone (s : State) (tid : Nat) : Bool :=
  match s.team (s.thread tid).team with
  | none => true
  | some t => !((t.q8 ++ t.q9 ++ (t.mx.map (·.cmd)).toList ++ (t.cp.map (·.cmd)).toList).any (·.tid == tid))

/-- The exiting thread becomes EXITED: values that it still loads go nowhere (R32, R343). -/
def execExitComplete (tid : Nat) (s : State) : Host.Outcome State Fault Refusal :=
  .next (
    if (s.thread tid).status ≠ .parked .exit ∨ !writesDone s tid ∨ !cmdsDone s tid ∨ !dieGo s (dieOf (coreOf tid)) then s
    else
      let drop (a : Nat × Access) : Nat × Access := if a.2.tid = tid then (a.1, { a.2 with dst := [], dstP := none }) else a
      let s := { s with accs := s.accs.map drop }
      settle (afterDeath (s.updThread tid fun t => { t with status := .exited, due := none }) tid))

/-- The parked thread arrives at its barrier (R322). -/
def execBarArrival (tid : Nat) (s : State) : Host.Outcome State Fault Refusal :=
  .next (match (s.thread tid).status with
    | .parked (.bar n false) =>
      if eventsDone s tid && dieGo s (dieOf (coreOf tid)) then
        settle (checkBarrier (s.updThread tid fun t => { t with status := .parked (.bar n true) }) (s.thread tid).team n)
      else s
    | _ => s)

end Sys2Proof.Machine
end

