-- ==== Sys2Proof/Machine/Complete.lean ====
section
/-! DEFINITION. Events at which outstanding accesses are performed, and the events of latent sectors and caches (spec 08, 09,
R125, R173-R175, R197-R203, R328). -/
namespace Sys2Proof.Machine

/-- A request for a virtual address that leaves the package finds its port ready to send (R309). The ring passes it on though the
clocks of both dies bonded to the port's edge die stand still (log 92). -/
def mayLeave (s : State) (d c va n : Nat) : Bool :=
  s.ports.isEmpty || ((keyOf s d c va).bind (farPort s)).all fun i => flitRoom (s.port i) n

/-- Flits that the requests of an access may take, write-backs that they need among them: those of four sectors for a whole line. -/
def AccKind.flits : AccKind → Nat
  | .cwb | .pref _ => 12
  | _ => 4

/-- The access's die goes on, and nothing that the access needs stands still (R316, R317). -/
def mayPerform (s : State) (a : Access) : Bool :=
  let d := dieOf a.core
  dieGo s d && a.parts.all fun p => p.done || (!vaWaits s d (a.ctx s) p.va && mayLeave s d (a.ctx s) p.va a.kind.flits)

/-- Writes the records that a home put behind the others while it merged (R206). -/
def flushHome (s : State) (k : Nat) : State := flush s ((homeDie (64 * k)).getD 0)

/-! ## Lines of an L1 (R175) -/

/-- A sector of an L1's line goes: non-coherent dirty bytes and M data go home, clean copies are given up, and a latent copy merges
early (R175, R201, R209). One whose home or path stands still stays, and one whose port may not send (R309, R317). -/
def evictSector (s : State) (core k : Nat) : State :=
  if keyWaits s (dieOf core) (64 * k) || !roomFor s (64 * k) 2 then s
  else
    let s := ncWriteBack s core k none
    match kvGet s.dir k with
    | some (.latent _ cs) => if cs.any (·.num == core) then flushHome (doEarlyMerge s k core) k else s
    | some (.modified h _) => if h = .l1 core then toHome (heatTick s k) k else s
    | some _ => dropClean s k (.l1 core)
    | none => s

/-- The L1 holds a sector. -/
def l1Holds (s : State) (g k : Nat) : Bool :=
  (kvGet (s.core g).nc k).isSome ||
  (match kvGet s.dir k with
    | some (.latent _ cs) => cs.any (·.num == g)
    | _ => heldBy s k (.l1 g))

/-- An L1 drops a line. Once none of its sectors is left, the tag is free, and the bounce counter starts anew (R211). -/
def evictLine (s : State) (core line : Nat) : State :=
  let s := (List.range 4).foldl (fun s i => evictSector s core (4 * line + i)) s
  if (List.range 4).any fun i => l1Holds s core (4 * line + i) then s else dropTag s core line

/-- Lines of an L1: those of which it holds a sector, and those whose tag stands with a bounce counter that is not 0 although every
sector has been recalled (R190, R211). -/
def l1Lines (s : State) (g : Nat) : List Nat :=
  let held (c : Sec) : Bool := match c with
    | .shared hs => hs.contains (.l1 g)
    | .excl h | .modified h _ => h == .l1 g
    | .latent _ cs => cs.any (·.num == g)
  let mine : List Nat := (s.core g).nc.map (·.1) ++ kvKeys s.dir fun _ c => held c
  let tags : List Nat := (s.core g).bc.map (·.1)
  (mine.map (· / 4) ++ tags).eraseDups

/-- The L1 holds more lines than it has. -/
def l1Over (s : State) (g : Nat) : Bool := Config.l1Lines < (l1Lines s g).length

/-- Evicts the first of some lines that can go. -/
def evictOne (s : State) (g : Nat) : List Nat → State
  | [] => s
  | l :: ls =>
    let s' := evictLine s g l
    if (l1Lines s' g).contains l then evictOne s' g ls else s'

/-- An L1 whose lines are all in use evicts one for the line that came last: one at the lowest replacement priority, if it holds
one; else which one is no matter (R175, R178; log 89). -/
def fitL1 (s : State) (g : Nat) : State :=
  if l1Over s g then
    let ls := l1Lines s g
    let low := (s.core g).streamed
    evictOne s g (ls.filter low.contains ++ ls.filter (!low.contains ·))
  else s

/-! ## ACCESS_COMPLETE and POINT_OF_COHERENCE_REACHED -/

/-- Performs a part of an access that is ready: the read, the store, the read-modify-write, the update, the fill of a
granule, the tile access or the signal. -/
def performAcc (s : State) (id part : Nat) (a : Access) : State :=
  match a.kind with
  | .ld .. | .st _ | .atom .. | .lup _ | .devl | .cwb | .pref _ => if partReady s id part then doPart s id part else s
  | .pubv => if accReady s id && !isParked s (dieOf a.core) (.access id 0) then pubvPart s id a else s
  | .ldfe _ g p => if accReady s id && isFull s g p then serveLdfe s id else s
  | .spad .. => if accReady s id then serveSpad s id else s
  | .stfe .. => tryFill s id
  | .mxrd .. | .mxwr .. | .mxclr _ => if tileReady s id then doTile s id else s
  | .bsig pkg die num _ =>
    if accReady s id && pkg == fld (s.die (dieOf a.core)).pkgid 0 9 && die == dieOf a.core then
      performSignal s id a pkg die num
    else s
  | .fence .. | .expn | .stashFill .. | .stashWb .. | .await _ => s

/-- Performs a part of an access, and makes room for its line; one for which no line can go waits (R20). -/
def performFit (s : State) (id part : Nat) (a : Access) : State :=
  let s' := fitL1 (performAcc s id part a) a.core
  if l1Over s' a.core then s else settle s'

/-- The kinds of access whose completion writes a class L destination (R125); a queued one waits for its develop. -/
def AccKind.completes : AccKind → Bool
  | .ld .. | .atom .. | .pubv | .ldfe .. | .spad .. | .mxrd .. | .pref _ => true
  | _ => false

/-- ACCESS_COMPLETE (R125). -/
def execAccessComplete (id part : Nat) (s : State) : Host.Outcome State Fault Refusal :=
  .next (match s.acc id with
    | none => s
    | some a => if a.kind.completes && mayPerform s a then performFit s id part a else s)

/-- POINT_OF_COHERENCE_REACHED: a store, an update or another effect without a destination is performed (R217, R328). -/
def execPointOfCoherenceReached (id part : Nat) (s : State) : Host.Outcome State Fault Refusal :=
  .next (match s.acc id with
    | none => s
    | some a => if !a.kind.completes && mayPerform s a then performFit s id part a else s)

/-- REMOTE_BEND_SIGNAL: a signal that a thread of this package sent reaches the bend's die device and is counted, or goes
out over a link (R328). -/
def execRemoteBendSignal (id : Nat) (s : State) : Host.Outcome State Fault Refusal :=
  .next (match s.acc id with
    | none => s
    | some a =>
      match a.kind with
      | .bsig pkg die num _ =>
        if accReady s id && dieGo s (dieOf a.core) && signalGoes s (dieOf a.core) pkg die then settle (performSignal s id a pkg die num)
        else s
      | _ => s)

/-! ## Stash windows -/

/-- STASH_FILL_COMPLETE (R173). -/
def execStashFillComplete (id : Nat) (s : State) : Host.Outcome State Fault Refusal :=
  .next (match s.acc id with
    | none => s
    | some a => if accReady s id && !accParked s (dieOf a.core) id && mayPerform s a then settle (doStashFill s id) else s)

/-- STASH_WRITEBACK_COMPLETE (R174). -/
def execStashWritebackComplete (id : Nat) (s : State) : Host.Outcome State Fault Refusal :=
  .next (match s.acc id with
    | none => s
    | some a =>
      match a.kind with
      | .stashWb _ _ key =>
        if !accParked s (dieOf a.core) id && mayPerform s a && !keyWaits s (dieOf a.core) (64 * key) then settle (doStashWb s id)
        else s
      | _ => s)

/-! ## Latent sectors (R197-R203) -/

/-- The clock of a sector's home is stopped. -/
def homeStill (s : State) (k : Nat) : Bool := (homeDie (64 * k)).any fun d => (s.die d).stopped

/-- The clock of the party that a holder reports to is stopped. -/
def toStill (s : State) (k h : Nat) : Bool :=
  if reportsTo s k h = homeGather then homeStill s k else cacheStill s (reportsTo s k h)

/-- An early merge of what a holder reports for takes something from a stopped die, needs the stopped hub, or goes to a stopped home. -/
def mergeStill (s : State) (k h : Nat) : Bool :=
  let mine := match kvGet s.dir k with
    | some (.latent _ cs) => (cs.filter fun c => (chainOf s k c.num).contains h).map (·.num)
    | _ => []
  let home := homeDie (64 * k)
  anyStopped s && (homeStill s k || ((h :: mine).filterMap placeOf).any fun p => clockStopped s p || (s.hubStopped && home.any (· != p)))

def execCollect (sector holder : Nat) (s : State) : Host.Outcome State Fault Refusal :=
  .next (if cacheStill s holder then s else doCollect s sector holder)
def execCompositeReport (sector holder : Nat) (s : State) : Host.Outcome State Fault Refusal :=
  .next (if toStill s sector holder then s else settle (flushHome (doReport s sector holder) sector))
def execEarlyMerge (sector holder : Nat) (s : State) : Host.Outcome State Fault Refusal :=
  .next (if mergeStill s sector holder then s else settle (flushHome (doEarlyMerge s sector holder) sector))

/-- DIRECTORY_ENTRY_EVICTION: a latent sector develops, after which it has no entry; of another every copy is given up (R176,
R203). A sector that is already developing stays; the entry of a sector of another package stands at its home there. -/
def execDirectoryEntryEviction (sector : Nat) (s : State) : Host.Outcome State Fault Refusal :=
  .next (
    if (kvGet s.devs sector).isSome || (farPackage (64 * sector)).isSome || keyWaits s ((homeDie (64 * sector)).getD 0) (64 * sector)
    then s
    else
      match kvGet s.dir sector with
      | none => s
      | some (.latent ..) => settle (flushHome (startDevelop s sector) sector)
      | some _ => settle (toHome s sector))

/-! ## L1_EVICTION (R175, R201, R209) -/

def execL1Eviction (core line : Nat) (s : State) : Host.Outcome State Fault Refusal :=
  .next (if dieGo s (dieOf core) then settle (evictLine s core line) else s)

end Sys2Proof.Machine
end

