-- ==== Sys2Proof/Machine/Tree.lean ====
section
/-! DEFINITION. The region tree, its queues, doorbells and the scheduling period (spec 03 R58-R65, R73). -/
namespace Sys2Proof.Machine

/-! ## Nodes (R58, R59, R61) -/

/-- Reserved fields of the common header are zero and FDACT is no reserved action. -/
def headerOk (h : BitVec 512) : Bool :=
  fld h 320 192 == 0 && fld h 208 16 == 0 && fld h 40 8 == 0 && fld h 38 2 == 0 && fld h 12 20 == 0 && fld h 8 2 == 0 &&
  fld h 10 2 != 3

/-- Pointers of a node. -/
def nextSib (h : BitVec 1024) : Nat := fld h 128 64
def firstChild (h : BitVec 1024) : Nat := fld h 64 64
def nodeKind (h : BitVec 1024) : Nat := fld h 0 4
def Node.isQueue (n : Node) : Bool := nodeKind n.hdr == 2

/-- A root, job or queue node at depth `up.length + 1` is well formed (R58). -/
def nodeOk (h : BitVec 1024) (depth : Nat) : Bool :=
  let kind := nodeKind h
  headerOk (BitVec.ofNat 512 (fld h 0 512)) && nextSib h % 128 == 0 && firstChild h % 128 == 0 && depth ≤ 7 &&
  (if depth = 1 then kind == 0 && nextSib h == 0 && fld h 32 8 == 0 else kind == 1 || kind == 2) &&
  (if kind = 2 then
    firstChild h == 0 && fld h 672 352 == 0 && fld h 581 27 == 0 && 4 ≤ fld h 576 5 && fld h 576 5 ≤ 16 && fld h 512 64 % 64 == 0
   else fld h 512 512 == 0)

/-- The root's address. -/
def rootAddr (d : Die) : Nat := fld d.rcbroot 7 45 * 128

/-- Reads the tree in order, a node before its children and they before its siblings: the nodes, and the ignored ones.
`work` holds addresses to read with the nodes above them. -/
def visitTree (s : State) (d : Nat) : (fuel : Nat) → (work : List (Nat × List Nat)) → List Node → List (Nat × BitVec 1024) →
    State × List Node × List (Nat × BitVec 1024)
  | 0, _, ns, bad => (s, ns, bad)
  | _ + 1, [], ns, bad => (s, ns, bad)
  | fuel + 1, (a, up) :: work, ns, bad =>
    let r := readPhys s d a 128
    let h : BitVec 1024 := BitVec.ofNat 1024 ((r.2.map ofLe).getD (15 + 3 * 2 ^ 10))
    if nodeOk h (up.length + 1) then
      let child := if firstChild h = 0 then [] else [(firstChild h, a :: up)]
      let sib := if nextSib h = 0 then [] else [(nextSib h, up)]
      visitTree r.1 d fuel (child ++ sib ++ work) (ns ++ [⟨a, up, h⟩]) bad
    else visitTree r.1 d fuel work ns (bad ++ [(a, h)])

/-- The tree as memory holds it now: 2^45 nodes are more than all that a pointer can name, so only a tree that closes a ring
is not read to its end (log 54). -/
def treeNow (s : State) (d : Nat) : State × List Node × List (Nat × BitVec 1024) :=
  visitTree s d (2 ^ 45) [(rootAddr (s.die d), [])] [] []

/-- A record of an ignored node or request (R58, R114). -/
def reportIgnored (s : State) (d addr : Nat) : State := report s d (FRec.plain 4 0x21 0 addr)

/-- Reads the whole tree again; newly ignored nodes are reported (R58, R62). -/
def readTree (s : State) (d : Nat) : State :=
  let r := treeNow s d
  let old := (r.1.die d).ignored
  let s := r.1.updDie d fun x => { x with nodes := r.2.1, ignored := r.2.2 }
  (r.2.2.filter fun b => !old.contains b).foldl (fun s b => reportIgnored s d b.1) s

/-! ## Queues (R61) -/

/-- A launch as it is taken from a ring. -/
def Launch.taken (die addr : Nat) (up : List Nat) (order : Nat) : Launch :=
  { die := die, addr := addr, phase := .taken, status := 0, record := 0, header := 0, blocks := [], up := up, order := order,
    nextTeam := 0, again := [], saved := [], ended := 0, passes := 0, frozen := 0, missing := 0, swapped := [],
    kept := [] }

/-- Takes one entry: 0 has no effect, a misaligned address is reported. -/
def takeEntry (s : State) (d : Nat) (up : List Nat) (e : Nat) : State :=
  if e = 0 then s
  else if e % 512 ≠ 0 then reportIgnored s d e
  else (s.setLaunch s.seq (Launch.taken d e up s.seq)).bump

/-- Takes the entries of a queue in ring order, and advances HEAD. An entry in absent memory is read as 0, of which the spec says
nothing (R61; log 123). -/
def takeEntries (s : State) (d : Nat) (q : Node) (ring size head : Nat) : (n : Nat) → State
  | 0 => s
  | n + 1 =>
    let r := readPhys s d (ring + 8 * head) 8
    let head := (head + 1) % size
    let s := storePhys r.1 d (q.addr + 76) (leBytes 4 head)
    takeEntries (takeEntry s d (q.addr :: q.up) ((r.2.map ofLe).getD 0)) d q ring size head n

/-- A halted node stands on the queue's path, or is the queue itself: the spec does not say whether a queue that is the domain node
counts among the queues below it (R65; log 122). -/
def halted (x : Die) (q : Node) : Bool := x.halts.any fun h => (q.addr :: q.up).contains h.node

/-- Reads a queue node again and takes its entries. -/
def serveQueue (s : State) (d : Nat) (q : Node) : State :=
  if halted (s.die d) q then s
  else
    let r := readPhys s d q.addr 128
    match r.2 with
    | none => r.1
    | some bs =>
      let h : BitVec 1024 := BitVec.ofNat 1024 (ofLe bs)
      let size := 2 ^ fld q.hdr 576 5
      let head := fld h 608 32 % size
      let tail := fld h 640 32 % size
      takeEntries r.1 d q (fld q.hdr 512 64) size head ((tail + size - head) % size)

/-- Every queue of the tree, in its order. -/
def serveQueues (s : State) (d : Nat) : State := ((s.die d).nodes.filter (·.isQueue)).foldl (fun s q => serveQueue s d q) s

/-! ## DOORBELL (R62, R114) -/

/-- RCBROOT.EN. -/
def rcbOn (x : Die) : Bool := x.rcbroot.getLsbD 0

/-- The named queue, as it was last read, or with its path as memory holds it when it is new. -/
def findQueue (s : State) (d a : Nat) : State × Option Node :=
  match (s.die d).nodes.find? (fun n => n.addr == a && n.isQueue) with
  | some q => (s, some q)
  | none =>
    let r := treeNow s d
    match r.2.1.find? (fun n => n.addr == a && n.isQueue) with
    | none => (s, none)
    | some q =>
      let path := r.2.1.filter fun n => (q.addr :: q.up).contains n.addr
      (r.1.updDie d fun x =>
        { x with nodes := x.nodes ++ path.filter fun n => !x.nodes.any fun y => y.addr == n.addr }, some q)

/-- A write to DOORBELL makes the die scheduler read the named queue at once. -/
def execDoorbell (die : Nat) (v : DWord) (s : State) : Host.Outcome State Fault Refusal :=
  .next (atPort s die (.doorbell die v) fun s =>
    if !rcbOn (s.die die) then s
    else
      let r := findQueue s die (fld v 7 45 * 128)
      match r.2 with
      | none => r.1
      | some q => settle (serveQueue r.1 die q))

/-! ## PERIOD_BOUNDARY (R62-R65, R73) -/

/-- What a spend leaves for the next period: the debt, at most one budget (R64). -/
def debt (b : Option Nat) (x : Nat) : Nat :=
  match b with
  | none => 0
  | some v => min v (x - v)

/-- The header of a node or of a launch's record by address. -/
def headerAt (s : State) (d a : Nat) : Option (BitVec 512) :=
  match (s.die d).nodes.find? (·.addr == a) with
  | some n => some (BitVec.ofNat 512 (fld n.hdr 0 512))
  | none => (s.launches.find? fun l => l.2.die == d && l.2.addr == a).map fun l => BitVec.ofNat 512 (l.2.get 0 512)

/-- The spend counters at the start of a period. -/
def clearSpends (s : State) (d : Nat) : State :=
  let next (e : Nat × Spend) : Option (Nat × Spend) :=
    match headerAt s d e.1 with
    | none => none
    | some h =>
      some (e.1, ⟨debt ((budget h 2 192 16).map shareBudget) e.2.share, debt ((budget h 4 256 32).map (256 * ·)) e.2.memb,
        debt ((budget h 5 288 32).map (256 * ·)) e.2.linkb⟩)
  s.updDie d fun x => { x with spends := x.spends.filterMap next }

/-- Runs of periods that pass a launch over: one more for a launch passed over and not broken. A run of eight stands until
the launch places a team; a shorter one ends with the first period that does not pass the launch over (R73; log 100). -/
def countPassed (s : State) (d : Nat) : State :=
  let run (x : Die) (l : Nat) : Nat :=
    let n := kvGetD 0 x.passed l
    if 8 ≤ n then 8 else if x.passedNow.contains l && !x.broken.contains l then n + 1 else 0
  s.updDie d fun x =>
    { x with passed := ((s.launches.filter fun l => l.2.die == d).map fun l => (l.1, run x l.1)).filter (·.2 != 0),
             passedNow := [], broken := [] }

/-- Halts whose domain node, as it was just read, has another header than at the stop are lifted, though the node be ignored
(R65). -/
def liftChanged (s : State) (d : Nat) : State :=
  s.updDie d fun x =>
    let read := x.nodes.map (fun n => (n.addr, n.hdr)) ++ x.ignored
    { x with halts := x.halts.filter fun h =>
        match read.find? (·.1 == h.node) with
        | none => true
        | some n => BitVec.ofNat 512 (fld n.2 0 512) == h.hdr }

def execPeriodBoundary (die : Nat) (s : State) : Host.Outcome State Fault Refusal :=
  .next (
    let x := s.die die
    if !rcbOn x ∨ schedCyc x < x.nextPeriod ∨ !dieGo s die then s
    else
      let s := clearSpends s die
      let s := s.updDie die fun x => { x with nextPeriod := (schedCyc x / Config.periodCycles + 1) * Config.periodCycles }
      let s := liftChanged (readTree (countPassed s die) die) die
      settle (serveQueues s die))

end Sys2Proof.Machine
end

