-- ==== Sys2Proof/Machine/Accept.lean ====
section
/-! DEFINITION. Accepting a launch and completing it (spec 02 R26-R27, 03 R66-R70, R75-R76). -/
namespace Sys2Proof.Machine

/-- A record that the die scheduler causes for a launch (R287). -/
def schedRec (s : State) (l : Launch) (team : Option Nat) (cause sub acc lvl addr : Nat) : FRec :=
  { FRec.plain 4 cause sub addr with
    fdom := fdomOf s l, acc := acc, level := lvl, team := team.getD 0xFFFFFFFF, ctx := l.actx }

/-- The die scheduler parks on a replayable fault (R291). -/
def schedPark (s : State) (l : Launch) (team : Option Nat) (w : Touch) (who : Parked) : State :=
  match w with
  | .fault cause sub lvl va acc => park s l.die { schedRec s l team cause sub acc lvl va with repl := true } who
  | _ => s

/-! ## Checks of the record (R58, R59, R66, R70) -/

/-- Status 0x0010: the node is malformed. -/
def recordOk (l : Launch) : Bool :=
  headerOk (BitVec.ofNat 512 (l.get 0 512)) && l.get 0 4 == 3 && l.get 64 64 == 0 && l.get 128 64 == 0 &&
  l.get 3072 1024 == 0 && l.get 896 128 == 0 && l.get 689 15 == 0 && l.get 641 15 == 0

/-- No two of some ranges of bytes meet, and each starts at or after byte 256 of the image. -/
def layoutOk (rs : List (Nat × Nat)) : Bool :=
  rs.all (256 ≤ ·.1) &&
  (List.range rs.length).all fun i => (List.range i).all fun j =>
    let a := rs.getD i (0, 0)
    let b := rs.getD j (0, 0)
    !(a.1 < b.1 + b.2 && b.1 < a.1 + a.2 && a.2 != 0 && b.2 != 0)

def Launch.nblk (l : Launch) : Nat := l.head 288 32
def Launch.btoff (l : Launch) : Nat := l.head 448 64

/-- Status 0x0011: the kernel image header is malformed. -/
def imageOk (l : Launch) : Bool :=
  l.head 0 32 == 0x4F4C4D4B && l.head 32 16 == 1 && l.head 48 16 == 0 && l.head 232 24 == 0 && l.head 640 1408 == 0 &&
  l.head 320 64 % 16 == 0 && l.head 384 64 % 16 == 0 && l.btoff % 32 == 0 &&
  1 ≤ l.regs && l.regs ≤ 128 && l.head 200 8 ≤ 32 && l.head 208 8 ≤ 32 && l.head 216 8 ≤ 4 && 1 ≤ l.nblk && l.nblk ≤ 65536 &&
  layoutOk [(l.head 320 64, l.head 384 64), (l.btoff, 32 * l.nblk), (l.head 512 64, l.head 576 64)]

/-- A block table entry (R26). -/
def blkOf (e : BitVec 256) : Blk :=
  { start := fld e 128 32, count := fld e 160 16, livein := BitVec.ofNat 128 (fld e 0 128), gang := fld e 176 1 == 1,
    tclass := fld e 177 2 }

/-- One entry holds up on its own (R27). -/
def entryOk (regs : Nat) (e : BitVec 256) : Bool :=
  let b := blkOf e
  fld e 179 77 == 0 && b.count != 0 && (b.gang || b.tclass == 0) && b.livein.toNat / 2 ^ regs == 0

/-- The blocks tile the code from a packet on (R27). -/
def tiles (packets : Nat) : (start : Nat) → List Blk → Bool
  | start, [] => start == packets
  | start, b :: bs => b.start == start && tiles packets (start + b.count) bs

/-- 32-byte entries of a table. -/
def entriesOf (bs : List Byte) (n : Nat) : List (BitVec 256) :=
  match n with
  | 0 => []
  | n + 1 => BitVec.ofNat 256 (ofLe (bs.take 32)) :: entriesOf (bs.drop 32) n

/-- Status 0x0014: the resources are invalid. -/
def resourcesOk (l : Launch) : Bool :=
  1 ≤ l.nregs && l.nregs ≤ 128 && l.nkregs ≤ 32 && 1 ≤ l.teamg && l.teamg ≤ 32 && l.ntiles ≤ 4 && l.spadk ≤ 512 &&
  l.gridt != 0 && l.crec % 64 == 0 && l.savea % 4096 == 0 && l.regs ≤ l.nregs && l.head 200 8 ≤ l.nkregs &&
  l.head 216 8 ≤ l.ntiles && l.scratch ≤ 1024 * l.spadk && (l.head 208 8 == 0 || l.head 208 8 == l.teamg) &&
  l.trapblk < l.nblk

/-- A format slot is valid (R69); one with a reserved bit set or a misaligned SLAYOUT is not, though that list names neither
(log 113). -/
def slotValid (f : BitVec 128) : Bool :=
  let fmt := slotFmt f
  let skind := fld f 4 2
  let sblk := fld f 8 8
  let planes := fld f 18 5
  1 ≤ fmt && fmt ≤ 12 && fld f 96 32 == 0 && fld f 23 9 == 0 && fld f 6 2 == 0 &&
  (if fmt = 1 then planes == 0 else planes ≤ planeWidth fmt) && skind != 3 &&
  (if skind = 0 then sblk == 0 else 8 ≤ sblk && sblk ≤ 128 && sblk % 4 == 0 && fld f 32 64 != 0) && fld f 32 64 % 64 == 0 &&
  (!slotOvf f || (fmt != 6 && fmt < 7))

/-- SPAD limits on the path of a launch, nearest first: address and KiB. -/
def spadLimits (s : State) (l : Launch) : List (Nat × Nat) :=
  (pathHdrs s l).filterMap fun h => (budget h.2 3 224 32).map fun v => (h.1, v)

/-- The checks after the block table is read, in the order of R70; the status of the first that fails. -/
def lateStatus (s : State) (l : Launch) (es : List (BitVec 256)) : Nat :=
  if !(es.all (entryOk l.regs) && tiles l.packets 0 (es.map blkOf)) then 0x0012
  else if l.head 64 128 &&& (2 ^ 128 - 1 - (Config.caps0.toNat + 2 ^ 64 * Config.caps1.toNat)) ≠ 0 then 0x0013
  else if !resourcesOk l then 0x0014
  else if !(List.range 8).all (fun i => l.slots / 2 ^ i % 2 == 0 || slotValid (l.fslot i)) then 0x0015
  else if (spadLimits s l).any (fun x => x.2 < l.spadk) then 0x0016
  else 0

/-- A failed launch completes at once (R70). -/
def failLaunch (s : State) (lid status : Nat) : State :=
  s.updLaunch lid fun l => { l with phase := .completing, status := status }

/-- The bits of FEAT that are clear in CAPS. -/
def missingFeats (l : Launch) : BitVec 128 :=
  BitVec.ofNat 128 (l.head 64 128 &&& (2 ^ 128 - 1 - (Config.caps0.toNat + 2 ^ 64 * Config.caps1.toNat)))

/-- Reads the block table of a launch whose image header holds, and decides. -/
def acceptTable (s : State) (lid : Nat) (l : Launch) : State :=
  let r := readVirt s (.sched l.die lid) l.actx ((l.kimg + l.btoff) % 2 ^ 64) (32 * l.nblk)
  match r.2 with
  | .error w => schedPark (r.1.setLaunch lid l) l none w (.accept lid)
  | .ok bs =>
    let es := entriesOf (bs.map (·.1)) l.nblk
    let st := lateStatus r.1 l es
    if st = 0 then r.1.setLaunch lid { l with phase := .running, blocks := es.map blkOf, order := r.1.seq }
    else failLaunch (r.1.setLaunch lid { l with missing := if st = 0x0013 then missingFeats l else 0 }) lid st

/-- The checks of R70 in their order. -/
def acceptChecks (s : State) (lid : Nat) (l : Launch) : State :=
  if !recordOk l then failLaunch s lid 0x0010
  else if 4096 ≤ l.actx then failLaunch s lid 0x0014
  else if l.kimg % 256 ≠ 0 then failLaunch s lid 0x0011
  else
    let r := readVirt s (.sched l.die lid) l.actx l.kimg 256
    match r.2 with
    | .error w => schedPark r.1 l none w (.accept lid)
    | .ok bs =>
      let l := { l with header := BitVec.ofNat 2048 (ofLe (bs.map (·.1))) }
      if imageOk l then acceptTable r.1 lid l else failLaunch (r.1.setLaunch lid l) lid 0x0011

/-- The read of a record in another package leaves through a link port, once that may send (R63, R309). -/
def askRecord (s : State) (lid : Nat) (l : Launch) : State :=
  match physKey s l.die l.addr with
  | none => s
  | some key => sideRequest s (some lid) key (.read key 512)

/-- LAUNCH_ACCEPT: the record is read once; checks that waited for a replay are made again from the start. A record in absent memory is
read as zeros, of which the spec says nothing (R70; log 123). -/
def execLaunchAccept (launch : Nat) (s : State) : Host.Outcome State Fault Refusal :=
  .next (match s.launch launch with
    | none => s
    | some l =>
      if !dieGo s l.die then s else
      match l.phase with
      | .taken =>
        if !(physKey s l.die l.addr).all (roomFor s · 1) then s else
        let r := readPlain (askRecord s launch l) l.die l.addr 512
        let l := { l with phase := .waiting, record := BitVec.ofNat 4096 ((r.2.map ofLe).getD 0) }
        if l.status ≠ 0 then settle (r.1.setLaunch launch { l with phase := .stopping, nextTeam := l.gridt }) else
        settle (acceptChecks ((r.1.setLaunch launch { l with order := r.1.seq }).bump) launch l)
      | .waiting => if isParked s l.die (.accept launch) then s else settle (acceptChecks s.bump launch l)
      | _ => s)

/-! ## GRID_COMPLETE (R75, R76) -/

/-- Every team of a launch has ended and nothing of it is outstanding (R75); a pass that all its threads have left runs to
its end first (R44; log 102). -/
def gridDone (s : State) (lid : Nat) (l : Launch) : Bool :=
  !(s.passes.any fun p => p.2.launch == lid) &&
  !(s.teams.any fun t => t.2.launch == lid) && !(s.accs.any fun a => a.2.launch == lid && mustFinish a.2) &&
  (match l.phase with
    | .running => l.ended == l.gridt
    | .stopping | .completing => true
    | _ => false)

/-- STATUS of the completion record (R70). -/
def Launch.final (l : Launch) : Nat := if l.status ≠ 0 then l.status else if l.frozen ≠ 0 then 1 else 0

/-- The 64 bytes of the completion record (R75). -/
def Launch.completion (l : Launch) : List Byte :=
  leBytes 4 l.final ++ leBytes 4 l.frozen ++ leBytes 8 l.passes ++ leBytes 16 l.missing.toNat ++ leBytes 32 0

/-- The completion bend: checked and signalled, or reported (R76). -/
def signalCbend (s : State) (l : Launch) : State :=
  if !l.cben then s
  else
    let b := 65536 * l.die + l.cbend
    if sigCheck (s.bend b) 4 0 0 = none then countSignal s b
    else report s l.die (schedRec s l none 0x22 0x02 7 15 l.cbend)

/-- The launch is over: the die forgets it, with its replicas and multicast marks (R75, R180, R258). -/
def forgetLaunch (s : State) (lid : Nat) (l : Launch) : State :=
  let s := s.updDie l.die fun x =>
    { x with passed := kvDel x.passed lid, passedNow := x.passedNow.filter (· != lid), broken := x.broken.filter (· != lid),
             merges := x.merges.filter fun m => m.2.launch != lid, missing := x.missing.filter fun m => m.launch != lid }
  { s with launches := kvDel s.launches lid }

/-- Drops the read-only replicas of a launch. -/
def dropReplicas (s : State) (lid : Nat) : State :=
  { s with dies := s.dies.map fun d => (d.1, { d.2 with replicas := d.2.replicas.filter fun r => r.launch != lid }) }

/-- GRID_COMPLETE: replicas go, the record is written, the bend is signalled. -/
def execGridComplete (launch : Nat) (s : State) : Host.Outcome State Fault Refusal :=
  .next (match s.launch launch with
    | none => s
    | some l =>
      if !gridDone s launch l ∨ !dieGo s l.die ∨ isParked s l.die (.complete launch) then s
      else
        let s := dropReplicas s launch
        let endIt (s : State) : State := settle (forgetLaunch (signalCbend s l) launch l)
        if l.crec = 0 then endIt s
        else if 4096 ≤ l.actx ∨ l.crec % 64 ≠ 0 then endIt (report s l.die (schedRec s l none 0x21 0x01 7 15 l.addr))
        else
          let w := writeVirt s (.sched l.die launch) l.actx l.crec (l.completion.map fun b => (b, false))
          match w.2 with
          | .ok => endIt w.1
          | e => schedPark (w.1.setLaunch launch { l with phase := .completing, status := l.final }) l none e (.complete launch))

end Sys2Proof.Machine
end

