-- ==== Sys2Proof/Machine/SaveArea.lean ====
section
/-! DEFINITION. The save area: what a save writes and what a resume reads back (spec 03 R80-R83, 11 R264, R273). The team
header's places, the engine state and the second word of a reissue entry have no layout in the spec (log 26). -/
namespace Sys2Proof.Machine

/-! ## Regions (R81) -/

/-- Rounds up to a multiple. -/
def alignUp (n k : Nat) : Nat := (n + k - 1) / k * k

/-- Offsets of the regions in a team's area, and its size S. -/
structure SaveMap where
  threads : Nat
  kregs : Nat
  spad : Nat
  full : Nat
  tiles : Nat
  scales : Nat
  expand : Nat
  engine : Nat
  size : Nat
deriving DecidableEq, Repr

/-- Bytes of a thread record (R82). -/
def recSize (l : Launch) : Nat := 640 + 4 * l.nround

/-- The map of a launch's save areas. -/
def saveMap (l : Launch) : SaveMap :=
  let kregs := alignUp (256 + 32 * l.teamg * recSize l) 256
  let spad := alignUp (kregs + 128) 256
  let full := alignUp (spad + 1024 * l.spadk) 256
  let tiles := alignUp (full + 8 * l.spadk) 256
  let scales := tiles + 65536 * l.ntiles
  let expand := scales + 8192 * l.ntiles
  let engine := expand + 2048
  { threads := 256, kregs := kregs, spad := spad, full := full, tiles := tiles, scales := scales, expand := expand,
    engine := engine, size := alignUp (engine + 4096) 4096 }

/-- Virtual address of the area of team `num` (R81). -/
def saveBase (l : Launch) (num : Nat) : Nat := (l.savea + num * (saveMap l).size) % 2 ^ 64

/-- Bytes without poison. -/
def clean (bs : List Byte) : List (Byte × Bool) := bs.map fun b => (b, false)

/-- One piece of an image: its offset and bytes. -/
abbrev Piece := Nat × List (Byte × Bool)

/-! ## Cancelled items (R80, R82) -/

/-- A reissue entry: the instruction word, the guard result and kind, the address, the operand data. -/
structure Reissue where
  word : Word
  kind : Nat
  addr : Nat
  data : Nat
deriving DecidableEq, Repr

/-- The 32 bytes of an entry. -/
def Reissue.bytes (r : Reissue) : List Byte := leBytes 4 r.word.toNat ++ leBytes 4 r.kind ++ leBytes 8 r.addr ++ leBytes 16 r.data

/-- The entry that 32 bytes hold. -/
def Reissue.ofBytes (bs : List Byte) : Reissue :=
  let v := ofLe bs
  ⟨BitVec.ofNat 32 (bitsOf v 0 32), bitsOf v 32 32, bitsOf v 64 64, bitsOf v 128 128⟩

/-- The kind word: guard result, dropped destination, fall-through, poison, parts done, class (0 access, 1 trap that is
due, 2 wait, 3 carried wait or transfer), stash window, and a number. -/
def kindWord (dropped falls bad : Bool) (done cls w n : Nat) : Nat :=
  1 + 2 * dropped.toNat + 4 * falls.toNat + 8 * bad.toNat + 16 * (done % 4) + 64 * cls + 256 * (w % 8) + 2048 * n

/-- Commands of a team's plane array, the running one first. -/
def Team.mxCmds (t : Team) : List Cmd := (t.mx.map (·.cmd)).toList ++ t.q8

/-- Parts of an access that are done, as a mask; a cancelled load is a fresh read (R230). -/
def doneMask (a : Access) : Nat :=
  match a.kind with
  | .st _ => (a.parts.mapIdx fun i p => if p.done then 2 ^ i else 0).foldl (· + ·) 0
  | _ => 0

/-- Where an access stands among those of its team, in the order in which they issued, and which of its team's passes it
belongs to: the order of R217 lasts over a save. -/
def accPlace (s : State) (t : Team) (id : Nat) : Nat × Nat :=
  let mine := s.accs.filter fun b => b.2.team == t.key
  ((mine.map (·.1)).idxOf id % 2 ^ 15, ((mine.map (·.2.pass)).eraseDups.idxOf (((s.acc id).map (·.pass)).getD 0)) % 64)

/-- The entry of an access. -/
def accReissue (s : State) (t : Team) (id : Nat) (a : Access) : Reissue :=
  let dropped := a.dst.any (128 ≤ ·)
  let p := accPlace s t id
  let n := p.1 + 2 ^ 15 * p.2
  let c := (t.mxCmds.filter (·.seq < id)).length + 32 * p.1
  match a.kind with
  | .stashFill w _ _ _ => ⟨a.word, kindWord dropped false a.poisoned (w / 8) 0 w n, a.va, a.data.toNat⟩
  | .mxrd i x | .mxwr i x => ⟨a.word, kindWord dropped false false 0 0 0 c, 128 * 128 * i + x, a.data.toNat⟩
  | .mxclr i => ⟨a.word, kindWord false false false 0 0 0 c, 128 * 128 * i, 0⟩
  | .expn =>
    let q := t.expq.find? (·.acc == id)
    ⟨a.word, kindWord dropped (!(q.map (·.live)).getD false) false 0 0 0 n, (q.map (·.part)).getD 0, 0⟩
  | .spad .. => ⟨a.word, kindWord dropped true false 0 0 0 n, a.va, a.data.toNat⟩
  | _ => ⟨a.word, kindWord dropped false a.poisoned (doneMask a) 0 0 n, a.va, a.data.toNat⟩

/-- The address that a parked wait needs again. -/
def Wait.addr : Wait → Nat
  | .bend n _ => n
  | .push _ a => a
  | _ => 0

/-- The entries of what a thread carries for points at which it goes on; `lvl` 0: its own, 1 and 2: those of its trap
levels (R55; log 26). -/
def heldReissues (lvl : Nat) (hs : List Held) : List Reissue :=
  hs.map fun h => ⟨h.word, kindWord h.target.isSome h.wait.isSome false lvl 3 0 h.slot, (h.wait.map Wait.addr).getD 0,
    h.point + 2 ^ 64 * h.target.getD 0⟩

/-- What the die scheduler keeps of an access beside its entry: the bytes that a higher lane of its slot writes in its place
(R168), and releases that were performed before it (R222; log 112). -/
def accNote (a : Access) : BitVec 128 × List Owe :=
  (match a.kind with
    | .stashFill _ _ true _ => a.got
    | _ => 0, a.owed)

/-- The entries of a thread in order, with their notes: what it carries, a trap that is due, and its outstanding accesses, its
wait among them. -/
def notedReissues (s : State) (t : Team) (tid : Nat) : List (Reissue × (BitVec 128 × List Owe)) :=
  let th := s.thread tid
  let n := awaitId s tid
  let mine (f : Nat → Bool) := (s.accs.filter fun a => a.2.tid == tid && f a.1 && (match a.2.kind with
      | .pref _ | .await _ => false
      | _ => true)).map fun a => (accReissue s t a.1 a.2, accNote a.2)
  let plain (l : List Reissue) : List (Reissue × (BitVec 128 × List Owe)) := l.map fun r => (r, 0, [])
  plain (heldReissues 0 th.held ++ heldReissues 1 th.trap.held ++ heldReissues 2 th.outer.held ++
  (match th.due with
    | some u => [⟨u.word, kindWord false false false 0 1 0 0, 0, u.cause + 65536 * u.sub⟩]
    | none => [])) ++
  mine (· < n) ++
  plain (match th.status with
    | .parked w => [⟨th.parkWord, kindWord false th.fall.isSome false 0 2 0 (accPlace s t n).1, w.addr, ((th.fall.map (·.toNat)).getD 0)⟩]
    | _ => []) ++ mine (n < ·)

/-- The entries alone. -/
def reissues (s : State) (t : Team) (tid : Nat) : List Reissue := (notedReissues s t tid).map (·.1)

/-! ## A thread's record (R82) -/

/-- LIVE: the registers that a thread's record holds; none of a thread that never goes on (R82; log 26). -/
def liveMask (l : Launch) (t : Thread) : Nat :=
  if !t.live then 0
  else if t.resume then 2 ^ l.nround - 1
  else ((l.blk t.blk).map (·.livein.toNat)).getD 0

/-- The 128-byte header of a thread's record. -/
def threadHeader (l : Launch) (t : Thread) (nreis : Nat) : List Byte :=
  let st := match t.status with
    | .exited => 1
    | .frozen => 2
    | _ => 0
  let preds := ((List.range 7).map fun i => if t.pred i then 2 ^ i else 0).foldl (· + ·) 0
  let d1 := if t.depth = 2 then t.outer else t.trap
  let d2 := if t.depth = 2 then t.trap else t.outer
  leBytes 4 (t.blk % 65536 + 2 ^ 16 * st + 2 ^ 18 * t.depth + 2 ^ 20 * t.resume.toNat + 2 ^ 21 * nreis) ++
  leBytes 4 t.pkt ++ leBytes 4 preds ++ leBytes 4 t.fpmode.toNat ++
  leBytes 8 d1.pc.toNat ++ leBytes 4 d1.cause.toNat ++ leBytes 4 d1.word.toNat ++
  leBytes 8 d2.pc.toNat ++ leBytes 4 d2.cause.toNat ++ leBytes 4 d2.word.toNat ++
  leBytes 16 (liveMask l t) ++ leBytes 64 0

/-- The pieces of a thread's record: header, entries, live registers; a register with an error is written poisoned. -/
def threadPieces (s : State) (l : Launch) (t : Team) (tid : Nat) : List Piece :=
  let live := liveMask l (s.thread tid)
  let th := (s.thread tid).takeKept live.testBit
  let base := (saveMap l).threads + t.rel tid * recSize l
  let rs := reissues s t tid
  (base, clean (threadHeader l th rs.length)) ::
  (base + 128, clean (rs.flatMap Reissue.bytes)) ::
  ((List.range l.nround).filter fun i => live / 2 ^ i % 2 == 1).map fun i =>
    (base + 640 + 4 * i, (leBytes 4 (th.reg i).toNat).map fun b => (b, th.bad.contains i))

/-- What the die scheduler keeps of a saved thread beside its record (R35; log 112). -/
def keptOf (s : State) (l : Launch) (t : Team) (tid : Nat) : KeptThread :=
  let th := s.thread tid
  let live := liveMask l th
  let kept := (th.takeKept live.testBit).kept
  let out := (List.range l.nround).filter fun i => th.live && !live.testBit i && !kept.any (·.1 == i) && (th.reg i != 0 || th.bad.contains i)
  { regs := out.foldl (fun m i => kvPut m i (th.reg i, th.bad.contains i)) kept, notes := (notedReissues s t tid).map (·.2) }

/-- The key of a thread of a launch among what is kept. -/
def keptKey (num rel : Nat) : Nat := 1024 * num + rel

/-- The die scheduler keeps what the records of a team's threads have no place for. -/
def Launch.keepTeam (l : Launch) (s : State) (t : Team) : Launch :=
  t.tids.foldl (fun l tid => { l with kept := kvPut l.kept (keptKey t.num (t.rel tid)) (keptOf s l t tid) }) l

/-! ## The team's record -/

/-- A command as the engine state holds it. -/
def cmdBytes (t : Team) (c : Cmd) : List Byte := leBytes 4 c.by_ ++ leBytes 4 (t.rel c.tid) ++ leBytes 64 c.blk.toNat

/-- A run's command, its progress and whether its output is poisoned. -/
def runBytes (t : Team) (r : Option Run) : List Byte :=
  match r with
  | none => leBytes 88 0
  | some r => cmdBytes t r.cmd ++ leBytes 4 r.row ++ leBytes 8 r.done ++ leBytes 4 r.poisoned.toNat

/-- The slots of the resume points of a team's threads, two bits each, which no record has a place for (log 26). -/
def slotBytes (s : State) (t : Team) : List Byte :=
  (List.range 256).map fun i =>
    BitVec.ofNat 8 (((List.range 4).map fun j =>
      if 4 * i + j < 32 * t.gangs then (s.thread (2048 * t.core + 32 * t.g0 + 4 * i + j)).slot % 4 * 4 ^ j else 0).foldl (· + ·) 0)

/-- The engine state: counts, CPPROG, runs, tokens, commands, cursors, and the slots of resume points. -/
def engineBytes (s : State) (t : Team) : List Byte :=
  leBytes 1 t.q0.length ++ leBytes 1 t.q1.length ++ leBytes 1 t.q8.length ++ leBytes 1 t.q9.length ++
  leBytes 1 t.mx.isSome.toNat ++ leBytes 1 t.cp.isSome.toNat ++ leBytes 2 0 ++ leBytes 8 t.cpprog ++
  runBytes t t.mx ++ runBytes t t.cp ++
  ((List.range 16).flatMap fun i => leBytes 4 ((t.q0.getD i 0).toNat)) ++
  ((List.range 16).flatMap fun i => leBytes 4 ((t.q1.getD i 0).toNat)) ++
  ((List.range 16).flatMap fun i => ((t.q8[i]?).map (cmdBytes t)).getD (leBytes 72 0)) ++
  ((List.range 16).flatMap fun i => ((t.q9[i]?).map (cmdBytes t)).getD (leBytes 72 0)) ++
  ((List.range 64).flatMap fun i => leBytes 4 (kvGetD 0 ((t.tiles.getD (i / 16) Tile.reset).cursors) (i % 16))) ++
  slotBytes s t ++ leBytes 960 0

/-- The team header. -/
def headerBytes (l : Launch) (t : Team) : List Byte :=
  leBytes 4 0x53415645 ++ leBytes 4 t.num ++ leBytes 4 l.teamg ++ leBytes 4 l.nround ++ leBytes 4 l.nkregs ++
  leBytes 4 l.spadk ++ leBytes 4 l.ntiles ++ leBytes 4 0 ++ leBytes 8 t.tpass ++
  leBytes 4 ((decide (t.expand.st ≠ 0)).toNat + 2 * (t.mx.isSome || t.cp.isSome || t.q8 != [] || t.q9 != []).toNat) ++ leBytes 212 0

/-- A tile's elements, row by row. -/
def tileBytes (x : Tile) : List (Byte × Bool) :=
  (List.range 16384).flatMap fun e => (leBytes 4 (kvGetD 0 x.elems e).toNat).map fun b => (b, x.poison.contains e)

/-- A team's bytes of scratchpad, with the poison of their words. -/
def allotBytes (s : State) (t : Team) : List (Byte × Bool) :=
  (List.range (1024 * t.spadK)).map fun i =>
    (cellGet (s.core t.core).spad (t.spadBase + i), spadPoisoned s t.core (t.spadBase + i) 1)

/-- One bit for each granule of the allotment. -/
def fullBytes (s : State) (t : Team) : List Byte :=
  (List.range (8 * t.spadK)).map fun i =>
    BitVec.ofNat 8 (((List.range 8).map fun j => if isFull s t.core (t.spadBase + 16 * (8 * i + j)) then 2 ^ j else 0).foldl (· + ·) 0)

/-- Everything that a save writes, in ascending order (R81). -/
def savePieces (s : State) (l : Launch) (t : Team) : List Piece :=
  let m := saveMap l
  [(0, clean (headerBytes l t))] ++ t.tids.flatMap (threadPieces s l t) ++
  [(m.kregs, clean ((List.range 32).flatMap fun i => leBytes 4 (kvGetD 0 t.kregs i).toNat)),
   (m.spad, allotBytes s t), (m.full, clean (fullBytes s t))] ++
  (t.tiles.mapIdx fun i x => (m.tiles + 65536 * i, tileBytes x)) ++
  (t.tiles.mapIdx fun i x =>
    (m.scales + 8192 * i, (List.range 8192).map fun j => (kvGetD 0 x.scales j, x.scalePoison.contains j))) ++
  [(m.expand, clean t.expand.image), (m.engine, clean (engineBytes s t))]

/-- Writes the pieces of an image at an address; stops at the first fault. -/
def writePieces (s : State) (lid : Nat) (l : Launch) (base : Nat) (ps : List Piece) : State × Touch :=
  ps.foldl (fun r p => match r.2 with
    | .ok => writeVirt r.1 (.sched l.die lid) l.actx ((base + p.1) % 2 ^ 64) p.2
    | _ => r) (s, .ok)

/-! ## Reading back (R83) -/

/-- Bytes of a range of an area that has been read. -/
def areaBytes (img : List (Byte × Bool)) (off n : Nat) : List Byte := ((img.drop off).take n).map (·.1)
def areaNum (img : List (Byte × Bool)) (off n : Nat) : Nat := ofLe (areaBytes img off n)
def areaBad (img : List (Byte × Bool)) (off n : Nat) : Bool := ((img.drop off).take n).any (·.2)

/-- A trap record of a thread's header. -/
def trapAt (img : List (Byte × Bool)) (off : Nat) : TrapRec :=
  { pc := BitVec.ofNat 64 (areaNum img off 8), cause := BitVec.ofNat 32 (areaNum img (off + 8) 4),
    word := BitVec.ofNat 32 (areaNum img (off + 12) 4), held := [] }

/-- A thread from its record: registers outside LIVE read zero until a block that has them in its mask starts (R35, R82; log 112);
a record that was never written starts at block 0 (log 26); PUBADDR, which no record holds, is left open (log 27). -/
def threadOf (l : Launch) (rel num slot : Nat) (pub : DWord) (img : List (Byte × Bool)) : Thread :=
  let w0 := areaNum img 0 4
  let w1 := areaNum img 4 4
  let st := bitsOf w0 16 2
  if st = 3 then
    ({ Thread.reset with status := .pending }.setReg 0 (BitVec.ofNat 32 rel)).setReg 1 (BitVec.ofNat 32 num)
  else
    let depth := bitsOf w0 18 2
    let d1 := trapAt img 16
    let d2 := trapAt img 32
    let live := areaNum img 48 16
    let regs := (List.range l.nround).filter fun i => live / 2 ^ i % 2 == 1
    let t : Thread :=
      { Thread.reset with
        blk := bitsOf w0 0 16, resume := bitsOf w0 20 1 == 1, depth := depth, pkt := w1, slot := slot,
        fpmode := BitVec.ofNat 32 (areaNum img 12 4), trap := if depth = 2 then d2 else d1, outer := if depth = 2 then d1 else d2,
        kept := (((kvGet l.kept (keptKey num rel)).map (·.regs)).getD []).filter fun x => !live.testBit x.1,
        pubaddr := pub, status := if st = 1 then .exited else if st = 2 then .frozen else .pending,
        bad := regs.filter fun i => areaBad img (640 + 4 * i) 4 }
    let t := (List.range 7).foldl (fun t i => t.setPred i (bitsOf (areaNum img 8 4) i 1 == 1)) t
    regs.foldl (fun t i => t.setReg i (BitVec.ofNat 32 (areaNum img (640 + 4 * i) 4))) t

/-- The entries of a thread's record. -/
def reissuesOf (img : List (Byte × Bool)) : List Reissue :=
  (List.range (min 16 (bitsOf (areaNum img 0 4) 21 5))).map fun i => Reissue.ofBytes (areaBytes img (128 + 32 * i) 32)

/-- A command from the engine state. -/
def cmdOf (t : Team) (bs : List Byte) (seq : Nat) : Cmd :=
  { by_ := ofLe (bs.take 4), blk := BitVec.ofNat 512 (ofLe ((bs.drop 8).take 64)),
    tid := 2048 * t.core + 32 * t.g0 + ofLe ((bs.drop 4).take 4), seq := seq }

/-- A run from the engine state. A drain starts again at row 0: rows already written are written again with the same values
(R253, R403; log 111). -/
def runOf (t : Team) (bs : List Byte) (seq : Nat) : Run :=
  { cmd := cmdOf t bs seq, row := 0, done := ofLe ((bs.drop 76).take 8), got := [], status := none,
    poisoned := ofLe ((bs.drop 84).take 4) != 0, olds := [],
    asks := ofLe ((bs.drop 76).take 8) / 256, lay := none }

/-- Distance of the order numbers that restored commands and tile accesses take (R246). -/
def seqStep : Nat := 100000

/-- The queues, runs and progress of a team from the engine state; commands take order numbers from `seq` on. -/
def withEngine (t : Team) (img : List (Byte × Bool)) (seq : Nat) : Team :=
  let n (i : Nat) : Nat := areaNum img i 1
  let mx := n 4 == 1
  let word (off i : Nat) : Word := BitVec.ofNat 32 (areaNum img (off + 4 * i) 4)
  let cmd (off i k : Nat) : Cmd := cmdOf t (areaBytes img (off + 72 * i) 72) (seq + seqStep * k)
  { t with
    cpprog := areaNum img 8 8
    mx := if mx then some (runOf t (areaBytes img 16 88) (seq + seqStep)) else none
    cp := if n 5 = 1 then some (runOf t (areaBytes img 104 88) (seq + seqStep)) else none
    q0 := (List.range (min 16 (n 0))).map (word 192)
    q1 := (List.range (min 16 (n 1))).map (word 256)
    q8 := (List.range (min 16 (n 2))).map fun i => cmd 320 i (i + 1 + mx.toNat)
    q9 := (List.range (min 16 (n 3))).map fun i => cmd 1472 i (i + 2)
    tiles := t.tiles.mapIdx fun i x =>
      { x with cursors := (List.range 16).foldl (fun m g => kvSet 0 m g (areaNum img (2624 + 4 * (16 * i + g)) 4)) [] } }

/-- A tile from its 64 KiB and its 8 KiB of scale memory. -/
def tileOf (elems scales : List (Byte × Bool)) : Tile :=
  { Tile.reset with
    elems := (List.range 16384).foldl (fun m e => kvSet 0 m e (BitVec.ofNat 32 (areaNum elems (4 * e) 4))) []
    poison := (List.range 16384).filter fun e => areaBad elems (4 * e) 4
    scales := (scales.mapIdx fun j b => (j, b.1)).foldl (fun m x => kvSet 0 m x.1 x.2) []
    scalePoison := (List.range 8192).filter fun j => areaBad scales j 1 }

/-! ## Reissuing (R83) -/

/-- The window of a reissued stash access; 8 more for one whose binding has ended. -/
def Reissue.win (r : Reissue) : Nat := bitsOf r.kind 8 3 + 8 * bitsOf r.kind 4 1

/-- The stash sector of a window that stands for an address. -/
def sectorAt (s : State) (t : Team) (w va : Nat) : Nat := (va / 64 * 64 - winGva s t (w % 8)) / 64

/-- What an access instruction's reissue is: its kind, its size and its destination registers. -/
def accOfInstr (s : State) (t : Team) (r : Reissue) (own : Nat × Nat) : Instr → Option (AccKind × Nat × List Nat)
  | .ld sz sx h d _ _ => let n := szBytes sz; some (.ld (sx && decide (n < 4)) h, n, regsFrom (regsFor n) d)
  | .st sz h _ _ _ => some (.st h, szBytes sz, [])
  | .cwb _ _ => some (.cwb, 256, [])
  | .atomAdd sc w o d _ => some (.atom .add w o sc, 4 * wRegs w, regsFrom (wRegs w) d)
  | .atomMin sc w u o d _ => some (.atom (if u then .umin else .min) w o sc, 4 * wRegs w, regsFrom (wRegs w) d)
  | .atomMax sc w u o d _ => some (.atom (if u then .umax else .max) w o sc, 4 * wRegs w, regsFrom (wRegs w) d)
  | .atomAnd sc w o d _ => some (.atom .andB w o sc, 4 * wRegs w, regsFrom (wRegs w) d)
  | .atomOr sc w o d _ => some (.atom .orB w o sc, 4 * wRegs w, regsFrom (wRegs w) d)
  | .atomXor sc w o d _ => some (.atom .xorB w o sc, 4 * wRegs w, regsFrom (wRegs w) d)
  | .atomXchg sc w o d _ => some (.atom .xchg w o sc, 4 * wRegs w, regsFrom (wRegs w) d)
  | .atomFadd sc o d _ => some (.atom .fadd .w32 o sc, 4, regsFrom 1 d)
  | .cas sc w o d _ => some (.atom .cas w o sc, 4 * wRegs w, regsFrom (2 * wRegs w) d)
  | .lup op _ _ _ => some (.lup op, 4, [])
  | .devl _ _ => some (.devl, 64, [])
  | .fence sc k => some (.fence k sc, 0, [])
  | .pubv d => some (.pubv, 8, regsFrom 2 d)
  | .expn d _ => some (.expn, 8, regsFrom 2 d)
  | .ldfe sz clr d _ _ => some (.ldfe clr own.1 own.2, feBytes sz, regsFrom (regsFor (feBytes sz)) d)
  | .lds k d _ _ =>
    if bitsOf r.kind 2 1 = 1 then
      some (.spad false (ldsSigned k) own.1 own.2, ldsBytes k, regsFrom (regsFor (ldsBytes k)) d)
    else some (.stashFill r.win (sectorAt s t r.win r.addr) false (ldsSigned k), ldsBytes k, regsFrom (regsFor (ldsBytes k)) d)
  | .sts sz _ _ _ => some (.stashFill r.win (sectorAt s t r.win r.addr) true false, szBytes sz, [])
  | .mxrd d t _ => some (.mxrd t.toNat (r.addr % 16384), 16, regsFrom 4 d)
  | .mxwr t _ _ => some (.mxwr t.toNat (r.addr % 16384), 16, [])
  | .mxclr t => some (.mxclr t.toNat, 0, [])
  | _ => none

/-- The parts of a reissued access. -/
def reissueParts (k : AccKind) (va n done : Nat) : List Part :=
  match k with
  | .ld .. | .st _ | .atom .. | .lup _ => (partsOf va n).mapIdx fun i p => { p with done := bitsOf done i 1 == 1 }
  | .stashFill .. => [⟨va, 0, n, false⟩]
  | .cwb => [⟨va / 256 * 256, 0, 256, false⟩]
  | .devl => [⟨va / 64 * 64, 0, 64, false⟩]
  | _ => [⟨0, 0, 0, false⟩]

/-- The wait that an instruction parks in again. -/
def waitOfInstr (addr : Nat) : Instr → Option Wait
  | .bwait acq _ _ => some (.bend addr acq)
  | .bar n => some (.bar n.toNat false)
  | .movPop d q => some (.pop q.toNat d.toNat)
  | .mxiss _ => some (.push 1 addr)
  | .mxdrn _ => some (.push 2 addr)
  | .cpiss _ => some (.push 0 addr)
  | .exit => some .exit
  | _ => none

/-- The order number of a reissued access: accesses keep their order, and a tile access its place among the commands. -/
def reissueId (base : Nat) (r : Reissue) (i : Instr) : Nat :=
  match i with
  | .mxrd .. | .mxwr .. | .mxclr _ => base + 1 + seqStep * (r.kind / 2048 % 32) + r.kind / 2048 / 32
  | _ => base + 1 + r.kind / 2048 % 2 ^ 15

/-- A reissued EXPN whose participant's entry records an open iteration receives that one; it neither closes nor deals again
(R273). -/
def reowe (s : State) (tk : Nat) : State :=
  match s.team tk with
  | none => s
  | some t =>
    match t.expq.getLast? with
    | none => s
    | some q =>
      let e := t.expand
      if q.live && e.held.contains q.part && !e.clsd.contains q.part && !(t.expq.dropLast.any fun r => r.live && r.part == q.part) then
        let o := entHown s t q.part
        let v := (entWord s t (o - 32 * e.g0) 0 + entWord s t q.part 24) % 2 ^ 32
        expnResult (s.updTeam tk fun t => { t with expq := t.expq.dropLast }.unowe q.part) q.acc v o true
      else s

/-- Reissues an access; an LDFE's address is resolved again, and one that names no place any more gives a trap that is
due. -/
def reissueAcc (s : State) (tk tid base : Nat) (r : Reissue) (note : BitVec 128 × List Owe) (i : Instr) : State :=
  match s.team tk with
  | none => s
  | some t =>
    let at_ (n : Nat) : Except Nat (Nat × Nat) := match spadResolve s t r.addr n false false with
      | .ok (.phys g p _) => .ok (g, p)
      | .ok _ => .error 1
      | .error e => .error e
    let place : Except Nat (Nat × Nat) := match i with
      | .ldfe sz .. => at_ (feBytes sz)
      | .lds k .. => if bitsOf r.kind 2 1 = 1 then at_ (ldsBytes k) else .ok (0, 0)
      | _ => .ok (0, 0)
    match place with
    | .error sub => setDue s tid 0x0A sub r.word
    | .ok own =>
      match accOfInstr s t r own i with
      | none => s
      | some (kind, n, dst) =>
        let id := reissueId base r i
        let dropped := bitsOf r.kind 1 1 == 1
        let dstP := match i with
          | .expn _ pb => if pb = 7 then none else some pb.toNat
          | _ => none
        let a : Access :=
          { Access.blank tid tk t.launch (base + seqStep * 19 + r.kind / 2048 / 2 ^ 15) kind r.word with
            va := r.addr, size := n, data := if kind.isLdfe then 0 else BitVec.ofNat 128 r.data, dst := if dropped then dst.map fun _ => 999 else dst,
            dstP := if dropped then none else dstP, parts := reissueParts kind r.addr n (bitsOf r.kind 4 2),
            poisoned := bitsOf r.kind 3 1 == 1 && !kind.reads, got := note.1, owed := note.2 }
        let s := (s.setAcc id a).updThread tid fun t => { t with kept := t.kept.filter fun x => !a.dst.contains x.1 }
        match kind with
        | .expn => reowe (s.updTeam tk fun t =>
            { t with expq := t.expq ++ [⟨id, r.addr, 0, bitsOf r.kind 2 1 == 0 && t.expand.owed.contains r.addr⟩] }) tk
        | _ => s

/-- What an entry of class 3 gives a thread to carry again. -/
def heldOfReissue (r : Reissue) : Held :=
  let i := match decodeWord r.word with
    | .ok i => i
    | .error _ => .nop
  ⟨r.data % 2 ^ 64, if bitsOf r.kind 1 1 = 1 then some (r.data / 2 ^ 64) else none,
    if bitsOf r.kind 2 1 = 1 then waitOfInstr r.addr i else none, r.word, r.kind / 2048 % 4⟩

/-- A thread carries it again, at its own level or at one of its trap levels. -/
def carry (t : Thread) (lvl : Nat) (h : Held) : Thread :=
  if lvl = 0 then { t with held := t.held ++ [h] }
  else if lvl = 1 then { t with trap := { t.trap with held := t.trap.held ++ [h] } }
  else { t with outer := { t.outer with held := t.outer.held ++ [h] } }

/-- Reissues one entry of a thread (R83). -/
def reissueOne (s : State) (tk tid base k : Nat) (r : Reissue) (note : BitVec 128 × List Owe) : State :=
  if bitsOf r.kind 6 2 = 1 then setDue s tid (r.data % 65536) (r.data / 65536 % 65536) r.word
  else if bitsOf r.kind 6 2 = 3 then s.updThread tid fun t => carry t (bitsOf r.kind 4 2) (heldOfReissue r)
  else
    match decodeWord r.word with
    | .error _ => s
    | .ok i =>
      match bitsOf r.kind 6 2, waitOfInstr r.addr i with
      | 2, some w =>
        let s := s.updThread tid fun t =>
          { t with kept := t.kept.filter fun x => w ≠ .pop (match w with
                     | .pop q _ => q
                     | _ => 0) x.1,
                   status := .parked w, parkedAt := base + k, parkWord := r.word,
                   fall := if bitsOf r.kind 2 1 = 1 then some (BitVec.ofNat 32 r.data) else none }
        if w = .exit then s
        else s.setAcc (reissueId base r i) (Access.blank tid tk (((s.team tk).map (·.launch)).getD 0) 0 (.await w.acquires) r.word)
      | _, _ => reissueAcc s tk tid base r note i

end Sys2Proof.Machine
end

