-- ==== Sys2Proof/Machine/Sched.lean ====
section
/-! DEFINITION. Placing, saving, discarding and pre-empting teams (spec 03 R71-R74, R77-R85). -/
namespace Sys2Proof.Machine

/-! ## Where a team fits (R72) -/

/-- Teams of a core. -/
def coreTeams (s : State) (g : Nat) : List Team := (s.teams.filter (·.2.core == g)).map (·.2)

/-- The launch of a team, for what it reserves. -/
def teamRegs (s : State) (t : Team) : Nat := t.gangs * ((s.launch t.launch).map (·.nround)).getD 0

/-- Gang row `r` is free. -/
def rowFree (ts : List Team) (r : Nat) : Bool := !ts.any fun t => t.g0 ≤ r && r < t.g0 + t.gangs

/-- The lowest g0 with n free rows. -/
def findRows (ts : List Team) (n : Nat) : Option Nat :=
  (List.range (Config.gangsPerCore + 1 - n)).find? fun g => (List.range n).all fun i => rowFree ts (g + i)

/-- The lowest base of a free range of k KiB. -/
def findSpad (ts : List Team) (k : Nat) : Option Nat :=
  let free (b : Nat) : Bool := !ts.any fun t => 1024 * b < t.spadBase + 1024 * t.spadK && t.spadBase < 1024 * (b + k)
  if Config.spadBytes / 1024 < k then none
  else ((List.range (Config.spadBytes / 1024 + 1 - k)).find? free).map (1024 * ·)

/-- g0 and base of a team of a launch on a core, if it fits. -/
def fitCore (s : State) (l : Launch) (g : Nat) : Option (Nat × Nat) :=
  let ts := coreTeams s g
  if Config.teamsPerCore ≤ ts.length ∨ Config.regsPerSlice < (ts.map (teamRegs s)).foldl (· + ·) 0 + l.teamg * l.nround ∨
      4 < (ts.map (·.tiles.length)).foldl (· + ·) 0 + l.ntiles then none
  else
    match findRows ts l.teamg, findSpad ts l.spadk with
    | some g0, some b => some (g0, b)
    | _, _ => none

/-- Gang rows in use on a core. -/
def rowsUsed (s : State) (g : Nat) : Nat := ((coreTeams s g).map (·.gangs)).foldl (· + ·) 0

/-- The core of a die that qualifies with the fewest occupied rows, tie to the lowest: core, g0, base. -/
def fitDie (s : State) (l : Launch) : Option (Nat × Nat × Nat) :=
  let cs := ((List.range Config.coresPerDie).map (128 * l.die + ·)).filter fun g => (fitCore s l g).isSome
  match minBy (rowsUsed s) cs with
  | none => none
  | some g => (fitCore s l g).map fun x => (g, x.1, x.2)

/-- The SPAD budgets on the launch's path leave room for one more of its teams (R63). -/
def spadRoom (s : State) (l : Launch) : Bool :=
  (spadLimits s l).all fun x =>
    let held := (s.teams.filter fun t => (s.launch t.2.launch).any fun m => m.die == l.die && m.below [x.1]).map (·.2.spadK)
    held.foldl (· + ·) 0 + l.spadk ≤ x.2

/-! ## The ready pool (R71, R73) -/

/-- The next team of a launch: the longest saved, otherwise the lowest unplaced (R71). One that a swap took off comes after those
that waited for the place (R84; log 118). -/
def nextTeamOf (l : Launch) : Option (Nat × Bool) :=
  match l.saved.filter (!l.swapped.contains ·) with
  | n :: _ => some (n, true)
  | [] =>
    match minBy id (l.again ++ (if l.nextTeam < l.gridt then [l.nextTeam] else [])) with
    | some n => some (n, false)
    | none => l.saved.head?.map (·, true)

/-- The launch stands in the ready pool: it waits for no replay of a resume, and is neither suspended nor spent. A launch that is taken
below a node after the request that suspended it is suspended too, which the spec leaves open (R77; log 122). -/
def inPool (s : State) (d lid : Nat) (l : Launch) : Bool :=
  l.die == d && l.phase == .running && (nextTeamOf l).isSome && !l.below (s.die d).suspended && !spent s l &&
  !(match nextTeamOf l with
    | some (n, _) => isParked s d (.place lid n)
    | none => false)

/-- The pool in its order: priority, then acceptance. -/
def pool (s : State) (d : Nat) : List Nat :=
  let ls := s.launches.filter fun x => inPool s d x.1 x.2
  sortBy (fun i => ((s.launch i).map fun l => (15 - prioOf s l) * 2 ^ 80 + l.order).getD 0) (ls.map (·.1))

/-- A launch that eight periods in a row passed over bars those of equal or lower priority until it has placed a team
(R73). -/
def barred (s : State) (d i : Nat) : Bool :=
  (s.die d).passed.any fun j => j.1 != i && 8 ≤ j.2 &&
    (match s.launch i, s.launch j.1 with
      | some a, some b => prioOf s a ≤ prioOf s b
      | _, _ => false)

/-- What the die scheduler places next: the launch, and where. -/
def choosePlace (s : State) (d : Nat) : Option (Nat × Nat × Nat × Nat) :=
  (pool s d).findSome? fun i =>
    if barred s d i then none
    else (s.launch i).bind fun l => if spadRoom s l then (fitDie s l).map fun x => (i, x.1, x.2.1, x.2.2) else none

/-- The launches ahead of a placed one whose own next team fits on no core are passed over (R73). -/
def notePassed (s : State) (d lid : Nat) : State :=
  let ahead := (pool s d).takeWhile (· != lid)
  let passedBy := ahead.filter fun i => (s.launch i).any fun l => (fitDie s l).isNone
  s.updDie d fun x =>
    { x with passedNow := passedBy.foldl natAdd x.passedNow, broken := natAdd x.broken lid, passed := kvDel x.passed lid }

/-! ## Placing (R74, R83) -/

/-- The resident-launch index of a launch on a core, assigned when its first team comes (R38). -/
def assignLidx (c : Core) (lid : Nat) : Core :=
  if c.lidx.any (·.2 == lid) then c
  else
    match (List.range 32).find? fun i => !c.lidx.any (·.1 == i) with
    | none => c
    | some i => { c with lidx := kvPut c.lidx i lid }

/-- An allotment that reads zero with every granule empty (R74). -/
def clearAllot (c : Core) (base n : Nat) : Core :=
  { c with spad := c.spad.filter fun x => !(base ≤ x.1 && x.1 < base + n),
           full := c.full.filter fun q => !(base ≤ 16 * q && 16 * q < base + n),
           spadPoison := c.spadPoison.filter fun w => !(base ≤ 4 * w && 4 * w < base + n) }

/-- A thread as it starts (R24). -/
def Thread.start (tk rel num : Nat) : Thread :=
  ({ Thread.reset with team := tk, status := .pending }.setReg 0 (BitVec.ofNat 32 rel)).setReg 1 (BitVec.ofNat 32 num)

/-- The team's place on its core: index, allotment, and the team as it stands at placement. The core's clock has run while
the core held no team (R337). -/
def putTeam (s : State) (lid : Nat) (l : Launch) (num g g0 base tpass : Nat) : State :=
  let d := s.die l.die
  let s := s.updCore g fun c => { clearAllot (assignLidx c lid) base (1024 * l.spadk) with cyc := max c.cyc d.cyc }
  let t := Team.placed lid num g g0 l.teamg base l.spadk l.ntiles tpass (s.core g).cyc (schedCyc d)
  let kregs := (List.range l.nkregs).foldl (fun m i => kvSet 0 m i (BitVec.ofNat 32 (l.get (1024 + 32 * i) 32))) ([] : Kv Word)
  s.setTeam (64 * g + g0) { t with kregs := kregs }

/-- Places an unplaced team (R24, R74). -/
def placeFresh (s : State) (lid : Nat) (l : Launch) (num g g0 base : Nat) : State :=
  let s := putTeam s lid l num g g0 base 0
  let tk := 64 * g + g0
  let tids := (List.range (32 * l.teamg)).map fun r => (2048 * g + 32 * g0 + r, r)
  let s := tids.foldl (fun s x => s.setThread x.1 (Thread.start tk x.2 num)) s
  let s := s.updLaunch lid fun l =>
    if l.again.contains num then { l with again := l.again.filter (· != num) } else { l with nextTeam := l.nextTeam + 1 }
  tids.foldl (fun s x => enterCensus s x.1) s

/-- The bytes of a saved allotment and its full-empty bits go back (R83). -/
def restoreSpad (c : Core) (base k : Nat) (bytes : List (Byte × Bool)) (full : List Byte) : Core :=
  let grans := (List.range (64 * k)).filter fun i => (full.getD (i / 8) 0).getLsbD (i % 8)
  { c with spad := cellPuts c.spad base (bytes.map (·.1)),
           spadPoison := ((List.range (256 * k)).filter fun w => ((bytes.drop (4 * w)).take 4).any (·.2)).foldl
             (fun p w => natAdd p (base / 4 + w)) c.spadPoison,
           full := grans.foldl (fun f i => natAdd f (base / 16 + i)) c.full }

/-- A resumed thread goes where its entries leave it: parked, waiting for data, or pending. -/
def letIn (s : State) (tid : Nat) (any : Bool) : State :=
  match (s.thread tid).status with
  | .pending => if any then s.updThread tid fun t => { t with status := .dataWait } else enterCensus s tid
  | _ => s

/-- A team's state comes back from the image of its save area, and every entry is reissued (R83). -/
def restoreTeam (s : State) (lid : Nat) (l : Launch) (num g g0 base : Nat) (img : List (Byte × Bool)) : State :=
  let m := saveMap l
  let tk := 64 * g + g0
  let s := putTeam s lid l num g g0 base (areaNum img 32 8)
  let part (off n : Nat) : List (Byte × Bool) := (img.drop off).take n
  let s := s.updCore g fun c => restoreSpad c base l.spadk (part m.spad (1024 * l.spadk)) (areaBytes img m.full (8 * l.spadk))
  let s := s.updTeam tk fun t =>
    let t := { t with
      kregs := (List.range 32).foldl (fun k i => kvSet 0 k i (BitVec.ofNat 32 (areaNum img (m.kregs + 4 * i) 4))) [],
      tiles := (List.range l.ntiles).map fun i => tileOf (part (m.tiles + 65536 * i) 65536) (part (m.scales + 8192 * i) 8192),
      expand := (Expand.ofImage (areaBytes img m.expand 2048)).getD Expand.reset }
    withEngine t (part m.engine 4096) s.seq
  let slot (r : Nat) : Nat := bitsOf (areaNum img (m.engine + 2880 + r / 4) 1) (2 * (r % 4)) 2
  let tids := (List.range (32 * l.teamg)).map fun r => (2048 * g + 32 * g0 + r, r)
  let rec_ (r : Nat) : List (Byte × Bool) := part (m.threads + r * recSize l) (recSize l)
  let s := tids.foldl (fun s x =>
    let pub := Config.resumedPub s.free
    { s with free := s.free + 1 }.setThread x.1 { threadOf l x.2 num (slot x.2) (pub &&& ~~~7#64) (rec_ x.2) with team := tk }) s
  let notes (r : Nat) := ((kvGet l.kept (keptKey num r)).map (·.notes)).getD []
  let items := tids.flatMap fun x => (reissuesOf (rec_ x.2)).mapIdx fun k r => (x.1, r, ((notes x.2)[k]?).getD (0, []))
  let s0 := s
  let s := (items.mapIdx fun k x => (k, x)).foldl (fun s y => reissueOne s tk y.2.1 s0.seq (y.1 + 1) y.2.2.1 y.2.2.2) s
  let s := { s with seq := s0.seq + 20 * seqStep }
  let s := s.updLaunch lid fun l =>
    { l with saved := l.saved.filter (· != num), swapped := l.swapped.filter (· != num), kept := l.kept.filter (·.1 / 1024 != num) }
  let s := tids.foldl (fun s x => letIn s x.1 (items.any (·.1 == x.1))) s
  let s := s.updTeam tk fun t =>
    { t with ended := (leadOf s t).isNone,
             expq := (sortBy id (t.expq.map (·.acc))).filterMap fun n => t.expq.find? (·.acc == n) }
  let ds := s.teams.flatMap fun t => if t.1 = tk then (List.range 8).map (fun n => n) else []
  tickEnd (ds.foldl (fun s n => checkBarrier s tk n) s) tk

/-- Resumes a saved team, once its area can be read (R83, R291). -/
def placeSaved (s : State) (d lid : Nat) (l : Launch) (num g g0 base : Nat) : State :=
  let r := readVirt s (.sched l.die lid) l.actx (saveBase l num) (saveMap l).size
  match r.2 with
  | .error w => schedPark r.1 l (some num) w (.place lid num)
  | .ok img => restoreTeam (notePassed r.1 d lid) lid l num g g0 base img

/-- Places the next team of the first launch of the pool that has one that fits (R71). -/
def placeOne (s : State) (d : Nat) : State :=
  match choosePlace s d with
  | none => s
  | some (lid, g, g0, base) =>
    match s.launch lid with
    | none => s
    | some l =>
      match nextTeamOf l with
      | none => s
      | some (num, saved) =>
        if saved then placeSaved s d lid l num g g0 base else placeFresh (notePassed s d lid) lid l num g g0 base

def execTeamPlace (die : Nat) (s : State) : Host.Outcome State Fault Refusal :=
  .next (if dieGo s die then settle (placeOne s die) else s)

/-! ## Saving and discarding (R57, R79, R80) -/

/-- An access of a team that is to be saved can still be performed or completed. -/
def canPerform (s : State) (id : Nat) (a : Access) : Bool :=
  let d := dieOf a.core
  a.queued ||
  (match a.kind with
    | .ld .. | .st _ | .atom .. | .lup _ | .devl | .cwb => (List.range a.parts.length).any (partReady s id)
    | .pubv => accReady s id && !isParked s d (.access id 0)
    | .ldfe _ g p => accReady s id && isFull s g p
    | .spad .. | .stfe .. | .bsig .. | .fence .. => accReady s id
    | .mxrd .. | .mxwr .. | .mxclr _ => tileReady s id
    | .stashFill .. => accReady s id && !accParked s d id
    | .stashWb .. => true
    | .expn | .await _ | .pref _ => false)

/-- No pass holds a thread of the team, and neither engine has a finished command to retire (R57). -/
def teamStill (s : State) (t : Team) : Bool :=
  !(s.passes.any fun p => p.2.tids.any t.tids.contains) && !(t.mx.any (·.status.isSome)) && !(t.cp.any (·.status.isSome))

/-- The team has quiesced for a save: what is still outstanding waits for a replay, a fill, a stopped command or a deal, and fits
each thread's sixteen entries; signals, scratchpad stores and write-backs are done (R80, R371; log 61). -/
def saveReady (s : State) (tk : Nat) (t : Team) : Bool :=
  teamStill s t && !saveOwes s tk t &&
  !(s.accs.any fun a => a.2.team == tk && (canPerform s a.1 a.2 || (match a.2.kind with
    | .bsig .. | .spad true .. | .stfe .. | .stashWb .. => true
    | _ => false))) &&
  t.tids.all fun tid => (reissues s t tid).length ≤ 16

/-- The team leaves its core, and what it had outstanding is cancelled. -/
def dropTeam (s : State) (tk : Nat) (t : Team) : State := removeTeam (cancelTeam s tk t) tk

/-- TEAM_SAVE: every modified stash sector is written back, BOUND staying as it stands; then the area is written, and the
team's resources are freed (R80, R174). -/
def execTeamSave (team : Nat) (s : State) : Host.Outcome State Fault Refusal :=
  .next (match s.team team with
    | none => s
    | some t =>
      match s.launch t.launch with
      | none => s
      | some l =>
        if t.leave ≠ some .save ∨ t.ended ∨ !saveReady s team t ∨ isParked s l.die (.save team) ∨ !dieGo s l.die then s
        else
          let dirty := t.stash.filter (·.modified)
          if dirty != [] then dirty.foldl (fun s x => startWb s team t x) s
          else
            let w := writePieces s t.launch l (saveBase l t.num) (savePieces s l t)
            match w.2 with
            | .ok => settle (dropTeam (w.1.updLaunch t.launch fun l => { l.keepTeam s t with saved := l.saved ++ [t.num] }) team t)
            | e => schedPark w.1 l (some t.num) e (.save team))

/-- TEAM_DISCARD: stores, signals and the write-backs of its windows complete, then the team is unplaced again (R79, R174). -/
def execTeamDiscard (team : Nat) (s : State) : Host.Outcome State Fault Refusal :=
  .next (match s.team team with
    | none => s
    | some t =>
      let d := dieOf t.core
      if t.leave ≠ some .discard ∨ t.ended ∨ !dieGo s d ∨ !teamStill s t ∨
          (s.accs.any fun a => a.2.team == team && mustFinish a.2) then s
      else
        let s := endWindows s team
        if s.accs.any fun a => a.2.team == team && mustFinish a.2 then settle s
        else settle (dropTeam (s.updLaunch t.launch fun l => { l with again := natAdd l.again t.num }) team t))

/-! ## Pre-emption (R77-R79) -/

/-- Remaining plane-array steps times P of a team's running command (R78, R242). -/
def mxCyclesLeft (s : State) (t : Team) (l : Launch) : Nat :=
  match t.mx with
  | none => 0
  | some r =>
    if r.cmd.by_ ≠ 1 then 0
    else
      let o := mxOp l r.cmd.blk
      let cur := (t.tile o.tile).cursors
      let left (g : Nat) : Nat :=
        (((List.range o.k).drop (kvGetD 0 cur g)).filter fun k => activeFor o (readMaps s t o k) g).length
      (((List.range 16).map left).foldl max 0) * slotPlanes o.fa

/-- Remaining bytes of a team's running copy (R78, R259). -/
def cpBytesLeft (t : Team) (l : Launch) : Nat :=
  match t.cp with
  | none => 0
  | some r =>
    let o := cpOp r.cmd.blk
    let f := o.fmt l
    (match o.kind with
      | 2 => o.rows * o.len
      | 3 => o.len * recBytes (slotFmt f) (planeWidth (slotFmt f))
      | 4 => o.len * 128 * scaleSize (slotKind f)
      | _ => o.len) - r.done

/-- The cost estimator (R78). -/
def estimate (s : State) (t : Team) (l : Launch) (deadline : Nat) : Leave :=
  let d := t.tpass
  let h := l.phint
  let c := (s.core t.core).cyc - t.cyc0
  let e := mxCyclesLeft s t l + (cpBytesLeft t l + 127) / 128
  let drains := d != 0 && h != 0 && ((h - d) * c + d - 1) / d + e ≤ deadline * 35 / 4
  if drains then .drain else if l.pclass && 8 * d < h then .discard else .save

/-- One covered team: a first request estimates it, a later one brings its deadline forward. A team that cannot be saved
drains without a deadline (R78, R79, R85). -/
def coverTeam (s : State) (tk id deadline L : Nat) : State :=
  match s.team tk with
  | none => s
  | some t =>
    match s.launch t.launch with
    | none => s
    | some l =>
      let t := { t with reqs := t.reqs ++ [id] }
      s.setTeam tk (match t.leave with
        | some .drain => { t with deadline := t.deadline.map (min deadline) }
        | some _ => t
        | none =>
          match estimate s t l L with
          | .drain => { t with leave := some .drain, deadline := if l.savea = 0 then none else some deadline }
          | .save => if l.savea = 0 then { t with leave := some .drain, deadline := none } else { t with leave := some .save }
          | o => { t with leave := some o })

/-- An address is a node of the tree, or a launch record that has been taken (R114). A node that the last reading ignores or does not
reach is none, though it be halted or suspended: the spec leaves that open (R65; log 122). -/
def isNode (s : State) (d a : Nat) : Bool :=
  (s.die d).nodes.any (·.addr == a) || s.launches.any fun l => l.2.die == d && l.2.addr == a

/-- Teams of a die below a node. -/
def teamsBelow (s : State) (d a : Nat) : List Nat :=
  (s.teams.filter fun t => (s.launch t.2.launch).any fun l => l.die == d && l.below [a]).map (·.1)

/-- PREEMPT_REQUEST: a write to PREQCTL; with GO the request is taken at once (R77, R114). -/
def execPreemptRequest (die : Nat) (v : DWord) (s : State) : Host.Outcome State Fault Refusal :=
  .next (atPort s die (.preemptRequest die v) fun s =>
    let late := fld (s.die die).preqctl 62 1 = 1 ∧ fld v 62 1 = 0
    let w : DWord := BitVec.ofNat 64 (fld v 0 48 + if late then 2 ^ 62 else 0)
    let s := s.updDie die fun x => { x with preqctl := w }
    if fld v 63 1 = 0 then s
    else
      let a := fld (s.die die).preqnode 7 45 * 128
      if !isNode s die a then reportIgnored s die a
      else
        let L := fld v 0 32
        let deadline := schedCyc (s.die die) + L
        let id := s.seq
        let s := s.bump.updDie die fun x =>
          { x with suspended := natAdd x.suspended a, preqs := x.preqs ++ [⟨id, a, fld v 32 16, deadline⟩] }
        settle (checkPreqs ((teamsBelow s die a).foldl (fun s tk => coverTeam s tk id deadline L) s) die))

/-- DRAIN_DEADLINE: the deadline of a draining team has passed, and it is saved (R79). -/
def execDrainDeadline (team : Nat) (s : State) : Host.Outcome State Fault Refusal :=
  .next (match s.team team with
    | none => s
    | some t =>
      match t.leave, t.deadline with
      | some .drain, some n =>
        if n < schedCyc (s.die (dieOf t.core)) ∧ !t.ended ∧ dieGo s (dieOf t.core) then s.setTeam team { t with leave := some .save, deadline := none } else s
      | _, _ => s)

/-- RESUME_REQUEST: a write to PRES; with GO the node's suspension and a halt at or below it are lifted (R65, R77, R114). -/
def execResumeRequest (die : Nat) (v : DWord) (s : State) : Host.Outcome State Fault Refusal :=
  .next (atPort s die (.resumeRequest die v) fun s =>
    let a := fld v 7 45 * 128
    let s := s.updDie die fun x => { x with pres := BitVec.ofNat 64 a }
    if fld v 63 1 = 0 then s
    else if !isNode s die a then reportIgnored s die a
    else
      settle (s.updDie die fun x =>
        { x with suspended := x.suspended.filter (· != a),
                 halts := x.halts.filter fun h =>
                   !(h.node == a || h.up.contains a || x.nodes.any fun n => n.addr == h.node && n.up.contains a) }))

/-! ## SWAP_TICK (R84) -/

/-- Saves of a launch's long-resident teams, as many as it has waiting. -/
def swapLaunch (s : State) (d lid now interval : Nat) : State :=
  match s.launch lid with
  | none => s
  | some l =>
    let waiting := l.saved.length + l.again.length + (l.gridt - l.nextTeam)
    let old := s.teams.filter fun t =>
      t.2.launch == lid && t.2.leave.isNone && !t.2.ended && t.2.since + interval ≤ now
    if l.die ≠ d ∨ l.phase ≠ .running ∨ l.savea = 0 ∨ l.below (s.die d).suspended then s
    else
      let out := (sortBy (fun tk => ((s.team tk).map (·.since)).getD 0) (old.map (·.1))).take waiting
      let nums := out.filterMap fun tk => (s.team tk).map (·.num)
      out.foldl (fun s tk => s.updTeam tk fun t => { t with leave := some .save })
        (s.updLaunch lid fun l => { l with swapped := nums.foldl natAdd l.swapped })

def execSwapTick (die : Nat) (s : State) : Host.Outcome State Fault Refusal :=
  .next (
    let x := s.die die
    let n := x.swapint.toNat
    if n = 0 ∨ schedCyc x < x.nextSwap ∨ !dieGo s die then s
    else
      let s := s.updDie die fun x => { x with nextSwap := (schedCyc x / n + 1) * n }
      s.launches.foldl (fun s l => swapLaunch s die l.1 (schedCyc x) n) s)

end Sys2Proof.Machine
end

