-- ==== Sys2Proof/Machine/Replay.lean ====
section
/-! DEFINITION. REPLAY: restarting what is parked on a token, and delivering a fault (spec 02 R36-R37, 12 R289-R292). -/
namespace Sys2Proof.Machine

/-- An access restarts from its start: every part of it is made again, each with a fresh walk, and what it had read is dropped. It
holds its thread until it completes (R36, R37). A scratchpad access keeps the bytes that a higher lane writes in its place. -/
def restartAcc (s : State) (id : Nat) : State :=
  match s.acc id with
  | none => s
  | some a =>
    let got := match a.kind with
      | .stashFill .. => a.got
      | _ => 0
    a.parts.foldl (fun s p => dropTlb s (dieOf a.core) (a.ctx s) p.va)
      (s.setAcc id { a with parts := a.parts.map fun p => { p with done := false }, got := got, poisoned := false })

/-- A requester of a token that a replay names restarts (R291): an engine, a fetch and the die scheduler make their access again
as they go on. -/
def restart (s : State) : Parked → State
  | .access id _ => restartAcc s id
  | _ => s

/-- A token is no longer outstanding. -/
def dropToken (s : State) (d tok : Nat) : State := s.updDie d fun x => { x with tokens := kvDel x.tokens tok }

/-- REPLAY with ACTION 00 (R291): the events of the restarted requesters can happen again, and no translation cached before serves
them. -/
def execReplayAccess (die token : Nat) (s : State) : Host.Outcome State Fault Refusal :=
  .next (atPort s die (.replayAccess die token) fun s =>
    match kvGet (s.die die).tokens token with
    | none => s
    | some t => settle (t.who.foldl restart (dropTlb (dropToken s die token) die t.fault.ctx t.fault.addr)))

/-- A thread's access is not performed; the thread takes the trap when it would enter its successor. -/
def deliverAcc (s : State) (d : Nat) (r : FRec) (id : Nat) : State :=
  match s.acc id with
  | none => s
  | some a => setDue ((unparkAcc s d id a.parts.length).delAcc id) a.tid r.cause r.sub a.word

/-- Every thread pending at the block takes the trap, with TPC at the packet at which it would have entered; the word is
0. -/
def deliverFetch (s : State) (r : FRec) (core blk lidx : Nat) : State :=
  let es := (s.core core).census.filter fun e => e.blk == blk && e.lidx == lidx
  let tids := es.flatMap (·.tids)
  let pc (tid : Nat) : DWord := BitVec.ofNat 64 (((launchOf s tid).map fun l => l.pktVa (s.thread tid).pkt).getD 0)
  tids.foldl (fun s tid => enterTrap s tid r.cause r.sub 0 (pc tid)) (leaveCensus s core tids)

/-- The fault of one requester is delivered (R291). A completion record whose write faulted is not written. -/
def deliver (d : Nat) (r : FRec) (s : State) : Parked → State
  | .access id _ => deliverAcc s d r id
  | .fetch core blk _ lidx => deliverFetch s r core blk lidx
  | .matrix tk => endRun s tk false 4
  | .copy tk => endRun s tk true 4
  | .accept lid | .place lid _ => stopLaunch s lid
  | .save tk => match s.team tk with
    | none => s
    | some t => stopLaunch s t.launch
  | .complete lid => s.updLaunch lid fun l => { l with record := setFld l.record 768 64 0 }

/-- REPLAY with ACTION 01 (R291). -/
def execReplayDeliver (die token : Nat) (s : State) : Host.Outcome State Fault Refusal :=
  .next (atPort s die (.replayDeliver die token) fun s =>
    match kvGet (s.die die).tokens token with
    | none => s
    | some t => settle (t.who.foldl (deliver die t.fault) (dropToken s die token)))

end Sys2Proof.Machine
end

