-- ==== Sys2Proof/Machine/Inval.lean ====
section
/-! DEFINITION. Invalidations and revocations (spec 07 R180, R189, 08 R202, 12 R286). -/
namespace Sys2Proof.Machine

/-! ## TLBINVC (R115, R286) -/

/-- TLBINVC and its fields. -/
def invGo (v : DWord) : Bool := v.getLsbD 63
/-- What TLBINVC stores of a value written, without GO. -/
def invFields (v : DWord) : DWord := BitVec.ofNat 64 (fld v 32 16 * 2 ^ 32 + fld v 16 2 * 2 ^ 16 + fld v 0 16)

/-- Who must acknowledge: every die that is not absent, and every link port that is ready. -/
def invReceivers (s : State) : List Nat :=
  (List.range 8).filter (dieUp s) ++ ((List.range 32).filter fun p => (s.port p).ready).map (8 + ·)

/-- A write to TLBINVC whose KIND is `kind`: with GO, the request is broadcast; while GO reads 1, nothing starts. -/
def writeInval (s : State) (d kind : Nat) (v : DWord) : State :=
  let x := s.die d
  if fld v 16 2 ≠ kind ∨ (invGo x.tlbinvc ∧ invGo v) then s
  else if !invGo v then
    s.setDie d { x with tlbinvc := invFields v ||| (x.tlbinvc &&& 0x8000000000000000#64) }
  else
    let r := invReceivers s
    s.setDie d { x with
      tlbinvc := invFields v ||| 0x8000000000000000#64
      inval := some { kind := kind, ctx := fld v 0 16, va := fld x.tlbinva 12 45 * 4096, count := fld v 32 16 + 1,
                      toReach := r, toAck := [] } }

def execTlbInvalidatePages (die : Nat) (v : DWord) (s : State) : Host.Outcome State Fault Refusal :=
  .next (atPort s die (.tlbInvalidatePages die v) fun s => writeInval s die 0 v)
def execTlbInvalidateContext (die : Nat) (v : DWord) (s : State) : Host.Outcome State Fault Refusal :=
  .next (atPort s die (.tlbInvalidateContext die v) fun s => writeInval s die 1 v)
def execTlbInvalidateAll (die : Nat) (v : DWord) (s : State) : Host.Outcome State Fault Refusal :=
  .next (atPort s die (.tlbInvalidateAll die v) fun s => writeInval s die 2 v)

/-- The invalidation covers n bytes from an address of a context (R115). -/
def Inval.covers (i : Inval) (ctx va n : Nat) : Bool :=
  match i.kind with
  | 0 => ctx == i.ctx && va % 2 ^ 57 < i.va + 4096 * i.count && i.va < va % 2 ^ 57 + n
  | 1 => ctx == i.ctx
  | _ => true

/-- Latent copies of a die's L1s whose records hold a covered page (R202). -/
def coveredCopies (d : Nat) (i : Inval) : Sec → List LCopy
  | .latent _ copies => copies.filter fun c => c.num < 1024 && dieOf c.num == d && c.pages.any fun p => i.covers p.1 (4096 * p.2) 4096
  | _ => []

/-- These merge early (R202), unless something that the merge needs stands still (R317). -/
def surrender (s : State) (d : Nat) (i : Inval) : State :=
  s.dir.foldl (fun s e => (coveredCopies d i e.2).foldl (fun s c =>
    if mergeStill s e.1 c.num then s else flushHome (doEarlyMerge s e.1 c.num) e.1) s) s

/-- The walk-cache entry stands on the path to a covered page (R286). -/
def Inval.coversTable (i : Inval) (x : WalkEnt) : Bool :=
  i.covers x.ctx (x.region * 2 ^ (leafLog x.lvl + 9)) (2 ^ (leafLog x.lvl + 9))

/-- An access of a die that was translated under a dropped entry and is neither complete nor parked: a write-back of a stash
sector, which keeps the place that its fill found, or a multicast request held in a merge (R286 step 3); or a latent copy that could
not merge yet (R202, R309, R317). -/
def stillUnder (s : State) (d : Nat) (i : Inval) : Bool :=
  (s.accs.any fun a => dieOf a.2.core == d && !accParked s d a.1 && (match a.2.kind with
    | .stashWb .. => a.2.parts.any fun p => i.covers (a.2.ctx s) p.va 64
    | _ => false)) ||
  ((s.die d).merges.any fun m => m.2.pages.any fun p => i.covers (((s.launch m.2.launch).map (·.actx)).getD 0) (4096 * p) 4096) ||
  s.dir.any fun e => !(coveredCopies d i e.2).isEmpty

/-- A receiver drops its translations and replicas, and its latent copies (R286, R180, R202). -/
def receiveInval (s : State) (d : Nat) (i : Inval) : State :=
  let ctxOf (l : Nat) : Nat := ((s.launch l).map (·.actx)).getD i.ctx
  let s := s.updDie d fun x =>
    { x with tlb := x.tlb.filter fun t => !i.covers t.ctx t.va t.size,
             walkc := x.walkc.filter fun w => !i.coversTable w,
             replicas := x.replicas.filter fun r => !i.covers (ctxOf r.launch) (4096 * r.page) 4096 }
  let out (c : Core) : Core := { c with tlb := c.tlb.filter fun t => !i.covers t.ctx t.va t.size }
  surrender { s with cores := s.cores.map fun c => if dieOf c.1 = d then (c.1, out c.2) else c } d i

/-- INVALIDATION_REQUEST: a die or link port receives the request of die `src`, acts on it and, once what it must wait for is
done, acknowledges. -/
def execInvalidationRequest (src receiver : Nat) (s : State) : Host.Outcome State Fault Refusal :=
  .next (match (s.die src).inval with
    | none => s
    | some i =>
      if !i.toReach.contains receiver ∨ (receiver < 8 ∧ !dieGo s receiver) ∨ s.hubStopped then s
      else
        let s := if receiver < 8 then receiveInval s receiver i else s
        if receiver < 8 && stillUnder s receiver i then settle s else
        let i' : Inval := { i with toReach := i.toReach.filter (· != receiver), toAck := i.toAck ++ [receiver] }
        settle (s.updDie src fun x => { x with inval := some i' }))

/-- A receiver that has answered; GO reads 0 once every one has. -/
def countAck (s : State) (src receiver : Nat) : State :=
  match (s.die src).inval with
  | none => s
  | some i =>
    let i := { i with toReach := i.toReach.filter (· != receiver), toAck := i.toAck.filter (· != receiver) }
    s.updDie src fun x =>
      if i.toReach.isEmpty && i.toAck.isEmpty then { x with inval := none, tlbinvc := invFields x.tlbinvc }
      else { x with inval := some i }

/-- INVALIDATION_ACK: the acknowledgement reaches the initiator. -/
def execInvalidationAck (src receiver : Nat) (s : State) : Host.Outcome State Fault Refusal :=
  .next (match (s.die src).inval with
    | none => s
    | some i => if !i.toAck.contains receiver ∨ !dieGo s src then s else countAck s src receiver)

/-! ## EXPREVOKE (R189) -/

/-- The range of an export entry: first die-physical address and bytes. -/
def exportRange (s : State) (d idx : Nat) : State × Option (Nat × Nat) :=
  let b := (s.die d).exptbase
  if tableSize b ≤ idx then (s, none)
  else
    let r := readPhys s d (tableBase b + 32 * idx) 32
    (r.1, r.2.map fun bs => (ofLe ((bs.drop 16).take 8), ofLe ((bs.drop 8).take 8)))

/-- A cache of another die holds the sector. -/
def heldAway (d : Nat) : Sec → Bool
  | .shared hs => hs.any fun h => dieOf h.num != d
  | .excl h | .modified h _ => dieOf h.num != d
  | .latent _ cs => cs.any fun c => c.num ≥ 1024 || dieOf c.num != d

/-- A sector lies in a range of a die. -/
def inRange (d : Nat) (r : Nat × Nat) (k : Nat) : Bool :=
  let lo := 2 ^ 38 * d + r.1
  lo < 64 * k + 64 && 64 * k < lo + r.2 && 64 * k / 2 ^ 38 == d

/-- A non-coherent copy of an importer goes home, behind a develop of its sector (R197). -/
def recallNc (s : State) (d g k : Nat) : State :=
  let w := waitAt s k (.revokeComplete d)
  if w.2 then w.1 else ncWriteBack w.1 g k none

/-- Non-coherent copies of a range of a die that the cores of other dies hold: core and sector. -/
def ncAway (s : State) (d : Nat) (r : Nat × Nat) : List (Nat × Nat) :=
  (s.cores.filter fun c => dieOf c.1 != d).flatMap fun c => (c.2.nc.filter fun x => inRange d r x.1).map fun x => (c.1, x.1)

/-- The hub writes back and invalidates what importers hold of a range of a die, their non-coherent copies and replicas among
it, and develops every latent sector of the range (R189 step 3, R204). What a die holds whose clock is stopped stays until it runs
again (R317). -/
def recallRange (s : State) (d : Nat) (r : Nat × Nat) : State :=
  let s := s.dir.foldl (fun s e =>
    if !inRange d r e.1 then s
    else
      match e.2 with
      | .latent .. => startDevelop s e.1
      | c => if heldAway d c && !keyWaits s d (64 * e.1) then toHome s e.1 else s) s
  let s := (ncAway s d r).foldl (fun s x =>
    if clockStopped s (dieOf x.1) || keyWaits s (dieOf x.1) (64 * x.2) then s else recallNc s d x.1 x.2) s
  let out (x : Die) : Die := { x with replicas := x.replicas.filter fun y => !inRange d r y.key }
  { s with dies := s.dies.map fun y => if y.1 = d || y.2.stopped then y else (y.1, out y.2) }

/-- A develop of the range is still under way, or a die that stands still holds something of it yet. -/
def recalling (s : State) (d : Nat) (r : Nat × Nat) : Bool :=
  (s.devs.any fun v => inRange d r v.1) || (s.dir.any fun e => inRange d r e.1 && heldAway d e.2) || !(ncAway s d r).isEmpty ||
  s.dies.any fun y => y.1 != d && y.2.replicas.any fun x => inRange d r x.key

/-- Every die and core drops its translations into the exporter (R189 step 2). -/
def dropPeer (s : State) (d : Nat) : State :=
  let out (l : List Tlb) : List Tlb := l.filter fun t => !(fld t.pte 56 1 == 1 && fld t.pte 52 4 == d)
  { s with dies := s.dies.map fun y => (y.1, { y.2 with tlb := out y.2.tlb }),
           cores := s.cores.map fun y => (y.1, { y.2 with tlb := out y.2.tlb }) }

/-- A write to EXPREVOKE with GO: every die drops its translations into the exporter, and the range is recalled. Later
accesses meet the entry as system software has left it (R188). -/
def writeRevoke (s : State) (d : Nat) (v : DWord) : State :=
  let x := s.die d
  let go := 0x8000000000000000#64
  if x.exprevoke.getLsbD 63 ∧ v.getLsbD 63 then s
  else if !v.getLsbD 63 then
    s.setDie d { x with exprevoke := BitVec.ofNat 64 (fld v 0 16) ||| (x.exprevoke &&& go) }
  else
    let s := dropPeer (s.setDie d { x with exprevoke := BitVec.ofNat 64 (fld v 0 16) ||| go }) d
    let r := exportRange s d (fld v 0 16)
    let s := r.1.updDie d fun x => { x with revoke := r.2 }
    match r.2 with
    | none => s
    | some x => settle (recallRange s d x)

def execExprevoke (die : Nat) (v : DWord) (s : State) : Host.Outcome State Fault Refusal :=
  .next (atPort s die (.exprevoke die v) fun s => writeRevoke s die v)

/-- REVOKE_COMPLETE: what importers have taken since is recalled as well; once nothing of the range develops, no access that
passed the check is still on its way, and GO reads 0. -/
def execRevokeComplete (die : Nat) (s : State) : Host.Outcome State Fault Refusal :=
  .next (
    let x := s.die die
    if !x.exprevoke.getLsbD 63 ∨ !dieGo s die then s
    else
      let s := match x.revoke with
        | none => s
        | some r => recallRange s die r
      if x.revoke.any (recalling s die ·) then settle s
      else settle (s.updDie die fun x => { x with exprevoke := x.exprevoke &&& 0xFFFF#64, revoke := none }))

end Sys2Proof.Machine
end

