-- ==== Sys2Proof/Machine/Links.lean ====
section
/-! DEFINITION. The link ports (spec 08 R205, R206, 13 R307-R311). -/
namespace Sys2Proof.Machine

/-- An interrupt vector fires on every die device that is up (R307). -/
def vectorAll (s : State) (v : Nat) : State := ((List.range 8).filter (dieUp s)).foldl (fun s d => s.emit (.msix d v)) s

/-- Writes a record of a port, if one of its two dies is up to hold it (R5; log 66). -/
def portReport (s : State) (i : Nat) (r : FRec) : State := if dieUp s (portDie s i) then report s (portDie s i) r else s

/-! ## A link goes down (R309) -/

/-- n bytes of no known value, under a mark of poison. -/
def junk (s : State) (n : Nat) : State × Nat :=
  ({ s with free := s.free + n }, ofLe ((List.range n).map fun i => Config.linkJunk (s.free + i)))

/-- The port that a part of an access leaves through, if it leaves the package. -/
def partPort (s : State) (a : Access) (p : Part) : Option Nat :=
  match (keyOf s (dieOf a.core) (a.ctx s) p.va).bind farPackage with
  | some q => portFor s q
  | none => none

/-- A part that was under way through the port completes: a read with poisoned data, anything else with a record. -/
def completePart (s : State) (i id part : Nat) : State :=
  match s.acc id with
  | none => s
  | some a =>
    match a.parts[part]? with
    | none => s
    | some p =>
      let k := (keyOf s (dieOf a.core) (a.ctx s) p.va).getD 0
      let r : FRec := { threadRec s a.tid 0x23 8 a.kind.xacc.code 15 k with req := 6 }
      let j := junk s p.n
      let got := setFld a.got (8 * p.off) (8 * p.n) j.2
      match a.kind with
      | .ld .. => partDone j.1 id part got true
      | .stashFill _ _ false _ => finishAcc (setDue j.1 a.tid 0x18 0 a.word) id got.toNat
      | .pref _ | .devl => s.delAcc id
      | .atom .. => portReport (partDone j.1 id part got false) i r
      | .stashFill .. | .stashWb .. | .cwb => portReport (s.delAcc id) i r
      | _ => portReport (partDone s id part a.got false) i r

/-- Parts of outstanding accesses that are under way through a port. -/
def partsThrough (s : State) (i : Nat) : List (Nat × Nat) :=
  s.accs.flatMap fun a =>
    if accReady s a.1 || a.2.queued then
      (List.range a.2.parts.length).filterMap fun n =>
        match a.2.parts[n]? with
        | some p => if !p.done && partPort s a.2 p == some i && !isParked s (dieOf a.2.core) (.access a.1 n)
            then some (a.1, n) else none
        | none => none
    else []

/-- The port answers the collects that have reached it with a composite whose elements are all poisoned (R206). -/
def poisonBeyond (s : State) (i : Nat) : State :=
  let h := 1040 + i
  s.devs.foldl (fun s v =>
    if v.2.toCollect.contains h ∨ v.2.sent.contains h then
      gotComposite { s with devs := kvPut s.devs v.1 { v.2 with sent := natAdd v.2.sent h } } v.1 ⟨h, 0, List.range 16, true⟩
    else s) s

/-- A develop of another package's sector that this port was to send home goes on without it: what reports to the port, or has
reported, goes on to the way home that is left, or stays with what this package keeps (log 98). -/
def cutOff (s : State) (i : Nat) : State :=
  let top := 1040 + i
  let home (v : Dev) : Gather := kvGetD ⟨[], []⟩ v.gathers homeGather
  s.devs.foldl (fun s x =>
    let k := x.1
    let v := x.2
    let at_ : Gather := home v
    match kvGet s.dir k with
    | some (.latent _ cs) =>
      if (farPackage (64 * k)).isNone || !at_.await.contains top then s
      else
        match kvGet v.gathers top with
        | some g =>
          let g : Gather := ⟨at_.await.filter (· != top) ++ g.await, at_.got ++ g.got⟩
          { s with devs := kvPut s.devs k { v with gathers := kvPut (kvDel v.gathers top) homeGather g } }
        | none =>
          if v.toCollect.contains top then
            let rs := reporters s k homeGather cs
            { s with devs := kvPut s.devs k { v with
                toCollect := v.toCollect.filter (· != top) ++ rs,
                gathers := kvPut v.gathers homeGather ⟨at_.await.filter (· != top) ++ rs, at_.got⟩ } }
          else s
    | _ => s) s

/-- Signals that went out through the port and that no answer will count any more are outstanding no longer, with a record. -/
def loseSignals (s : State) (i pkg : Nat) : State :=
  s.accs.foldl (fun s a =>
    match a.2.kind with
    | .bsig p _ _ _ =>
      if a.2.queued && p == pkg then
        portReport (s.delAcc a.1) i { threadRec s a.2.tid 0x23 8 7 15 0 with req := 6 }
      else s
    | _ => s) s

/-- One more, up to a bound. -/
def satTo (n m : Nat) : Nat := min m (n + 1)

/-- LINK_DOWN: the port reports its link down; what waits for it is answered (R309, R206, R286). -/
def linkDown (s : State) (i : Nat) : State :=
  let x := s.port i
  if !x.ready then s
  else
    let ps := partsThrough s i
    let s := loseSignals (poisonBeyond (ps.foldl (fun s p => completePart s i p.1 p.2) s) i) i x.peer
    let s := s.setPort i { x with
      ready := false, stopped := false, saidStop := false, expect := 0, nextSeq := 0, retry := [], unsent := [],
      fails := 0, downs := satTo x.downs 127 }
    let s := portReport (cutOff s i) i (FRec.plain 6 0x23 8 0)
    let s := vectorAll (vectorAll s 1) 2
    settle ((List.range 8).foldl (fun s d => countAck s d (8 + i)) s)

/-! ## Messages -/

/-- The key of which a message asks its home something, so that a develop goes before it. -/
def msgKey : LinkMsg → Option Nat
  | .read key _ | .write key _ | .dirty key .. | .atomic key .. | .latent key _ => some key
  | .collect .. | .composite .. | .signal .. | .counted .. | .data .. | .other => none

/-- The die whose home or bend it needs. -/
def msgDie : LinkMsg → Option Nat
  | .signal die .. => some die
  | .composite key .. => homeDie key
  | m => (msgKey m).bind homeDie

/-- Data flits that carry n bytes (R308). -/
def dataFlits (n : Nat) : Nat := (n + Config.flitBytes - 1) / Config.flitBytes

/-- Sends n bytes as the answer to a read, in as many flits as they take. -/
def sendData (s : State) (i : Nat) (bs : List Byte) (bad : List Nat) : State :=
  (List.range (dataFlits bs.length)).foldl (fun s j =>
    let lo := Config.flitBytes * j
    let part := (bs.drop lo).take Config.flitBytes
    sendFlit s i (.data part ((bad.filter fun b => lo ≤ b && b < lo + part.length).map (· - lo)))) s

/-- A request of another package for a latent copy: the home grants it, and the port reports for what lies beyond (R194, R198,
R205). -/
def farLatent (s : State) (i key : Nat) (op : LupOp) : State :=
  let k := key / 64
  let port : LCopy := ⟨1040 + i, identSec op, [], []⟩
  let s := heatTick s k
  match kvGet s.dir k with
  | some (.latent op' cs) =>
    if op' = op then { s with dir := kvPut s.dir k (.latent op (cs.filter (·.num != 1040 + i) ++ [port])) } else s
  | _ => let s := toHome s k; { s with dir := kvPut s.dir k (.latent op [port]) }

/-- A collect of the home package: this side's composite is formed as a develop's is, die cache by die cache, and goes out when it
is whole; where nothing is held, it is the identity (R199, R205). -/
def farCollect (s : State) (i key : Nat) (op : LupOp) : State :=
  let k := key / 64
  let s := match kvGet s.devs k, kvGet s.dir k with
    | none, some (.latent _ (_ :: _)) => startDevelop s k
    | _, _ => s
  match kvGet s.devs k with
  | some v => { s with devs := kvPut s.devs k { v with asked := true } }
  | none => sendFlit s i (.composite key op (identSec op) [] true)

/-- A composite of another package: the answer to a collect that a develop awaits, or else one that an eviction sends, which merges early,
while the port's answer is awaited still; of a sector of a third package it goes on as this side's (R201, R205). -/
def farComposite (s : State) (i key : Nat) (op : LupOp) (data : SecData) (poison : List Nat) (answer : Bool) : State :=
  let k := key / 64
  let r : Report := ⟨1040 + i, data, poison, false⟩
  let sent := (kvGet s.devs k).any (·.sent.contains r.num)
  match kvGet s.dir k with
  | some (.latent op' cs) =>
    if op' = op then
      if answer && sent then gotComposite s k r else mergeEarly s k op (if sent then cs else cs.filter (·.num != r.num)) r
    else mergeHome s k op r
  | _ => mergeHome (toHome s k) k op r

/-- An ATOM or CAS of another package is performed at the home, which no cache holds then, and answered (R211, R212). It is one request
of its slice (R301). -/
def farAtomic (s : State) (i key : Nat) (op : AtomOp) (w : Width) (v : Nat) : State :=
  let n := 4 * wRegs w
  let s := toHome (heatTick s (key / 64)) (key / 64)
  let x := atomNew op w (ofLe (cellGets s.mem key n)) v
  let bad := poisoned s key n
  sendFlit (if bad then s else writeHome s key (leBytes n x.1)) i
    (.data (leBytes (n + n) x.2) (if bad then List.range n else []))

/-- What a message asks of this package; one for a die that is not up has no effect. -/
def serveMsg (s : State) (i : Nat) (m : LinkMsg) : State :=
  if !(msgDie m).all (dieUp s) then s
  else
    match m with
    | .read key n =>
      let r := readBy s (some (.port i)) key n
      let bad := (List.range n).filter fun j => poisoned r.1 (key + j) 1
      flushHome (sendData r.1 i r.2 bad) (key / 64)
    | .write key bs => flushHome (storeHome s key bs) (key / 64)
    | .dirty key data mask bad => flushHome (ncHome s (key / 64) data mask bad) (key / 64)
    | .atomic key op w v => farAtomic s i key op w v
    | .latent key op => farLatent s i key op
    | .collect key op => farCollect s i key op
    | .composite key op data poison answer => flushHome (farComposite s i key op data poison answer) (key / 64)
    | .signal die num party lrec team =>
      if sigCheck (s.bend (65536 * die + num)) party lrec team = none then
        sendFlit (countSignal s (65536 * die + num)) i (.counted die num)
      else s
    | .counted die num => signalCounted s (s.port i).peer die num
    | .data .. | .other => s

/-- Flits that the answer to a message takes. -/
def answerFlits : LinkMsg → Nat
  | .read _ n => dataFlits n
  | .atomic .. | .collect .. | .signal .. => 1
  | _ => 0

/-- What a message needs that stands still: a die, or the hub as number 8 (R317). One that goes through this package passes though
clocks on its way stand still (log 92). -/
def msgStill (s : State) (m : LinkMsg) : Option Nat :=
  match msgDie m with
  | none => none
  | some d => if clockStopped s d then some d else (msgKey m).bind (keyStill s d)

/-- Its answer can leave, and so can what a composite takes that goes on to a third package (R309). -/
def mayAnswer (s : State) (i : Nat) (m : LinkMsg) : Bool :=
  (answerFlits m == 0 || flitRoom (s.port i) (answerFlits m)) &&
  (match m with
    | .composite key .. => roomFor s key 2
    | _ => true)

/-- What a message that has left the receive buffer waits for: a clock that stands still, of a die or of the hub as number 8 (R317); or
the develop of a sector (R197). -/
inductive Hold
  | still (die : Nat)
  | develop (k : Nat)
deriving DecidableEq, Repr

/-- What becomes of a flit: it is served or has gone on; its answer has no room, so it stays; or it waits. -/
inductive Fate
  | served
  | stays
  | waits (h : Hold)
deriving DecidableEq, Repr

/-- What a message asks for develops first, if it is latent: a read, a write, an ATOM, or a request for a latent copy under
another operator. A request waits behind a develop under way (R196, R197). -/
def msgWaits (s : State) (m : LinkMsg) : State × Option Hold :=
  match msgKey m with
  | none => (s, none)
  | some key =>
    let k := key / 64
    let other : Bool := match m, kvGet s.dir k with
      | .latent _ op, some (.latent op' _) => op' != op
      | _, some (.latent ..) => true
      | _, _ => false
    let s := if other then startDevelop s k else s
    (s, if (kvGet s.devs k).isSome then some (.develop k) else none)

/-- A request for a latent copy of a third package's sector passes: this package, which collects what lies beyond the port, notes
it. Another operator's copies must be collected first (R196, R205). -/
def noteBeyond (s : State) (i key : Nat) (op : LupOp) : State × Option Hold :=
  let k := key / 64
  let port : LCopy := ⟨1040 + i, identSec op, [], []⟩
  if (farPackage key).isNone then (s, none)
  else
    let w := msgWaits s (.latent key op)
    if w.2.isSome then w
    else
      match kvGet s.dir k with
      | some (.latent _ cs) => ({ s with dir := kvPut s.dir k (.latent op (cs.filter (·.num != 1040 + i) ++ [port])) }, none)
      | _ => let s := toHome s k; ({ s with dir := kvPut s.dir k (.latent op [port]) }, none)

/-- A flit for another package goes on through the port that reaches it (R308; log 9); a composite that this package collects is
merged with its own side's (R199, R205). -/
def passOn (s : State) (i : Nat) (f : Flit) (m : LinkMsg) : State × Fate :=
  match portFor s f.dest with
  | none => (s, .served)
  | some j =>
    if !flitRoom (s.port j) 2 then (s, .stays)
    else
      let on (s : State) : State × Fate := (sendFlitTo s j f.dest m, .served)
      match m with
      | .latent key op =>
        let r := noteBeyond s i key op
        (match r.2 with
          | some h => (r.1, .waits h)
          | none => on r.1)
      | .composite key op data bad answer =>
        (match kvGet s.dir (key / 64) with
          | some (.latent _ cs) =>
            if cs.any (·.num == 1040 + i) || (kvGet s.devs (key / 64)).any (·.sent.contains (1040 + i)) then
              (farComposite s i key op data bad answer, .served)
            else on s
          | _ => on s)
      | _ => on s

/-- Serves a flit, if it can be served (R308, R317). A link that is down carries no answer: what asks for one is dropped (R309). -/
def tryFlit (s : State) (i : Nat) (f : Flit) : State × Fate :=
  let m := mapKey (localKey (ownPkg s i)) f.msg
  if f.dest ≠ ownPkg s i then passOn s i f m
  else if !(s.port i).ready && answerFlits m != 0 then (s, .served)
  else
    match msgStill s m with
    | some e => (s, .waits (.still e))
    | none =>
      if !mayAnswer s i m then (s, .stays)
      else
        let w := msgWaits s m
        match w.2 with
        | some h => (w.1, .waits h)
        | none => (serveMsg w.1 i m, .served)

/-- A message of a port waits among the other requests that wait for the same, in arrival order, under the event that makes it again
(R197, R317). -/
def addToken (s : State) (i : Nat) : Hold → State
  | .still e => s.updDie (if e < 8 then e else portDie s i) fun (x : Die) => { x with waiting := x.waiting ++ [.linkIdleFlit i] }
  | .develop k =>
    match kvGet s.devs k with
    | none => s
    | some v => { s with devs := kvPut s.devs k { v with waiting := v.waiting ++ [.linkIdleFlit i] } }

/-- Messages of a port that wait for the same have so many places among the requests that wait for it. -/
def tokens (s : State) (i : Nat) (h : Hold) : Nat :=
  let wait : List Instr := match h with
    | .still e => (s.die (if e < 8 then e else portDie s i)).waiting
    | .develop k => ((kvGet s.devs k).map fun v => v.waiting).getD []
  wait.count (.linkIdleFlit i)

/-- Every message that waits has its place. -/
def addTokens (s : State) (i : Nat) (hs : List Hold) : State :=
  (hs.mapIdx fun n h => (h, (hs.take (n + 1)).count h)).foldl (fun s x => if tokens s i x.1 < x.2 then addToken s i x.1 else s) s

/-- Two flits whose messages ask something of one sector: they keep their order. -/
def sameSector (f g : Flit) : Bool :=
  match msgKey f.msg, msgKey g.msg with
  | some a, some b => a / 64 == b / 64
  | _, _ => false

/-- Serves what can be served of the messages of a port that wait, in order: all of them, or the first (`one`). True: one has been
served. `kept`: those before, that stay, with what they wait for. -/
def serveWaits (s : State) (i : Nat) (one : Bool) (kept : List (Flit × Option Hold)) (got : Bool) : List Flit → State × Bool
  | [] => (addTokens (s.setPort i { s.port i with wait := kept.map (·.1) }) i (kept.filterMap (·.2)), got)
  | f :: fs =>
    match kept.find? fun x => sameSector x.1 f with
    | some x => serveWaits s i one (kept ++ [(f, x.2)]) got fs
    | none =>
      let r := tryFlit s i f
      match r.2 with
      | .served =>
        if one then (r.1.setPort i { r.1.port i with wait := kept.map (·.1) ++ fs }, true)
        else serveWaits r.1 i one kept true fs
      | .stays => serveWaits r.1 i one (kept ++ [(f, none)]) got fs
      | .waits h => serveWaits r.1 i one (kept ++ [(f, some h)]) got fs

/-- Takes the flits of the receive buffer in order (R308): each is served, or waits with the messages that wait for the same, behind those
that ask something of its sector; one whose answer has no room to leave stays, and what stands behind it (R309). -/
def drain (s : State) (i : Nat) : (fuel : Nat) → State
  | 0 => s
  | fuel + 1 =>
    match (s.port i).late with
    | [] => s
    | f :: late =>
      let next (s : State) : State := s.setPort i { s.port i with late := late }
      let later (s : State) : State := s.setPort i { s.port i with late := late, wait := (s.port i).wait ++ [f] }
      if (s.port i).wait.any (sameSector f) then drain (later s) i fuel
      else
        let r := tryFlit s i f
        match r.2 with
        | .served => drain (next r.1) i fuel
        | .stays => r.1
        | .waits _ => drain (later r.1) i fuel

/-- Stop when the free space has fallen, go when it has risen (R309). -/
def pace (s : State) (i : Nat) : State :=
  let x := s.port i
  let room := Config.linkFlits - x.late.length
  if !x.ready then s
  else if !x.saidStop && room ≤ Config.linkStop then (s.setPort i { x with saidStop := true }).emit (.linkStop i)
  else if x.saidStop && Config.linkGo ≤ room then (s.setPort i { x with saidStop := false }).emit (.linkGo i)
  else s

/-- What waits of the messages of a port and what its receive buffer holds is served, as far as it can be. -/
def serveAll (s : State) (i : Nat) : State :=
  let s := drain (serveWaits s i false [] false (s.port i).wait).1 i Config.linkFlits
  (serveWaits s i false [] false (s.port i).wait).1

/-- The messages of a port are served, and the sender is paced; then those of other ports, which may have waited for room to send. -/
def drainPort (s : State) (i : Nat) : State :=
  let one (s : State) (i : Nat) : State := pace (serveAll s i) i
  let s := one s i
  settle ((s.ports.filter fun p => p.1 != i && (p.2.late != [] || p.2.wait != [])).foldl (fun s p => one s p.1) s)

/-! ## Events -/

/-- LINK_DATA_FLIT: a flit whose CRC or sequence number is wrong is answered by a negative acknowledgement; the next one
is acknowledged and delivered. -/
def execLinkDataFlit (port : Nat) (f : Flit) (s : State) : Host.Outcome State Fault Refusal :=
  .next (
    let x := s.port port
    if !x.ready then s
    else if !f.crcOk ∨ f.seq ≠ x.expect then s.emit (.linkNak port x.expect)
    else
      let s := (s.setPort port { x with expect := (x.expect + 1) % 4096, late := x.late ++ [f] }).emit (.linkAck port f.seq)
      drainPort s port)

def execLinkStopFlit (port : Nat) (s : State) : Host.Outcome State Fault Refusal :=
  .next (if (s.port port).ready then s.setPort port { s.port port with stopped := true } else s)

def execLinkGoFlit (port : Nat) (s : State) : Host.Outcome State Fault Refusal :=
  .next (if (s.port port).ready then drainPort (sendUnsent (s.setPort port { s.port port with stopped := false }) port) port else s)

/-- LINK_ACK_FLIT: flits up to the named one leave the retry buffer. -/
def execLinkAckFlit (port seq : Nat) (s : State) : Host.Outcome State Fault Refusal :=
  .next (
    let x := s.port port
    if !x.ready ∨ !(x.retry.any (·.seq == seq)) then s
    else
      drainPort (sendUnsent (s.setPort port { x with retry := (x.retry.dropWhile (·.seq != seq)).drop 1, fails := 0 }) port) port)

/-- LINK_NAK_FLIT: the sender replays from the named flit; after 16 replays in a row that failed, the link is down. -/
def execLinkNakFlit (port seq : Nat) (s : State) : Host.Outcome State Fault Refusal :=
  .next (
    let x := s.port port
    let again := x.retry.dropWhile (·.seq != seq)
    if !x.ready ∨ again.isEmpty then s
    else if Config.linkReplays ≤ x.fails then linkDown s port
    else
      let s := s.setPort port { x with retry := again, fails := x.fails + 1, retries := BitVec.ofNat 32 (satTo x.retries.toNat 0xFFFF) }
      again.foldl (fun s f => s.emit (.linkFlit port f)) s)

/-- LINK_IDLE_FLIT: the link is alive; nothing else happens. A message that waited for a die's clock or a develop is served under the same
event, one for each; else what the port holds. -/
def execLinkIdleFlit (port : Nat) (s : State) : Host.Outcome State Fault Refusal :=
  .next (
    let r := serveWaits s port true [] false (s.port port).wait
    if r.2 then settle r.1 else if (s.port port).ready ∨ (s.port port).late ≠ [] then drainPort s port else s)

def execLinkTimeout (port : Nat) (s : State) : Host.Outcome State Fault Refusal := .next (linkDown s port)

/-- LINK_TRAINED: the port reports ready with its peer, unless both dies bonded to its engine are fenced (R311, R314). -/
def execLinkTrained (port peer : Nat) (s : State) : Host.Outcome State Fault Refusal :=
  .next (
    let x := s.port port
    let d := 2 * (port / 8)
    if x.ready ∨ 32 ≤ port ∨ 512 ≤ peer ∨ ((s.die d).fenced ∧ (s.die (d + 1)).fenced) then s
    else
      let s := s.setPort port { x with
        ready := true, peer := peer, stopped := false, saidStop := false, expect := 0, nextSeq := 0, retry := [], unsent := [],
        fails := 0 }
      settle (vectorAll (vectorAll s 1) 2))

/-- LINK_RETRAIN: LINKSTAT.RETRAIN takes the link down; LINK_TRAINED ends its training (R310). -/
def execLinkRetrain (port : Nat) (s : State) : Host.Outcome State Fault Refusal := .next (linkDown s port)

end Sys2Proof.Machine
end

