-- ==== Sys2Proof/Machine/Software.lean ====
section
/-! DEFINITION. The registers of the die device that have an event of their own: the overflow pool, bends, the fault queue,
heat, gang records and attestation (spec 04 R111, R115, 07 R184, 12 R289, R302, 13 R304, R315, 14 R327). -/
namespace Sys2Proof.Machine

/-! ## The overflow pool (R184) -/

def execOvppush (die : Nat) (v : DWord) (s : State) : Host.Outcome State Fault Refusal :=
  .next (atPort s die (.ovppush die v) fun s => settle (pushBlock s die (fld v 8 44 * 256)))

/-- Removes a free block and tells its address, or 0 when the pool is empty. -/
def takeBlock (s : State) (d : Nat) : State × Nat := if (s.die d).ovpfree = 0 then (s, 0) else popBlock s d

/-- OVPPOP: an 8-byte read. -/
def execOvppop (die : Nat) (s : State) : Host.Outcome State Fault Refusal :=
  .next (atPort s die (.ovppop die) fun s =>
    let r := takeBlock s die
    r.1.emit (.regData die (BitVec.ofNat 64 r.2)))

/-! ## Heat counters (R301, R302) -/

/-- The counters of a table at key `k` that memory lists, by index. -/
def heatIndexes (s : State) (k : Nat) : List Nat :=
  ((s.mem.filter fun c => k ≤ c.1 && c.1 < k + 2 * (Config.ddrBytes / 4096)).map fun c => (c.1 - k) / 2).eraseDups

/-- Halves one counter. -/
def halve (s : State) (k i : Nat) : State :=
  let a := k + 2 * i
  { s with mem := cellPuts s.mem a (leBytes 2 (ofLe (cellGets s.mem a 2) / 2)) }

/-- A sweep halves every counter of the table once; what caches hold of it comes home first. -/
def sweepHeat (s : State) (d : Nat) : State :=
  match physKey s d (fld (s.die d).heatbase 12 40 * 4096) with
  | none => s
  | some k =>
    let mine := s.dir.filter fun e => k < 64 * e.1 + 64 && 64 * e.1 < k + 2 * (Config.ddrBytes / 4096)
    let s := mine.foldl (fun s e => toHome s e.1) s
    settle ((heatIndexes s k).foldl (fun s i => halve s k i) s)

def execHeatdecay (die : Nat) (s : State) : Host.Outcome State Fault Refusal :=
  .next (atPort s die (.heatdecay die) fun s => sweepHeat s die)

/-! ## Bends (R327) -/

/-- The bend that BENDSEL names. -/
def selBend (s : State) (d : Nat) : Nat := 65536 * d + fld (s.die d).bendsel 0 16

/-- Takes a unit for system software: true if it did. -/
def takeUnit (s : State) (d : Nat) : State × Bool :=
  let b := selBend s d
  let x := s.bend b
  if x.valid && fld x.wait 61 3 == 5 && x.count != 0 then (s.setBend b { x with count := x.count - 1 }, true) else (s, false)

/-- BENDTAKE: an 8-byte read. -/
def execBendtake (die : Nat) (s : State) : Host.Outcome State Fault Refusal :=
  .next (atPort s die (.bendtake die) fun s =>
    let r := takeUnit s die
    r.1.emit (.regData die (if r.2 then 1 else 0)))

def execBendcntWrite (die : Nat) (v : DWord) (s : State) : Host.Outcome State Fault Refusal :=
  .next (atPort s die (.bendcntWrite die v) fun s =>
    let b := selBend s die
    settle (serveBend (s.setBend b { s.bend b with count := v }) b))

/-- Both kinds are kinds that a bend may be bound with. -/
def bindOk (x : Bend) : Bool := fld x.sig 61 3 ≤ 5 && (fld x.wait 61 3 == 1 || fld x.wait 61 3 == 5)

def execBendctlWrite (die : Nat) (v : DWord) (s : State) : Host.Outcome State Fault Refusal :=
  .next (atPort s die (.bendctlWrite die v) fun s =>
    let b := selBend s die
    let x := s.bend b
    s.setBend b { x with valid := v.getLsbD 0 && (x.valid || bindOk x) })

/-! ## Fault queue, gang records -/

def execFqheadWrite (die : Nat) (v : Word) (s : State) : Host.Outcome State Fault Refusal :=
  .next (atPort s die (.fqheadWrite die v) fun s => settle (flush (s.updDie die fun x => { x with fqhead := v }) die))

/-- GSTAT after a write: clearing VALID zeroes the record (R111). -/
def gstatWrite (g v : DWord) : DWord :=
  let g := if v.getLsbD 1 then g &&& ~~~2#64 else g
  if v.getLsbD 0 then g &&& 2#64 else g

def execGstatClear (core : Nat) (v : DWord) (s : State) : Host.Outcome State Fault Refusal :=
  .next (atPort s (dieOf core) (.gstatClear core v) fun s =>
    s.updCore core fun c => { c with gstat := gstatWrite c.gstat v })

/-! ## Attestation (R315) -/

/-- A byte of the report: the nonce, the firmware digest of each die, their fence states, the anti-rollback version, and the hub's
signature over all of them (R315). Their places are the model's (log 4). -/
def reportByte (s : State) (d j : Nat) : Byte :=
  let x := s.die d
  let nonce := (List.range 4).map (kvGetD 0 x.attnonce)
  let fenced := (List.range 8).map fun e => (s.die e).fenced
  if j < 32 then BitVec.ofNat 8 ((nonce.getD (j / 8) 0).toNat / 2 ^ (8 * (j % 8)))
  else if j < 288 then Config.fwDigest ((j - 32) / 32) (j % 32)
  else if j = 288 then BitVec.ofNat 8 (((List.range 8).map fun e => if fenced.getD e false then 2 ^ e else 0).foldl (· + ·) 0)
  else if 292 ≤ j ∧ j < 296 then BitVec.ofNat 8 (Config.rollback.toNat / 2 ^ (8 * (j - 292)))
  else Config.attestation s.free nonce fenced j

/-- The hub writes a report, 4 KiB of it (log 4), and bit 0 reads 0. -/
def attest (s : State) (d : Nat) : State :=
  let x := s.die d
  if !x.attWait ∨ !s.hubReady ∨ Config.xmssLeaves ≤ kvGetD 0 s.sigs 8 then s
  else
    let bs := (List.range 4096).map (reportByte s d)
    let s := { s with free := s.free + 1, sigs := kvPut s.sigs 8 (kvGetD 0 s.sigs 8 + 1) }
    settle ((storePhys s d (fld x.attgo 12 40 * 4096) bs).updDie d fun x => { x with attgo := x.attgo &&& ~~~1#64, attWait := false })

/-- ATTGO: a write that acts asks for a report while bit 0 is 1 (R315). One that comes while a report is pending takes its address
for it, and one with bit 0 clear asks for none any more (log 110). -/
def execAttgo (die : Nat) (v : DWord) (s : State) : Host.Outcome State Fault Refusal :=
  .next (atPort s die (.attgo die v) fun s =>
    attest (s.updDie die fun x => { x with attgo := v &&& 0x000FFFFFFFFFF001#64, attWait := v.getLsbD 0 }) die)

end Sys2Proof.Machine
end

