-- ==== Sys2Proof/Machine/Window.lean ====
section
/-! DEFINITION. The register window of a die device: reads, and writes to registers of either kind (spec 04 R107-R116, 13
R304, R305). A register is named by its CSR number, or by its offset when it stands in the window only; core registers are
apart. -/
namespace Sys2Proof.Machine

/-! ## Which registers there are (R107, R305) -/

/-- The register at a window offset below the core registers. -/
def regAt (off : Nat) : Nat := if off < 0x8000 then 0x1000 + off / 8 else off / 8 * 8

/-- Registers of 32 bits. -/
def regs32 : List Nat :=
  [0x1015, 0x1021, 0x1022, 0x1041, 0x1050, 0x8000, 0x8300, 0x8308, 0x8310, 0x8318, 0x8510, 0x8518, 0x8700]

/-- Registers of 64 bits. -/
def regs64 : List Nat :=
  [0x1000, 0x1001, 0x1002, 0x1010, 0x1011, 0x1012, 0x1013, 0x1014, 0x1020, 0x1023, 0x1030, 0x1031, 0x1040, 0x1051] ++
  (List.range 32).map (0x1060 + ·) ++ (List.range 32).map (0x8100 + 8 * ·) ++
  [0x8200, 0x8208, 0x8210, 0x8218, 0x8220] ++ (List.range 8).map (0x8400 + 8 * ·) ++
  [0x8500, 0x8508, 0x8520, 0x8528, 0x8530, 0x8600, 0x8608, 0x8610, 0x8708]

/-- A die-device register is assigned. -/
def regAssigned (r : Nat) : Bool := regs32.contains r || regs64.contains r

/-- Core registers (R107): 64 bits for PASSCNT, GSTAT and SBCONF. -/
def coreAssigned (c : Nat) : Bool := [0x200, 0x201, 0x202, 0x203, 0x204, 0x208, 0x209, 0x20A, 0x20B, 0x20C, 0x210].contains c
def core64 (c : Nat) : Bool := c == 0x200 || c == 0x203 || c == 0x210

/-- Registers that act on a write: on 8 bytes, or on their high half (R304). -/
def regActs (r : Nat) : Bool :=
  [0x1011, 0x1013, 0x1014, 0x1023, 0x1031, 0x8610, 0x8500, 0x8220].contains r || (0x8100 ≤ r && r < 0x8200)

/-! ## Reads -/

/-- The context that ACSEL names, if there is one (R277). -/
def selCtx (x : Die) : Option Nat := if x.acsel.toNat < Config.contexts then some x.acsel.toNat else none

/-- LINKSTAT of a port (R310). -/
def linkStat (p : Port) : Nat := fld p.retries 0 16 * 2 ^ 32 + p.downs * 2 ^ 16 + p.peer

/-- THERMSTOP (R317). -/
def thermStop (s : State) : Nat :=
  (List.range 8).foldl (fun n d => n + (if (s.die d).stopped then 2 ^ d else 0)) (if s.hubStopped then 256 else 0)

/-- What a die-device register reads as; a write-only one reads zero. -/
def readReg (s : State) (d r : Nat) : Nat :=
  let x := s.die d
  let b := s.bend (selBend s d)
  match r with
  | 0x1000 => Config.caps0.toNat
  | 0x1001 => Config.caps1.toNat
  | 0x1002 => readyReg s d
  | 0x1010 => x.rcbroot.toNat
  | 0x1012 => x.preqnode.toNat
  | 0x1013 => x.preqctl.toNat
  | 0x1014 => x.pres.toNat
  | 0x1015 => x.swapint.toNat
  | 0x1020 => x.fqbase.toNat
  | 0x1021 => x.fqhead.toNat
  | 0x1022 => x.fqtail.toNat
  | 0x1030 => x.tlbinva.toNat
  | 0x1031 => x.tlbinvc.toNat
  | 0x1040 => x.heatbase.toNat
  | 0x1050 => x.acsel.toNat
  | 0x1051 => ((selCtx x).map fun c => (x.ctx c).ptbase.toNat).getD 0
  | 0x8000 => x.pkgid.toNat
  | 0x8220 => x.attgo.toNat
  | 0x8300 => s.pwrlim.toNat
  | 0x8308 => s.pwrnow.toNat
  | 0x8310 => s.tempmax.toNat
  | 0x8318 => thermStop s
  | 0x8400 => x.bendsel.toNat
  | 0x8408 => b.sig.toNat
  | 0x8410 => b.sigt.toNat
  | 0x8418 => b.wait.toNat
  | 0x8420 => b.waitt.toNat
  | 0x8428 => b.count.toNat
  | 0x8430 => if b.valid then 1 else 0
  | 0x8510 => x.ovpfree.toNat
  | 0x8518 => x.ovpinuse.toNat
  | 0x8520 => x.cmpn64.toNat
  | 0x8528 => x.cmpn128.toNat
  | 0x8530 => x.cmpnovf.toNat
  | 0x8600 => x.exptbase.toNat
  | 0x8608 => x.imptbase.toNat
  | 0x8610 => x.exprevoke.toNat
  | 0x8700 => x.fqlost.toNat
  | 0x8708 => x.cecnt.toNat
  | r =>
    if 0x1060 ≤ r ∧ r < 0x1070 then ((selCtx x).map fun c => (kvGetD 0 (x.ctx c).ncwb (r - 0x1060)).toNat).getD 0
    else if 0x1070 ≤ r ∧ r < 0x1080 then ((selCtx x).map fun c => (kvGetD 0 (x.ctx c).ncwl (r - 0x1070)).toNat).getD 0
    else if 0x8100 ≤ r ∧ r < 0x8200 then linkStat (s.port ((r - 0x8100) / 8))
    else if 0x8200 ≤ r ∧ r < 0x8220 then (kvGetD 0 x.attnonce ((r - 0x8200) / 8)).toNat
    else 0

/-- What a core register reads as for system software: the value last written (R107). -/
def readCoreReg (s : State) (g c : Nat) : Nat :=
  let x := s.core g
  match c with
  | 0x200 => x.passcnt
  | 0x201 => x.csr.agelim.toNat
  | 0x202 => x.csr.gtimeout.toNat
  | 0x203 => x.gstat.toNat
  | 0x204 => x.csr.sbchk.toNat
  | 0x210 => x.sbconf.toNat
  | c => (x.csr.sbhash.getD (c - 0x208) 0).toNat

/-! ## Writes of registers without an event of their own -/

/-- Changes the selected context. -/
def updCtx (x : Die) (f : Ctx → Ctx) : Die :=
  match selCtx x with
  | none => x
  | some c => { x with ctxs := kvPut x.ctxs c (f (x.ctx c)) }

/-- A binding register is written while its bend is not bound (R327). -/
def writeBind (s : State) (d : Nat) (f : Bend → Bend) : State :=
  let b := selBend s d
  if (s.bend b).valid then s else s.setBend b (f (s.bend b))

/-- RCBROOT: EN starts the boundaries of the period (R62, R114). -/
def writeRoot (x : Die) (v : DWord) : Die :=
  let v := v &&& 0x000FFFFFFFFFFF81#64
  { x with rcbroot := v,
           nextPeriod := if v.getLsbD 0 && !x.rcbroot.getLsbD 0
             then (schedCyc x / Config.periodCycles + 1) * Config.periodCycles else x.nextPeriod }

/-- HEATBASE: the slices' counters start at 0 when EN is set (R301). -/
def writeHeat (x : Die) (v : DWord) : Die :=
  let v := v &&& 0x000FFFFFFFFFF001#64
  { x with heatbase := v, heat := if v.getLsbD 0 && !x.heatbase.getLsbD 0 then [] else x.heat }

/-- SWAPINT: the next multiple of the interval is the next tick (R84). -/
def writeSwap (x : Die) (v : Nat) : Die :=
  let n := v % 2 ^ 32
  { x with swapint := BitVec.ofNat 32 v, nextSwap := if n = 0 then 0 else (schedCyc x / n + 1) * n }

/-- A write of a whole value to a die-device register that does nothing but hold it. -/
def putReg (s : State) (d r : Nat) (v : DWord) : State :=
  let w : Word := v.setWidth 32
  match r with
  | 0x1010 => s.updDie d fun x => writeRoot x v
  | 0x1012 => s.updDie d fun x => { x with preqnode := v &&& 0x000FFFFFFFFFFF80#64 }
  | 0x1015 => s.updDie d fun x => writeSwap x v.toNat
  | 0x1020 => flush (s.updDie d fun x => { x with fqbase := v &&& 0x000FFFFFFFFFF01F#64 }) d
  | 0x1030 => s.updDie d fun x => { x with tlbinva := v &&& 0x01FFFFFFFFFFF000#64 }
  | 0x1040 => s.updDie d fun x => writeHeat x v
  | 0x1050 => s.updDie d fun x => { x with acsel := w &&& 0xFFFF#32 }
  | 0x1051 => s.updDie d fun x => updCtx x fun c => { c with ptbase := v &&& 0x000FFFFFFFFFF001#64 }
  | 0x8000 => s.updDie d fun x => { x with pkgid := w &&& 0x1FF#32 }
  | 0x8300 => { s with pwrlim := w &&& 0xFFF#32 }
  | 0x8400 => s.updDie d fun x => { x with bendsel := v &&& 0xFFFF#64 }
  | 0x8408 => writeBind s d fun b => { b with sig := v &&& 0xE00FFFFFFFFFFE00#64 }
  | 0x8410 => writeBind s d fun b => { b with sigt := v &&& 0xFFFFFFFF#64 }
  | 0x8418 => writeBind s d fun b => { b with wait := v &&& 0xE00FFFFFFFFFFE00#64 }
  | 0x8420 => writeBind s d fun b => { b with waitt := v &&& 0xFFFFFFFF#64 }
  | 0x8520 => s.updDie d fun x => { x with cmpn64 := v }
  | 0x8528 => s.updDie d fun x => { x with cmpn128 := v }
  | 0x8530 => s.updDie d fun x => { x with cmpnovf := v }
  | 0x8600 => s.updDie d fun x => { x with exptbase := v &&& 0x000FFFFFFFFFF01F#64 }
  | 0x8608 => s.updDie d fun x => { x with imptbase := v &&& 0x000FFFFFFFFFF01F#64 }
  | 0x8700 => s.updDie d fun x => { x with fqlost := w }
  | 0x8708 => s.updDie d fun x => { x with cecnt := v }
  | r =>
    if 0x1060 ≤ r ∧ r < 0x1070 then
      s.updDie d fun x => updCtx x fun c => { c with ncwb := kvSet 0 c.ncwb (r - 0x1060) (v &&& 0x01FFFFFFFFFFF001#64) }
    else if 0x1070 ≤ r ∧ r < 0x1080 then
      s.updDie d fun x => updCtx x fun c => { c with ncwl := kvSet 0 c.ncwl (r - 0x1070) (v &&& 0x01FFFFFFFFFFF000#64) }
    else if 0x8200 ≤ r ∧ r < 0x8220 then
      s.updDie d fun x => { x with attnonce := kvSet 0 x.attnonce ((r - 0x8200) / 8) v }
    else s

/-- A write of a whole value to a core register (R110, R116). -/
def putCoreReg (s : State) (g c : Nat) (v : DWord) : State :=
  let w : Word := v.setWidth 32
  let csr (f : CoreCsr → CoreCsr) : State := s.updCore g fun x => { x with csr := f x.csr }
  match c with
  | 0x201 => csr fun x => { x with agelim := w &&& 0xFFFF#32 }
  | 0x202 => csr fun x => { x with gtimeout := w &&& 0xFFFFFF#32 }
  | 0x204 => csr fun x => { x with sbchk := w &&& 1#32 }
  | 0x210 => s.updCore g fun x => { x with sbconf := v }
  | c =>
    if 0x208 ≤ c ∧ c < 0x20D then csr fun x => { x with sbhash := x.sbhash.set (c - 0x208) (w &&& 0x7FFFF#32) } else s

/-! ## Writes that act -/

/-- The state after a meaning, or as it was. -/
def stateOf (s : State) : Host.Outcome State Fault Refusal → State
  | .next s' => s'
  | _ => s

/-- LINKSTAT: the counters are set by the halves that a write names, and RETRAIN acts (R310). -/
def writeLinkStat (s : State) (p : Nat) (v : DWord) (lo hi : Bool) : State :=
  let x := s.port p
  let s := s.setPort p { x with
    retries := if hi then BitVec.ofNat 32 (fld v 32 16) else x.retries
    downs := if lo then fld v 16 7 else x.downs }
  if hi && v.getLsbD 63 then linkDown s p else s

/-- A write of 8 bytes, or of the high half with the low half's contents, to a register with an effect. -/
def actReg (s : State) (d r : Nat) (v : DWord) (whole : Bool) : State :=
  match r with
  | 0x1011 => stateOf s (execDoorbell d v s)
  | 0x1013 => stateOf s (execPreemptRequest d v s)
  | 0x1014 => stateOf s (execResumeRequest d v s)
  | 0x1023 =>
    (match fld v 32 2 with
      | 0 => stateOf s (execReplayAccess d (fld v 0 32) s)
      | 1 => stateOf s (execReplayDeliver d (fld v 0 32) s)
      | _ => s)
  | 0x1031 => writeInval s d (min 2 (fld v 16 2)) v
  | 0x8500 => stateOf s (execOvppush d v s)
  | 0x8610 => writeRevoke s d v
  | 0x8220 => stateOf s (execAttgo d v s)
  | r => if 0x8100 ≤ r ∧ r < 0x8200 then writeLinkStat s ((r - 0x8100) / 8) v whole true else s

/-- A write to the low half of a register that acts only stores that half (R304). -/
def storeLow (s : State) (d r : Nat) (v : Word) : State :=
  let half (x : DWord) (mask : Nat) : DWord := x / 0x100000000#64 * 0x100000000#64 + BitVec.ofNat 64 (v.toNat &&& mask)
  match r with
  | 0x1013 => s.updDie d fun x => { x with preqctl := half x.preqctl 0xFFFFFFFF }
  | 0x1014 => s.updDie d fun x => { x with pres := half x.pres 0xFFFFFF80 }
  | 0x1031 => if fld v 16 2 = 3 then s else s.updDie d fun x => { x with tlbinvc := half x.tlbinvc 0x3FFFF }
  | 0x8610 => s.updDie d fun x => { x with exprevoke := half x.exprevoke 0xFFFF }
  | 0x8220 => s.updDie d fun x => { x with attgo := half x.attgo 0xFFFFF001 }
  | r =>
    if 0x8100 ≤ r ∧ r < 0x8200 then writeLinkStat s ((r - 0x8100) / 8) (v.setWidth 64) true false
    else s.updDie d fun x => { x with low := kvPut x.low r v }

/-- The contents of a register's low half: of a write-only one, what was last written there. -/
def lowOf (s : State) (d r : Nat) : Nat :=
  if r = 0x1011 ∨ r = 0x1023 ∨ r = 0x8500 then (kvGetD 0 (s.die d).low r).toNat else readReg s d r % 2 ^ 32

/-- Registers whose write is an event of its own, but which hold no halves apart: FQHEAD, HEATDECAY, BENDCNT, BENDCTL. -/
def putOrAct (s : State) (d r : Nat) (v : DWord) : State :=
  match r with
  | 0x1021 => stateOf s (execFqheadWrite d (v.setWidth 32) s)
  | 0x1041 => stateOf s (execHeatdecay d s)
  | 0x8428 => stateOf s (execBendcntWrite d v s)
  | 0x8430 => stateOf s (execBendctlWrite d v s)
  | r => putReg s d r v

/-- A 4-byte or 8-byte write to a die-device register. `hi` is none for 8 bytes, else whether it names the high half. -/
def writeReg (s : State) (d r : Nat) (v : DWord) (hi : Option Bool) : State :=
  if !regAssigned r then s
  else if regs32.contains r then (if hi = some true then s else putOrAct s d r v)
  else
    match hi with
    | none =>
      if regActs r then actReg (s.updDie d fun x => { x with low := kvPut x.low r (v.setWidth 32) }) d r v true
      else putOrAct s d r v
    | some true =>
      let w : DWord := BitVec.ofNat 64 (fld v 0 32 * 2 ^ 32 + lowOf s d r)
      if regActs r then actReg s d r w false else putOrAct s d r w
    | some false =>
      if regActs r then storeLow s d r (v.setWidth 32)
      else putOrAct s d r (BitVec.ofNat 64 (readReg s d r / 2 ^ 32 * 2 ^ 32 + fld v 0 32))

/-- A 4-byte or 8-byte write to a core register. -/
def writeCore (s : State) (g c : Nat) (v : DWord) (hi : Option Bool) : State :=
  if !coreAssigned c then s
  else if c = 0x203 then (if hi = some true then s else stateOf s (execGstatClear g (v &&& 3#64) s))
  else if !core64 c ∧ hi = some true then s
  else
    let old := readCoreReg s g c
    putCoreReg s g c (match hi with
      | none => v
      | some true => BitVec.ofNat 64 (fld v 0 32 * 2 ^ 32 + old % 2 ^ 32)
      | some false => BitVec.ofNat 64 (old / 2 ^ 32 * 2 ^ 32 + fld v 0 32))

/-- The core register at an offset of the window: the core of the die, and the CSR (R304). -/
def coreAt (off : Nat) : Option (Nat × Nat) :=
  if 0x100000 ≤ off ∧ off < 0x100000 + 0x1000 * 128 then
    some ((off - 0x100000) / 0x1000, 0x200 + (off - 0x100000) % 0x1000 / 8)
  else none

/-- A write that reaches the window: only naturally aligned ones of 4 or 8 bytes to assigned offsets do anything. -/
def windowWrite (s : State) (d off size : Nat) (v : DWord) : State :=
  if (size ≠ 4 ∧ size ≠ 8) ∨ off % size ≠ 0 then s
  else
    let hi := if size = 8 then none else some (off % 8 = 4 : Bool)
    match coreAt off with
    | some (c, r) => writeCore s (128 * d + c) r v hi
    | none => if off < 0x9000 then writeReg s d (regAt off) v hi else s

/-- REGISTER_WRITE (R116): a write of system software to the register window of a die. -/
def execRegisterWrite (die off size : Nat) (v : DWord) (s : State) : Host.Outcome State Fault Refusal :=
  .next (atPort s die (.registerWrite die off size v) fun s => windowWrite s die off size v)

/-- All ones in n bytes. -/
def allOnes (n : Nat) : Nat := 2 ^ (8 * n) - 1

/-- A read that reaches the window. The upper half of a 32-bit register's slot reads zero (log 114). OVPPOP and BENDTAKE act on 8 bytes; 4 bytes of either read zero (R304). -/
def windowRead (s : State) (d off size : Nat) : State × Nat :=
  if (size ≠ 4 ∧ size ≠ 8) ∨ off % size ≠ 0 then (s, allOnes size)
  else
    let part (n : Nat) : Nat := n / 2 ^ (8 * (off % 8)) % 2 ^ (8 * size)
    match coreAt off with
    | some (c, r) => (s, if coreAssigned r then part (readCoreReg s (128 * d + c) r) else allOnes size)
    | none =>
      let r := regAt off
      if 0x9000 ≤ off ∨ !regAssigned r then (s, allOnes size)
      else if r = 0x8508 then (if size = 8 then takeBlock s d else (s, 0))
      else if r = 0x8438 then
        (if size = 8 then let q := takeUnit s d; (q.1, if q.2 then 1 else 0) else (s, 0))
      else (s, part (readReg s d r))

end Sys2Proof.Machine
end

