-- ==== Sys2Proof/Machine/Outside.lean ====
section
/-! DEFINITION. Hosts, bring-up, the management controller, and errors (spec 08 R206, 10 R254, 12 R299, R300, 13
R303-R317). -/
namespace Sys2Proof.Machine

/-! ## Host reads and writes (R303, R304, R306) -/

/-- Where a host request goes: device memory of a die from address 0, the register window from 2^48, and the fabric
and the host's own memory at their keys, from 2^53 and 2^64. -/
def hostKey (d addr n : Nat) : Option Nat :=
  if addr + n ≤ Config.ddrBytes then some (2 ^ 38 * d + addr)
  else if (2 ^ 53 ≤ addr ∧ addr + n ≤ 2 ^ 54) ∨ (2 ^ 64 ≤ addr ∧ addr + n ≤ 2 ^ 65) then some addr else none

/-- The offset in the register window. -/
def windowOff (addr : Nat) : Option Nat := if 2 ^ 48 ≤ addr ∧ addr < 2 ^ 48 + 2 ^ 26 then some (addr - 2 ^ 48) else none

/-- A request to memory waits at the port of a die whose stopped clock it needs, until that clock runs again (R317), and at the
home of a sector that develops (R197). -/
def waitHost (s : State) (d key n : Nat) (i : Instr) (f : State → State) : State :=
  match (sectorsOf key n).findSome? fun p => keyStill s d (64 * p.1) with
  | some e => s.updDie (if e < 8 then e else d) fun x => { x with waiting := x.waiting ++ [i] }
  | none =>
    let w := (sectorsOf key n).foldl (fun r p => if r.2 then r else waitAt r.1 p.1 i) (s, false)
    if w.2 then w.1 else f w.1

/-- HOST_READ: a read of device memory is a coherent read that develops latent sectors; a read of the register window. The
port's own die may stand still (R14; log 92). -/
def execHostRead (die addr n : Nat) (s : State) : Host.Outcome State Fault Refusal :=
  .next (
    if !hostUp s die ∨ !dieUp s die then s.emit (.hostData die [] false)
    else
      atPort s die (.hostRead die addr n) fun s =>
        match windowOff addr with
        | some off => let r := windowRead s die off n; r.1.emit (.hostData die (leBytes n r.2) false)
        | none =>
          match hostKey die addr n with
          | none => s.emit (.hostData die [] false)
          | some key =>
            waitHost s die key n (.hostRead die addr n) fun s =>
              let r := readBy s ((homeDie key).map fun _ => .host die) key n
              settle ((flushHome r.1 (key / 64)).emit (.hostData die r.2 (poisoned r.1 key n))))

/-- HOST_WRITE: a write of device memory is performed at the home; a write to the register window takes effect there. -/
def execHostWrite (die addr : Nat) (bytes : List Byte) (s : State) : Host.Outcome State Fault Refusal :=
  .next (
    if !hostUp s die ∨ !dieUp s die then s
    else
      atPort s die (.hostWrite die addr bytes) fun s =>
        match windowOff addr with
        | some off => windowWrite s die off bytes.length (BitVec.ofNat 64 (ofLe bytes))
        | none =>
          match hostKey die addr bytes.length with
          | none => s
          | some key =>
            waitHost s die key bytes.length (.hostWrite die addr bytes) fun s =>
              settle (flushHome (storeHome s key bytes) (key / 64)))

/-! ## Bring-up (R5, R311-R314) -/

/-- HOST_PORT_TRAINED: the host port of an even die reports ready (R14, R311), through function 1 where function 0 is fenced, and to
nobody where both are (R314). -/
def execHostPortTrained (die : Nat) (s : State) : Host.Outcome State Fault Refusal :=
  .next (if 8 ≤ die ∨ die % 2 ≠ 0 ∨ (s.die die).hostReady then s
    else
      let s := s.updDie die fun x => { x with hostReady := true }
      let f := if (s.die die).fenced then die + 1 else die
      settle (if (s.die f).fenced then s else s.emit (.msix f 1)))

/-- MODULE_RESET: every function is back at its Reset column and reports ready anew; memory keeps its contents, and caches
are empty (R5, R312; log 1). -/
def execModuleReset (s : State) : Host.Outcome State Fault Refusal :=
  .next { State.reset with mem := s.mem, poison := s.poison, sigs := s.sigs, seq := s.seq, agenda := s.agenda, out := s.out, free := s.free }

/-- The identity keys of a die and of the hub sign, each after its index in the module flash has advanced; false: one of them has
no unused index (R313). -/
def signBoth (s : State) (die : Nat) : State × Bool :=
  let free (i : Nat) : Bool := kvGetD 0 s.sigs i < Config.xmssLeaves
  let sign (m : Kv Nat) (i : Nat) : Kv Nat := if free i then kvPut m i (kvGetD 0 m i + 1) else m
  ({ s with sigs := if die = 8 then sign s.sigs 8 else sign (sign s.sigs die) 8 }, free die && free 8)

/-- A fenced die's engine has no ready port when its other die is fenced as well (R314; log 99): its links go down, and READY changes
(R307, R309). -/
def fenceDie (s : State) (die : Nat) : State :=
  let s := s.updDie die fun x => { x with fenced := true }
  if (s.die (die / 2 * 2)).fenced && (s.die (die / 2 * 2 + 1)).fenced then
    (List.range 8).foldl (fun s m => linkDown s (8 * (die / 2) + m)) s
  else s

/-- DIE_AUTHENTICATION: a die, or the hub as number 8, passes its checks, or stays fenced until the module resets: `fwOk` that its
firmware image is verified, `authOk` that the signatures of both sides hold over the nonces (R312-R314; log 74). -/
def execDieAuthentication (die : Nat) (fwOk authOk : Bool) (s : State) : Host.Outcome State Fault Refusal :=
  .next (
    let x := s.die die
    if 8 < die ∨ (die = 8 ∧ (s.hubReady ∨ s.hubFenced)) ∨ (die < 8 ∧ (x.ready ∨ x.auth ∨ x.fenced)) then s
    else
      let r := if fwOk then signBoth s die else (s, false)
      if r.2 && authOk then (if die = 8 then r.1 else r.1.updDie die fun x => { x with auth := true })
      else if die = 8 then { r.1 with hubFenced := true }
      else fenceDie r.1 die)

/-- FUNCTION_READY: a die device that is authenticated, or the hub cache, sets its READY bit, with every register at its Reset
column, and vector 1 fires (R5, R307, R311). A report that waited for the hub is written (R315). -/
def execFunctionReady (die : Nat) (hub : Bool) (s : State) : Host.Outcome State Fault Refusal :=
  .next (
    if hub then
      (if s.hubReady ∨ s.hubFenced then s
       else settle ((List.range 8).foldl attest (vectorAll { s with hubReady := true } 1)))
    else
      let x := s.die die
      if 8 ≤ die ∨ x.ready ∨ !x.auth ∨ x.fenced then s
      else settle (vectorAll (s.setDie die { Die.reset with
        ready := true, auth := true, hostReady := x.hostReady, stopped := x.stopped, cyc := x.cyc, waiting := x.waiting }) 1))

/-! ## Management (R316, R317) -/

/-- POWER_SAMPLE: PWRNOW and TEMPMAX are set, the temperatures of the dies and of the hub are kept, and above PWRLIM the
arithmetic clock falls by one step of 25 MHz. -/
def execPowerSample (watts : Nat) (temps : List Nat) (s : State) : Host.Outcome State Fault Refusal :=
  .next (
    let s := { s with pwrnow := BitVec.ofNat 32 (min 4095 watts), tempmax := BitVec.ofNat 32 (min 255 (temps.foldl max 0)),
                      temps := temps }
    if watts ≤ min 2400 s.pwrlim.toNat ∨ 70 ≤ s.slow then s else { s with slow := s.slow + 1 })

/-- The temperature of a die, or of the hub as number 8, at the last sample. -/
def degrees (s : State) (die : Nat) : Nat := s.temps.getD die 0

/-- THERMAL_STOP: above 105 °C the clock stops, and vector 3 fires (R316). -/
def execThermalStop (die : Nat) (s : State) : Host.Outcome State Fault Refusal :=
  .next (if 8 < die ∨ clockStopped s die ∨ degrees s die ≤ Config.stopAbove then s
    else
      let s := if die = 8 then { s with hubStopped := true } else s.updDie die fun x => { x with stopped := true }
      vectorAll s 3)

/-- THERMAL_RESTART: below 95 °C the clock runs again, vector 3 fires, and what waited at the die's port, host requests and link
messages alike, is served in arrival order. -/
def execThermalRestart (die : Nat) (s : State) : Host.Outcome State Fault Refusal :=
  .next (if 8 < die ∨ !clockStopped s die ∨ Config.runBelow ≤ degrees s die then s
    else
      let s := if die = 8 then { s with hubStopped := false } else s.updDie die fun x => { x with stopped := false }
      let s := vectorAll s 3
      let late := if die = 8 then (List.range 8).flatMap fun d => if (s.die d).stopped then [] else (s.die d).waiting
        else (s.die die).waiting
      { s with
        agenda := late ++ s.agenda
        dies := s.dies.map fun x => if x.2.stopped || (die != 8 && x.1 != die) then x else (x.1, { x.2 with waiting := [] }) })

/-! ## Errors (R206, R254, R299, R300) -/

/-- The tile of a core by its number, over the teams' tiles in the order of their gang rows: the team and its tile. -/
def coreTile (ts : List (Nat × Team)) (core : Nat) : (n : Nat) → Option (Nat × Nat)
  | n =>
    match ts with
    | [] => none
    | t :: ts =>
      if t.2.core ≠ core then coreTile ts core n
      else if n < t.2.tiles.length then some (t.1, n) else coreTile ts core (n - t.2.tiles.length)

/-- A record of an uncorrectable error (R287, R300). -/
def errRec (req sub addr core : Nat) : FRec := { FRec.plain req 0x23 sub addr with core := core }

/-- An error in an L1's data: a non-coherent sector keeps its own marks, those of an unmodified copy are the L1's alone, and modified
data is the sector's only copy (R299). -/
def strikeL1 (s : State) (g key : Nat) : State :=
  let k := key / 64
  let q := key % 64 / 16
  if (kvGet (s.core g).nc k).isSome then
    s.updCore g fun c => { c with nc := kvPut c.nc k (let x := kvGetD NcSec.none c.nc k; { x with poison := natAdd x.poison q }) }
  else
    match holderState s k (.l1 g) with
    | .s | .e => s.updCore g fun c => { c with l1Poison := kvPut c.l1Poison k (natAdd (kvGetD [] c.l1Poison k) q) }
    | .m => { s with poison := natAdd s.poison (key / 16) }
    | .i | .l => s

/-- Modified stash sectors of a core whose scratchpad words stand for data that has no other copy take the marks of those words
(R299). -/
def strikeStash (s : State) (g addr : Nat) : State :=
  s.teams.foldl (fun s t =>
    if t.2.core = g then
      (t.2.stash.filter fun x => x.modified && (stashP s t.2 x.win x.idx) / 64 == addr / 64).foldl (fun s x =>
        markSector s g (stashP s t.2 x.win x.idx) x.key) s
    else s) s

/-- An error in memory, or in the die cache of its home: the home value is poisoned. Where a cache has modified the sector, the home value
is stale and its owner's data good; one that a stash window has modified may yet go back to that value (R174, R299). -/
def strikeHome (s : State) (key : Nat) : State :=
  match kvGet s.dir (key / 64) with
  | some (.modified (.stash t) _) =>
    s.updTeam t fun x => { x with stash := x.stash.map fun y =>
      if y.key = key / 64 ∧ y.modified = true then { y with was := natAdd y.was (key / 16) } else y }
  | some (.modified ..) => s
  | _ => { s with poison := natAdd s.poison (key / 16) }

/-- An uncorrectable error where it is detected: poison, and a record. -/
def strike (s : State) : ErrPlace → State
  | .corrected d => if dieUp s d then s.updDie d fun x => { x with cecnt := satInc x.cecnt } else s
  | .memory d sub key =>
    if !dieUp s d ∨ sub < 2 ∨ 4 < sub then s
    else
      report (strikeHome s key) d (errRec (if sub = 3 then 7 else 5) sub (dieAddr (key / 16 * 16)) 0xFFFF)
  | .l1 core key =>
    if !dieUp s (dieOf core) then s
    else report (strikeL1 s core key) (dieOf core) (errRec 5 1 (dieAddr (key / 16 * 16)) core)
  | .scratchpad core addr =>
    if !dieUp s (dieOf core) ∨ Config.spadBytes ≤ addr then s
    else
      report (strikeStash (s.updCore core fun c => { c with spadPoison := natAdd c.spadPoison (addr / 4) }) core addr) (dieOf core)
        (errRec 0 5 (addr / 4 * 4) core)
  | .register tid reg =>
    if !dieUp s (dieOf (coreOf tid)) ∨ 128 ≤ reg then s
    else
      report (s.updThread tid fun t => { t with bad := natAdd t.bad reg }) (dieOf (coreOf tid))
        { errRec 0 6 reg (coreOf tid) with tslot := slotOf tid }
  | .tile core t idx =>
    match coreTile s.teams core t with
    | none => s
    | some (tk, i) =>
      let s := updTile s tk i fun x =>
        if idx < 16384 then { x with poison := natAdd x.poison idx }
        else { x with scalePoison := natAdd x.scalePoison (idx - 16384) }
      report s (dieOf core) { errRec 2 7 idx core with tslot := t }
  | .latentCopy k h e =>
    match kvGet s.dir k with
    | some (.latent op cs) =>
      if !(cs.any (·.num == h)) ∨ 16 ≤ e then s
      else
        let cs := cs.map fun c => if c.num = h then { c with poison := natAdd c.poison e } else c
        let s := { s with dir := kvPut s.dir k (.latent op cs) }
        if h < 1024 then report s (dieOf h) (errRec 5 1 (dieAddr (64 * k)) h) else s
    | _ => s

def execUncorrectableError (p : ErrPlace) (s : State) : Host.Outcome State Fault Refusal := .next (settle (strike s p))

end Sys2Proof.Machine
end

