-- ==== Sys2Proof/Machine/Auto.lean ====
section
/-! DEFINITION. The events that the machine's own rules may call for in a state, and the choice of the next one: any that has
an effect, as the spec does not order them (log 30). -/
namespace Sys2Proof.Machine

/-- The event that an outstanding access waits for, part by part. -/
def accEvents (s : State) (id : Nat) (a : Access) : List Instr :=
  match a.kind with
  | .fence .. | .expn | .await _ => []
  | .bsig pkg die _ _ =>
    if pkg == fld (s.die (dieOf a.core)).pkgid 0 9 && die == dieOf a.core then [.pointOfCoherenceReached id 0]
    else [.remoteBendSignal id]
  | .stashFill .. => [.stashFillComplete id]
  | .stashWb .. => [.stashWritebackComplete id]
  | k => (List.range a.parts.length).map fun p => if k.completes then .accessComplete id p else .pointOfCoherenceReached id p

/-- Events of develops (R197). -/
def devEvents (s : State) : List Instr :=
  s.devs.flatMap fun v => v.2.toCollect.map (.collect v.1) ++ (v.2.flight.map fun r => .compositeReport v.1 r.num) ++
    (if (kvGetD ⟨[0], []⟩ v.2.gathers homeGather).await = [] then [flushEvent v.1] else [])

/-- Cores that hold a team. -/
def busyCores (s : State) : List Nat := (s.teams.map (·.2.core)).eraseDups

/-- The physical line that a core's multicast read asks for next (R258). -/
def nextLine (s : State) (core : Nat) : List Instr :=
  match mcRun s core with
  | none => []
  | some (_, t, r) =>
    match (s.launch t.launch).bind fun l => keyOf s (dieOf core) l.actx (mcNextVa r (cpOp r.cmd.blk)) with
    | none => []
    | some k => [.multicastRequest core (k / 256)]

/-- Events of a core's engines (R245-R259). -/
def engineEvents (s : State) (c : Nat) : List Instr :=
  [.engineCommandComplete c false, .engineCommandComplete c true, .matrixOperation c, .tileDrain c, .copyLinear c,
    .copyStrided c, .planeTranspose c, .scalePlacement c] ++ nextLine s c ++ [.multicastRead c]

/-- Events of multicast merges and responses. -/
def mergeEvents (s : State) : List Instr :=
  s.dies.flatMap fun d =>
    d.2.merges.map (.multicastMergeTimeout ·.1) ++
    d.2.responses.flatMap fun r => r.2.toReach.map fun c => .multicastResponse (128 * d.1 + c) r.1

/-- Events of threads that wait (R31-R33). -/
def threadEvents (s : State) : List Instr :=
  s.threads.filterMap fun t =>
    match t.2.status with
    | .dataWait => some (.dataWaitResolve t.1)
    | .parked .exit => some (.exitComplete t.1)
    | .parked (.bar _ false) => some (.barArrival t.1)
    | _ => none

/-- Events of the die schedulers. -/
def schedEvents (s : State) : List Instr :=
  (s.launches.flatMap fun l => [.launchAccept l.1, .gridComplete l.1]) ++
  (s.teams.flatMap fun t => [.teamSave t.1, .teamDiscard t.1, .drainDeadline t.1]) ++
  s.dies.flatMap fun d => [.teamPlace d.1, .periodBoundary d.1, .swapTick d.1, .revokeComplete d.1]

/-- Invalidations on their way (R286). -/
def invalEvents (s : State) : List Instr :=
  s.dies.flatMap fun d =>
    match d.2.inval with
    | none => []
    | some i => i.toReach.map (.invalidationRequest d.1) ++ i.toAck.map (.invalidationAck d.1)

/-- Gang groups whose interval has passed, and overflow lists that may ask for an entry to close (R39, R45). -/
def lateEvents (s : State) (c : Nat) : List Instr :=
  ((s.core c).census.flatMap fun e => (e.groups.filter fun x => (timedOut s c x.gang e.blk).isSome).map fun x => .gangTimeout c x.gang e.blk) ++
  (if (s.core c).overflow.isEmpty then [] else [.entryClose c])

/-- What happens in the cycle in which it can, and so comes before all else: threads join their successors (R33), gang groups
time out and entries close (R39, R45, R54), and free ports start passes (R41). -/
def startEvents (s : State) : List Instr :=
  (s.threads.filter fun t => t.2.status == .dataWait).map (.dataWaitResolve ·.1) ++ (busyCores s).flatMap (lateEvents s) ++
  (busyCores s).flatMap fun c => ([0, 1].filter fun p =>
    (s.pass (2 * c + p)).isNone && (choosePass s c (fun _ => false) (ageLimit (s.core c).csr)).isSome).map (.passStart c)

/-- Clocks that temperature stops or lets run again (R316, R317). -/
def thermalEvents (s : State) : List Instr :=
  if s.temps.isEmpty then [] else (List.range 9).flatMap fun d => [.thermalStop d, .thermalRestart d]

/-- Every event that may be due, but for the clocks. -/
def dueEvents (s : State) : List Instr :=
  devEvents s ++ (s.accs.flatMap fun a => accEvents s a.1 a.2) ++ (busyCores s).flatMap (engineEvents s) ++ mergeEvents s ++
  s.teams.map (.expnDeal ·.1) ++ threadEvents s ++ invalEvents s ++ schedEvents s

/-- What follows a step that needed sectors which develop: it is undone, and waits at their homes in arrival order, under the event
that makes it again; the slot of a pass is tried again of itself (R197; log 88). -/
def orWait (i : Option Instr) (s s' : State) : State :=
  if s'.blocked.isEmpty then s'
  else s'.blocked.foldl (fun s k => match i with
    | some i => (waitAt s k i).1
    | none => { (mustWait s k).1 with blocked := [] }) s

/-- Carries an event out, or lets it wait. -/
def carryOut (meaning : Instr → State → Host.Outcome State Fault Refusal) (i : Instr) (s : State) : Host.Outcome State Fault Refusal :=
  onNext (orWait (some i) s) (meaning i s)

/-- Nothing but counters of the model's own has changed. -/
def sameBut (s s' : State) : Bool := { s' with free := s.free, seq := s.seq } == s

/-- The first event that has an effect. -/
def firstDue (meaning : Instr → State → Host.Outcome State Fault Refusal) (s : State) :
    List Instr → Option (Host.Outcome State Fault Refusal)
  | [] => none
  | i :: is =>
    match meaning i s with
    | .next s' => if sameBut s s' then firstDue meaning s is else some (.next s')
    | r => some r

/-- An event that has an effect: a clock that temperature stops or lets run before all else, then one of those that are due,
and which one is free (log 30). -/
def runDue (meaning : Instr → State → Host.Outcome State Fault Refusal) (s : State) : Option (Host.Outcome State Fault Refusal) :=
  match firstDue meaning s (thermalEvents s) with
  | some r => some r
  | none =>
    let c := chooseOne s ((dueEvents s).filter fun i => (firstDue meaning s [i]).isSome)
    c.2.map fun i => meaning i c.1

end Sys2Proof.Machine
end

