-- ==== Sys2Proof/Machine/Integer.lean ====
section
/-! DEFINITION. Integer arithmetic, moves, selects, addresses, and predicate logic (spec 15 R356-R358, R364, R368, 16
R376, R387). -/
namespace Sys2Proof.Machine

/-- An operand as an exact integer of its type (R357). -/
def tyVal (ty : IntTy) (v : Nat) : Int := if tySigned ty then sextNat v (wBits (tyWidth ty)) else (v : Int)

/-- Least and greatest values of a type. -/
def tyMin (ty : IntTy) : Int := if tySigned ty then -(2 ^ (wBits (tyWidth ty) - 1) : Int) else 0
def tyMax (ty : IntTy) : Int :=
  if tySigned ty then (2 ^ (wBits (tyWidth ty) - 1) : Int) - 1 else (2 ^ wBits (tyWidth ty) : Int) - 1

/-- Narrows an exact result: clamped for a saturating type, else the low bits (R142, R357). -/
def tyNarrow (ty : IntTy) (r : Int) : Nat :=
  let r := if tySat ty then max (tyMin ty) (min (tyMax ty) r) else r
  lowBits r (wBits (tyWidth ty))

/-- The shared mould of R356: reads A and B, and writes D narrowed. -/
def intOp (ty : IntTy) (d a b : Reg) (f : Int → Int → Int) (s : State) : State :=
  mapLanes s fun t =>
    wrW t (tyWidth ty) d (tyNarrow ty (f (tyVal ty (rdW t (tyWidth ty) a)) (tyVal ty (rdB s.cur t (tyWidth ty) b))))

def execIadd (ty : IntTy) (d a b : Reg) (s : State) : Host.Outcome State Fault Refusal :=
  .next (intOp ty d a b (· + ·) s)
def execIsub (ty : IntTy) (d a b : Reg) (s : State) : Host.Outcome State Fault Refusal :=
  .next (intOp ty d a b (· - ·) s)
def execImul (ty : IntTy) (d a b : Reg) (s : State) : Host.Outcome State Fault Refusal :=
  .next (intOp ty d a b (· * ·) s)
/-- The high half of the exact product, floor(x × y ÷ 2^w). -/
def execImulh (ty : IntTy) (d a b : Reg) (s : State) : Host.Outcome State Fault Refusal :=
  .next (intOp ty d a b (fun x y => x * y / 2 ^ wBits (tyWidth ty)) s)
/-- D is read and written: x × y + z. -/
def execImad (ty : IntTy) (d a b : Reg) (s : State) : Host.Outcome State Fault Refusal :=
  .next (mapLanes s fun t =>
    let w := tyWidth ty
    wrW t w d (tyNarrow ty (tyVal ty (rdW t w a) * tyVal ty (rdB s.cur t w b) + tyVal ty (rdW t w d))))
def execImin (ty : IntTy) (d a b : Reg) (s : State) : Host.Outcome State Fault Refusal :=
  .next (intOp ty d a b min s)
def execImax (ty : IntTy) (d a b : Reg) (s : State) : Host.Outcome State Fault Refusal :=
  .next (intOp ty d a b max s)

/-- The one-operand mould of IABS and INEG. -/
def intOp1 (ty : IntTy) (d a : Reg) (f : Int → Int) (s : State) : State :=
  mapLanes s fun t => wrW t (tyWidth ty) d (tyNarrow ty (f (tyVal ty (rdW t (tyWidth ty) a))))

def execIabs (ty : IntTy) (d a : Reg) (s : State) : Host.Outcome State Fault Refusal :=
  .next (intOp1 ty d a (fun x => if x < 0 then -x else x) s)
def execIneg (ty : IntTy) (d a : Reg) (s : State) : Host.Outcome State Fault Refusal :=
  .next (intOp1 ty d a (- ·) s)

/-- ICMP (R358). -/
def execIcmp (cc : Cond) (ty : IntTy) (pd : Pred) (a b : Reg) (s : State) : Host.Outcome State Fault Refusal :=
  .next (mapLanes s fun t => t.setPred pd.toNat
    (intCond cc (tyVal ty (rdW t (tyWidth ty) a)) (tyVal ty (rdB s.cur t (tyWidth ty) b))))

/-- LEA: d ← (a + (sext(b, 32) << n)) mod 2^64 (R364). -/
def execLea (n : BitVec 3) (d a b : Reg) (s : State) : Host.Outcome State Fault Refusal :=
  .next (mapLanes s fun t =>
    wrW t .w64 d (lowBits ((rdW t .w64 a : Int) + sextNat (rdB s.cur t .w32 b) 32 * 2 ^ n.toNat) 64))

/-- SEL (R387). -/
def execSel (p : Pred) (d a b : Reg) (s : State) : Host.Outcome State Fault Refusal :=
  .next (mapLanes s fun t => wrW t .w32 d (if t.pred p.toNat then rdW t .w32 a else rdB s.cur t .w32 b))

/-- MOV and MOV.X (R368). -/
def execMov (pair : Bool) (d a : Reg) (s : State) : Host.Outcome State Fault Refusal :=
  .next (mapLanes s fun t => if pair then wrW t .w64 d (rdW t .w64 a) else wrW t .w32 d (rdW t .w32 a))

/-- PLOP (R131, R376). -/
def execPlop (table : BitVec 4) (pd pa pb : Pred) (s : State) : Host.Outcome State Fault Refusal :=
  .next (mapLanes s fun t => t.setPred pd.toNat (plopBit table (t.pred pa.toNat) (t.pred pb.toNat)))

end Sys2Proof.Machine
end

