-- ==== Sys2Proof/Machine/Logic.lean ====
section
/-! DEFINITION. Logical operations, shifts, bit fields and bit counts (spec 14 R319, R323, R325, 16 R373, R377, R383). -/
namespace Sys2Proof.Machine

/-- The mould of R319: a bitwise function of A and B on the operand width. -/
def logOp (w : Width) (d a b : Reg) (f : Nat → Nat → Nat) (s : State) : State :=
  mapLanes s fun t => wrW t w d (f (rdW t w a) (rdB s.cur t w b) % 2 ^ (wBits w))

/-- The complement on a width. -/
def notW (w : Width) (x : Nat) : Nat := 2 ^ (wBits w) - 1 - x % 2 ^ (wBits w)

def execAndB (w : Width) (d a b : Reg) (s : State) : Host.Outcome State Fault Refusal :=
  .next (logOp w d a b (· &&& ·) s)
def execAndn (w : Width) (d a b : Reg) (s : State) : Host.Outcome State Fault Refusal :=
  .next (logOp w d a b (fun x y => x &&& notW w y) s)
def execOrB (w : Width) (d a b : Reg) (s : State) : Host.Outcome State Fault Refusal :=
  .next (logOp w d a b (· ||| ·) s)
def execXorB (w : Width) (d a b : Reg) (s : State) : Host.Outcome State Fault Refusal :=
  .next (logOp w d a b (· ^^^ ·) s)
def execNotB (w : Width) (d a : Reg) (s : State) : Host.Outcome State Fault Refusal :=
  .next (mapLanes s fun t => wrW t w d (notW w (rdW t w a)))

/-- The mould of R383: the count is zext(b, 32), never a pair. -/
def shiftOp (w : Width) (d a b : Reg) (f : Nat → Nat → Nat) (s : State) : State :=
  mapLanes s fun t => wrW t w d (f (rdW t w a) (rdB s.cur t .w32 b))

/-- Shifts and rotations of R383 on a width. -/
def shlW (w : Width) (x n : Nat) : Nat := if (wBits w) ≤ n then 0 else x * 2 ^ n % 2 ^ (wBits w)
def shrW (w : Width) (x n : Nat) : Nat := if (wBits w) ≤ n then 0 else x / 2 ^ n
def shaW (w : Width) (x n : Nat) : Nat := lowBits (sextNat x (wBits w) / 2 ^ min n ((wBits w) - 1)) (wBits w)
def rotW (w : Width) (x n : Nat) : Nat :=
  let m := n % (wBits w)
  (x * 2 ^ m + x / 2 ^ ((wBits w) - m)) % 2 ^ (wBits w)

def execShl (w : Width) (d a b : Reg) (s : State) : Host.Outcome State Fault Refusal := .next (shiftOp w d a b (shlW w) s)
def execShr (w : Width) (d a b : Reg) (s : State) : Host.Outcome State Fault Refusal := .next (shiftOp w d a b (shrW w) s)
def execSha (w : Width) (d a b : Reg) (s : State) : Host.Outcome State Fault Refusal := .next (shiftOp w d a b (shaW w) s)
def execRot (w : Width) (d a b : Reg) (s : State) : Host.Outcome State Fault Refusal := .next (shiftOp w d a b (rotW w) s)

/-- BFX on a width: the field at POS of LEN bits, bits beyond the width 0, sign- or zero-extended (R323). -/
def bfxW (w : Width) (signed : Bool) (x ctl : Nat) : Nat :=
  let pos := ctl % 128
  let len := min (ctl / 256 % 128) (wBits w)
  let f := x / 2 ^ pos % 2 ^ len
  if len = 0 then 0 else if signed then lowBits (sextNat f len) (wBits w) else f

/-- BFI on a width: LEN low bits of A replace the bits of D from POS, bits beyond the width dropped (R323). -/
def bfiW (w : Width) (z x ctl : Nat) : Nat :=
  let pos := ctl % 128
  let len := min (ctl / 256 % 128) (wBits w)
  let n := min len ((wBits w) - pos)
  if (wBits w) ≤ pos then z
  else z / 2 ^ (pos + n) * 2 ^ (pos + n) + x % 2 ^ n * 2 ^ pos + z % 2 ^ pos

def execBfx (ty : IntTy) (d a b : Reg) (s : State) : Host.Outcome State Fault Refusal :=
  .next (mapLanes s fun t =>
    wrW t (tyWidth ty) d (bfxW (tyWidth ty) (tySigned ty) (rdW t (tyWidth ty) a) (rdB s.cur t .w32 b)))
def execBfi (w : Width) (d a b : Reg) (s : State) : Host.Outcome State Fault Refusal :=
  .next (mapLanes s fun t => wrW t w d (bfiW w (rdW t w d) (rdW t w a) (rdB s.cur t .w32 b)))

/-- The 1 bits of the n low bits. -/
def popN : (n x : Nat) → Nat
  | 0, _ => 0
  | n + 1, x => x % 2 + popN n (x / 2)
/-- The n low bits in reverse. -/
def brevN : (n x : Nat) → Nat
  | 0, _ => 0
  | n + 1, x => x % 2 * 2 ^ n + brevN n (x / 2)
/-- Zero bits below the lowest 1 of the n low bits, or n. -/
def ctzN : (n x : Nat) → Nat
  | 0, _ => 0
  | n + 1, x => if x % 2 = 1 then 0 else 1 + ctzN n (x / 2)

def execPopc (w : Width) (d a : Reg) (s : State) : Host.Outcome State Fault Refusal :=
  .next (mapLanes s fun t => wrW t .w32 d (popN (wBits w) (rdW t w a)))
def execClz (w : Width) (d a : Reg) (s : State) : Host.Outcome State Fault Refusal :=
  .next (mapLanes s fun t => wrW t .w32 d (ctzN (wBits w) (brevN (wBits w) (rdW t w a))))
def execCtz (w : Width) (d a : Reg) (s : State) : Host.Outcome State Fault Refusal :=
  .next (mapLanes s fun t => wrW t .w32 d (ctzN (wBits w) (rdW t w a)))
def execBrev (w : Width) (d a : Reg) (s : State) : Host.Outcome State Fault Refusal :=
  .next (mapLanes s fun t => wrW t w d (brevN (wBits w) (rdW t w a)))

end Sys2Proof.Machine
end

