-- ==== Sys2Proof/Machine/Dispatch.lean ====
section
/-! DEFINITION. The meaning of every constructor of `Instr`, arm by arm. -/
namespace Sys2Proof.Machine

def exec (i : Instr) (s : State) : Host.Outcome State Fault Refusal :=
  match i with
  | .nop => Sys2Proof.Machine.execNop s
  | .bra off => Sys2Proof.Machine.execBra off s
  | .bri a => Sys2Proof.Machine.execBri a s
  | .call off => Sys2Proof.Machine.execCall off s
  | .calli a => Sys2Proof.Machine.execCalli a s
  | .ret => Sys2Proof.Machine.execRet s
  | .exit => Sys2Proof.Machine.execExit s
  | .trap code => Sys2Proof.Machine.execTrap code s
  | .rte => Sys2Proof.Machine.execRte s
  | .illegalInstruction => Sys2Proof.Machine.execIllegalInstruction s
  | .iadd ty d a b => Sys2Proof.Machine.execIadd ty d a b s
  | .isub ty d a b => Sys2Proof.Machine.execIsub ty d a b s
  | .imul ty d a b => Sys2Proof.Machine.execImul ty d a b s
  | .imulh ty d a b => Sys2Proof.Machine.execImulh ty d a b s
  | .imad ty d a b => Sys2Proof.Machine.execImad ty d a b s
  | .imin ty d a b => Sys2Proof.Machine.execImin ty d a b s
  | .imax ty d a b => Sys2Proof.Machine.execImax ty d a b s
  | .iabs ty d a => Sys2Proof.Machine.execIabs ty d a s
  | .ineg ty d a => Sys2Proof.Machine.execIneg ty d a s
  | .icmp cc ty pd a b => Sys2Proof.Machine.execIcmp cc ty pd a b s
  | .lea n d a b => Sys2Proof.Machine.execLea n d a b s
  | .sel p d a b => Sys2Proof.Machine.execSel p d a b s
  | .mov pair d a => Sys2Proof.Machine.execMov pair d a s
  | .movK d k => Sys2Proof.Machine.execMovK d k s
  | .movPop d q => Sys2Proof.Machine.execMovPop d q s
  | .movPush q a => Sys2Proof.Machine.execMovPush q a s
  | .andB w d a b => Sys2Proof.Machine.execAndB w d a b s
  | .andn w d a b => Sys2Proof.Machine.execAndn w d a b s
  | .orB w d a b => Sys2Proof.Machine.execOrB w d a b s
  | .xorB w d a b => Sys2Proof.Machine.execXorB w d a b s
  | .notB w d a => Sys2Proof.Machine.execNotB w d a s
  | .shl w d a b => Sys2Proof.Machine.execShl w d a b s
  | .shr w d a b => Sys2Proof.Machine.execShr w d a b s
  | .sha w d a b => Sys2Proof.Machine.execSha w d a b s
  | .rot w d a b => Sys2Proof.Machine.execRot w d a b s
  | .bfx ty d a b => Sys2Proof.Machine.execBfx ty d a b s
  | .bfi w d a b => Sys2Proof.Machine.execBfi w d a b s
  | .popc w d a => Sys2Proof.Machine.execPopc w d a s
  | .clz w d a => Sys2Proof.Machine.execClz w d a s
  | .ctz w d a => Sys2Proof.Machine.execCtz w d a s
  | .brev w d a => Sys2Proof.Machine.execBrev w d a s
  | .plop table pd pa pb => Sys2Proof.Machine.execPlop table pd pa pb s
  | .fadd ty rm d a b => Sys2Proof.Machine.execFadd ty rm d a b s
  | .fsub ty rm d a b => Sys2Proof.Machine.execFsub ty rm d a b s
  | .fmul ty rm d a b => Sys2Proof.Machine.execFmul ty rm d a b s
  | .ffma ty rm d a b => Sys2Proof.Machine.execFfma ty rm d a b s
  | .fmin ty d a b => Sys2Proof.Machine.execFmin ty d a b s
  | .fmax ty d a b => Sys2Proof.Machine.execFmax ty d a b s
  | .fcmp cc ty pd a b => Sys2Proof.Machine.execFcmp cc ty pd a b s
  | .fclass ty d a => Sys2Proof.Machine.execFclass ty d a s
  | .frnd ty rm d a => Sys2Proof.Machine.execFrnd ty rm d a s
  | .fcvt code rm d a => Sys2Proof.Machine.execFcvt code rm d a s
  | .ftoi it ft rm d a => Sys2Proof.Machine.execFtoi it ft rm d a s
  | .itof it ft rm d a => Sys2Proof.Machine.execItof it ft rm d a s
  | .fscale ty rm d a b => Sys2Proof.Machine.execFscale ty rm d a b s
  | .fexpo ty d a => Sys2Proof.Machine.execFexpo ty d a s
  | .fmant ty d a => Sys2Proof.Machine.execFmant ty d a s
  | .rcpseed d a => Sys2Proof.Machine.execRcpseed d a s
  | .rsqseed d a => Sys2Proof.Machine.execRsqseed d a s
  | .expred d a => Sys2Proof.Machine.execExpred d a s
  | .logred d a => Sys2Proof.Machine.execLogred d a s
  | .sinred d a => Sys2Proof.Machine.execSinred d a s
  | .dot8 sg d a b => Sys2Proof.Machine.execDot8 sg d a b s
  | .dot4 sg d a b => Sys2Proof.Machine.execDot4 sg d a b s
  | .dotf8 f d a b => Sys2Proof.Machine.execDotf8 f d a b s
  | .dotf4 f d a b => Sys2Proof.Machine.execDotf4 f d a b s
  | .dot8s sg d a b => Sys2Proof.Machine.execDot8s sg d a b s
  | .packn f d a b => Sys2Proof.Machine.execPackn f d a b s
  | .unpkn f d a b => Sys2Proof.Machine.execUnpkn f d a b s
  | .spars d a => Sys2Proof.Machine.execSpars d a s
  | .ld sz sx h d a imm => Sys2Proof.Machine.execLd sz sx h d a imm s
  | .st sz h d a imm => Sys2Proof.Machine.execSt sz h d a imm s
  | .lds k d a imm => Sys2Proof.Machine.execLds k d a imm s
  | .sts sz d a imm => Sys2Proof.Machine.execSts sz d a imm s
  | .ldfe sz clr d a imm => Sys2Proof.Machine.execLdfe sz clr d a imm s
  | .stfe sz d a imm => Sys2Proof.Machine.execStfe sz d a imm s
  | .pref h a imm => Sys2Proof.Machine.execPref h a imm s
  | .cwb a imm => Sys2Proof.Machine.execCwb a imm s
  | .atomAdd sc w o d a => Sys2Proof.Machine.execAtomAdd sc w o d a s
  | .atomMin sc w uns o d a => Sys2Proof.Machine.execAtomMin sc w uns o d a s
  | .atomMax sc w uns o d a => Sys2Proof.Machine.execAtomMax sc w uns o d a s
  | .atomAnd sc w o d a => Sys2Proof.Machine.execAtomAnd sc w o d a s
  | .atomOr sc w o d a => Sys2Proof.Machine.execAtomOr sc w o d a s
  | .atomXor sc w o d a => Sys2Proof.Machine.execAtomXor sc w o d a s
  | .atomXchg sc w o d a => Sys2Proof.Machine.execAtomXchg sc w o d a s
  | .atomFadd sc o d a => Sys2Proof.Machine.execAtomFadd sc o d a s
  | .cas sc w o d a => Sys2Proof.Machine.execCas sc w o d a s
  | .lup op d a imm => Sys2Proof.Machine.execLup op d a imm s
  | .devl a imm => Sys2Proof.Machine.execDevl a imm s
  | .fence sc k => Sys2Proof.Machine.execFence sc k s
  | .pubv d => Sys2Proof.Machine.execPubv d s
  | .sbind w => Sys2Proof.Machine.execSbind w s
  | .sunb w => Sys2Proof.Machine.execSunb w s
  | .sunbDisc w => Sys2Proof.Machine.execSunbDisc w s
  | .bsig rel sc b => Sys2Proof.Machine.execBsig rel sc b s
  | .bwait acq sc b => Sys2Proof.Machine.execBwait acq sc b s
  | .btry acq sc pd b => Sys2Proof.Machine.execBtry acq sc pd b s
  | .bar n => Sys2Proof.Machine.execBar n s
  | .elect pd => Sys2Proof.Machine.execElect pd s
  | .kmov k a => Sys2Proof.Machine.execKmov k a s
  | .vote k d pa => Sys2Proof.Machine.execVote k d pa s
  | .matchKey w d a => Sys2Proof.Machine.execMatchKey w d a s
  | .gred op d a => Sys2Proof.Machine.execGred op d a s
  | .gshf m d a b => Sys2Proof.Machine.execGshf m d a b s
  | .expb n op a b => Sys2Proof.Machine.execExpb n op a b s
  | .expn d pb => Sys2Proof.Machine.execExpn d pb s
  | .expq d => Sys2Proof.Machine.execExpq d s
  | .segr op a => Sys2Proof.Machine.execSegr op a s
  | .expsv a => Sys2Proof.Machine.execExpsv a s
  | .exprs a => Sys2Proof.Machine.execExprs a s
  | .mxiss a => Sys2Proof.Machine.execMxiss a s
  | .mxdrn a => Sys2Proof.Machine.execMxdrn a s
  | .mxclr t => Sys2Proof.Machine.execMxclr t s
  | .mxrd d t b => Sys2Proof.Machine.execMxrd d t b s
  | .mxwr t a b => Sys2Proof.Machine.execMxwr t a b s
  | .cpiss a => Sys2Proof.Machine.execCpiss a s
  | .qstat d q => Sys2Proof.Machine.execQstat d q s
  | .csrr d n => Sys2Proof.Machine.execCsrr d n s
  | .csrw d n => Sys2Proof.Machine.execCsrw d n s
  | .cyc d => Sys2Proof.Machine.execCyc d s
  | .passStart core port => Sys2Proof.Machine.execPassStart core port s
  | .dataWaitResolve tid => Sys2Proof.Machine.execDataWaitResolve tid s
  | .entryClose core => Sys2Proof.Machine.execEntryClose core s
  | .gangTimeout core gang block => Sys2Proof.Machine.execGangTimeout core gang block s
  | .accessComplete id part => Sys2Proof.Machine.execAccessComplete id part s
  | .exitComplete tid => Sys2Proof.Machine.execExitComplete tid s
  | .barArrival tid => Sys2Proof.Machine.execBarArrival tid s
  | .remoteBendSignal id => Sys2Proof.Machine.execRemoteBendSignal id s
  | .stashFillComplete id => Sys2Proof.Machine.execStashFillComplete id s
  | .stashWritebackComplete id => Sys2Proof.Machine.execStashWritebackComplete id s
  | .collect sector holder => Sys2Proof.Machine.execCollect sector holder s
  | .compositeReport sector holder => Sys2Proof.Machine.execCompositeReport sector holder s
  | .earlyMerge sector holder => Sys2Proof.Machine.execEarlyMerge sector holder s
  | .directoryEntryEviction sector => Sys2Proof.Machine.execDirectoryEntryEviction sector s
  | .multicastRequest core line => Sys2Proof.Machine.execMulticastRequest core line s
  | .multicastMergeTimeout key => Sys2Proof.Machine.execMulticastMergeTimeout key s
  | .multicastResponse core resp => Sys2Proof.Machine.execMulticastResponse core resp s
  | .matrixOperation core => Sys2Proof.Machine.execMatrixOperation core s
  | .tileDrain core => Sys2Proof.Machine.execTileDrain core s
  | .copyLinear core => Sys2Proof.Machine.execCopyLinear core s
  | .copyStrided core => Sys2Proof.Machine.execCopyStrided core s
  | .planeTranspose core => Sys2Proof.Machine.execPlaneTranspose core s
  | .scalePlacement core => Sys2Proof.Machine.execScalePlacement core s
  | .multicastRead core => Sys2Proof.Machine.execMulticastRead core s
  | .engineCommandComplete core copy => Sys2Proof.Machine.execEngineCommandComplete core copy s
  | .expnDeal team => Sys2Proof.Machine.execExpnDeal team s
  | .periodBoundary die => Sys2Proof.Machine.execPeriodBoundary die s
  | .launchAccept launch => Sys2Proof.Machine.execLaunchAccept launch s
  | .teamPlace die => Sys2Proof.Machine.execTeamPlace die s
  | .gridComplete launch => Sys2Proof.Machine.execGridComplete launch s
  | .preemptRequest die v => Sys2Proof.Machine.execPreemptRequest die v s
  | .drainDeadline team => Sys2Proof.Machine.execDrainDeadline team s
  | .teamSave team => Sys2Proof.Machine.execTeamSave team s
  | .teamDiscard team => Sys2Proof.Machine.execTeamDiscard team s
  | .resumeRequest die v => Sys2Proof.Machine.execResumeRequest die v s
  | .swapTick die => Sys2Proof.Machine.execSwapTick die s
  | .doorbell die v => Sys2Proof.Machine.execDoorbell die v s
  | .replayAccess die token => Sys2Proof.Machine.execReplayAccess die token s
  | .replayDeliver die token => Sys2Proof.Machine.execReplayDeliver die token s
  | .tlbInvalidatePages die v => Sys2Proof.Machine.execTlbInvalidatePages die v s
  | .tlbInvalidateContext die v => Sys2Proof.Machine.execTlbInvalidateContext die v s
  | .tlbInvalidateAll die v => Sys2Proof.Machine.execTlbInvalidateAll die v s
  | .invalidationRequest src receiver => Sys2Proof.Machine.execInvalidationRequest src receiver s
  | .invalidationAck src receiver => Sys2Proof.Machine.execInvalidationAck src receiver s
  | .exprevoke die v => Sys2Proof.Machine.execExprevoke die v s
  | .revokeComplete die => Sys2Proof.Machine.execRevokeComplete die s
  | .ovppush die v => Sys2Proof.Machine.execOvppush die v s
  | .ovppop die => Sys2Proof.Machine.execOvppop die s
  | .heatdecay die => Sys2Proof.Machine.execHeatdecay die s
  | .bendtake die => Sys2Proof.Machine.execBendtake die s
  | .bendcntWrite die v => Sys2Proof.Machine.execBendcntWrite die v s
  | .bendctlWrite die v => Sys2Proof.Machine.execBendctlWrite die v s
  | .fqheadWrite die v => Sys2Proof.Machine.execFqheadWrite die v s
  | .gstatClear core v => Sys2Proof.Machine.execGstatClear core v s
  | .attgo die v => Sys2Proof.Machine.execAttgo die v s
  | .linkRetrain port => Sys2Proof.Machine.execLinkRetrain port s
  | .registerWrite die off size v => Sys2Proof.Machine.execRegisterWrite die off size v s
  | .linkDataFlit port f => Sys2Proof.Machine.execLinkDataFlit port f s
  | .linkStopFlit port => Sys2Proof.Machine.execLinkStopFlit port s
  | .linkGoFlit port => Sys2Proof.Machine.execLinkGoFlit port s
  | .linkAckFlit port seq => Sys2Proof.Machine.execLinkAckFlit port seq s
  | .linkNakFlit port seq => Sys2Proof.Machine.execLinkNakFlit port seq s
  | .linkIdleFlit port => Sys2Proof.Machine.execLinkIdleFlit port s
  | .linkTimeout port => Sys2Proof.Machine.execLinkTimeout port s
  | .linkTrained port peer => Sys2Proof.Machine.execLinkTrained port peer s
  | .hostRead die addr n => Sys2Proof.Machine.execHostRead die addr n s
  | .hostWrite die addr bytes => Sys2Proof.Machine.execHostWrite die addr bytes s
  | .hostPortTrained die => Sys2Proof.Machine.execHostPortTrained die s
  | .moduleReset => Sys2Proof.Machine.execModuleReset s
  | .dieAuthentication die fwOk authOk => Sys2Proof.Machine.execDieAuthentication die fwOk authOk s
  | .functionReady die hub => Sys2Proof.Machine.execFunctionReady die hub s
  | .powerSample watts temps => Sys2Proof.Machine.execPowerSample watts temps s
  | .thermalStop die => Sys2Proof.Machine.execThermalStop die s
  | .thermalRestart die => Sys2Proof.Machine.execThermalRestart die s
  | .uncorrectableError p => Sys2Proof.Machine.execUncorrectableError p s
  | .l1Eviction core line => Sys2Proof.Machine.execL1Eviction core line s
  | .pointOfCoherenceReached id part => Sys2Proof.Machine.execPointOfCoherenceReached id part s

end Sys2Proof.Machine
end

