-- ==== Sys2Proof/Machine/Step.lean ====
section
/-! DEFINITION. One step of the package: the event at the head of the agenda; else a thread that can join its successor (R33)
or a pass that a free port can start (R41); else, in turn, the next slot of a running pass or an event that is due and has an effect; else time passes. -/
namespace Sys2Proof.Machine

/-- The next slot of a running pass; with none, an event that is due, or time. -/
def stepSlot (s : State) : Host.Outcome State Fault Refusal :=
  match nextIssue s with
  | (s, some x) => onNext (fun t => { orWait none s t with turn := true }) (runIssue exec s x)
  | (s, none) => (runDue (carryOut exec) s).getD (.next (idle s))

/-- An event that is due; with none, the next slot. -/
def stepEvent (s : State) : Host.Outcome State Fault Refusal :=
  match runDue (carryOut exec) s with
  | some r => onNext (fun s => { s with turn := false }) r
  | none => stepSlot s

def step (s : State) : Host.Outcome State Fault Refusal :=
  match s.agenda with
  | i :: rest => carryOut exec i { s with agenda := rest }
  | [] =>
    match firstDue (carryOut exec) s (startEvents s) with
    | some r => r
    | none => if s.turn then stepEvent s else stepSlot s

/-- The state with one instruction where the next step runs it (log 14). -/
def State.withFetchWord (s : State) (_nbits w : Nat) : State := placeWord s w

end Sys2Proof.Machine
end

