-- ==== Sys2Proof/Safety.lean ====
section
/-! DEFINITION. What counts as a safe run, and the words in which the statements speak of what a step changes. -/
namespace Sys2Proof.Machine

/-- The step goes on: it neither faults nor refuses. -/
def Runs (s : State) : Prop := ∃ t, step s = .next t

/-- The invariant of physical memory: its canonical form. -/
def MemoryOk (s : State) : Prop := Memory.wf s.mem = true

/-! ## Threads -/

/-- Thread `y` is thread `x` but for its registers from `d` on, `n` of them, which hold the low bits of `v`, the lowest
register the least significant (R87). -/
def Thread.Wrote (x y : Thread) (n d v : Nat) : Prop :=
  y = { x with regs := y.regs } ∧ (∀ r, r < d ∨ d + n ≤ r → y.reg r = x.reg r) ∧ y.group n d = v % 2 ^ (32 * n)

/-- Thread `y` is thread `x` but for predicate `p`, which holds `v`; p7 reads true whatever is written to it (R88). -/
def Thread.WrotePred (x y : Thread) (p : Nat) (v : Bool) : Prop :=
  y = { x with preds := y.preds } ∧ ∀ q, y.pred q = if q = 7 then true else if q = p then v else x.pred q

/-- Nothing but threads changes, and of these only the slot's active threads, each as `R` says. -/
def LaneStep (s t : State) (R : Nat → Thread → Thread → Prop) : Prop :=
  t = { s with threads := t.threads } ∧ (∀ k, k ∉ s.cur.tids → t.thread k = s.thread k) ∧
  ∀ k, k ∈ s.cur.tids → R k (s.thread k) (t.thread k)

/-- The slot completes, and each active thread receives a value in a group of `n` registers, and nothing else changes. -/
def Gives (s : State) (i : Instr) (n : Nat) (d : Reg) (v : Nat → Thread → Nat) : Prop :=
  ∃ t, exec i s = .next t ∧ LaneStep s t fun k x y => x.Wrote y n d.toNat (v k x)

/-- The slot completes, and each active thread receives a predicate, and nothing else changes. -/
def GivesPred (s : State) (i : Instr) (p : Nat) (v : Nat → Thread → Bool) : Prop :=
  ∃ t, exec i s = .next t ∧ LaneStep s t fun k x y => x.WrotePred y p (v k x)

/-! ## Integers -/

/-- A register operand of an integer type as the integer that it stands for. -/
def intOf (ty : IntTy) (v : Nat) : Int :=
  if tySigned ty then (BitVec.ofNat (wBits (tyWidth ty)) v).toInt else v

/-- An exact integer as the register of an integer type holds it: clamped to the type's range where the type saturates,
and then its low bits. -/
def intTo (ty : IntTy) (z : Int) : Nat :=
  let w := wBits (tyWidth ty)
  let z := match ty with
    | .i32s => max (-2147483648) (min 2147483647 z)
    | .n32s => max 0 (min 4294967295 z)
    | _ => z
  (BitVec.ofInt w z).toNat

/-! ## Traps -/

/-- A thread can take a trap: its depth is 0 or 1, and TRAPBASE is a block of its kernel. -/
def CanTrap (s : State) (tid : Nat) : Prop :=
  (s.thread tid).depth < 2 ∧ ∃ l b, launchOf s tid = some l ∧ l.blk l.trapblk = some b

/-- Thread `y` is thread `x` after a trap of some cause and return point (R55, R295): the depth rises, TPC, TCAUSE and
TWORD are written and at depth 1 the outer ones kept, and the thread is ready to enter the start of the launch's trap
block; a transfer of earlier slots of its packet is kept with the return point, and a wait of theirs it waits for before it enters
the block (R32, R37, R55; log 81). Registers, predicates and everything else stay. -/
def TookTrap (s : State) (tid cause sub : Nat) (word : Word) (pc : DWord) (x y : Thread) : Prop :=
  ∃ l b, launchOf s tid = some l ∧ l.blk l.trapblk = some b ∧
    y.depth = x.depth + 1 ∧ y.trap.pc = pc ∧ y.trap.cause.toNat = (sub * 65536 + cause) % 2 ^ 32 ∧ y.trap.word = word ∧
    y.outer = (if x.depth = 1 then x.trap else x.outer) ∧ y.blk = l.trapblk ∧ y.pkt = b.start ∧
    y.slot = 0 ∧ y.resume = false ∧ y.fall = none ∧ y.regs = x.regs ∧ y.preds = x.preds ∧ y.fpmode = x.fpmode ∧
    y.pubaddr = x.pubaddr ∧ y.team = x.team ∧ y.bad = x.bad ∧ y.held = [] ∧
    ∃ hs, y.trap.held = carriedTargets (hs ++ x.held) ∧
      y.status = ((carriedWait (hs ++ x.held)).map fun w => Status.parked w.1).getD .dataWait ∧
      hs.length ≤ 1 ∧ ∀ h, h ∈ hs → h.target.isSome = true ∨ h.wait.isSome = true

/-- Each active thread either completes the slot as `R` says, or takes a precise trap at it; nothing changes but threads,
the pass that trapping threads leave with the waits that they carry along, and the slot's lists of threads (R55). -/
def LaneOrTrap (s t : State) (ok : Nat → Bool) (cause sub : Nat) (R : Nat → Thread → Thread → Prop) : Prop :=
  t = { s with threads := t.threads, passes := t.passes, cur := t.cur } ∧
  (∀ k, k ∉ s.cur.tids → t.thread k = s.thread k) ∧
  ∀ k, k ∈ s.cur.tids →
    if ok k then R k (s.thread k) (t.thread k)
    else TookTrap s k cause sub s.cur.word (curPc s) (s.thread k) (t.thread k)

/-- Every one of some threads takes a precise trap of a cause and SUB at the slot, and all leave the pass; of the rest of
the state nothing changes. -/
def TrapAll (s t : State) (tids : List Nat) (cause sub : Nat) (pc : DWord) : Prop :=
  t = { s with threads := t.threads, passes := t.passes, cur := t.cur } ∧
  (∀ k, k ∉ tids → t.thread k = s.thread k) ∧
  (∀ k, k ∈ tids → TookTrap s k cause sub s.cur.word pc (s.thread k) (t.thread k)) ∧
  (∀ p, t.pass s.curPass = some p → ∀ k, k ∈ tids → k ∉ p.tids) ∧
  (∀ q, q ≠ s.curPass → t.pass q = s.pass q) ∧ ∀ k, k ∈ tids → k ∉ t.cur.tids

/-! ## The pass of the slot -/

/-- The pass of the slot moves from `p` to `q`; every other pass stands. -/
def PassStep (s t : State) (p q : Pass) : Prop :=
  s.pass s.curPass = some p ∧ t.pass s.curPass = some q ∧ ∀ i, i ≠ s.curPass → t.pass i = s.pass i

/-- A transfer of each active thread, `dest k` its packet and slot: the pass takes the successor down, unless the thread
waits at an EXIT of this packet, whose transfers have no effect (R30, R343). -/
def Transfers (s t : State) (p : Pass) (dest : Nat → Nat × Nat) : Prop :=
  ∃ q, PassStep s t p q ∧ q = { p with targets := q.targets } ∧
    ∀ k, kvGet q.targets k =
      if k ∈ s.cur.tids ∧ kvGet p.waits k ≠ some .exit then some (4 * (dest k).1 + (dest k).2) else kvGet p.targets k

/-! ## Accesses -/

/-- An access that thread `k` has just made at the slot: nothing of it performed, nothing read, and its identity that of the
thread (R82, R214). -/
def Fresh (s : State) (k : Nat) (a : Access) : Prop :=
  a.tid = k ∧ a.team = (s.thread k).team ∧ a.core = coreOf k ∧ a.word = s.cur.word ∧ a.got = 0 ∧ a.queued = false ∧
  a.poisoned = false ∧ a.faulted = false ∧ ∀ p, p ∈ a.parts → p.done = false

/-- From `s` to `t` some threads make one access each, in order: the accesses take the next order numbers, and each is as `A`
says; every other access stands. -/
def Joins (s t : State) (tids : List Nat) (A : Nat → Access → Prop) : Prop :=
  t.seq = s.seq + tids.length ∧
  (∀ j (h : j < tids.length), ∃ a, t.acc (s.seq + j) = some a ∧ Fresh s tids[j] a ∧ A tids[j] a) ∧
  ∀ id, id < s.seq ∨ s.seq + tids.length ≤ id → t.acc id = s.acc id

/-- From `s` to `t` some threads make one access each, in order, and nothing else changes. -/
def Adds (s t : State) (tids : List Nat) (A : Nat → Access → Prop) : Prop :=
  t = { s with accs := t.accs, seq := t.seq } ∧ Joins s t tids A

/-- The slot completes by making each active thread wait at the end of its pass (R29, R32). A wait other than EXIT's takes its
place in the order of the thread's events as a pending one, an acquire where R223 makes it one; nothing else changes. -/
def Waits (s : State) (i : Instr) (w : Nat → Wait) : Prop :=
  ∀ p, s.pass s.curPass = some p → ∃ t q, exec i s = .next t ∧
    t = { s with passes := t.passes, accs := t.accs, seq := t.seq } ∧ PassStep s t p q ∧
    q = { p with waits := q.waits, waitWord := q.waitWord } ∧ (s.cur.tids ≠ [] → q.waitWord = s.cur.word) ∧
    (∀ k, kvGet q.waits k = if k ∈ s.cur.tids then some (w k) else kvGet p.waits k) ∧
    Joins s t (s.cur.tids.filter fun k => w k != .exit) fun k x => x.kind = .await (w k).acquires ∧ x.dst = [] ∧ x.dstP = none

/-- The slot completes by making one access in each active thread; the results come later (R34, R125). -/
def Starts (s : State) (i : Instr) (A : Nat → Access → Prop) : Prop :=
  ∃ t, exec i s = .next t ∧ Adds s t s.cur.tids A

/-! ## Steps in turn -/

/-- From `s` to `t` the threads of a list act one after the other, each as `R` says. -/
def InTurn (R : Nat → State → State → Prop) : List Nat → State → State → Prop
  | [], s, t => t = s
  | k :: ks, s, t => ∃ u, R k s u ∧ InTurn R ks u t

/-- The instruction or event completes in a state that `R` describes. -/
def Does (s : State) (i : Instr) (R : State → Prop) : Prop := ∃ t, exec i s = .next t ∧ R t

/-- The event completes: it leaves a state that `R` describes, and then what follows without delay is done: parked pops
and pushes are served, fences that hold nothing go, and teams that have ended leave (`settle`). -/
def Settles (s : State) (i : Instr) (R : State → Prop) : Prop := ∃ t, exec i s = .next (settle t) ∧ R t

/-- The event completes for an access of core `g`: it leaves a state that `R` describes, the core's L1 evicts a line where it
then holds one too many (`fitL1`, R175), and what follows without delay is done; where no line can go the event waits (R20). `s1` is
the state once the access is translated: an L1 that has a line to spare in it makes no room. -/
def SettlesAt (s s1 : State) (g : Nat) (i : Instr) (R : State → Prop) : Prop := ∃ t, R t ∧
  exec i s = .next (if l1Over (fitL1 t g) g then s else settle (fitL1 t g)) ∧
  ((l1Lines s1 g).length < Config.l1Lines → exec i s = .next (settle t))

/-! ## Global memory -/

/-- The n coherent bytes from a key, lowest first. -/
def bytesAt (s : State) (a n : Nat) : List Byte := (List.range n).map fun i => s.byteAt (a + i)

/-- Every coherent byte is as before. -/
def SameBytes (t s : State) : Prop := ∀ b, t.byteAt b = s.byteAt b

/-- The bytes from a key on are those of a list, and every other coherent byte is as before. -/
def Stored (t s : State) (a : Nat) (bs : List Byte) : Prop :=
  ∀ b, t.byteAt b = if a ≤ b ∧ b < a + bs.length then bs.getD (b - a) 0 else s.byteAt b

/-- The sector is neither latent nor developing. -/
def Settled (s : State) (k : Nat) : Prop := kvGet s.devs k = none ∧ ∀ op cs, kvGet s.dir k ≠ some (.latent op cs)

/-- No die counts heat (R301). -/
def HeatOff (s : State) : Prop := ∀ d, fld (s.die d).heatbase 0 1 = 0

/-- Thread `y` is thread `x` but for `n` registers from `d` on, which hold the low bits of `v`, and but for marks of
uncorrectable errors on registers (R125, R299). -/
def Thread.Received (x y : Thread) (n d v : Nat) : Prop :=
  y = { x with regs := y.regs, bad := y.bad } ∧ (∀ r, r < d ∨ d + n ≤ r → y.reg r = x.reg r) ∧ y.group n d = v % 2 ^ (32 * n)

/-- An access has completed: it is gone, and its destination registers hold `v`; no other thread changes (R125). -/
def Completes (s t : State) (id : Nat) (a : Access) (v : Nat) : Prop :=
  t.acc id = none ∧ (∀ j, j ≠ a.tid → t.thread j = s.thread j) ∧
  ∀ n d, a.dst = (List.range n).map (d + ·) → d + n ≤ 128 → (s.thread a.tid).Received (t.thread a.tid) n d v

/-- A part of an access is performed now: nothing holds it, it is translated to `x`, leaving the state `s1`, and its place is
plain: coherent, not latent, not compressed, not poisoned (R36, R214-R217). -/
def Performs (s s1 : State) (id part : Nat) (a : Access) (p : Part) (x : Trans) : Prop :=
  s.acc id = some a ∧ s1.acc id = some a ∧ a.parts[part]? = some p ∧ a.poisoned = false ∧ mayPerform s a = true ∧
  partReady s id part = true ∧
  (∃ l, s.launch a.launch = some l ∧ xlate s a.core l.actx p.va a.kind.xacc = (s1, .ok x) ∧
    inNcWindow (s1.die (dieOf a.core)) l.actx p.va = false) ∧
  HeatOff s1 ∧ Settled s1 (x.key / 64) ∧ kvGet (s1.core a.core).nc (x.key / 64) = none ∧
  kvGet (s1.core a.core).l1Poison (x.key / 64) = none ∧ roomFor s1 x.key 4 = true ∧
  poisoned s1 x.key p.n = false ∧ x.key % 64 + p.n ≤ 64 ∧ x.cmp = false

/-- Every part of an access but one is done. -/
def Access.lastPart (a : Access) (part : Nat) : Prop := ∀ j q, a.parts[j]? = some q → j ≠ part → q.done = true

/-! ## Engines -/

/-- The engine of a core takes a new command: `t` is the team that it serves, and `c` the head of the team's queue, whose
bend passes the check (R245, R248). -/
def TakesNew (s : State) (g : Nat) (cp : Bool) (tk : Nat) (t : Team) (l : Launch) (c : Cmd) : Prop :=
  engNext s g cp = some (tk, t) ∧ s.team tk = some t ∧ s.launch t.launch = some l ∧ t.run cp = none ∧
  (∃ rest, t.cmds (if cp then 0 else 1) = c :: rest) ∧ engBendOk s t cp c.blk = true

/-- The engine of a core goes on with the command `r` that it has started for team `t` (R245, R253, R259). -/
def GoesOn (s : State) (g : Nat) (cp : Bool) (tk : Nat) (t : Team) (l : Launch) (r : Run) : Prop :=
  engNext s g cp = some (tk, t) ∧ s.team tk = some t ∧ s.launch t.launch = some l ∧ t.run cp = some r

/-- A byte of a team's own allotment, by its local address. -/
def State.spadByte (s : State) (t : Team) (va : Nat) : Byte := cellGet (s.core t.core).spad (t.spadBase + va)

/-- n bytes of a team's own allotment, below its stash descriptors, that an engine may read, or write (R163, R164, R172). -/
def State.OwnSpad (s : State) (t : Team) (va n : Nat) (wr : Bool) : Prop :=
  va + n ≤ 1024 * t.spadK - 256 ∧ t.spadK ≤ 512 ∧
  ∀ i, i < n → protect s t (va + i) 1 true wr = none ∧ ∀ b, maskBound s t.core (t.spadBase + (va + i)) b = b

/-- The engine's write leaves bytes in a team's own allotment: each local address holds what `f` gives, or what it held (R170). -/
def State.Leaves (s v : State) (t : Team) (f : Nat → Option Byte) : Prop :=
  v = { s with cores := v.cores } ∧ (∀ g, g ≠ t.core → v.core g = s.core g) ∧
  (v.core t.core) = { s.core t.core with
    spad := (v.core t.core).spad, spadPoison := (v.core t.core).spadPoison, full := (v.core t.core).full } ∧
  (∀ q, q < t.spadBase → cellGet (v.core t.core).spad q = cellGet (s.core t.core).spad q) ∧
  (∀ q, isFull s t.core q = true → isFull v t.core q = true) ∧
  ∀ va, v.spadByte t va = (f va).getD (s.spadByte t va) ∧ ((f va).isSome = true → isFull v t.core (t.spadBase + va) = true)

/-- `e` is the scale of a row of a drain whose elements have the values `vs`, and sn ÷ sd is its value: of the row's largest finite
magnitude, an ÷ ad, by the largest value that the format holds (R252). -/
def RowScale (f : BitVec 128) (vs : List Val) (e sn sd : Nat) : Prop :=
  let fmax : Nat := match slotFmt f with
    | 2 => 65504
    | 3 => 255 * 2 ^ 120
    | 4 => 448
    | 5 => 57344
    | 6 => 6
    | 7 => 127
    | 8 => 255
    | 9 => 7
    | 10 => 15
    | 11 => 32767
    | _ => 65535
  ∃ an ad, 0 < ad ∧ (∀ neg n d, .fin neg n d ∈ vs → n * ad ≤ an * d) ∧ (an = 0 ∨ ∃ neg, .fin neg an ad ∈ vs) ∧
    (slotKind f = 0 → sn = 1 ∧ sd = 1) ∧
    (slotKind f = 1 → e ≤ 254 ∧ 0 < sd ∧ sn * 2 ^ 127 = sd * 2 ^ e ∧ (an = 0 → e = 127) ∧
      (an ≠ 0 → (e = 254 ∨ an * 2 ^ 127 ≤ fmax * 2 ^ e * ad) ∧ (e = 0 ∨ fmax * 2 ^ e * ad < an * 2 ^ 128))) ∧
    (slotKind f = 2 → e = (if an = 0 then 0x3F80 else BF16.round .rup (.fin false an (ad * fmax))) ∧
      ∀ neg a b, BF16.value e = .fin neg a b → sn = a ∧ sd = b)

/-- From `x` to `y` the plane array adds the chunk that the tile's cursors name next, and ends the operation with the last one
(R238, R253). -/
def ChunkStep (tk : Nat) (o : MxOp) (x y : State) : Prop :=
  ∃ n v, chunkNext o (cursorsOf x tk o.tile) = some n ∧ runChunk x tk o (cursorsOf x tk o.tile) n = (v, .ok) ∧
    let u := setCursors v tk o (cursorsOf x tk o.tile) (n + 1)
    y = if (chunkNext o (cursorsOf u tk o.tile)).isSome then u else endRun u tk false 0

/-- From `x` to `y` the plane array writes row `r` of a drain; with the last row the drained elements are cleared where the
command says so, and the command ends (R252, R253). -/
def RowStep (tk : Nat) (o : DrOp) (r : Nat) (x y : State) : Prop :=
  ∃ v, runRow x tk o r = (v, .ok) ∧
    let u := updRun v tk false fun z => { z with row := r + 1 }
    y = if r + 1 < o.rows then u else endRun (if o.clr then updTile u tk o.tile (clearDrained o) else u) tk false 0

/-- From `x` to `y` the copy engine writes the piece of at most 256 bytes at its progress, and ends the command with the last
one (R259). -/
def PieceStep (piece : State → Nat → Nat → State × Touch) (tk total : Nat) (x y : State) : Prop :=
  ∃ v, copyDone x tk < total ∧
    let m := copyDone x tk + min 256 (total - copyDone x tk)
    piece x (copyDone x tk) (min 256 (total - copyDone x tk)) = (v, .ok) ∧
    y = if total ≤ m then endRun (setDone v tk m) tk true 0 else setDone v tk m

end Sys2Proof.Machine
end

