-- ==== Sys2Proof/Certificates/Slice0/Obligations.lean ====
section
/-! DEFINITION. The statements for the provers. -/
open Sys2Proof Sys2Proof.Machine

/-! ## Integer and logical -/

/-- The integer instructions of R356 complete for every type, and each active thread receives the exact result, clamped
where the type saturates, and else its low bits (R142, R357); B may be a literal (R103). -/
def Obligations.IntegerResults : Prop := ∀ (s : State) (ty : IntTy) (d a b : Reg),
  let w := tyWidth ty
  let n := wRegs w
  let A (x : Thread) : Int := intOf ty (x.group n a.toNat)
  let B (x : Thread) : Int := intOf ty (rdB s.cur x w b)
  let D (x : Thread) : Int := intOf ty (x.group n d.toNat)
  Gives s (.iadd ty d a b) n d (fun _ x => intTo ty (A x + B x)) ∧
  Gives s (.isub ty d a b) n d (fun _ x => intTo ty (A x - B x)) ∧
  Gives s (.imul ty d a b) n d (fun _ x => intTo ty (A x * B x)) ∧
  Gives s (.imulh ty d a b) n d (fun _ x => intTo ty (A x * B x / 2 ^ wBits w)) ∧
  Gives s (.imad ty d a b) n d (fun _ x => intTo ty (A x * B x + D x)) ∧
  Gives s (.imin ty d a b) n d (fun _ x => intTo ty (if A x ≤ B x then A x else B x)) ∧
  Gives s (.imax ty d a b) n d (fun _ x => intTo ty (if A x ≤ B x then B x else A x)) ∧
  Gives s (.iabs ty d a) n d (fun _ x => intTo ty (A x).natAbs) ∧
  Gives s (.ineg ty d a) n d (fun _ x => intTo ty (-(A x)))

/-- Every thread has p0 to p7; p7 reads true and a write to it has no effect, one to another predicate changes it alone; p0 to
p6 are false when a thread starts (R88). -/
def Obligations.Predicates : Prop := ∀ (x : Thread) (p q : Pred) (v : Bool) (tk rel num : Nat),
  x.pred 7 = true ∧ x.setPred 7 v = x ∧
  (x.setPred p.toNat v).pred q.toNat = (if q = 7 then true else if q = p then v else x.pred q.toNat) ∧
  (x.setPred p.toNat v).regs = x.regs ∧ ((Thread.start tk rel num).pred q.toNat = true ↔ q = 7)

/-- PLOP writes pD[2:0] with bit 2a + b of the truth table in A[6:3], where a is pA[2:0] and b is pB[2:0]; D[6:3] and B[6:3] must
be zero; 1000 forms a AND b, 1110 a OR b, 0110 a XOR b and 0100 a AND NOT b (R131). -/
def Obligations.PlopTruthTable : Prop :=
  (∀ w : Word, w.extractLsb' 24 8 = 0x2F → w.extractLsb' 21 3 = 0 → decodeWord w =
    if w.extractLsb' 17 4 = 0 ∧ w.extractLsb' 3 4 = 0
    then .ok (.plop (w.extractLsb' 10 4) (w.extractLsb' 14 3) (w.extractLsb' 7 3) (w.extractLsb' 0 3))
    else .error .reserved) ∧
  (∀ (s : State) (table : BitVec 4) (pd pa pb : Pred), GivesPred s (.plop table pd pa pb) pd.toNat
    (fun _ x => table.getLsbD (2 * (x.pred pa.toNat).toNat + (x.pred pb.toNat).toNat))) ∧
  ∀ a b : Bool, (0b1000#4).getLsbD (2 * a.toNat + b.toNat) = (a && b) ∧ (0b1110#4).getLsbD (2 * a.toNat + b.toNat) = (a || b) ∧
    (0b0110#4).getLsbD (2 * a.toNat + b.toNat) = (a ^^ b) ∧ (0b0100#4).getLsbD (2 * a.toNat + b.toNat) = (a && !b)

/-- ICMP completes and writes a predicate (R88, R128); a write to p7 has no effect. -/
def Obligations.PredicateResults : Prop := ∀ (s : State) (ty : IntTy) (pd : Pred) (a b : Reg),
  let w := tyWidth ty
  let A (x : Thread) : Int := intOf ty (x.group (wRegs w) a.toNat)
  let B (x : Thread) : Int := intOf ty (rdB s.cur x w b)
  GivesPred s (.icmp .eq ty pd a b) pd.toNat (fun _ x => decide (A x = B x)) ∧
  GivesPred s (.icmp .ne ty pd a b) pd.toNat (fun _ x => decide (A x ≠ B x)) ∧
  GivesPred s (.icmp .lt ty pd a b) pd.toNat (fun _ x => decide (A x < B x)) ∧
  GivesPred s (.icmp .le ty pd a b) pd.toNat (fun _ x => decide (A x ≤ B x)) ∧
  GivesPred s (.icmp .gt ty pd a b) pd.toNat (fun _ x => decide (B x < A x)) ∧
  GivesPred s (.icmp .ge ty pd a b) pd.toNat (fun _ x => decide (B x ≤ A x))

/-- LEA, SEL and MOV complete with the results of R364, R387 and R368. -/
def Obligations.MoveResults : Prop := ∀ (s : State) (n p : BitVec 3) (d a b : Reg),
  Gives s (.lea n d a b) 2 d (fun _ x =>
    ((BitVec.ofNat 64 (x.group 2 a.toNat)) + ((BitVec.ofNat 32 (rdB s.cur x .w32 b)).signExtend 64 <<< n.toNat)).toNat) ∧
  Gives s (.sel p d a b) 1 d (fun _ x => if x.pred p.toNat then (x.reg a.toNat).toNat else rdB s.cur x .w32 b) ∧
  Gives s (.mov false d a) 1 d (fun _ x => (x.reg a.toNat).toNat) ∧
  Gives s (.mov true d a) 2 d (fun _ x => x.group 2 a.toNat)

/-- AND, ANDN, OR, XOR and NOT complete with the bitwise result on the operand width (R319, R373). -/
def Obligations.LogicResults : Prop := ∀ (s : State) (w : Width) (d a b : Reg),
  let A (x : Thread) : BitVec (wBits w) := BitVec.ofNat _ (x.group (wRegs w) a.toNat)
  let B (x : Thread) : BitVec (wBits w) := BitVec.ofNat _ (rdB s.cur x w b)
  Gives s (.andB w d a b) (wRegs w) d (fun _ x => (A x &&& B x).toNat) ∧
  Gives s (.andn w d a b) (wRegs w) d (fun _ x => (A x &&& ~~~B x).toNat) ∧
  Gives s (.orB w d a b) (wRegs w) d (fun _ x => (A x ||| B x).toNat) ∧
  Gives s (.xorB w d a b) (wRegs w) d (fun _ x => (A x ^^^ B x).toNat) ∧
  Gives s (.notB w d a) (wRegs w) d (fun _ x => (~~~A x).toNat)

/-- SHL, SHR, SHA and ROT complete (R383): the count is the 32-bit B operand; a count of the width or more gives 0, for SHA
the sign; ROT takes the count modulo the width. -/
def Obligations.ShiftResults : Prop := ∀ (s : State) (w : Width) (d a b : Reg),
  let A (x : Thread) : BitVec (wBits w) := BitVec.ofNat _ (x.group (wRegs w) a.toNat)
  let N (x : Thread) : Nat := rdB s.cur x .w32 b
  Gives s (.shl w d a b) (wRegs w) d (fun _ x => (A x <<< N x).toNat) ∧
  Gives s (.shr w d a b) (wRegs w) d (fun _ x => (A x >>> N x).toNat) ∧
  Gives s (.sha w d a b) (wRegs w) d (fun _ x => ((A x).sshiftRight (N x)).toNat) ∧
  Gives s (.rot w d a b) (wRegs w) d (fun _ x => ((A x).rotateLeft (N x)).toNat)

/-- BFX and BFI complete, bit by bit as R323 says: POS is b[6:0] and LEN b[14:8], at most the width; bits beyond the width
read as 0 and are dropped; a signed field is sign-extended. -/
def Obligations.BitFieldResults : Prop := ∀ (s : State) (ty : IntTy) (w : Width) (d a b : Reg),
  let ctl (x : Thread) : Nat := rdB s.cur x .w32 b
  let pos (x : Thread) : Nat := ctl x % 128
  let len (x : Thread) (n : Nat) : Nat := min (ctl x / 256 % 128) n
  (∃ f : Thread → Nat, Gives s (.bfx ty d a b) (wRegs (tyWidth ty)) d (fun _ x => f x) ∧
    ∀ x j, j < wBits (tyWidth ty) →
      let n := wBits (tyWidth ty)
      let bit (i : Nat) : Bool := decide (i < n) && (x.group (wRegs (tyWidth ty)) a.toNat).testBit i
      (f x).testBit j =
        if len x n = 0 then false
        else if j < len x n then bit (pos x + j)
        else tySigned ty && bit (pos x + len x n - 1)) ∧
  ∃ f : Thread → Nat, Gives s (.bfi w d a b) (wRegs w) d (fun _ x => f x) ∧
    ∀ x j, j < wBits w →
      (f x).testBit j =
        if pos x ≤ j ∧ j < pos x + len x (wBits w) then (x.group (wRegs w) a.toNat).testBit (j - pos x)
        else (x.group (wRegs w) d.toNat).testBit j

/-- POPC, CLZ, CTZ and BREV complete with the counts and the reversal of R325 and R377. -/
def Obligations.BitCountResults : Prop := ∀ (s : State) (w : Width) (d a : Reg),
  let n := wBits w
  let A (x : Thread) : Nat := x.group (wRegs w) a.toNat
  Gives s (.popc w d a) 1 d (fun _ x => ((List.range n).filter (A x).testBit).length) ∧
  (∃ f : Thread → Nat, Gives s (.clz w d a) 1 d (fun _ x => f x) ∧
    ∀ x, f x ≤ n ∧ A x < 2 ^ (n - f x) ∧ (f x < n → 2 ^ (n - f x - 1) ≤ A x)) ∧
  (∃ f : Thread → Nat, Gives s (.ctz w d a) 1 d (fun _ x => f x) ∧
    ∀ x, f x ≤ n ∧ (∀ i, i < f x → (A x).testBit i = false) ∧ (f x < n → (A x).testBit (f x) = true)) ∧
  ∃ f : Thread → Nat, Gives s (.brev w d a) (wRegs w) d (fun _ x => f x) ∧
    ∀ x j, j < n → (f x).testBit j = (A x).testBit (n - 1 - j)

/-! ## Floating point -/

/-- FADD, FSUB, FMUL and FFMA complete, and element i of the result is the exact sum, difference, product or product plus
addend of the elements i, rounded once by the mode (R145, R146, R347): a subnormal source is taken as zero under FTZI, a
subnormal result becomes zero under FTZO. -/
def Obligations.FloatArithmetic : Prop := ∀ (s : State) (ty : FTy) (rm : Rnd) (d a b : Reg),
  let F := fmtOfTy ty
  let w := widthOfTy ty
  let X (i : Nat) (x : Thread) : Val := srcVal x F (elem F.width i (x.group (wRegs w) a.toNat))
  let Y (i : Nat) (x : Thread) : Val := srcVal x F (elem F.width i (rdBF s.cur x ty b))
  let Z (i : Nat) (x : Thread) : Val := srcVal x F (elem F.width i (x.group (wRegs w) d.toNat))
  let Is (i : Instr) (r : Nat → Thread → Val) : Prop :=
    ∃ f : Thread → Nat, Gives s i (wRegs w) d (fun _ x => f x) ∧
      ∀ x j, j < elemsOf ty → elem F.width j (f x) = F.flush (ftzo x) (F.round (modeOf x rm) (r j x))
  Is (.fadd ty rm d a b) (fun j x => (X j x).add (modeOf x rm == .rdn) (Y j x)) ∧
  Is (.fsub ty rm d a b) (fun j x => (X j x).add (modeOf x rm == .rdn) (Y j x).neg) ∧
  Is (.fmul ty rm d a b) (fun j x => (X j x).mul (Y j x)) ∧
  Is (.ffma ty rm d a b) (fun j x => ((X j x).mul (Y j x)).add (modeOf x rm == .rdn) (Z j x))

/-- FMIN, FMAX, FCMP and FCLASS complete (R128, R140, R348): a NaN operand gives the other operand, two give the canonical
NaN, and −0 is below +0; a comparison with a NaN holds only for NE and UN; FCLASS sets the one bit of its operand's
class. -/
def Obligations.FloatSelection : Prop := ∀ (s : State) (ty : FTy) (sc : FSc) (pd : Pred) (d a b : Reg),
  let F := fmtOfTy ty
  let w := widthOfTy ty
  let x' (i : Nat) (x : Thread) : Nat := F.flush (ftzi x) (elem F.width i (x.group (wRegs w) a.toNat))
  let y' (i : Nat) (x : Thread) : Nat := F.flush (ftzi x) (elem F.width i (rdBF s.cur x ty b))
  let pick (p q : Nat) (less : Bool) : Nat :=
    if (F.value p).isNan then (if (F.value q).isNan then F.qnan else q) else if (F.value q).isNan then p
    else if less then p else q
  let below (p q : Nat) : Bool :=
    (F.value p).lt (F.value q) || ((F.value p).eqv (F.value q) && (F.value p).isNeg && !(F.value q).isNeg)
  let G := fmtOfSc sc
  let A (x : Thread) : Val := srcVal x G (x.group (wRegs (widthOfSc sc)) a.toNat)
  let B (x : Thread) : Val := srcVal x G (rdBS s.cur x sc b)
  (∃ f : Thread → Nat, Gives s (.fmin ty d a b) (wRegs w) d (fun _ x => f x) ∧
    ∀ x i, i < elemsOf ty → elem F.width i (f x) = F.flush (ftzo x) (pick (x' i x) (y' i x) (below (x' i x) (y' i x)))) ∧
  (∃ f : Thread → Nat, Gives s (.fmax ty d a b) (wRegs w) d (fun _ x => f x) ∧
    ∀ x i, i < elemsOf ty → elem F.width i (f x) = F.flush (ftzo x) (pick (x' i x) (y' i x) (!below (x' i x) (y' i x)))) ∧
  GivesPred s (.fcmp .eq sc pd a b) pd.toNat (fun _ x => (A x).eqv (B x)) ∧
  GivesPred s (.fcmp .ne sc pd a b) pd.toNat (fun _ x => !(A x).eqv (B x)) ∧
  GivesPred s (.fcmp .lt sc pd a b) pd.toNat (fun _ x => (A x).lt (B x)) ∧
  GivesPred s (.fcmp .le sc pd a b) pd.toNat (fun _ x => (A x).lt (B x) || (A x).eqv (B x)) ∧
  GivesPred s (.fcmp .gt sc pd a b) pd.toNat (fun _ x => (B x).lt (A x)) ∧
  GivesPred s (.fcmp .ge sc pd a b) pd.toNat (fun _ x => (B x).lt (A x) || (A x).eqv (B x)) ∧
  GivesPred s (.fcmp .un sc pd a b) pd.toNat (fun _ x => (A x).isNan || (B x).isNan) ∧
  GivesPred s (.fcmp .ord sc pd a b) pd.toNat (fun _ x => !(A x).isNan && !(B x).isNan) ∧
  ∃ f : Thread → Nat, Gives s (.fclass sc d a) 1 d (fun _ x => f x) ∧ ∀ x,
    let e := x.group (wRegs (widthOfSc sc)) a.toNat
    f x = match G.value e with
      | .nan => 256
      | .inf neg => if neg then 1 else 128
      | .fin neg m _ =>
        if m = 0 then (if neg then 8 else 16) else if G.isSub e then (if neg then 4 else 32) else (if neg then 2 else 64)

/-- FRND, FCVT, FTOI and ITOF complete with one rounding by the mode (R129, R130, R152, R159, R352): FCVT leaves nothing above
its last element, so that bits 31 to 16 of an F16 or BF16 are zero; FTOI clamps to the integer type's
range and gives 0 for a NaN. -/
def Obligations.FloatConversions : Prop :=
  ∀ (s : State) (ft : FSc) (it : IntTy) (code : CvtCode) (rm : Rnd) (d a : Reg),
  let F := fmtOfSc ft
  let w := wRegs (widthOfSc ft)
  let A (x : Thread) : Val := srcVal x F (x.group w a.toNat)
  Gives s (.frnd ft rm d a) w d (fun _ x => F.flush (ftzo x) (F.round (modeOf x rm) (match A x with
    | .fin neg n q => .fin neg (roundInt (modeOf x rm) neg n q) 1
    | v => v))) ∧
  (∃ f : Thread → Nat, Gives s (.fcvt code rm d a) (wRegs (if cvtDX code then .w64 else .w32)) d (fun _ x => f x) ∧
    ∀ x,
      let S := (cvtShape code).1
      let T := (cvtShape code).2.1
      f x < 2 ^ (T.width * (cvtShape code).2.2) ∧ (code = .f16F32 ∨ code = .bf16F32 → f x / 2 ^ 16 = 0) ∧
      ∀ i, i < (cvtShape code).2.2 →
        let v := srcVal x S (elem S.width i (x.group (wRegs (if cvtAX code then .w64 else .w32)) a.toNat))
        elem T.width i (f x) = T.flush (ftzo x) (T.round (modeOf x rm) v)) ∧
  (isInt4 it = true → ∃ f : Thread → Nat, Gives s (.ftoi it ft rm d a) (wRegs (tyWidth it)) d (fun _ x => f x) ∧
    ∀ x, intOf it (f x) = match A x with
      | .nan => 0
      | .inf neg => if neg then tyMin it else tyMax it
      | .fin neg n q =>
        let z := sInt neg (roundInt (modeOf x rm) neg n q)
        if z < tyMin it then tyMin it else if tyMax it < z then tyMax it else z) ∧
  Gives s (.itof it ft rm d a) w d (fun _ x =>
    F.flush (ftzo x) (F.round (modeOf x rm) (Val.ofInt (intOf it (x.group (wRegs (tyWidth it)) a.toNat)))))

/-- FSCALE, FEXPO, FMANT, the seeds and the reductions complete (R154-R160): FSCALE multiplies by 2 to the power of the
32-bit B operand with one rounding, FEXPO gives 0x80000000 for a zero and 0x7FFFFFFF for an infinity or a NaN, the seeds and the
reductions follow the formulas of R154 to R158, and a reduction writes its float below its integer. That 640 bits of π stand
for the exact π of R158 is the model's reading (log 21). -/
def Obligations.FloatParts : Prop := ∀ (s : State) (ft : FSc) (rm : Rnd) (d a b : Reg),
  let F := fmtOfSc ft
  let w := wRegs (widthOfSc ft)
  let A (x : Thread) : Val := srcVal x F (x.group w a.toNat)
  let A32 (x : Thread) : Val := srcVal x F32 (x.reg a.toNat).toNat
  let K (x : Thread) : Int := (BitVec.ofNat 32 (rdB s.cur x .w32 b)).toInt
  Gives s (.fscale ft rm d a b) w d (fun _ x => F.flush (ftzo x) (F.round (modeOf x rm) ((A x).scale (K x)))) ∧
  Gives s (.fexpo ft d a) 1 d (fun _ x => match A x with
    | .nan | .inf _ => 0x7FFFFFFF
    | .fin _ n q => if n = 0 then 0x80000000 else (BitVec.ofInt 32 (ilog n q)).toNat) ∧
  Gives s (.fmant ft d a) w d (fun _ x => F.flush (ftzo x) (F.round .rne (match A x with
    | .fin neg n q => if n = 0 then .fin neg n q else (Val.fin neg n q).scale (-ilog n q)
    | v => v))) ∧
  -- the significand of n ÷ q, in [1, 2)
  let sig (n q : Nat) : Nat × Nat := (n * 2 ^ (-ilog n q).toNat, q * 2 ^ (ilog n q).toNat)
  let nan : Nat := 0x7FC00000
  let inf (neg : Bool) : Nat := if neg then 0xFF800000 else 0x7F800000
  let pair (r : Nat) (z : Int) (x : Thread) : Nat := F32.flush (ftzo x) r + 2 ^ 32 * (BitVec.ofInt 32 z).toNat
  Gives s (.rcpseed d a) 1 d (fun _ x => F32.flush (ftzo x) (match A32 x with
    | .nan => nan
    | .inf neg => if neg then 0x80000000 else 0
    | .fin neg n q => if n = 0 then inf neg else
      let m := sig n q
      let i := (m.1 - m.2) * 256 / m.2
      F32.round .rne ((Val.fin neg (roundInt .rne false (512 * 1024) (513 + 2 * i)) 1024).scale (-ilog n q)))) ∧
  (∃ f : Thread → Nat, Gives s (.rsqseed d a) 1 d (fun _ x => F32.flush (ftzo x) (f x)) ∧ ∀ x, match A32 x with
    | .nan => f x = nan
    | .inf neg => f x = if neg then nan else 0
    | .fin neg n q =>
      (n = 0 → f x = inf neg) ∧ (n ≠ 0 → neg = true → f x = nan) ∧ (n ≠ 0 → neg = false →
        let m := sig n q
        let i := (m.1 - m.2) * 128 / m.2
        -- c = (257 + 2i) ÷ 256, doubled where the exponent is odd; k is the integer nearest 1024 ÷ √c
        let c := if ilog n q % 2 = 1 then 2 * (257 + 2 * i) else 257 + 2 * i
        let e := if ilog n q % 2 = 1 then ilog n q - 1 else ilog n q
        ∃ k, (2 * k - 1) ^ 2 * c < 4 * 1024 ^ 2 * 256 ∧ 4 * 1024 ^ 2 * 256 < (2 * k + 1) ^ 2 * c ∧
          f x = F32.round .rne ((Val.fin false k 1024).scale (-e / 2)))) ∧
  Gives s (.expred d a) 2 d (fun _ x => match A32 x with
    | .nan => pair nan 0 x
    | .inf neg => pair 0 (if neg then -256 else 256) x
    | .fin neg n q =>
      if 256 * q < n then pair 0 (if neg then -256 else 256) x
      else
        let k := sInt neg (roundInt .rne neg n q)
        let r := sInt neg n - k * q
        pair (F32.round .rne (.fin (if r = 0 then neg else decide (r < 0)) r.natAbs q)) k x) ∧
  Gives s (.logred d a) 2 d (fun _ x => match A32 x with
    | .nan => pair nan 0 x
    | .inf neg => pair (if neg then nan else inf false) 0 x
    | .fin neg n q =>
      if n = 0 then pair (inf true) 0 x
      else if neg = true then pair nan 0 x
      else
        let m := sig n q
        let big := decide (2 * m.2 * m.2 ≤ m.1 * m.1)
        let y := if big then 2 * m.2 else m.2
        pair (F32.round .rne (.fin (decide (m.1 < y)) ((m.1 : Int) - y).natAbs (m.1 + y))) (ilog n q + if big then 1 else 0) x) ∧
  -- π × 2^640, rounded down
  let pi640 : Nat :=
    0x3243f6a8885a308d313198a2e03707344a4093822299f31d0082efa98ec4e6c89452821e638d01377be5466cf34e90c6cc0ac29b7c97c50dd3f84d5b5b54709179216d5d98979fb1bd1310ba698dfb5ac
  Gives s (.sinred d a) 2 d (fun _ x => match A32 x with
    | .nan | .inf _ => pair nan 0 x
    | .fin neg n q =>
      if n = 0 then pair (if neg then 0x80000000 else 0) 0 x
      else
        -- |x| ÷ (π ÷ 2), and what is left of |x|
        let k := roundInt .rne false (2 * n * 2 ^ 640) (q * pi640)
        let r : Int := (2 * n * 2 ^ 640 : Nat) - (k * q * pi640 : Nat)
        pair (F32.round .rne (.fin (decide (r < 0) != neg) r.natAbs (2 * q * 2 ^ 640)))
          ((if neg then -(k : Int) else k) % 4) x)

/-! ## Packed narrow and sparse -/

/-- DOT8 and DOT4 complete with the exact dot product of signed or unsigned elements added to D, wrapped to 32 bits (R339);
SPARS keeps the four elements that fewer than four others precede in magnitude, and then index (R275); DOT8S completes on
well-formed metadata, and traps with cause 0x0C, D unchanged, in the threads whose metadata is malformed (R276, R340). -/
def Obligations.IntegerDots : Prop := ∀ (s : State) (sg : Sg) (d a b : Reg),
  let el (signed : Bool) (w i v : Nat) : Int :=
    if signed then (BitVec.ofNat w (v / 2 ^ (w * i))).toInt else (v / 2 ^ (w * i) % 2 ^ w : Nat)
  let A (x : Thread) : Nat := (x.reg a.toNat).toNat
  let B (x : Thread) : Nat := rdB s.cur x .w32 b
  let D (x : Thread) : Int := (x.reg d.toNat).toInt
  let wrap (z : Int) : Nat := (BitVec.ofInt 32 z).toNat
  let sum (n : Nat) (f : Nat → Int) : Int := ((List.range n).map f).foldl (· + ·) 0
  Gives s (.dot8 sg d a b) 1 d (fun _ x => wrap (D x + sum 4 fun i => el (sgA sg) 8 i (A x) * el (sgB sg) 8 i (B x))) ∧
  Gives s (.dot4 sg d a b) 1 d (fun _ x => wrap (D x + sum 8 fun i => el (sgA sg) 4 i (A x) * el (sgB sg) 4 i (B x))) ∧
  Gives s (.spars d a) 2 d (fun _ x =>
    let v := x.group 2 a.toNat
    let mag (i : Nat) : Nat := (el true 8 i v).natAbs
    let before (j i : Nat) : Bool := decide (mag i < mag j) || (mag i == mag j && decide (j < i))
    let keep := (List.range 8).filter fun i => ((List.range 8).filter fun j => before j i).length < 4
    let at_ (k : Nat) : Nat := keep.getD k 0
    let byte (k : Nat) : Nat := v / 2 ^ (8 * at_ k) % 256
    byte 0 + 2 ^ 8 * byte 1 + 2 ^ 16 * byte 2 + 2 ^ 24 * byte 3 +
      2 ^ 32 * (at_ 0 % 8 + 2 ^ 3 * (at_ 1 % 8) + 2 ^ 6 * (at_ 2 % 8) + 2 ^ 9 * (at_ 3 % 8))) ∧
  let md (k : Nat) : Nat := ((s.thread k).reg (a.toNat + 1)).toNat
  let ix (m i : Nat) : Nat := m / 2 ^ (3 * i) % 8
  let ok (k : Nat) : Bool := decide (md k < 2 ^ 12) && decide (ix (md k) 0 < ix (md k) 1) &&
    decide (ix (md k) 1 < ix (md k) 2) && decide (ix (md k) 2 < ix (md k) 3)
  s.cur.tids.Nodup → (∀ k, k ∈ s.cur.tids → ok k = false → CanTrap s k) →
    ∃ t, exec (.dot8s sg d a b) s = .next t ∧ LaneOrTrap s t ok 0x0C 0 fun k x y =>
      x.Wrote y 1 d.toNat (wrap (D x + sum 4 fun i =>
        el (sgA sg) 8 i (A x) * el (sgB sg) 8 (ix (md k) i) (x.group 2 b.toNat)))

/-- DOTF8, DOTF4, PACKN and UNPKN complete under a format slot that SLOTS allows and whose format they take (R341, R374,
R375): one rounding of the exact sum of products and the accumulator; one conversion under the slot of each scaled element;
one rounding of each scaled narrow element. Under any other slot every active thread takes the illegal-format-slot trap
with the slot number as SUB (R69). -/
def Obligations.FormatSlots : Prop := ∀ (s : State) (f : BitVec 3) (d a b : Reg),
  let A (x : Thread) : Nat := (x.reg a.toNat).toNat
  let B (x : Thread) : Nat := rdB s.cur x .w32 b
  let dots (F : Fmt) (n : Nat) (_ : Nat) (x : Thread) : Nat :=
    F32.round .rne ((F32.value (x.reg d.toNat).toNat).add false (exactSum ((List.range n).map fun i =>
      (F.value (elem F.width i (A x))).mul (F.value (elem F.width i (B x))))))
  (∀ v, fmtSlot s f.toNat = some v →
    (slotFmt v = 4 → Gives s (.dotf8 f d a b) 1 d (dots F8A 4)) ∧
    (slotFmt v = 5 → Gives s (.dotf8 f d a b) 1 d (dots F8B 4)) ∧
    (slotFmt v = 6 → Gives s (.dotf4 f d a b) 1 d (dots F4 8)) ∧
    ∀ n, fmtElems (slotFmt v) = some n →
      (∃ g : Thread → Nat, Gives s (.packn f d a b) 1 d (fun _ x => g x) ∧
        ∀ x i, i < n → elem (fmtWidth (slotFmt v)) i (g x) =
          convertTo v ((F32.value (x.reg (a.toNat + i)).toNat).mul (F32.value (B x)))) ∧
      ∃ g : Thread → Nat, Gives s (.unpkn f d a b) n d (fun _ x => g x) ∧
        ∀ x i, i < n → elem 32 i (g x) =
          F32.round .rne ((fmtValue (slotFmt v) (elem (fmtWidth (slotFmt v)) i (A x))).mul (F32.value (B x)))) ∧
  (s.cur.tids.Nodup → (∀ k, k ∈ s.cur.tids → CanTrap s k) → ∀ i,
    (i = .dotf8 f d a b ∧ ∀ v, fmtSlot s f.toNat = some v → slotFmt v ≠ 4 ∧ slotFmt v ≠ 5) ∨
    (i = .dotf4 f d a b ∧ ∀ v, fmtSlot s f.toNat = some v → slotFmt v ≠ 6) ∨
    ((i = .packn f d a b ∨ i = .unpkn f d a b) ∧ ∀ v, fmtSlot s f.toNat = some v → fmtElems (slotFmt v) = none) →
      ∃ t, exec i s = .next t ∧ TrapAll s t s.cur.tids 0x06 f.toNat (curPc s))

/-! ## Control -/

/-- NOP changes nothing; BRA, BRI and RET complete where every active thread's target is the START of a block, and the
target becomes each thread's successor (R30, R100, R324, R372, R382): BRA's is the packet plus the signed offset, that of
BRI and RET the packet at an address, in a register pair and in x126. A thread that waits at an EXIT of the packet keeps
its course (R343). A target that is no packet of the kernel, or starts no block, traps with cause 0x03 at the BRA, BRI, CALL, CALLI
or RET (R30, R55, R324, R332, R382). -/
def Obligations.Branches : Prop := ∀ (s : State) (p : Pass) (l : Launch) (off : BitVec 24) (a : Reg),
  s.pass s.curPass = some p → s.launch p.launch = some l →
  exec .nop s = .next s ∧
  (∀ n : Nat, (n : Int) = s.cur.pkt + off.toInt → (l.blkAt n).isSome →
    ∃ t, exec (.bra off) s = .next t ∧ t = { s with passes := t.passes } ∧ Transfers s t p fun _ => (n, 0)) ∧
  (∀ dest : Nat → Nat, (∀ k, k ∈ s.cur.tids → packetAt s ((s.thread k).group 2 a.toNat) = some (dest k) ∧ (l.blkAt (dest k)).isSome) →
    ∃ t, exec (.bri a) s = .next t ∧ t = { s with passes := t.passes } ∧ Transfers s t p fun k => (dest k, 0)) ∧
  (∀ dest : Nat → Nat, (∀ k, k ∈ s.cur.tids → packetAt s ((s.thread k).group 2 126) = some (dest k) ∧ (l.blkAt (dest k)).isSome) →
    ∃ t, exec .ret s = .next t ∧ t = { s with passes := t.passes } ∧ Transfers s t p fun k => (dest k, 0)) ∧
  (s.cur.tids.Nodup → (∀ k, k ∈ s.cur.tids → CanTrap s k ∧ kvGet p.waits k ≠ some .exit) →
    let Bad (va : Nat → Nat) : Prop := ∀ k, k ∈ s.cur.tids → ∀ n, packetAt s (va k) = some n → l.blkAt n = none
    let Traps (i : Instr) : Prop := ∃ t, exec i s = .next t ∧ TrapAll s t s.cur.tids 0x03 0 (curPc s)
    ((∀ n : Nat, (n : Int) = s.cur.pkt + off.toInt → l.blkAt n = none) → Traps (.bra off) ∧ Traps (.call off)) ∧
    (Bad (fun k => (s.thread k).group 2 a.toNat) → Traps (.bri a) ∧ Traps (.calli a)) ∧
    (Bad (fun k => (s.thread k).group 2 126) → Traps .ret))

/-- CALL and CALLI complete where every active thread's target is the START of a block: the target becomes the thread's
successor, and x126 receives the address of the packet after the call's, and nothing else changes (R332); CALLI reads its
pair before it writes the link. -/
def Obligations.Calls : Prop := ∀ (s : State) (p : Pass) (l : Launch) (off : BitVec 24) (a : Reg),
  s.pass s.curPass = some p → s.launch p.launch = some l → (∀ k, k ∈ s.cur.tids → kvGet p.waits k ≠ some .exit) →
  let link := (s.cur.code + 16 * (s.cur.pkt + 1)) % 2 ^ 64
  let Is (i : Instr) (dest : Nat → Nat) : Prop :=
    ∃ t, exec i s = .next t ∧ t = { s with threads := t.threads, passes := t.passes } ∧
      (Transfers s t p fun k => (dest k, 0)) ∧ (∀ k, k ∉ s.cur.tids → t.thread k = s.thread k) ∧
      ∀ k, k ∈ s.cur.tids → (s.thread k).Wrote (t.thread k) 2 126 link
  (∀ n : Nat, (n : Int) = s.cur.pkt + off.toInt → (l.blkAt n).isSome → Is (.call off) fun _ => n) ∧
  ∀ dest : Nat → Nat, (∀ k, k ∈ s.cur.tids → packetAt s ((s.thread k).group 2 a.toNat) = some (dest k) ∧ (l.blkAt (dest k)).isSome) →
    Is (.calli a) dest

/-- EXIT, BAR and MOV.POP complete by making the active threads wait at the end of the pass (R32, R322, R343, R368). -/
def Obligations.ThreadWaits : Prop := ∀ (s : State) (n : BitVec 3) (d : Reg) (q : BitVec 4),
  Waits s .exit (fun _ => .exit) ∧ Waits s (.bar n) (fun _ => .bar n.toNat false) ∧
  Waits s (.movPop d q) (fun _ => .pop q.toNat d.toNat)

/-- TRAP takes the software trap, cause 0x0E, in each active thread, with the packet after it as the return point (R296,
R382). A word that is no instruction, and MOV.PUSH, whose queues accept no push, take the illegal-instruction trap, cause
0x01, in every thread that reaches the slot, whatever its guard (R90, R104). -/
def Obligations.SoftwareTraps : Prop := ∀ (s : State) (p : Pass) (c : BitVec 16) (q : BitVec 4) (a : Reg),
  s.pass s.curPass = some p →
  (s.cur.tids.Nodup → (∀ k, k ∈ s.cur.tids → CanTrap s k ∧ kvGet p.waits k ≠ some .exit) →
    ∃ t, exec (.trap c) s = .next t ∧
      TrapAll s t s.cur.tids 0x0E 0 (BitVec.ofNat 64 ((s.cur.code + 16 * (s.cur.pkt + 1)) % 2 ^ 64))) ∧
  (s.cur.all.Nodup → (∀ k, k ∈ s.cur.all → CanTrap s k) →
    (∃ t, exec .illegalInstruction s = .next t ∧ TrapAll s t s.cur.all 0x01 0 (curPc s)) ∧
    ∃ t, exec (.movPush q a) s = .next t ∧ TrapAll s t s.cur.all 0x01 0 (curPc s))

/-- RTE completes in every active thread at depth 1 or 2 whose TPC names a packet of the kernel and a slot that may be
returned to: the depth falls by one, from depth 2 the trap registers of depth 1 come back, and TPC's packet and slot become
the successor (R297). What the trapped packet's earlier slots set out to do comes back with it (log 81). A TPC that names no packet
of the kernel, or a slot that may not be returned to, traps with cause 0x03. At depth 0 it takes the illegal-context trap with
SUB 2.
A slot of a packet that cannot be read is taken as one that may be returned to (log 44). -/
def Obligations.TrapReturn : Prop := ∀ (s : State) (p : Pass) (l : Launch),
  s.pass s.curPass = some p → s.launch p.launch = some l → s.cur.tids.Nodup →
  (∀ k, k ∈ s.cur.tids → kvGet p.waits k ≠ some .exit) →
  (∀ dest : Nat → Nat, (∀ k, k ∈ s.cur.tids → (s.thread k).depth ≠ 0 ∧
      packetAt s ((s.thread k).trap.pc.toNat / 16 * 16) = some (dest k) ∧
      returnOk s l (dest k) ((s.thread k).trap.pc.toNat % 4) = true) →
    ∃ t, exec .rte s = .next t ∧ t = { s with threads := t.threads, passes := t.passes } ∧
      (Transfers s t p fun k => (dest k, (s.thread k).trap.pc.toNat % 4)) ∧
      (∀ k, k ∉ s.cur.tids → t.thread k = s.thread k) ∧
      ∀ k, k ∈ s.cur.tids →
        let x := s.thread k
        let y := t.thread k
        y = { x with depth := x.depth - 1, trap := y.trap, outer := y.outer, held := x.trap.held } ∧
        (x.depth = 2 → y.trap = x.outer ∧ y.outer = TrapRec.reset) ∧ (x.depth ≠ 2 → y.trap = x.trap ∧ y.outer = x.outer)) ∧
  ((∀ k, k ∈ s.cur.tids → (s.thread k).depth = 0 ∧ CanTrap s k) →
    ∃ t, exec .rte s = .next t ∧ TrapAll s t s.cur.tids 0x04 2 (curPc s)) ∧
  ((∀ k, k ∈ s.cur.tids → (s.thread k).depth ≠ 0 ∧ CanTrap s k ∧
      ∀ n, packetAt s ((s.thread k).trap.pc.toNat / 16 * 16) = some n → returnOk s l n ((s.thread k).trap.pc.toNat % 4) = false) →
    ∃ t, exec .rte s = .next t ∧ TrapAll s t s.cur.tids 0x03 0 (curPc s))

/-! ## Global memory -/

/-- LD, ST and LUP complete where every byte that an active thread names has a canonical address, and LUP's is aligned: each makes one access of its
size at (a + off) mod 2^64, with the bytes that it stores, and the registers that it will write (R100, R103, R360, R366,
R390). Registers, memory and everything else are as before. -/
def Obligations.LoadsAndStores : Prop :=
  ∀ (s : State) (sz : MSize) (sx : Bool) (h : Hint) (op : LupOp) (d a : Reg) (imm : BitVec 7),
  let va (k u : Nat) : Nat :=
    let off : Int := match s.cur.lit with
      | none => imm.toInt * u
      | some l => if s.cur.lit64 then l.toInt else (l.setWidth 32).toInt
    (((s.thread k).group 2 a.toNat + off) % 2 ^ 64).toNat
  let n := szBytes sz
  ((∀ k, k ∈ s.cur.tids → canonicalAll (va k n) n = true) →
    Starts s (.ld sz sx h d a imm) (fun k x => x.kind = .ld (sx && decide (n < 4)) h ∧ x.va = va k n ∧ x.size = n ∧
      x.dst = (List.range ((n + 3) / 4)).map (d.toNat + ·) ∧ x.dstP = none ∧ x.parts = partsOf (va k n) n) ∧
    Starts s (.st sz h d a imm) (fun k x => x.kind = .st h ∧ x.va = va k n ∧ x.size = n ∧ x.dst = [] ∧ x.dstP = none ∧
      x.data.toNat = (s.thread k).group ((n + 3) / 4) d.toNat ∧ x.parts = partsOf (va k n) n)) ∧
  ((∀ k, k ∈ s.cur.tids → canonical (va k 4) = true ∧ va k 4 % 4 = 0) →
    Starts s (.lup op d a imm) (fun k x => x.kind = .lup op ∧ x.va = va k 4 ∧ x.size = 4 ∧ x.dst = [] ∧ x.dstP = none ∧
      x.data.toNat = ((s.thread k).reg d.toNat).toNat ∧ x.parts = partsOf (va k 4) 4))

/-- An access is performed in parts: they cover its bytes once, in order, and none crosses a sector of 64 bytes, and so none
crosses a page (R162, R218). -/
def Obligations.AccessParts : Prop := ∀ va n : Nat, va < 2 ^ 64 → 0 < n →
  (∀ p, p ∈ partsOf va n → p.n ≠ 0 ∧ p.va = (va + p.off) % 2 ^ 64 ∧ p.va % 64 + p.n ≤ 64) ∧
  ∀ i, i < n → ((partsOf va n).filter fun p => decide (p.off ≤ i) && decide (i < p.off + p.n)).length = 1

/-- The ATOMs and CAS complete where every active thread's address, in its register pair, is canonical and aligned: each makes
one access with its operand, kind, width, ordering and scope (R162, R320, R333). -/
def Obligations.Atomics : Prop :=
  ∀ (s : State) (sc : Scope) (w : Width) (uns : Bool) (o : Ord2) (d a : Reg),
  let va (k : Nat) : Nat := (s.thread k).group 2 a.toNat
  let regs (n : Nat) : List Nat := (List.range n).map (d.toNat + ·)
  let Is (i : Instr) (op : AtomOp) (w : Width) : Prop :=
    (∀ k, k ∈ s.cur.tids → canonical (va k) = true ∧ va k % (4 * wRegs w) = 0) →
      Starts s i (fun k x => x.kind = .atom op w o sc ∧ x.va = va k ∧ x.size = 4 * wRegs w ∧ x.dst = regs (wRegs w) ∧
        x.dstP = none ∧ x.data.toNat = (s.thread k).group (wRegs w) d.toNat)
  Is (.atomAdd sc w o d a) .add w ∧ Is (.atomMin sc w uns o d a) (if uns then .umin else .min) w ∧
  Is (.atomMax sc w uns o d a) (if uns then .umax else .max) w ∧ Is (.atomAnd sc w o d a) .andB w ∧
  Is (.atomOr sc w o d a) .orB w ∧ Is (.atomXor sc w o d a) .xorB w ∧ Is (.atomXchg sc w o d a) .xchg w ∧
  Is (.atomFadd sc o d a) .fadd .w32 ∧
  ((∀ k, k ∈ s.cur.tids → canonical (va k) = true ∧ va k % (4 * wRegs w) = 0) →
    Starts s (.cas sc w o d a) (fun k x => x.kind = .atom .cas w o sc ∧ x.va = va k ∧ x.size = 4 * wRegs w ∧
      x.dst = regs (2 * wRegs w) ∧ x.dstP = none ∧ x.data.toNat = (s.thread k).group (2 * wRegs w) d.toNat))

/-- An ATOM's or CAS's new word and what D receives, by kind (R320, R333): ADD wraps, MIN and MAX compare as signed or
unsigned, XCHG stores the operand, FADD rounds once to nearest; CAS stores its new value where the old one equals the expected
one, writes back what it read otherwise, and tells which above the old value. -/
def Obligations.AtomicResults : Prop := ∀ (w : Width) (old d e : Nat),
  let n := wBits w
  let S (v : Nat) : Int := (BitVec.ofNat n v).toInt
  old < 2 ^ n → d < 2 ^ n → e < 2 ^ n →
  atomNew .add w old d = ((BitVec.ofNat n old + BitVec.ofNat n d).toNat, old) ∧
  atomNew .andB w old d = (old &&& d, old) ∧ atomNew .orB w old d = (old ||| d, old) ∧
  atomNew .xorB w old d = (old ^^^ d, old) ∧ atomNew .xchg w old d = (d, old) ∧
  atomNew .umin w old d = (if d < old then d else old, old) ∧ atomNew .umax w old d = (if old < d then d else old, old) ∧
  atomNew .min w old d = (if S d < S old then d else old, old) ∧
  atomNew .max w old d = (if S old < S d then d else old, old) ∧
  atomNew .cas w old (e + 2 ^ n * d) = (if old = e then (d, old + 2 ^ n) else (old, old)) ∧
  (old < 2 ^ 32 → atomNew .fadd .w32 old d = (F32.round .rne ((F32.value old).add false (F32.value d)), old))

/-- CWB, DEVL, FENCE, PUBV and PREF complete: CWB and DEVL make one access of the line or sector that holds the canonical
address (R336, R338); FENCE adds a fence of its kind and scope to each active thread and never holds the pass, and a fence
with nothing to wait for goes at once (R351); PUBV waits to add to the counter at the thread's PUBADDR (R379); PREF makes one
access for each canonical line that the slot names, and drops the others (R378).
Dropping a non-canonical line and the moment at which PUBADDR is read are the model's reading (log 38, 43). -/
def Obligations.LineOperations : Prop :=
  ∀ (s : State) (sc : Scope) (f : FenceKind) (h : Hint) (d a : Reg) (imm : BitVec 7),
  let va (k u : Nat) : Nat := gAddr s.cur (s.thread k) a imm u
  ((∀ k, k ∈ s.cur.tids → canonical (va k 256) = true) →
    Starts s (.cwb a imm) (fun k x => x.kind = .cwb ∧ x.va = va k 256 ∧ x.dst = [] ∧
      x.parts.map (fun p => (p.va, p.n)) = [(va k 256 / 256 * 256, 256)])) ∧
  ((∀ k, k ∈ s.cur.tids → canonical (va k 64) = true) →
    Starts s (.devl a imm) (fun k x => x.kind = .devl ∧ x.va = va k 64 ∧ x.dst = [] ∧
      x.parts.map (fun p => (p.va, p.n)) = [(va k 64 / 64 * 64, 64)])) ∧
  (∃ u, exec (.fence sc f) s = .next (dropFences u) ∧
    Adds s u s.cur.tids fun _ x => x.kind = .fence f sc ∧ x.dst = [] ∧ x.dstP = none) ∧
  Starts s (.pubv d) (fun k x => x.kind = .pubv ∧ x.va = (s.thread k).pubaddr.toNat ∧ x.size = 8 ∧
    x.dst = [d.toNat, d.toNat + 1]) ∧
  let lines := ((s.cur.tids.map fun k => va k 256 / 256 * 256).filter canonical).eraseDups
  ∃ t, exec (.pref h a imm) s = .next t ∧ t = { s with accs := t.accs, seq := s.seq + lines.length } ∧
    (∀ j (hj : j < lines.length), ∃ x, t.acc (s.seq + j) = some x ∧ x.kind = .pref h ∧ x.va = lines[j] ∧ x.size = 256 ∧
      x.dst = [] ∧ x.dstP = none) ∧
    ∀ id, id < s.seq ∨ s.seq + lines.length ≤ id → t.acc id = s.acc id

/-- A load or store with a byte whose address is not canonical takes the precise trap of cause 0x09, and so does an ATOM of any
kind, a CAS, an LUP, a CWB or a DEVL whose address is not canonical; an ATOM, CAS or LUP whose canonical address is not aligned takes
that of cause 0x08; no access is made (R161, R162, R321, R333, R360, R366, R390).
That the whole access is checked at once is the model's reading (log 45). -/
def Obligations.AddressTraps : Prop :=
  ∀ (s : State) (sz : MSize) (sx : Bool) (h : Hint) (op : LupOp) (sc : Scope) (w : Width) (uns : Bool) (o : Ord2) (d a : Reg)
    (imm : BitVec 7),
  s.cur.tids.Nodup → (∀ k, k ∈ s.cur.tids → CanTrap s k) →
  let off (u k : Nat) : Nat := gAddr s.cur (s.thread k) a imm u
  let pair (k : Nat) : Nat := (s.thread k).group 2 a.toNat
  let words : List Instr := [.atomAdd sc w o d a, .atomMin sc w uns o d a, .atomMax sc w uns o d a, .atomAnd sc w o d a,
    .atomOr sc w o d a, .atomXor sc w o d a, .atomXchg sc w o d a, .cas sc w o d a]
  let Traps (i : Instr) (cause : Nat) : Prop := ∃ t, exec i s = .next t ∧ TrapAll s t s.cur.tids cause 0 (curPc s)
  ((∀ k, k ∈ s.cur.tids → canonicalAll (off (szBytes sz) k) (szBytes sz) = false) →
    Traps (.ld sz sx h d a imm) 0x09 ∧ Traps (.st sz h d a imm) 0x09) ∧
  ((∀ k, k ∈ s.cur.tids → canonical (off 4 k) = false) → Traps (.lup op d a imm) 0x09) ∧
  ((∀ k, k ∈ s.cur.tids → canonical (off 256 k) = false) → Traps (.cwb a imm) 0x09) ∧
  ((∀ k, k ∈ s.cur.tids → canonical (off 64 k) = false) → Traps (.devl a imm) 0x09) ∧
  ((∀ k, k ∈ s.cur.tids → canonical (pair k) = false) → ∀ i, i ∈ words ++ [.atomFadd sc o d a] → Traps i 0x09) ∧
  ((∀ k, k ∈ s.cur.tids → canonical (off 4 k) = true ∧ off 4 k % 4 ≠ 0) → Traps (.lup op d a imm) 0x08) ∧
  ((∀ k, k ∈ s.cur.tids → canonical (pair k) = true ∧ pair k % 4 ≠ 0) → Traps (.atomFadd sc o d a) 0x08) ∧
  ((∀ k, k ∈ s.cur.tids → canonical (pair k) = true ∧ pair k % (4 * wRegs w) ≠ 0) → ∀ i, i ∈ words → Traps i 0x08)

/-! ## Scratchpad -/

/-- LDS and STS of scratchpad places that no window backs complete at once where nothing is outstanding (R164, R363, R392):
LDS gives each active thread the bytes at its place, lowest first, sign-extended for the signed kinds; STS leaves in each
byte what the last lane that names it stores, but a lane stores nothing in a word that a higher lane of the slot writes too
(R168, R393; log 84), and every other byte is as it was. In the first byte of a stash descriptor, bit 1, BOUND, keeps its value and the
other bits follow the store: that a store of it is no trap is the model's reading (R172; log 28). An address that fails a check of R164 traps with cause 0x0A and the check's SUB.
Addresses are taken modulo 2^32 (log 53). -/
def Obligations.ScratchpadAccesses : Prop :=
  ∀ (s : State) (k : LdsKind) (sz : MSize) (d a : Reg) (imm : BitVec 7) (pl : Nat → Nat × Nat × Bool),
  let va (n t : Nat) : Nat := sAddr s.cur (s.thread t) a imm n
  let sign : Bool := k == .i8 || k == .i16
  let tops (i q : Nat) : Bool := s.cur.tids.any fun u => decide (laneOf i < laneOf u) && (pl u).1 == (pl i).1 &&
    (wordsOf (pl u).2.1 (szBytes sz)).contains (q / 4)
  let sb (t : State) (s : State) : Prop := t = { s with threads := t.threads, cores := t.cores }
  (s.accs = [] →
    ((∀ t, t ∈ s.cur.tids → resolveFor s t (va (ldsBytes k) t) (ldsBytes k) false true = .ok (.phys (pl t).1 (pl t).2.1 (pl t).2.2) ∧
        spadPoisoned s (pl t).1 (pl t).2.1 (ldsBytes k) = false) →
      ∃ t, exec (.lds k d a imm) s = .next t ∧ sb t s ∧
        (∀ g, t.core g = { s.core g with sbconf := (t.core g).sbconf }) ∧
        (∀ i, i ∉ s.cur.tids → t.thread i = s.thread i) ∧
        ∀ i, i ∈ s.cur.tids →
          let v := ofLe (spadGet s (pl i).1 (pl i).2.1 (ldsBytes k))
          (s.thread i).Wrote (t.thread i) ((ldsBytes k + 3) / 4) d.toNat
            (if sign then ((BitVec.ofNat (8 * ldsBytes k) v).signExtend 32).toNat else v)) ∧
    ((∀ t, t ∈ s.cur.tids → resolveFor s t (va (szBytes sz) t) (szBytes sz) true true = .ok (.phys (pl t).1 (pl t).2.1 (pl t).2.2)) →
      ∃ t, exec (.sts sz d a imm) s = .next t ∧ sb t s ∧ t.threads = s.threads ∧
        (∀ g, t.core g = { s.core g with sbconf := (t.core g).sbconf, spad := (t.core g).spad, spadPoison := (t.core g).spadPoison }) ∧
        ∀ g q,
          let old := cellGet (s.core g).spad q
          let stored : Option Byte := (s.cur.tids.reverse.find? fun i => (pl i).1 == g && decide ((pl i).2.1 ≤ q) &&
                decide (q < (pl i).2.1 + szBytes sz) && !tops i q).map fun i =>
            BitVec.ofNat 8 ((s.thread i).group ((szBytes sz + 3) / 4) d.toNat / 2 ^ (8 * (q - (pl i).2.1)))
          let descriptor : Prop := ∃ x, teamAt s g q = some x ∧ 1024 * x.2.spadK - 256 ≤ q - x.2.spadBase ∧ (q - x.2.spadBase) % 32 = 0
          (¬ descriptor → cellGet (t.core g).spad q = stored.getD old) ∧
          (descriptor → ∀ j, j < 8 → (cellGet (t.core g).spad q).getLsbD j = if j = 1 then old.getLsbD 1 else (stored.getD old).getLsbD j))) ∧
  ∀ sub, s.cur.tids.Nodup → (∀ t, t ∈ s.cur.tids → CanTrap s t) →
    ((∀ t, t ∈ s.cur.tids → resolveFor s t (va (ldsBytes k) t) (ldsBytes k) false true = .error sub) →
      ∃ t, exec (.lds k d a imm) s = .next t ∧ TrapAll s t s.cur.tids 0x0A sub (curPc s)) ∧
    ((∀ t, t ∈ s.cur.tids → resolveFor s t (va (szBytes sz) t) (szBytes sz) true true = .error sub) →
      ∃ t, exec (.sts sz d a imm) s = .next t ∧ TrapAll s t s.cur.tids 0x0A sub (curPc s))

/-- LDFE completes at once at full granules where nothing is outstanding, and its .CLR form empties the granule; at an empty
granule it waits, outstanding, for a fill (R170, R171, R362). STFE writes its bytes and leaves its granules full (R393).
That bytes and full bits change together, and that BOUND keeps its value, are the model's reading (log 35, 28). -/
def Obligations.FullEmptyAccesses : Prop :=
  ∀ (s : State) (sz : FeSize) (d a : Reg) (imm : BitVec 7) (pl : Nat → Nat × Nat × Bool),
  let n := feBytes sz
  let va (t : Nat) : Nat := sAddr s.cur (s.thread t) a imm n
  let tops (i q : Nat) : Bool := s.cur.tids.any fun u => decide (laneOf i < laneOf u) && (pl u).1 == (pl i).1 &&
    (wordsOf (pl u).2.1 n).contains (q / 4)
  s.accs = [] → s.cur.tids.Nodup → (∀ k, k ∈ s.cur.tids → coreOf k = s.cur.core) →
  ((∀ t, t ∈ s.cur.tids → resolveFor s t (va t) n false false = .ok (.phys (pl t).1 (pl t).2.1 (pl t).2.2) ∧
      spadPoisoned s (pl t).1 (pl t).2.1 n = false) →
    (d.toNat + (n + 3) / 4 ≤ 128 → (∀ t, t ∈ s.cur.tids → isFull s (pl t).1 (pl t).2.1 = true) →
      (∃ t, exec (.ldfe sz false d a imm) s = .next t ∧ t.accs = [] ∧ t.mem = s.mem ∧
        (∀ g, t.core g = { s.core g with sbconf := (t.core g).sbconf }) ∧ (∀ i, i ∉ s.cur.tids → t.thread i = s.thread i) ∧
        ∀ i, i ∈ s.cur.tids → ∀ r, r < (n + 3) / 4 →
          ((t.thread i).reg (d.toNat + r)).toNat = ofLe (spadGet s (pl i).1 (pl i).2.1 n) / 2 ^ (32 * r) % 2 ^ 32) ∧
      (s.cur.tids.Pairwise (fun i j => (pl i).1 = (pl j).1 → (pl i).2.1 / 16 ≠ (pl j).2.1 / 16) →
        ∃ t, exec (.ldfe sz true d a imm) s = .next t ∧ t.accs = [] ∧ t.mem = s.mem ∧
          (∀ i, i ∈ s.cur.tids → isFull t (pl i).1 (pl i).2.1 = false) ∧
          ∀ i, i ∈ s.cur.tids → ∀ r, r < (n + 3) / 4 →
            ((t.thread i).reg (d.toNat + r)).toNat = ofLe (spadGet s (pl i).1 (pl i).2.1 n) / 2 ^ (32 * r) % 2 ^ 32)) ∧
    ((∀ t, t ∈ s.cur.tids → isFull s (pl t).1 (pl t).2.1 = false) →
      ∀ c, ∃ t, exec (.ldfe sz c d a imm) s = .next t ∧ t.threads = s.threads ∧
        ∀ j (h : j < s.cur.tids.length), ∃ x, t.acc (s.seq + j) = some x ∧ Fresh s s.cur.tids[j] x ∧
          x.kind = .ldfe c (pl s.cur.tids[j]).1 (pl s.cur.tids[j]).2.1 ∧ x.dst = (List.range ((n + 3) / 4)).map (d.toNat + ·))) ∧
  ((∀ t, t ∈ s.cur.tids → resolveFor s t (va t) n true false = .ok (.phys (pl t).1 (pl t).2.1 (pl t).2.2)) →
    ∃ t, exec (.stfe sz d a imm) s = .next t ∧ t.accs = [] ∧ t.threads = s.threads ∧ t.mem = s.mem ∧
      (∀ i, i ∈ s.cur.tids → isFull t (pl i).1 (pl i).2.1 = true) ∧
      ∀ g q,
        let old := cellGet (s.core g).spad q
        let stored : Option Byte := (s.cur.tids.reverse.find? fun i => (pl i).1 == g && decide ((pl i).2.1 ≤ q) &&
            decide (q < (pl i).2.1 + n) && !tops i q).map fun i =>
          BitVec.ofNat 8 ((s.thread i).group ((n + 3) / 4) d.toNat / 2 ^ (8 * (q - (pl i).2.1)))
        let descriptor : Prop := ∃ x, teamAt s g q = some x ∧ 1024 * x.2.spadK - 256 ≤ q - x.2.spadBase ∧ (q - x.2.spadBase) % 32 = 0
        (¬ descriptor → cellGet (t.core g).spad q = stored.getD old) ∧
        (descriptor → ∀ j, j < 8 → (cellGet (t.core g).spad q).getLsbD j = if j = 1 then old.getLsbD 1 else (stored.getD old).getLsbD j))

/-- SBIND, SUNB and SUNB.DISC complete for the team of the slot's threads (R172, R174, R384, R385). SBIND of an unbound window with
a good descriptor sets BOUND and nothing else; with a bad one it traps with cause 0x0A and SUB 1, and in a team that has no
scratchpad with SUB 2. SUNB of a bound window clears BOUND and forgets the window's unmodified sectors, the modified ones staying for
their write-backs; SBIND of a bound window does that first, and binds once no write-back is left, holding the slot until then.
SUNB.DISC forgets every sector, and stores into the window that still wait for their fill go with it; neither writes global
memory. SUNB of an unbound window changes nothing.
The model's own choices in it: what makes a descriptor bad beyond R164 (log 24), and that write-backs belong to the team's lead and
SUNB.DISC takes only the stores of the binding that ends (log 83). -/
def Obligations.StashWindows : Prop :=
  ∀ (s : State) (w : BitVec 3) (tk : Nat) (t : Team),
  slotTeams s = [(tk, s.cur.tids)] → s.team tk = some t →
  (t.spadK = 0 → stashWbs s tk (some w.toNat) = [] → s.cur.tids.Nodup → (∀ k, k ∈ s.cur.tids → CanTrap s k) →
    ∃ u, exec (.sbind w) s = .next u ∧ TrapAll s u s.cur.tids 0x0A 0x02 (curPc s)) ∧
  (0 < t.spadK →
  let at_ := t.spadBase + descOff t w.toNat
  (winBound s t w.toNat = false → stashWbs s tk (some w.toNat) = [] →
    (bindable s t w.toNat = true →
      ∃ u, exec (.sbind w) s = .next u ∧ u = { s with cores := u.cores } ∧ winBound u t w.toNat = true ∧
        (∀ q, q ≠ at_ → cellGet (u.core t.core).spad q = cellGet (s.core t.core).spad q) ∧
        ∀ g, g ≠ t.core → u.core g = s.core g) ∧
    (bindable s t w.toNat = false → s.cur.tids.Nodup → (∀ k, k ∈ s.cur.tids → CanTrap s k) →
      ∃ u, exec (.sbind w) s = .next u ∧ TrapAll s u s.cur.tids 0x0A 0x01 (curPc s)) ∧
    exec (.sunb w) s = .next s ∧ exec (.sunbDisc w) s = .next s) ∧
  (winBound s t w.toNat = true →
    (∃ u, exec (.sunb w) s = .next u ∧ u.mem = s.mem ∧ u.threads = s.threads ∧ winBound u t w.toNat = false ∧
      u.team tk = some { t with
        stash := t.stash.filter fun y => !(y.win == w.toNat && t.stash.any fun x => x.win == w.toNat && x.key == y.key && !x.modified) } ∧
      (∀ q, q ≠ at_ → cellGet (u.core t.core).spad q = cellGet (s.core t.core).spad q) ∧
      (stashWbs u tk (some w.toNat) ≠ [] → exec (.sbind w) s = .next u) ∧
      (stashWbs u tk (some w.toNat) = [] → bindable u t w.toNat = true →
        ∃ v, exec (.sbind w) s = .next v ∧ v = { u with cores := v.cores } ∧ winBound v t w.toNat = true ∧
          (∀ q, q ≠ at_ → cellGet (v.core t.core).spad q = cellGet (s.core t.core).spad q) ∧
          ∀ g, g ≠ t.core → v.core g = u.core g)) ∧
    let drops (a : Access) : Bool := a.team == tk && (match a.kind with
      | .stashFill v _ own _ => v == w.toNat && own
      | _ => false)
    ∃ u, exec (.sunbDisc w) s = .next u ∧ u.mem = s.mem ∧ u.threads = s.threads ∧
      (∀ id x, s.acc id = some x → drops x = true → u.acc id = none) ∧
      ((∀ x, x ∈ s.accs → drops x.2 = false) → u.accs = (detach s tk w.toNat).accs) ∧
      winBound u t w.toNat = false ∧ u.team tk = some { t with
        stash := t.stash.filter fun y => y.win != w.toNat && !(t.stash.any fun x => x.win == w.toNat && x.key == y.key && x.modified) } ∧
      ∀ q, q ≠ at_ → cellGet (u.core t.core).spad q = cellGet (s.core t.core).spad q))

/-! ## Bends -/

/-- BSIG, BWAIT and BTRY complete wherever no active thread's name or party fails the check (R326-R330). BSIG: each thread's
signal to a bend of its own die is counted at once where nothing that the thread did before holds it, and serves the bend's
waiters; every other one goes out and is outstanding until it is counted, another package's answer to the check being its own
(log 25). Where nothing is outstanding and nobody waits, every bend of the die rises by the signals that name it. BWAIT makes
each thread wait for its bend. BTRY takes a unit where one is left once the parked BWAITs of the bend have theirs, and tells
whether it did; where none of them is owed a unit, BTRYs take one each while one is left, in ascending home lane. A name or
party that fails the check traps with cause 0x0D and its SUB, and takes and signals nothing (R331).
A signal to another die is checked here when it issues (log 64). -/
def Obligations.Bends : Prop :=
  ∀ (s : State) (rel acq : Bool) (sc : BScope) (pd : Pred) (b : Reg) (num : Nat → Nat) (nm : Nat → BendName),
  let name (k : Nat) : Nat := rdB s.cur (s.thread k) .w32 b
  let die (k : Nat) : Nat := dieOf (coreOf k)
  let key (k : Nat) : Nat := 65536 * die k + num k
  let at_ (k : Nat) : Nat := 65536 * (nm k).die + (nm k).num
  let signals (x y : State) (k : Nat) : Prop :=
    let a := newAcc x k (.bsig (nm k).pkg (nm k).die (nm k).num rel)
    y = if (nm k).rem = false ∧ readyAs x x.seq a = true then countSignal x (at_ k) else addAcc x a
  ((∀ k, (s.thread k).fall = none) → s.cur.tids.Nodup →
    (∀ k, k ∈ s.cur.tids → bendHere s (die k) (nm k) = true ∨ CanTrap s k) →
    (∀ k, k ∈ s.cur.tids → bendName s (die k) (name k) = some (nm k) ∧
      (bendHere s (die k) (nm k) = true → sigCheck (s.bend (at_ k)) 1 (partyOf s k).1 (partyOf s k).2 = none)) →
    ∃ t, exec (.bsig rel sc b) s = .next t ∧ InTurn (fun k x y =>
      if bendHere s (die k) (nm k) = true then signals x y k
      else ∃ z : State, z = { x with free := z.free } ∧
        (signals z y k ∨ ∃ sub, (sub = 1 ∨ sub = 2 ∨ sub = 4) ∧ (CanTrap z k → TrapAll z y [k] 0x0D sub (curPc z))))
      s.cur.tids s t) ∧
  ((∀ k, k ∈ s.cur.tids → bendName s (die k) (name k) = some ⟨false, fld (s.die (die k)).pkgid 0 9, die k, num k⟩ ∧
      sigCheck (s.bend (key k)) 1 (partyOf s k).1 (partyOf s k).2 = none ∧ bendWaiters s (key k) = [] ∧
      (s.bend (key k)).count.toNat + s.cur.tids.length < 2 ^ 64) → s.accs = [] →
    ∃ t, exec (.bsig rel sc b) s = .next t ∧ t = { s with bends := t.bends } ∧
      ∀ i, t.bend i = { s.bend i with
        count := (s.bend i).count + BitVec.ofNat 64 (s.cur.tids.filter fun k => key k == i).length }) ∧
  ((∀ k, k ∈ s.cur.tids → bendName s (die k) (name k) = some (nm k) ∧ bendHere s (die k) (nm k) = true ∧ (nm k).rem = true ∧
      sigCheck (s.bend (at_ k)) 1 (partyOf s k).1 (partyOf s k).2 = none) →
    Starts s (.bsig rel sc b) fun k x => x.kind = .bsig (nm k).pkg (nm k).die (nm k).num rel) ∧
  ((∀ k, k ∈ s.cur.tids → checkTake s k (name k) = .ok (num k)) →
    Waits s (.bwait acq sc b) (fun k => .bend (num k) acq) ∧
    ((∀ k, k ∈ s.cur.tids → bendWaiters s (key k) = [] ∨ (s.bend (key k)).count = 0) → s.cur.tids.Nodup →
      ∃ t, exec (.btry acq sc pd b) s = .next t ∧ t = { s with threads := t.threads, bends := t.bends } ∧
        (∀ i, t.bend i = { s.bend i with
          count := BitVec.ofNat 64 ((s.bend i).count.toNat - (s.cur.tids.filter fun k => key k == i).length) }) ∧
        (∀ k, k ∉ s.cur.tids → t.thread k = s.thread k) ∧
        ∀ j (h : j < s.cur.tids.length), (s.thread s.cur.tids[j]).WrotePred (t.thread s.cur.tids[j]) pd.toNat
          (decide (((s.cur.tids.take j).filter fun k => key k == key s.cur.tids[j]).length <
            (s.bend (key s.cur.tids[j])).count.toNat))) ∧
    ∀ k, s.cur.tids = [k] → (∀ i, (s.thread i).fall = none) →
      let w := (bendWaiters s (key k)).length
      let c := (s.bend (key k)).count.toNat
      ∃ t, exec (.btry acq sc pd b) s = .next t ∧ (t.bend (key k)).count.toNat = c - w - 1 ∧
        (t.thread k).pred pd.toNat = (pd == 7 || decide (w < c))) ∧
  ∀ sub, s.cur.tids.Nodup →
    ((∀ k, k ∈ s.cur.tids → CanTrap s k ∧ checkTake s k (name k) = .error sub) →
      ∀ i, i = .bwait acq sc b ∨ i = .btry acq sc pd b → ∃ t, exec i s = .next t ∧ TrapAll s t s.cur.tids 0x0D sub (curPc s)) ∧
    ((∀ k, k ∈ s.cur.tids → CanTrap s k ∧ ((bendName s (die k) (name k) = none ∧ sub = 4) ∨
        (bendName s (die k) (name k) = some (nm k) ∧ bendHere s (die k) (nm k) = true ∧
          sigCheck (s.bend (at_ k)) 1 (partyOf s k).1 (partyOf s k).2 = some sub))) →
      ∃ t, exec (.bsig rel sc b) s = .next t ∧ TrapAll s t s.cur.tids 0x0D sub (curPc s))

/-! ## Lead and gang -/

/-- ELECT tells each active thread whether it is the lead, the lowest-numbered live thread of its team (R49, R342). KMOV by
the lead writes the team register, and only it; by any other thread it traps with cause 0x05 (R50, R359). MOV.K reads a team
register that no running pass has written (R51, R368). -/
def Obligations.TeamRegisters : Prop := ∀ (s : State) (pd : Pred) (k : BitVec 5) (d a : Reg),
  let lead (i : Nat) : Bool := match s.team (s.thread i).team with
    | some t => (t.tids.find? fun j => (s.thread j).live) == some i
    | none => false
  GivesPred s (.elect pd) pd.toNat (fun i _ => lead i) ∧
  (∀ (i : Nat) (t : Team), s.cur.tids = [i] → s.team (s.thread i).team = some t → lead i = true →
    ∃ (u : State) (t' : Team), exec (.kmov k a) s = .next u ∧ u = { s with teams := u.teams } ∧ u.team (s.thread i).team = some t' ∧
      (∀ q, q ≠ (s.thread i).team → u.team q = s.team q) ∧ t' = { t with kregs := t'.kregs, kpend := t'.kpend } ∧
      kvGetD 0 t'.kregs k.toNat = (s.thread i).reg a.toNat ∧ ∀ q, q ≠ k.toNat → kvGetD 0 t'.kregs q = kvGetD 0 t.kregs q) ∧
  (s.cur.tids.Nodup → (∀ i, i ∈ s.cur.tids → CanTrap s i ∧ lead i = false) →
    ∃ u, exec (.kmov k a) s = .next u ∧ TrapAll s u s.cur.tids 0x05 0 (curPc s)) ∧
  ∀ p, s.pass s.curPass = some p → (∀ o, o ∈ p.chain → o.item ≠ 300 + k.toNat) →
    (∀ i, i ∈ s.cur.tids → ∃ t, s.team (s.thread i).team = some t ∧ ∀ x, x ∈ t.kpend → x.k ≠ k.toNat) →
    Gives s (.movK d k) 1 d fun i _ =>
      (((s.team (s.thread i).team).map fun (t : Team) => kvGetD 0 t.kregs k.toNat).getD 0).toNat

/-- VOTE, MATCH, GRED and GSHF complete in a GANG block (R354, R355, R367, R394): a vote over the active threads' predicates,
the mask of the lanes with an equal key, the fold of the active threads' values in ascending home lane, and the value of the
source lane, or the thread's own where that lane does not exist or is not active. In an ordinary block they take the
illegal-context trap with SUB 1 (R48). -/
def Obligations.GangOperations : Prop :=
  ∀ (s : State) (w : Width) (op : RedOp) (m : ShfMode) (pa : Pred) (d a b : Reg),
  let P (i : Nat) : Bool := (s.thread i).pred pa.toNat
  let V (i : Nat) : Word := (s.thread i).reg a.toNat
  let key (i : Nat) : Nat := (s.thread i).group (wRegs w) a.toNat
  (curGang s = true →
    GivesPred s (.vote .all d pa) d.toNat (fun _ _ => s.cur.tids.all P) ∧
    GivesPred s (.vote .any d pa) d.toNat (fun _ _ => s.cur.tids.any P) ∧
    GivesPred s (.vote .uni d pa) d.toNat (fun _ _ => s.cur.tids.all P || !s.cur.tids.any P) ∧
    (∃ v : Word, Gives s (.vote .ballot d pa) 1 d (fun _ _ => v.toNat) ∧
      ∀ l, l < 32 → v.getLsbD l = s.cur.tids.any fun i => laneOf i == l && P i) ∧
    (∃ v : Nat → Word, Gives s (.matchKey w d a) 1 d (fun i _ => (v i).toNat) ∧
      ∀ i l, l < 32 → (v i).getLsbD l = s.cur.tids.any fun j => laneOf j == l && key j == key i) ∧
    Gives s (.gred op d a) 1 d (fun _ _ => (s.cur.tids.foldl (fun r i => redFold op r (V i)) (redIdent op)).toNat) ∧
    Gives s (.gshf m d a b) 1 d fun i x =>
      let n := rdB s.cur x .w32 b
      let src : Option Nat := match m with
        | .idx => some (n % 32)
        | .up => if n ≤ laneOf i then some (laneOf i - n) else none
        | .down => if laneOf i + n < 32 then some (laneOf i + n) else none
        | .xor => some (laneOf i ^^^ n % 32)
      (match src.bind fun l => s.cur.tids.find? fun j => laneOf j == l with
        | some j => V j
        | none => V i).toNat) ∧
  (curGang s = false → s.cur.tids.Nodup → (∀ i, i ∈ s.cur.tids → CanTrap s i) →
    ∀ i, (∃ k, i = .vote k d pa) ∨ i = .matchKey w d a ∨ i = .gred op d a ∨ i = .gshf m d a b →
      ∃ t, exec i s = .next t ∧ TrapAll s t s.cur.tids 0x04 1 (curPc s))

/-! ## Expand unit -/

/-- EXPQ completes with the iterations not yet dealt, or contributed so far (R269). EXPB in a GANG block, where no check of
R270 fails, completes once for its pass (R265): the idle unit opens an expansion of the group, the lengths are added to the
total, the gang's bit is set, and each lane's entry holds its start and length, zeros for a lane that is not active. A check
that fails traps with cause 0x0B and its SUB in every active thread; in an ordinary block EXPB and EXPN take the
illegal-context trap with SUB 1 (R48).
Requests that the unit took before take effect first (`afterRequests`, R269), and where none is ready nothing does.
A literal as the length is the model's reading (log 32). -/
def Obligations.ExpandBuild : Prop :=
  ∀ (s₀ : State) (sz : GrpSize) (op : BitVec 3) (d a b : Reg) (pb : Pred),
  let s := afterRequests s₀
  ((∀ tk t, s₀.team tk = some t → ∀ q, q ∈ t.expq → q.live = true → q.ready = 0) → s = s₀) ∧
  (∃ t, exec (.expq d) s₀ = .next t ∧ LaneStep s t fun k x y => x.Wrote y 1 d.toNat
    (match s.team (s.thread k).team with
    | none => 0
    | some t => if t.expand.st = 2 then t.expand.total - t.expand.cursor else if t.expand.st = 1 then t.expand.total else 0)) ∧
  (curGang s₀ = true → ∀ (tid tk : Nat) (rest : List Nat) (t : Team),
    s.cur.tids = tid :: rest → (s.thread tid).team = tk → s.team tk = some t →
    let n := match sz with
      | .g1 => 1
      | .g2 => 2
      | .g4 => 4
      | .g8 => 8
    let h := gangOf tid - t.g0
    let g0 := h - h % n
    let lane (l : Nat) : Nat := tid - laneOf tid + l
    let start (l : Nat) : Nat := if lane l ∈ s.cur.tids then ((s.thread (lane l)).reg a.toNat).toNat else 0
    let len (l : Nat) : Nat := if lane l ∈ s.cur.tids then rdB s.cur (s.thread (lane l)) .w32 b else 0
    let sum := ((List.range 32).map len).foldl (· + ·) 0
    let bad := expbBad s t (grpLog sz) h op sum
    (bad = none → ∃ (u : State) (t' : Team), exec (.expb sz op a b) s₀ = .next (tickEnd u tk) ∧ u.team tk = some t' ∧
      u = { s with teams := u.teams, cores := u.cores } ∧ (∀ q, q ≠ tk → u.team q = s.team q) ∧
      t' = { t with expand := t'.expand } ∧
      t'.expand = (if t.expand.st = 0 then
          { Expand.reset with st := 1, scope := grpLog sz, g0 := g0, oper := op.toNat, cmask := 2 ^ (h - g0), total := sum }
        else
          { t.expand with cmask := t.expand.cmask ||| 2 ^ (h - t.expand.g0), total := t.expand.total + sum }) ∧
      ∀ l, l < 32 →
        spadGet u t.core (entryAt t' (32 * (h - t'.expand.g0) + l) 0) 8 = leBytes 4 (start l) ++ leBytes 4 (len l)) ∧
    ∀ sub, bad = some sub → s.cur.tids.Nodup → (∀ k, k ∈ s.cur.tids → CanTrap s k) →
      ∃ u, exec (.expb sz op a b) s₀ = .next u ∧ TrapAll s u s.cur.tids 0x0B sub (curPc s)) ∧
  (curGang s₀ = false → s₀.cur.tids.Nodup → (∀ k, k ∈ s₀.cur.tids → CanTrap s₀ k) →
    ∀ i, i = .expb sz op a b ∨ i = .expn d pb →
      ∃ u, exec i s₀ = .next u ∧ TrapAll s₀ u s₀.cur.tids 0x04 1 (curPc s₀))

/-- EXPN in a GANG block and SEGR complete in each active thread in turn. EXPN closes the participant's open iteration, and
asks for the next: an access that will write the pair and the predicate, and a request that the unit owes (R266, R344). SEGR
closes the iteration with a contribution, which the thread's entry holds (R268, R386). What the expansion can then settle,
deliver or end follows at once (`tickExp`), requests that have become ready take their order together at the slot's end
(`endRequests`), and what the unit took before comes first (`afterRequests`, R269). A thread that is no participant takes the trap of cause 0x0B with SUB 7; SEGR
without an open iteration SUB 8, and with another operator SUB 9 (R270). -/
def Obligations.ExpandIterations : Prop := ∀ (s : State) (op : RedOp) (d a : Reg) (pb : Pred),
  let u := afterRequests s
  let openIter (e : Expand) (p : Nat) : Bool := e.held.contains p && !e.clsd.contains p
  (curGang s = true → ∃ t, exec (.expn d pb) s = .next (endRequests (teamsOf s s.cur.tids) t) ∧ InTurn (fun k x y =>
    match (x.team (x.thread k).team).bind fun t => (partOf t k).map fun p => (t, p) with
    | none => CanTrap x k → TrapAll x y [k] 0x0B 0x07 (curPc x)
    | some (t, p) => ∃ (v : State) (t' : Team) (q : Access), y = tickExp v (x.thread k).team ∧
      v.threads = x.threads ∧ v.mem = x.mem ∧ v.seq = x.seq + 1 ∧ v.acc x.seq = some q ∧ (∀ i, i ≠ x.seq → v.acc i = x.acc i) ∧
      q.tid = k ∧ q.kind = .expn ∧ q.dst = [d.toNat, d.toNat + 1] ∧ q.dstP = (if pb = 7 then none else some pb.toNat) ∧
      v.team (x.thread k).team = some t' ∧ t'.expq = t.expq ++ [⟨x.seq, p, 0, true⟩] ∧
      t'.expand = { t.expand with
        owed := natAdd t.expand.owed p, clsd := if openIter t.expand p then natAdd t.expand.clsd p else t.expand.clsd })
    u.cur.tids u t) ∧
  ∃ t, exec (.segr op a) s = .next (endRequests (teamsOf s s.cur.tids) t) ∧ InTurn (fun k x y =>
    match (x.team (x.thread k).team).bind fun t => (partOf t k).map fun p => (t, p) with
    | none => CanTrap x k → TrapAll x y [k] 0x0B 0x07 (curPc x)
    | some (t, p) =>
      if openIter t.expand p = false then CanTrap x k → TrapAll x y [k] 0x0B 0x08 (curPc x)
      else if redOfCode t.expand.oper ≠ op then CanTrap x k → TrapAll x y [k] 0x0B 0x09 (curPc x)
      else ∃ (v : State) (t' : Team), y = tickExp v (x.thread k).team ∧ v = { x with teams := v.teams, cores := v.cores } ∧
        v.team (x.thread k).team = some t' ∧
        t' = { t with expand := { t.expand with clsd := natAdd t.expand.clsd p, pendv := natAdd t.expand.pendv p } } ∧
        entWord v t' p 28 = ((x.thread k).reg a.toNat).toNat)
    u.cur.tids u t

/-- EXPN_DEAL completes where the unit deals and a request is ready: it goes to the request that became ready first, of those that became
ready together to the first of the queue (R266).
While iterations are left the request's thread receives the value at the cursor and its owner, and its predicate true; the
cursor moves on and, with its participant's last request, OWED clears (R264). With none left the participant is done, and its
request waits for the completion. A participant that still holds an open iteration closes it first, and its request waits
until that has settled. -/
def Obligations.ExpandDeals : Prop := ∀ (s : State) (tk : Nat) (t : Team) (r : ExpReq) (front back : List ExpReq),
  s.team tk = some t → t.expand.st = 2 → dieGo s (dieOf t.core) = true → t.expq = front ++ r :: back → r.live = true → r.ready ≠ 0 →
  (∀ q, q ∈ front → q.live = true → q.ready = 0 ∨ r.ready < q.ready) →
  (∀ q, q ∈ back → q.live = true → q.ready = 0 ∨ r.ready ≤ q.ready) →
  let e := t.expand
  let again := t.expq.map fun q => if q = r then { q with ready := 0 } else q
  let opened := e.held.contains r.part && !e.clsd.contains r.part
  (opened = true → ∃ (u : State) (t' : Team), exec (.expnDeal tk) s = .next (tickEnd u tk) ∧ u.team tk = some t' ∧
    u = { s with teams := u.teams } ∧ t'.expand = { e with clsd := natAdd e.clsd r.part } ∧ t'.expq = again) ∧
  (opened = false → e.cursor < e.total → ∀ (x : Access) (d : Nat), s.acc r.acc = some x → x.dst = [d, d + 1] → d + 1 < 128 →
    let o := passOver s t e.cursor (e.parts + 1) e.obase e.owner
    ∃ (u : State) (t' : Team), exec (.expnDeal tk) s = .next (tickEnd u tk) ∧ u.team tk = some t' ∧
      t'.expand.cursor = e.cursor + 1 ∧ t'.expand.owner = o.2 ∧ t'.expand.held = natAdd e.held r.part ∧
      ((∀ q, q ∈ t.expq → q ≠ r → q.live = true → q.part ≠ r.part) → r.part ∉ t'.expand.owed) ∧ r ∉ t'.expq ∧
      (u.thread x.tid).reg d = BitVec.ofNat 32 (entWord s t o.2 0 + (e.cursor - o.1)) ∧
      (u.thread x.tid).reg (d + 1) = BitVec.ofNat 32 (32 * e.g0 + o.2) ∧
      (∀ p, x.dstP = some p → (u.thread x.tid).pred p = true) ∧ u.acc r.acc = none ∧ u.mem = s.mem) ∧
  (opened = false → e.total ≤ e.cursor → ∃ (u : State) (t' : Team), exec (.expnDeal tk) s = .next (tickEnd u tk) ∧ u.team tk = some t' ∧
    u = { s with teams := u.teams } ∧ t'.expand = { e with done := natAdd e.done r.part } ∧
    t'.expq = again)

/-- EXPSV and EXPRS complete in each active thread in turn, after what the unit took before (R272, R269): EXPSV by the lead
leaves the unit idle and stores the expand state's image of 2,048 bytes to its place in the allotment, at once where nothing
is outstanding; EXPRS by the lead, into an idle unit, makes the state that a
valid image holds the unit's. Either is counted at the lane port first (`countImages`, R169). A thread that is not the lead takes the trap of cause 0x0B with SUB 0x0A, and a place that fails
a check of R164 that of cause 0x0A with its SUB; an image that is invalid, or a unit that is not idle, traps with SUB 0x0B
(R270).
The moment, an owner that is refused, and how the image counts at the lane port are the model's reading (log 42, 119). -/
def Obligations.ExpandImages : Prop := ∀ (s : State) (a : Reg),
  let at_ (x : State) (k : Nat) : Nat := ((x.thread k).reg a.toNat).toNat
  let place (x : State) (k : Nat) (wr : Bool) (t : Team) : Except Nat Nat := localBlock x t (at_ x k) 2048 64 wr
  let traps (x y : State) (k cause sub : Nat) : Prop :=
    CanTrap x k → (x.pass x.curPass).any (·.tids.contains k) = true → TrapAll x y [k] cause sub (curPc x)
  let u := afterRequests s
  (∃ v, exec (.expsv a) s = .next v ∧ InTurn (fun k x y =>
    match x.team (x.thread k).team with
    | none => y = x
    | some t =>
      if leadOf x t ≠ some k then traps x y k 0x0B 0x0A
      else match place x k true t with
        | .error sub => traps x y k 0x0A sub
        | .ok o => ∃ t' : Team, y.team (x.thread k).team = some t' ∧ y.threads = x.threads ∧ y.mem = x.mem ∧
          t'.expand = Expand.reset ∧ (∀ q, q ∈ t'.expq → q.live = false) ∧
          (x.accs = [] → y = { x with teams := y.teams, cores := y.cores } ∧
            ((∀ i, i < 2048 → ∀ b, maskBound x t.core (t.spadBase + o + i) b = b) →
              spadGet y t.core (t.spadBase + o) 2048 = t.expand.image))) u.cur.tids (countImages u true (at_ u)) v) ∧
  ∃ v, exec (.exprs a) s = .next v ∧ InTurn (fun k x y =>
    match x.team (x.thread k).team with
    | none => y = x
    | some t =>
      if leadOf x t ≠ some k then traps x y k 0x0B 0x0A
      else match place x k false t with
        | .error sub => traps x y k 0x0A sub
        | .ok o => spadPoisoned x t.core (t.spadBase + o) 2048 = false →
          match Expand.ofImage (spadGet x t.core (t.spadBase + o) 2048) with
          | none => traps x y k 0x0B 0x0B
          | some e =>
            if t.expand.st = 0 ∧ (e.st = 0 ∨ tableBad x t e.gangs = false) then
              ∃ (z : State) (t' : Team), y = tickEnd z (x.thread k).team ∧ z = { x with teams := z.teams } ∧
                z.team (x.thread k).team = some t' ∧ t'.expand = e ∧ t'.expq.length = t.expq.length
            else traps x y k 0x0B 0x0B) u.cur.tids (countImages u false (at_ u)) v

/-! ## Engines and system -/

/-- MXISS, MXDRN and CPISS complete where every active thread's block of 64 bytes lies, aligned and unprotected, in its team's
allotment: the threads wait to push it (R244, R255); another address traps with cause 0x0A and the SUB of R164. QSTAT
completes with the entries of the named queue, and for a command queue whether its engine runs a command (R380). MXRD, MXWR and MXCLR complete: each active thread makes one access to four elements of the tile, at row b[13:7] and column
4 b[6:2] (R371); MXCLR makes one for each team of the slot (R369). -/
def Obligations.EngineSlots : Prop := ∀ (s : State) (d a b : Reg) (q : BitVec 4) (t : BitVec 2),
  let va (k : Nat) : Nat := ((s.thread k).reg a.toNat).toNat
  ((∀ k, k ∈ s.cur.tids → ∃ t, s.team (s.thread k).team = some t ∧ va k < 2 ^ 19 ∧ va k % 64 = 0 ∧
      va k + 64 ≤ 1024 * t.spadK ∧ protect s t (va k) 64 true false = none) →
    Waits s (.mxiss a) (fun k => .push 1 (va k)) ∧ Waits s (.mxdrn a) (fun k => .push 2 (va k)) ∧
    Waits s (.cpiss a) (fun k => .push 0 (va k))) ∧
  (∀ sub, s.cur.tids.Nodup → (∀ k, k ∈ s.cur.tids → CanTrap s k ∧ ∃ t, s.team (s.thread k).team = some t ∧
      localBlock s t (va k) 64 64 false = .error sub) →
    ∀ i, i = .mxiss a ∨ i = .mxdrn a ∨ i = .cpiss a →
      ∃ u, exec i s = .next u ∧ TrapAll s u s.cur.tids 0x0A sub (curPc s)) ∧
  (Gives s (.qstat d q) 1 d fun k _ =>
    match s.team (s.thread k).team with
    | none => 0
    | some t =>
      let busy (b : Bool) : Nat := if b then 256 else 0
      if q = 0 then t.q0.length else if q = 1 then t.q1.length else if q = 8 then t.q8.length + busy t.mx.isSome
      else if q = 9 then t.q9.length + busy t.cp.isSome else 0) ∧
  let idx (k : Nat) : Nat :=
    let v := rdB s.cur (s.thread k) .w32 b
    128 * (v / 2 ^ 7 % 2 ^ 7) + 4 * (v / 2 ^ 2 % 2 ^ 5)
  Starts s (.mxrd d t b) (fun k x => x.kind = .mxrd t.toNat (idx k) ∧ x.size = 16 ∧ x.dstP = none ∧
    x.dst = [d.toNat, d.toNat + 1, d.toNat + 2, d.toNat + 3]) ∧
  Starts s (.mxwr t a b) (fun k x => x.kind = .mxwr t.toNat (idx k) ∧ x.size = 16 ∧ x.dst = [] ∧ x.dstP = none ∧
    x.data.toNat = (s.thread k).group 4 a.toNat) ∧
  ∃ u, exec (.mxclr t) s = .next u ∧
    Adds s u ((slotTeams s).filterMap fun x => x.2.head?) fun _ x => x.kind = .mxclr t.toNat ∧ x.dst = [] ∧ x.dstP = none

/-- CSRR, CSRW and CYC complete (R107-R110, R112, R113, R335, R337). A read of every register that a thread may read gives that
register of the thread, its team, its core or its die; a write of FPMODE keeps RM where the new one is no mode, one of TPC and PUBADDR
takes the bits that the register has. A register of the die device, CAPS0, CAPS1 and READY apart, is privileged: reading it, and
writing any assigned register but FPMODE, TPC and PUBADDR, takes the trap of cause 0x07 (R106).
A core register that comes into effect with a pass reads as the running pass has it, and a cursor of a tile that the team does not
have reads 0: the model's reading (log 40, 41). What earlier slots of a trapped packet left for the return is dropped with its TPC, unless the new one names a later slot of that
packet (log 81). -/
def Obligations.ControlRegisters : Prop := ∀ (s : State) (d : Reg),
  let core := s.core s.cur.core
  let Is (n : Nat) (w : Nat) (v : Nat → Thread → Nat) : Prop := Gives s (.csrr d (BitVec.ofNat 14 n)) w d v
  let team (f : Team → Nat) (k : Nat) (_ : Thread) : Nat := ((s.team (s.thread k).team).map f).getD 0
  Is 0x00 1 (fun _ x => x.fpmode.toNat) ∧ Is 0x10 2 (fun _ x => x.trap.pc.toNat) ∧ Is 0x11 1 (fun _ x => x.trap.cause.toNat) ∧
  Is 0x12 1 (fun _ x => x.trap.word.toNat) ∧ Is 0x13 1 (fun _ x => x.depth) ∧
  Is 0x14 2 (fun _ x => if x.depth = 2 then x.outer.pc.toNat else 0) ∧
  Is 0x15 1 (fun _ x => if x.depth = 2 then x.outer.cause.toNat else 0) ∧
  Is 0x16 1 (fun _ x => if x.depth = 2 then x.outer.word.toNat else 0) ∧
  Is 0x20 1 (fun k _ => k % 2048) ∧ Is 0x21 1 (fun k _ => k / 2048) ∧ Is 0x22 2 (fun _ x => x.pubaddr.toNat) ∧
  Is 0x200 2 (fun _ _ => core.passcnt) ∧ Is 0x203 2 (fun _ _ => core.gstat.toNat) ∧ Is 0x210 2 (fun _ _ => core.sbconf.toNat) ∧
  Is 0x1000 2 (fun _ _ => 0xFFFFF) ∧ Is 0x1001 2 (fun _ _ => 0) ∧
  (∀ l, curLaunch s = some l → Is 0x18 1 fun _ _ => l.trapblk) ∧
  (let x : CoreCsr := ((s.pass s.curPass).map (·.csr)).getD core.eff;
    Is 0x201 1 (fun _ _ => x.agelim.toNat) ∧ Is 0x202 1 (fun _ _ => x.gtimeout.toNat) ∧ Is 0x204 1 (fun _ _ => x.sbchk.toNat) ∧
    ∀ i, i < 5 → Is (0x208 + i) 1 fun _ _ => (x.sbhash.getD i 0).toNat) ∧
  (∃ v : Nat, Is 0x1002 2 (fun _ _ => v) ∧ ∀ i, v.testBit i =
    (if i = 0 then true else if i = 1 then (s.die (dieOf s.cur.core)).hostReady else if i = 2 then s.hubReady && !s.hubFenced
    else if 4 ≤ i ∧ i < 12 then dieUp s (i - 4) else if 16 ≤ i ∧ i < 48 then (s.port (i - 16)).ready else false)) ∧
  ((∀ k, k ∈ s.cur.tids → (s.team (s.thread k).team).isSome) →
    Is 0x100 2 (team (·.tpass)) ∧ Is 0x101 2 (team fun t => (s.core t.core).cyc - t.cyc0) ∧
    (∀ t i, t < 4 → i < 16 → Is (0x140 + 16 * t + i) 1 (team fun m => ((m.tiles[t]?).map fun x => kvGetD 0 x.cursors i).getD 0)) ∧
    Is 0x102 1 (team fun t => ((s.launch t.launch).map (·.gridt)).getD 0) ∧
    Is 0x180 2 (team (·.cpprog))) ∧
  Gives s (.cyc d) 2 d (fun _ _ => core.cyc) ∧
  Does s (.csrw d 0x00) (fun t => LaneStep s t fun _ x y => ∃ m : Word, y = { x with fpmode := m } ∧
    (∀ i, i < 32 → m.getLsbD i = if i < 3 then
        (if 1 ≤ (x.reg d.toNat).toNat % 8 ∧ (x.reg d.toNat).toNat % 8 ≤ 4 then (x.reg d.toNat).getLsbD i else x.fpmode.getLsbD i)
      else (decide (i = 4 ∨ i = 5) && (x.reg d.toNat).getLsbD i))) ∧
  Does s (.csrw d 0x10) (fun t => LaneStep s t fun _ x y => ∃ m : DWord, 
    m = BitVec.ofNat 64 (x.group 2 d.toNat) &&& 0xFFFFFFFFFFFFFFF3 ∧
    let hs := moveHeld x.trap.held (x.trap.pc.toNat / 16 == x.group 2 d.toNat / 16) (x.group 2 d.toNat % 4)
    y = { x with trap := { x.trap with pc := m, held := hs } }) ∧
  Does s (.csrw d 0x22) (fun t => LaneStep s t fun _ x y => ∃ m : DWord, y = { x with pubaddr := m } ∧
    m = BitVec.ofNat 64 (x.group 2 d.toNat) &&& 0xFFFFFFFFFFFFFFF8) ∧
  (s.cur.tids.Nodup → (∀ k, k ∈ s.cur.tids → CanTrap s k) → ∀ n : BitVec 14, csrAssigned n.toNat = true →
    (n ≠ 0x00 ∧ n ≠ 0x10 ∧ n ≠ 0x22 → ∃ t, exec (.csrw d n) s = .next t ∧ TrapAll s t s.cur.tids 0x07 0 (curPc s)) ∧
    (0x400 ≤ n.toNat ∧ n ≠ 0x1000 ∧ n ≠ 0x1001 ∧ n ≠ 0x1002 →
      ∃ t, exec (.csrr d n) s = .next t ∧ TrapAll s t s.cur.tids 0x07 0 (curPc s)))

/-! ## Encodings and steps -/

/-- Words written out from the encodings of the spec decode to the instructions that they stand for (R100-R103, R122-R135): one
of each family, with its operands. The word of zeros is no instruction, and neither is a word of an unassigned opcode or one
whose unused field is not 0, nor one that names an odd register as a pair (R104). -/
def Obligations.DecodedWords : Prop :=
  decodeWord 0x01000000 = .ok .nop ∧ decodeWord 0x02FFFFFD = .ok (.bra 0xFFFFFD) ∧
  decodeWord 0x10808184 = .ok (.iadd .i32s 2 3 4) ∧ decodeWord 0x25408206 = .ok (.shl .w64 2 4 6) ∧
  decodeWord 0x2F00E082 = .ok (.plop 8 3 1 2) ∧ decodeWord 0x48044103 = .ok (.fcmp .lt .f32 1 2 3) ∧
  decodeWord 0x4E208082 = .ok (.fcvt .f16F32 .rne 2 1) ∧ decodeWord 0x60024184 = .ok (.dot8 .ii 9 3 4) ∧
  decodeWord 0x72014304 = .ok (.ld .b32 false .none 5 6 4) ∧ decodeWord 0x7A808490 = .ok (.lds .b32 2 9 16) ∧
  decodeWord 0x88420318 = .ok (.cas .die .w32 .ar 8 6) ∧ decodeWord 0x8B400002 = .ok (.fence .die .rel) ∧
  decodeWord 0x94008000 = .ok (.elect 2) ∧ decodeWord 0xA1010001 = .ok (.expn 4 1) ∧
  decodeWord 0xB3020085 = .ok (.mxrd 8 1 5) ∧ decodeWord 0xE0028200 = .ok (.csrr 10 0x200) ∧
  decodeWord 0 = .error .zeroWord ∧ decodeWord 0xFF000000 = .error .reserved ∧ decodeWord 0x01000001 = .error .reserved ∧
  decodeWord 0x10404184 = .error .illFormed

/-- DECODE AND ENCODE AGREE, from the instruction: every well-formed instruction of a slot has a word, and that word decodes to
it, with every operand at every value that the encoding admits (R100-R102, R122-R135). -/
def Obligations.EncodeDecode : Prop := ∀ i : Instr,
  wellFormed i = true → inSlot i = true → ∃ w, encode i = some w ∧ decodeWord w = .ok i

/-- DECODE AND ENCODE AGREE, from the word: a word that decodes is the word of its instruction, so that no two words stand for
one instruction and no bit of a word is without a meaning. -/
def Obligations.DecodeEncode : Prop := ∀ (w : Word) (i : Instr),
  decodeWord w = .ok i → encode i = some w ∧ wellFormed i = true ∧ inSlot i = true

/-- A STEP RUNS THE DECODED INSTRUCTION. With nothing on the agenda, no thread to join its successor and no pass to
start, where it is a slot's turn or no event is due, and a slot of a running pass issues next: its word decodes to the instruction that runs (or the slot's plan is the
illegal-instruction trap), and the step is that instruction's meaning in the state that the issue makes ready, with the end of
the issue after it (R43, R90-R99). Where a latch stands for its A field the word with another A field acts (R99), and an EXPSV
or EXPRS with an expand request behind it in its chain is set aside for that one (R262). A slot that the stall checker or
poisoned code stops traps in every thread that reaches it (R98, R299). After a slot it is the events' turn (log 30).
That a slot which needs a developing sector is undone as a whole and tried again (`orWait`), where R197 has its request wait at the
home, is the model's choice (log 76, 88). -/
def Obligations.StepRunsSlot : Prop := ∀ (s s' : State) (x : Next),
  let turned (u : State) : State := { orWait none s' u with turn := true }
  s.agenda = [] → firstDue (carryOut exec) s (startEvents s) = none → (s.turn = false ∨ runDue (carryOut exec) s = none) →
  nextIssue s = (s', some x) →
  (∀ n i, x.plan = .run n i →
    let w := (curPacket x.pass).word n
    let f := infoOf x.launch i
    let act := x.plan.acts s' x.launch x.pass
    (i = .illegalInstruction ∨ decodeWord w = .ok i) ∧
    (act = i ∨ ((latchFor x.pass f).isSome ∧ decodeWord (setFld w 7 7 (spareGroup s' x.pass f)) = .ok act)) ∧
    step s = if imageLater x.launch (curPacket x.pass) n i
      then .next (turned (issueEnd s' x (noteLate (issueStart s' x) x.pkey act)))
      else onNext (fun u => turned (issueEnd s' x u)) (exec act (issueStart s' x))) ∧
  ∀ n cause, x.plan = .trap n cause →
    step s = .next (turned (issueEnd s' x (raiseAll (issueStart s' x) (issueStart s' x).cur.all cause 0)))

/-- With an event on the agenda, a step is the meaning of the event at its head. With none, a thread whose data
wait is over joins its successor, and then a pass that a free port can start is started, before all else (R33, R41); where no
slot can issue, a step is the meaning of one of the events that are due, or time passes. An event that needs no sector which
develops is carried out as its meaning says; one that does waits in the queue of that sector's home (R197).
Which of the events that are due comes next is free (log 30). That an event which waits is undone as a whole, and made again when it
comes back from that queue, is the model's choice (log 76, 88). -/
def Obligations.StepRunsEvent : Prop := ∀ s : State,
  let run := carryOut exec
  (∀ i rest, s.agenda = i :: rest → step s = run i { s with agenda := rest }) ∧
  (s.agenda = [] →
    (∀ r, firstDue run s (startEvents s) = some r → step s = r ∧ ∃ i, i ∈ startEvents s ∧ r = run i s) ∧
    (firstDue run s (startEvents s) = none → (∀ p, p ∈ s.passes → nextOf s p.1 = none) →
      (∃ i, i ∈ thermalEvents s ++ dueEvents s ∧ ∃ z : State, z = { s with free := z.free } ∧
        (step s = run i z ∨ step s = onNext (fun u => { u with turn := false }) (run i z))) ∨ step s = .next (idle s))) ∧
  ∀ i t, exec i s = .next t →
    (t.blocked = [] → run i s = .next t) ∧
    ∀ k v, t.blocked = [k] → kvGet s.dir k = none → kvGet s.devs k = some v → i ∉ v.waiting →
      run i s = .next { s with devs := kvPut s.devs k { v with waiting := v.waiting ++ [i] } }

/-- The threads on which a slot acts are distinct threads of its pass, in ascending home lane (R10, R318), those whose guard is
true among all that reach the slot (R93): the predicate that the control word names for the slot, negated where it says so. A slot
chained to one that wrote the predicate reads what stood there before (R96); a guard that is read too early is another matter
(R98, log 3). -/
def Obligations.SlotThreads : Prop := ∀ (s s' : State) (x : Next),
  nextIssue s = (s', some x) →
  let c := (issueStart s' x).cur
  c.all.Nodup ∧ c.tids.Nodup ∧ c.all.Pairwise (fun i j => laneOf i ≤ laneOf j) ∧
  c.tids.Pairwise (fun i j => laneOf i ≤ laneOf j) ∧ (∀ k, k ∈ c.tids → k ∈ c.all) ∧ (∀ k, k ∈ c.all → k ∈ x.pass.tids) ∧
  let g := guardOf (decodeCtl (curPacket x.pass).ctl) x.plan.slot
  let before := x.pass.chain.filter fun o => o.item == 128 + g.1
  staleFor s' x.pass x.pass.tids [128 + g.1] = [] →
    (before = [] → ∀ k, k ∈ c.tids ↔ k ∈ c.all ∧ ((s'.thread k).pred g.1 != g.2) = true) ∧
    ∀ n i, x.plan = .run n i → i ≠ .illegalInstruction →
      ∀ o, o ∈ before → (∀ q, q ∈ before → q.tid = o.tid → q.val = o.val) →
        (o.tid ∈ c.tids ↔ o.tid ∈ c.all ∧ ((o.val != 0) != g.2) = true)

/-- What a module reset leaves (R5, R24, R107, R110, R113-R115, R305, R310, R316, R327): no function is ready, no launch is
taken and no thread runs, every register of a die device and of a core is at its Reset column, every bend is unbound with count
0, and every link port is down. That memory lists nothing, so that every byte reads 0, and that the counts of cycles start at 0,
are the model's choices (log 2, 82). -/
def Obligations.ResetState : Prop :=
  let s := State.reset
  s.threads = [] ∧ s.teams = [] ∧ s.passes = [] ∧ s.launches = [] ∧ s.accs = [] ∧ s.dir = [] ∧ s.devs = [] ∧
  s.hubReady = false ∧ s.hubFenced = false ∧ s.agenda = [] ∧
  (∀ d, (s.die d).ready = false ∧ (s.die d).fenced = false ∧ (s.die d).hostReady = false ∧ (s.die d).cyc = 0) ∧
  (∀ d, d < 8 → ∀ r, r ∈ regs32 ++ regs64 → readReg s d r =
    if r = 0x1000 then 0xFFFFF else if r = 0x1002 then 1 else if r = 0x1015 then 400000 else if r = 0x1020 then 4
    else if r = 0x8300 then 2400 else 0) ∧
  (∀ g, g < 1024 → ∀ c, coreAssigned c = true → readCoreReg s g c =
    if c = 0x201 then 256 else if c = 0x202 then 1024 else if c = 0x208 then 4 else if c = 0x209 then 8
    else if c = 0x20A then 16 else if c = 0x20B then 32 else if c = 0x20C then 64 else 0) ∧
  (∀ b, (s.bend b).valid = false ∧ (s.bend b).count = 0) ∧ (∀ p, (s.port p).ready = false) ∧
  (∀ a, cellGet s.mem a = 0) ∧ MemoryOk s

/-- AN INVARIANT THAT EVERY STEP KEEPS: physical memory keeps its canonical form, addresses strictly rising and no byte of 0
listed, so that equal memories are equal data.
The form, and 0 for a byte that is not listed, are the model's (log 2). -/
def Obligations.MemoryStaysCanonical : Prop := ∀ s t : State, MemoryOk s → step s = .next t → MemoryOk t

/-! ## The capstan -/

/-- PASS_START on a free port of a die that goes on, where an entry can be chosen and its packets can be fetched, completes
(R41, R43, R116, R292): the pass stands at the entry's packet with the chosen threads, which run, and the packets fetched for
it; the core counts it, and what system software wrote to the core's registers comes into effect. DATA_WAIT_RESOLVE completes
for a thread in DATA-WAIT whose successor's live-ins have arrived and that waits for no fault (R33; log 103): it joins the open
entry of its key, a fresh one while the census has room, or the overflow list, stamped with the count of passes; a thread with a trap due takes it (R291, R299),
and one whose wait ended behind the kernel's last block takes the fall-through trap (R30). -/
def Obligations.PassesStart : Prop := ∀ s : State,
  (∀ (g port : Nat) (e : Entry) (tids : List Nat) (l : Launch) (b : Blk) (s1 : State) (code : List Packet),
    port ≤ 1 → s.pass (2 * g + port) = none → (port = 1 → (s.pass (2 * g)).isSome) → dieGo s (dieOf g) = true →
    anyStopped s = false →
    choosePass s g (fun e => port == 1 && samePick s g e) (ageLimit (s.core g).csr) = some (e, tids) →
    s.launch e.launch = some l → l.blk e.blk = some b →
    fetchFrom s g (some e.launch) l e.pkt (b.start + b.count - e.pkt) = (s1, .ok code) →
    Does s (.passStart g port) fun u => ∃ p : Pass, u.pass (2 * g + port) = some p ∧ p.tids = tids ∧ p.launch = e.launch ∧
      p.blk = e.blk ∧ p.pkt = e.pkt ∧ p.entry = e.pkt ∧ p.slot = 0 ∧ p.code = code ∧ p.csr = (s1.core g).csr ∧
      (u.core g).passcnt = (s1.core g).passcnt + 1 ∧ (u.core g).eff = (s1.core g).csr ∧ u.mem = s1.mem ∧
      ∀ k, k ∈ tids → (u.thread k).status = .running) ∧
  ∀ (k : Nat) (l : Launch), launchOf s k = some l → (s.thread k).status = .dataWait → dieGo s (dieOf (coreOf k)) = true →
    (∀ w, (s.thread k).fall = some w → CanTrap s k → Does s (.dataWaitResolve k) fun u =>
      u = { s with threads := u.threads } ∧ (∀ i, i ≠ k → u.thread i = s.thread i) ∧
      TookTrap s k 0x03 0 w (BitVec.ofNat 64 (l.pktVa (s.thread k).pkt)) (s.thread k) (u.thread k)) ∧
    ((s.thread k).fall = none → dataReady s l k = true →
    let c := s.core (coreOf k)
    let key := keyOfThread s k
    let mine := c.census.find? fun e => e.is key.1 key.2.1 key.2.2
    ((s.thread k).due = none → Does s (.dataWaitResolve k) fun u =>
      u = { s with threads := u.threads, cores := u.cores } ∧ (∀ i, i ≠ k → u.thread i = s.thread i) ∧
      u.thread k = { s.thread k with stamp := c.passcnt, status := match mine with
        | some e => if e.closed then .overflow else .pending
        | none => if c.census.length < 64 then .pending else .overflow } ∧
      ((u.thread k).status = .overflow → (u.core (coreOf k)).overflow = c.overflow ++ [k]) ∧
      ((u.thread k).status = .pending → ∃ e, e ∈ (u.core (coreOf k)).census ∧ k ∈ e.tids ∧
        e.is key.1 key.2.1 key.2.2 = true ∧ e.closed = (mine.map (·.closed)).getD false)) ∧
    ∀ w, (s.thread k).due = some w → CanTrap s k → Settles s (.dataWaitResolve k) fun u =>
      u = { s with threads := u.threads } ∧ (∀ i, i ≠ k → u.thread i = s.thread i) ∧
      TookTrap s k w.cause w.sub w.word (BitVec.ofNat 64 (l.pktVa (s.thread k).pkt + (s.thread k).slot))
        { s.thread k with due := none } (u.thread k))

/-- ENTRY_CLOSE completes where the head of the overflow list has aged and no entry is closed: an entry with the fewest threads
closes (R39). GANG_TIMEOUT completes for a group that has collected for its interval: it may issue short, and GSTAT records the
lanes of the gang's live threads that are missing from the entry, or sets OVF where an older record stands (R45, R46, R111). EXIT_COMPLETE completes for a parked thread whose stores and engine commands are done: it is EXITED, and the values that it
still loads go nowhere (R32, R343). BAR_ARRIVAL completes for a parked thread whose events are done: it has arrived (R322).
With the last live thread of its team the barrier opens and all of them leave it; otherwise it moves nobody. -/
def Obligations.CapstanEvents : Prop :=
  (∀ (s : State) (g : Nat),
    let c := s.core g
    (∀ h rest, c.overflow = h :: rest → ageLimit c.eff ≤ c.passcnt - (s.thread h).stamp → c.census ≠ [] →
      (∀ e, e ∈ c.census → e.closed = false) → dieGo s (dieOf g) = true →
      Does s (.entryClose g) fun u => ∃ e, e ∈ c.census ∧ (∀ x, x ∈ c.census → e.tids.length ≤ x.tids.length) ∧
        u = { s with cores := u.cores } ∧ (∀ i, i ≠ g → u.core i = s.core i) ∧
        u.core g = { c with census := c.census.map fun x => if x.is e.launch e.blk e.pkt then { x with closed := true } else x }) ∧
    ∀ (gang blk : Nat) (e : Entry) (x : Group), timedOut s g gang blk = some (e, x) → blk < 2 ^ 16 → gang < 64 → e.lidx < 32 →
      Does s (.gangTimeout g gang blk) fun u =>
        let y := u.core g
        let held := (e.groups.filter fun z => z.gang == gang).flatMap (·.tids)
        u = { s with cores := u.cores } ∧ (∀ i, i ≠ g → u.core i = s.core i) ∧
        y = { c with gstat := y.gstat, census := y.census } ∧
        y.census = (c.census.map fun z => if z.is e.launch e.blk e.pkt then
          { z with groups := z.groups.map fun w => if w = x then { w with issuable := true } else w } else z) ∧
        if c.gstat.getLsbD 0 then y.gstat = c.gstat ||| 2
        else y.gstat.getLsbD 0 = true ∧ fld y.gstat 5 5 = e.lidx ∧ fld y.gstat 10 6 = gang ∧ fld y.gstat 16 16 = blk ∧
          y.gstat.getLsbD 1 = c.gstat.getLsbD 1 ∧
          ∀ i, i < 32 → y.gstat.getLsbD (32 + i) = (liveGang s g gang).any fun k => !held.contains k && laneOf k == i) ∧
  ∀ (s : State) (k : Nat),
    let x := s.thread k
    dieGo s (dieOf (coreOf k)) = true →
    (x.status = .parked .exit → writesDone s k = true → cmdsDone s k = true →
      ∃ u, exec (.exitComplete k) s = .next (settle (afterDeath u k)) ∧ u = { s with threads := u.threads, accs := u.accs } ∧
        u.thread k = { x with status := .exited, due := none } ∧ (∀ i, i ≠ k → u.thread i = s.thread i) ∧
        ∀ id, u.acc id = (s.acc id).map fun a => if a.tid = k then { a with dst := [], dstP := none } else a) ∧
    ∀ n, x.status = .parked (.bar n false) → eventsDone s k = true →
      (∃ u, exec (.barArrival k) s = .next (settle (checkBarrier u x.team n)) ∧ u = { s with threads := u.threads } ∧
        u.thread k = { x with status := .parked (.bar n true) } ∧ ∀ i, i ≠ k → u.thread i = s.thread i) ∧
      ∀ (u : State) (t : Team), u.team x.team = some t →
        let live := t.tids.filter fun i => (u.thread i).live
        ((∀ i, i ∈ live → (u.thread i).status = .parked (.bar n true)) → ∀ i, i ∈ live →
          (checkBarrier u x.team n).thread i = { u.thread i with status := .dataWait }) ∧
        ((∃ i, i ∈ live ∧ (u.thread i).status ≠ .parked (.bar n true)) → checkBarrier u x.team n = u)

/-! ## Accesses performed -/

/-- ACCESS_COMPLETE and POINT_OF_COHERENCE_REACHED complete where a part of an access can be performed at a plain place. A load's
part reads the coherent bytes, and with its last part the destination registers receive them, lowest first, extended as the
load says (R125, R360); no byte changes. A store's part leaves its bytes in memory and every other byte as it was (R217,
R390). An ATOM's or CAS's read-modify-write is one step: the new value stands in memory and D receives its result (R212, R320,
R333). PUBV adds 1 to the counter at PUBADDR in host memory, and D receives the new value (R231, R379). Then the core's L1 gives
a line up if it holds one too many (R175); an L1 with a line to spare gives none up. Which line it gives up, and that the event
waits where none can go, is the model's choice (`fitL1`; log 89). -/
def Obligations.AccessesPerformed : Prop :=
  ∀ (s s1 : State) (id part : Nat) (a : Access) (p : Part) (x : Trans),
  (Performs s s1 id part a p x →
    let left : Access := { a with parts := a.parts.mapIdx fun i q => if i = part then { q with done := true } else q }
    (∀ sx h, a.kind = .ld sx h → h ≠ .repl →
      let got := setFld a.got (8 * p.off) (8 * p.n) (ofLe (bytesAt s1 x.key p.n))
      SettlesAt s s1 a.core (.accessComplete id part) fun u => SameBytes u s1 ∧
        (a.lastPart part → Completes s1 u id a (extVal sx a.size got.toNat)) ∧
        (¬a.lastPart part → u.threads = s1.threads ∧ u.acc id = some { left with got := got })) ∧
    (∀ h, a.kind = .st h → a.dst = [] →
      SettlesAt s s1 a.core (.pointOfCoherenceReached id part) fun u =>
        Stored u s1 x.key (leBytes p.n (a.data.toNat / 2 ^ (8 * p.off))) ∧ (∀ j, u.thread j = s1.thread j) ∧
        u.acc id = if (left.parts.all (·.done)) = true then none else some left) ∧
    ∀ op w o sc, a.kind = .atom op w o sc → a.parts = [p] → p.n = 4 * wRegs w →
      let r := atomNew op w (ofLe (bytesAt s1 x.key p.n)) a.data.toNat
      SettlesAt s s1 a.core (.accessComplete id part) fun u => Stored u s1 x.key (leBytes p.n r.1) ∧ Completes s1 u id a r.2) ∧
  (s.acc id = some a → a.kind = .pubv → mayPerform s a = true → accReady s id = true →
    isParked s (dieOf a.core) (.access id 0) = false → a.va ≠ 0 → a.va % 8 = 0 → a.va < 2 ^ 64 →
    hostUp s (dieOf a.core) = true → Settled s ((2 ^ 64 + a.va) / 64) →
    let v := (ofLe (bytesAt s (2 ^ 64 + a.va) 8) + 1) % 2 ^ 64
    SettlesAt s s a.core (.accessComplete id part) fun u =>
      Stored u s (2 ^ 64 + a.va) (leBytes 8 v) ∧ Completes s u id a v) ∧
  ∀ (u : State) (g : Nat), (l1Lines u g).length ≤ Config.l1Lines → fitL1 u g = u ∧ l1Over u g = false

/-- REMOTE_BEND_SIGNAL completes for a signal that a thread sent to another die of the package: the bend counts it, or the first
parked waiter takes the unit (R328, R329). STASH_FILL_COMPLETE reads an absent sector's 64 bytes into its backing range and
completes the load that waited (R173). STASH_WRITEBACK_COMPLETE takes a sector that its window has modified home, where the page
can be written (R284), and drops it (R174); of one that has been taken away since there is nothing left to do. L1_EVICTION gives up the core's coherent copies of a line, where a port that the line's home is behind
may send (R175, R309). None of the last three changes a byte of memory as it reads. -/
def Obligations.CachesAndSignals : Prop :=
  (∀ (s : State) (id : Nat) (a : Access) (pkg die num : Nat) (rel : Bool) (b : Nat),
    s.acc id = some a → a.kind = .bsig pkg die num rel → accReady s id = true → dieGo s (dieOf a.core) = true →
    signalGoes s (dieOf a.core) pkg die = true → pkg = fld (s.die (dieOf a.core)).pkgid 0 9 → b = 65536 * die + num →
    (bendWaiters s b = [] → (s.bend b).count.toNat < 2 ^ 64 - 1 → Settles s (.remoteBendSignal id) fun u =>
      u = { s with accs := u.accs, bends := u.bends } ∧ u.acc id = none ∧ (∀ c, c ≠ b → u.bend c = s.bend c) ∧
      u.bend b = { s.bend b with count := (s.bend b).count + 1 }) ∧
    ∀ k ks, bendWaiters s b = k :: ks → (s.bend b).count = 0 → (s.thread k).fall = none →
      Settles s (.remoteBendSignal id) fun u =>
        u = { s with accs := u.accs, bends := u.bends, threads := u.threads } ∧ u.acc id = none ∧ (∀ c, u.bend c = s.bend c) ∧
        (∀ i, i ≠ k → u.thread i = s.thread i) ∧ u.thread k = { s.thread k with status := .dataWait }) ∧
  (∀ (s s1 : State) (id : Nat) (a : Access) (w idx : Nat) (sx : Bool) (l : Launch) (x : Trans) (t : Team) (q : Nat),
    s.acc id = some a → s1.acc id = some a → a.kind = .stashFill w idx false sx → accReady s id = true →
    accParked s (dieOf a.core) id = false → mayPerform s a = true → s.launch a.launch = some l →
    xlate s a.core l.actx a.va .rd = (s1, .ok x) → x.uncached = false → s1.team a.team = some t → stashLive s1 a w idx = true →
    stashAt t w idx = none → q = stashP s1 t w idx → winSoff s1 t w + 64 * idx + 64 ≤ 1024 * t.spadK - 256 → 0 < t.spadK →
    HeatOff s1 → Settled s1 (x.key / 64) → ownData s1 a.team (x.key / 64) = none → poisoned s1 (x.key / 64 * 64) 64 = false → spadPoisoned s1 t.core q 64 = false →
    a.va % 64 + a.size ≤ 64 →
    Settles s (.stashFillComplete id) fun u => SameBytes u s1 ∧
      u.team a.team = some { t with stash := t.stash ++ [⟨w, idx, x.key / 64, false, []⟩] } ∧
      (∀ i, cellGet (u.core t.core).spad i =
        if q ≤ i ∧ i < q + 64 then s1.byteAt (64 * (x.key / 64) + (i - q)) else cellGet (s1.core t.core).spad i) ∧
      Completes s1 u id a (extVal sx a.size (ofLe (bytesAt s1 (64 * (x.key / 64) + a.va % 64) a.size)))) ∧
  (∀ (s : State) (id : Nat) (a : Access) (w q k : Nat),
    s.acc id = some a → a.kind = .stashWb w q k → accParked s (dieOf a.core) id = false → mayPerform s a = true →
    keyWaits s (dieOf a.core) (64 * k) = false →
    let mine (y : StashSec) : Bool := y.key == k && y.win == w && y.modified
    let has : Bool := (ownData s a.team k).isSome && (s.team a.team).any fun t => t.stash.any mine
    (∀ t, has = false → s.team a.team = some t → Settles s (.stashWritebackComplete id) fun u =>
      u = { s with accs := u.accs, teams := u.teams } ∧ u.acc id = none ∧
      u.team a.team = some { t with stash := t.stash.filter fun y => !mine y }) ∧
    ∀ (s1 : State) (x : Trans) (p : Part) (t : Team), has = true → a.parts = [p] →
      xlate s a.core (a.ctx s) p.va .wr = (s1, .ok x) → HeatOff s1 → s1.team a.team = some t →
      Settles s (.stashWritebackComplete id) fun u => SameBytes u s1 ∧ u.acc id = none ∧ u.threads = s1.threads ∧
        u.team a.team = some { t with stash := t.stash.filter fun y => y.key != k } ∧
        ∀ d, kvGet u.dir k ≠ some (.modified (.stash a.team) d)) ∧
  ∀ (s : State) (g line : Nat), dieGo s (dieOf g) = true → anyStopped s = false → HeatOff s → roomFor s (256 * line) 8 = true →
    (∀ i, i < 4 → kvGet (s.core g).nc (4 * line + i) = none ∧ Settled s (4 * line + i)) →
    Settles s (.l1Eviction g line) fun u => SameBytes u s ∧ u.threads = s.threads ∧ u.accs = s.accs ∧
      ∀ i, i < 4 → heldBy u (4 * line + i) (.l1 g) = false

/-! ## Latent sectors -/

/-- An LUP completes: on a coherent sector the latest data goes home, the sector is latent with one copy of identities in which
the element is updated (R192-R194); on a sector that is latent under its operator the core's copy alone changes, and the home
and every other copy stay. Each of the two leaves the rest of memory as it reads. COLLECT takes a copy out of its holder and
sends it on, or makes a collector collect below it, or report the identities when nothing is below (R197); the link port of
another package that holds one sends a collect over its link, or answers with poison if it is down (R205, R206).
COMPOSITE_REPORT
adds to the collector's or home's gather; the last one leaves a collector's composite on its way (R199), or at the home the
merge of all reports as the sector's data, no holder, and the waiting accesses next in order of arrival (R197, R198).
EARLY_MERGE brings one part home, and collects first what lies beyond a link port, or takes poison for it if the port is down
(R201, R206); DIRECTORY_ENTRY_EVICTION takes every copy of a coherent sector home, and makes a latent one develop (R203).
The model's own choices in it: the line that an L1 gives up (log 89), the messages of a link (log 20), the numbers and copies of link
ports in a develop (log 70), and that the requests which waited come next, under the events that make them (log 76). -/
def Obligations.LatentSectors : Prop :=
  (∀ (s s1 : State) (id part : Nat) (a : Access) (p : Part) (x : Trans) (op : LupOp) (l : Launch),
    s.acc id = some a → s1.acc id = some a → a.kind = .lup op → a.parts = [p] → part = 0 → a.poisoned = false →
    mayPerform s a = true → partReady s id part = true → s.launch a.launch = some l →
    xlate s a.core l.actx p.va .lup = (s1, .ok x) → HeatOff s1 → kvGet s1.devs (x.key / 64) = none →
    let k := x.key / 64
    let e := x.key % 64 / 4
    let v : Word := BitVec.ofNat 32 a.data.toNat
    (Settled s1 k → SettlesAt s s1 a.core (.pointOfCoherenceReached id part) fun u => u.acc id = none ∧
      (∀ b, b / 64 ≠ k → u.byteAt b = s1.byteAt b) ∧ (∀ b, b / 64 = k → cellGet u.mem b = s1.byteAt b) ∧
      ∃ c : LCopy, kvGet u.dir k = some (.latent op [c]) ∧ c.num = a.core ∧ c.poison = [] ∧
        ∀ i, i < 16 → secElem c.data i = if i = e then lupUpdate op (lupIdent op) v else lupIdent op) ∧
    ∀ cs, kvGet s1.dir k = some (.latent op cs) →
      let old (i : Nat) : Word := ((cs.find? (·.num == a.core)).map fun c => secElem c.data i).getD (lupIdent op)
      SettlesAt s s1 a.core (.pointOfCoherenceReached id part) fun u => u.acc id = none ∧ u.mem = s1.mem ∧
        (∀ j, j ≠ k → kvGet u.dir j = kvGet s1.dir j) ∧
        ∃ c : LCopy, kvGet u.dir k = some (.latent op (cs.filter (·.num != a.core) ++ [c])) ∧ c.num = a.core ∧
          ∀ i, i < 16 → secElem c.data i = if i = e then lupUpdate op (old i) v else old i) ∧
  (∀ (s : State) (k h : Nat) (op : LupOp) (cs : List LCopy) (v : Dev),
    kvGet s.devs k = some v → kvGet s.dir k = some (.latent op cs) → v.toCollect.contains h = true → cacheStill s h = false →
    let rest := v.toCollect.filter (· != h)
    let flies (r : Report) : Dev := { v with toCollect := rest, sent := v.sent.filter (· != h), flight := v.flight ++ [r] }
    (∀ c, cs.find? (·.num == h) = some c →
      (h < 1040 ∨ portDown s h = true → Does s (.collect k h) fun u =>
        u = { s with devs := u.devs, dir := u.dir } ∧ kvGet u.dir k = some (.latent op (cs.filter (·.num != h))) ∧
        kvGet u.devs k = some (flies ⟨h, c.data, if h < 1040 then c.poison else List.range 16, decide (1040 ≤ h)⟩)) ∧
      (1040 ≤ h → portDown s h = false → mayFlit (s.port (h - 1040)) = true → Does s (.collect k h) fun u =>
        kvGet u.devs k = some { v with toCollect := rest, sent := v.sent ++ [h] } ∧ u.dir = s.dir ∧
        (u.port (h - 1040)).retry = (s.port (h - 1040)).retry ++
          [⟨(s.port (h - 1040)).nextSeq, (s.port (h - 1040)).peer, true, .collect (wireKey (ownPkg s (h - 1040)) (64 * k)) op⟩])) ∧
    (cs.find? (·.num == h) = none →
      let below := reporters s k h cs
      (below = [] → Does s (.collect k h) fun u => u = { s with devs := u.devs } ∧
        kvGet u.devs k = some (flies ⟨h, identSec op, [], false⟩)) ∧
      (below ≠ [] → Does s (.collect k h) fun u => u = { s with devs := u.devs } ∧
        kvGet u.devs k = some { v with toCollect := rest ++ below, gathers := kvPut v.gathers h ⟨below, []⟩ }))) ∧
  (∀ (s : State) (k h : Nat) (v : Dev) (r : Report),
    kvGet s.devs k = some v → v.flight.find? (·.num == h) = some r → toStill s k h = false →
    let c := v.collectorOf h
    let g := kvGetD ⟨[], []⟩ v.gathers c
    (c = homeGather → roomFor s (64 * k) (reportFlits (g.got ++ [r])) = true) →
    let flight := v.flight.filter (·.num != h)
    let Ends (R : State → Prop) : Prop := ∃ u, exec (.compositeReport k h) s = .next (settle (flushHome u k)) ∧ R u
    (g.await.filter (· != h) ≠ [] → Ends fun u => u = { s with devs := u.devs } ∧ kvGet u.devs k =
      some { v with flight := flight, gathers := kvPut v.gathers c ⟨g.await.filter (· != h), g.got ++ [r]⟩ }) ∧
    (g.await.filter (· != h) = [] → c ≠ homeGather → portDown s c = false →
      let m := mergeReports v.op (identSec v.op, []) (g.got ++ [r])
      Ends fun u => u = { s with devs := u.devs } ∧
        kvGet u.devs k = some { v with flight := flight ++ [⟨c, m.1, m.2, (g.got ++ [r]).any (·.down)⟩], gathers := kvDel v.gathers c }) ∧
    (g.await.filter (· != h) = [] → c = homeGather →
      let m := mergeReports v.op (homeSec s k, poisonElems s k) (g.got ++ [r])
      Ends fun u => kvGet u.dir k = none ∧ kvGet u.devs k = none ∧ Stored u { s with dir := kvDel s.dir k } (64 * k) (leBytes 64 m.1.toNat) ∧
        u.agenda = v.waiting ++ s.agenda ∧
        ∀ (id : Nat) (a : Access), (∃ i, i ∈ v.waiting ∧
          (i = .stashFillComplete id ∨ ∃ q, i = .accessComplete id q ∨ i = .pointOfCoherenceReached id q)) →
          u.acc id = some a → a.queued = false)) ∧
  (∀ (s : State) (k h : Nat) (op : LupOp) (cs : List LCopy),
    kvGet s.devs k = none → kvGet s.dir k = some (.latent op cs) → mergeStill s k h = false →
    let Merges (r : Report) (rest : List LCopy) : Prop :=
      let m := mergeReports op (homeSec s k, poisonElems s k) [r]
      ∃ u, exec (.earlyMerge k h) s = .next (settle (flushHome u k)) ∧ kvGet u.dir k = some (.latent op rest) ∧
        ∀ b, cellGet u.mem b = if b / 64 = k then BitVec.ofNat 8 (m.1.toNat / 2 ^ (8 * (b % 64))) else cellGet s.mem b
    (roomFor s (64 * k) 1 = true → (∃ c, c ∈ cs ∧ h ∈ chainOf s k c.num) → (∀ c, c ∈ cs → h ∈ chainOf s k c.num → c.num < 1040) →
      Merges (evictReport s k op cs h) (cs.filter fun c => !(chainOf s k c.num).contains h)) ∧
    ∀ c, (homeDie (64 * k)).isSome = true → 1040 ≤ h → cs.find? (·.num == h) = some c →
      (portDown s h = true → Merges ⟨h, c.data, List.range 16, true⟩ (cs.filter (·.num != h))) ∧
      (portDown s h = false → mayFlit (s.port (h - 1040)) = true →
        ∃ u, exec (.earlyMerge k h) s = .next (settle (flushHome u k)) ∧ u.dir = s.dir ∧ u.mem = s.mem ∧
          (u.port (h - 1040)).retry = (s.port (h - 1040)).retry ++
            [⟨(s.port (h - 1040)).nextSeq, (s.port (h - 1040)).peer, true, .collect (wireKey (ownPkg s (h - 1040)) (64 * k)) op⟩])) ∧
  ∀ (s : State) (k : Nat), kvGet s.devs k = none → (kvGet s.dir k).isSome = true → anyStopped s = false →
    farPackage (64 * k) = none →
    (Settled s k → Settles s (.directoryEntryEviction k) fun u => SameBytes u s ∧ kvGet u.dir k = none) ∧
    ∀ op cs, kvGet s.dir k = some (.latent op cs) →
      ∃ u, exec (.directoryEntryEviction k) s = .next (settle (flushHome u k)) ∧
        (reporters s k homeGather cs ≠ [] → u = { s with devs := u.devs } ∧ ∃ v, kvGet u.devs k = some v ∧ v.op = op ∧
          v.toCollect = reporters s k homeGather cs ∧ v.sent = [] ∧ v.flight = [] ∧ v.waiting = []) ∧
        (reporters s k homeGather cs = [] → kvGet u.dir k = none ∧ SameBytes u s)

/-! ## Engines at work -/

/-- The multicast events complete (R258). MULTICAST_READ takes a well-formed kind 5 command of the engine's turn and, with its
first line at home on the die, waits to ask for it; a line whose home is elsewhere it reads as kind 1 does. MULTICAST_REQUEST
asks for the next line of a core of the mask, whatever lines it still waits for: it opens a merge, or joins the one of its key,
while other cores of the mask are missing; the request that completes the merge answers it at once, and one that comes after its
merge was answered without it is served on its own. MULTICAST_MERGE_TIMEOUT, 512 cycles after the first request, answers: the line's bytes go to
every core of the mask, and the cores whose requests are missing are marked. MULTICAST_RESPONSE reaches a core: one that has
no use for the line drops it, and one that waits for just this line writes it and moves on; the command ends with status 0
when it has asked for all its lines and received them.
The cycles of the window are the model's count (log 52). -/
def Obligations.Multicast : Prop :=
  (∀ (s s1 : State) (g tk : Nat) (t : Team) (l : Launch) (c : Cmd) (x : Trans),
    TakesNew s g true tk t l c → fld c.blk 0 4 = 5 → cpOk l (g % 128) c.blk = true →
    let o := cpOp c.blk
    let s0 := (takeCmd s tk t true).1.updTeam tk fun t => { t with cpprog := 0 }
    0 < o.len → xlate s0 t.core l.actx (mcVa o 0) .rd = (s1, .ok x) →
    (homeDie x.key = some (dieOf t.core) → exec (.multicastRead g) s = .next (settle s1)) ∧
    (homeDie x.key ≠ some (dieOf t.core) → ∀ s2 bs, readGlobal s1 tk (mcVa o 0) 256 = (s2, .ok bs) →
      ∀ u, mcWrite (mcAsk s2 tk) tk 0 o bs = some u → exec (.multicastRead g) s = .next (settle u)) ∧
    s0.team tk = some { t with q9 := t.q9.tail, cp := some ⟨c, 0, 0, [], none, false, [], 0, none⟩, cpprog := 0 }) ∧
  (∀ (s s1 : State) (g tk line : Nat) (t : Team) (r : Run) (l : Launch) (x : Trans),
    mcRun s g = some (tk, t, r) → s.launch t.launch = some l → engAllowed s t = true →
    let o := cpOp r.cmd.blk
    let d := dieOf g
    let va := mcVa o r.asks
    256 * r.asks < o.len → keyOf s d l.actx va = some (256 * line) → g % 128 ∈ maskCores o.mask →
    xlate s g l.actx va .rd = (s1, .ok x) → x.key = 256 * line → homeDie x.key = some d →
    let late (y : Missing) : Bool := y.is t.launch o.gtag line o.mask (g % 128)
    ((s1.die d).missing.any late = true → ∀ s2 bs v t2 r2,
      readGlobal s1 tk va 256 = (s2, .ok bs) → mcWrite (mcAsk s2 tk) tk r.asks o bs = some v →
      v.team tk = some t2 → t2.cp = some r2 → r2.asks = r.asks + 1 →
      Settles s (.multicastRequest g line) fun u =>
        u = v.updDie d fun y => { y with missing := y.missing.filter fun z => !late z }) ∧
    ((s1.die d).missing.any late = false → HeatOff s1 →
    let mine (m : Nat × Merge) : Bool := m.2.is t.launch o.gtag o.mask && m.2.line == line
    let s2 := mcEnd (mcAsk s1 tk) tk o
    let Has (u : State) (key : Nat) (m : Merge) : Prop :=
      u = { s2 with dies := u.dies, seq := s1.seq + 1 } ∧ (∀ e, e ≠ d → u.die e = s1.die e) ∧
      u.die d = { s1.die d with merges := (u.die d).merges } ∧ kvGet (u.die d).merges key = some m ∧
      ∀ k, k ≠ key → kvGet (u.die d).merges k = kvGet (s1.die d).merges k
    (∀ t1 r1, s1.team tk = some t1 → t1.cp = some r1 → r1.done < o.len →
      s2.team tk = some { t1 with cp := some { r1 with asks := r1.asks + 1 } } ∧ s2.dies = s1.dies) ∧
    let Answers (key : Nat) : Prop := (∀ i, i < 4 → Settled s1 (4 * line + i)) → Settles s (.multicastRequest g line) fun u =>
      SameBytes u s1 ∧ u.threads = s1.threads ∧ kvGet (u.die d).merges key = none ∧
      ((∀ i k y, i < 4 → kvGet s1.dir (4 * line + i) ≠ some (.modified (.stash k) y)) → u.teams = s2.teams) ∧
      (u.die d).missing = (s1.die d).missing ∧
      ∃ p : McResp, kvGet (u.die d).responses (s1.seq + 1) = some p ∧ p.launch = t.launch ∧ p.gtag = o.gtag ∧ p.line = line ∧
        p.mask = o.mask ∧ p.toReach = maskCores o.mask ∧ leBytes 256 p.data.toNat = bytesAt s1 (256 * line) 256
    let first : Merge := ⟨t.launch, o.gtag, line, o.mask, [g % 128], (s1.die d).cyc, [va / 4096]⟩
    ((s1.die d).merges.find? mine = none →
      ((∃ j, j ∈ maskCores o.mask ∧ j ≠ g % 128) → Settles s (.multicastRequest g line) fun u => Has u s1.seq first) ∧
      ((∀ j, j ∈ maskCores o.mask → j = g % 128) → Answers s1.seq)) ∧
    ∀ key m, (s1.die d).merges.find? mine = some (key, m) →
      ((∃ j, j ∈ maskCores o.mask ∧ j ≠ g % 128 ∧ j ∉ m.cores) → Settles s (.multicastRequest g line) fun u =>
        Has u key { m with cores := natAdd m.cores (g % 128), pages := natAdd m.pages (va / 4096) }) ∧
      ((∀ j, j ∈ maskCores o.mask → j = g % 128 ∨ j ∈ m.cores) → Answers key))) ∧
  (∀ (s : State) (key d : Nat) (m : Merge),
    mcDie s key = some (d, m) → m.first + 512 ≤ (s.die d).cyc → dieGo s d = true → HeatOff s →
    (∀ i, i < 4 → Settled s (4 * m.line + i)) →
    Does s (.multicastMergeTimeout key) fun u => SameBytes u s ∧ u.threads = s.threads ∧
      ((∀ i k y, i < 4 → kvGet s.dir (4 * m.line + i) ≠ some (.modified (.stash k) y)) → u.teams = s.teams) ∧
      kvGet (u.die d).merges key = none ∧
      (∃ p : McResp, kvGet (u.die d).responses s.seq = some p ∧ p.launch = m.launch ∧ p.gtag = m.gtag ∧ p.line = m.line ∧
        p.mask = m.mask ∧ p.toReach = maskCores m.mask ∧ leBytes 256 p.data.toNat = bytesAt s (256 * m.line) 256) ∧
      ∀ c, c ∈ maskCores m.mask → c ∉ m.cores →
        (u.die d).missing.any (fun y => y.is m.launch m.gtag m.line m.mask c) = true) ∧
  ∀ (s : State) (g resp : Nat) (m : McResp),
    let d := dieOf g
    let rest := m.toReach.filter (· != g % 128)
    kvGet (s.die d).responses resp = some m → m.toReach.contains (g % 128) = true → dieGo s d = true →
    let s' := s.updDie d fun x =>
      { x with responses := if rest.isEmpty then kvDel x.responses resp else kvPut x.responses resp { m with toReach := rest } }
    (mcWants s' d g m = none → exec (.multicastResponse g resp) s = .next (settle s')) ∧
    ∀ tk i o s2 t r, mcWants s' d g m = some (tk, i, o) →
      storePiece s' tk false [(o.dst + 256 * i, 256)]
        ((leBytes 256 m.data.toNat).mapIdx fun j b => (b, m.poison.contains (j / 16))) = (s2, .ok) →
      s2.team tk = some t → t.cp = some r → r.got = [] → r.done / 256 = i → i < o.len / 256 → o.len % 256 = 0 →
      Settles s (.multicastResponse g resp) fun u => u = { s2 with teams := u.teams } ∧ (∀ k, k ≠ tk → u.team k = s2.team k) ∧
        u.team tk = some { t with
          cpprog := 256 * (i + 1),
          cp := some { r with
            done := 256 * (i + 1), got := [],
            status := if o.len ≤ 256 * (i + 1) ∧ o.len ≤ 256 * r.asks then some (if r.poisoned then 2 else 0) else r.status } }

/-- The engines start and go on with the command of their turn where no address is bad and nothing faults, and
ENGINE_COMMAND_COMPLETE retires it. MATRIX_OPERATION adds the next chunk, in ascending k, TILE_DRAIN writes the next row,
COPY_LINEAR, COPY_STRIDED, PLANE_TRANSPOSE and SCALE_PLACEMENT write the next piece of at most 256 bytes, from the progress that
the run holds (R247, R252, R253, R257, R259); with the last one the command has status 0x00, or 0x02 where poison was met. A
chunk changes exactly the elements below M and N that have an active k: it adds the scaled exact sum, rounded once (R238,
R241). What they write is given for operands and destinations in the team's own allotment, without poison and with nothing outstanding:
a chunk takes the records and bitmaps of R234, R237 and R241; a row of a drain holds the elements divided by the row's scale of
R252 and converted, and its scale; a byte of a copy is its source byte (R256), also where it is read from and written to other places; a
plane stack holds the sign, exponent and significand bits of R234 and R235; and a scale goes to the place of R239 (R257). The token is the status above the tag, and a command with BEN adds 1 to its bend (R247, R248).
Where a command may stop, the order of overlapping pieces, and whose command is under way, are the model's reading (log 49, 77, 104). -/
def Obligations.Engines : Prop :=
  (∀ (s : State) (tk : Nat) (cp : Bool) (t : Team) (r : Run) (st : Nat), s.team tk = some t → t.run cp = some r →
    (endRun s tk cp st).team tk = some (t.setRun cp (some { r with status := some (if st = 0 ∧ r.poisoned then 2 else st) }))) ∧
  (∀ (s y : State) (g tk : Nat) (t : Team) (l : Launch) (c : Cmd),
    let s0 := (takeCmd s tk t false).1
    let m := mxOp l c.blk
    let d := drOp l c.blk
    (TakesNew s g false tk t l c →
      (c.by_ = 1 → mxOk l c.blk = true → ChunkStep tk m (setCursors s0 tk m [] 0) y →
        exec (.matrixOperation g) s = .next (settle y)) ∧
      (c.by_ = 2 → drOk l c.blk = true → RowStep tk d 0 s0 y → exec (.tileDrain g) s = .next (settle y))) ∧
    ∀ r, GoesOn s g false tk t l r → r.cmd = c →
      s0 = s.updCore t.core (fun x => { x with mxTurn := t.g0 }) ∧
      (c.by_ = 1 → ChunkStep tk m s0 y → exec (.matrixOperation g) s = .next (settle y)) ∧
      (c.by_ = 2 → RowStep tk d r.row s0 y → exec (.tileDrain g) s = .next (settle y))) ∧
  (∀ (x v : State) (tk n k : Nat) (o : MxOp) (t : Team), v.team tk = some t → o.tile < t.tiles.length →
    chunkNext o (cursorsOf (setCursors v tk o (cursorsOf x tk o.tile) (n + 1)) tk o.tile) = some k → n < k) ∧
  (∀ (s y : State) (g tk : Nat) (t : Team) (l : Launch) (c : Cmd),
    let o := cpOp c.blk
    let f := o.fmt l
    let s0 := (takeCmd s tk t true).1
    let s1 := s0.updTeam tk fun t => { t with cpprog := 0 }
    let records := o.len * recBytes (slotFmt f) (planeWidth (slotFmt f))
    let scales := o.len * 128 * scaleSize (slotKind f)
    let From (x : State) : Prop :=
      (o.kind = 1 → PieceStep (fun s x n => rowPiece o s tk x n) tk o.len x y → exec (.copyLinear g) s = .next (settle y)) ∧
      (o.kind = 2 → PieceStep (fun s x n => rowPiece o s tk x n) tk (o.rows * o.len) x y →
        exec (.copyStrided g) s = .next (settle y)) ∧
      (o.kind = 3 → PieceStep (fun s x n => planePiece (slotFmt f) o s tk x n) tk records x y →
        exec (.planeTranspose g) s = .next (settle y)) ∧
      ∀ x1 z, o.kind = 4 → fld f 32 64 ≠ 0 → readLayout x tk f = (x1, .ok z) → z.fits o (scaleSize (slotKind f)) = true →
        PieceStep (fun s x n => scalePiece z (slotKind f) o s tk x n) tk scales x1 y →
        exec (.scalePlacement g) s = .next (settle y)
    (TakesNew s g true tk t l c → cpOk l (g % 128) c.blk = true → copyDone s1 tk = 0 ∧ From s1) ∧
    ∀ r, GoesOn s g true tk t l r → r.cmd = c →
      s0 = s.updCore t.core (fun x => { x with cpTurn := t.g0 }) ∧ copyDone s0 tk = r.done ∧ From s0) ∧
  (∀ (s : State) (tk : Nat) (t : Team) (o : MxOp) (cs : Kv Nat) (c : Nat), s.team tk = some t → s.accs = [] →
    (s.core t.core).spadPoison = [] → (t.tile o.tile).poison = [] → (t.tile o.tile).scalePoison = [] → o.tile < t.tiles.length →
    let num (va n : Nat) : Nat := ofLe ((List.range n).map fun i => s.spadByte t (va + i))
    let rec_ (f : BitVec 128) (w : Nat) : Nat := (if (fmtOfCode (slotFmt f)).isSome then 144 else 0) + 16 * w
    let sizeB := 16 * fmtWidth (slotFmt o.fb)
    let ones := 2 ^ 128 - 1
    let maps (k : Nat) : MxK :=
      ⟨k, (0, 0), (0, 0), (if o.abm then num (o.abmaddr + 16 * k) 16 else ones, 0), (if o.bbm then num (o.bbmaddr + 16 * k) 16 else ones, 0)⟩
    let used (x : MxK) : Bool := (List.range 16).any fun g => decide (kvGetD 0 cs g ≤ 4 * c) && decide (8 * g < o.m) &&
      x.am.1 / 2 ^ (8 * g) % 2 ^ min 8 (o.m - 8 * g) != 0 && x.bm.1 % 2 ^ o.n != 0
    let ks := ((List.range 4).map fun j => maps (4 * c + j)).filter used
    let atA (k : Nat) : Nat := o.aaddr + rec_ o.fa (planeWidth (slotFmt o.fa)) * k
    let atB (k : Nat) : Nat := o.baddr + sizeB * k
    let sizeA := rec_ o.fa (slotPlanes o.fa)
    (∀ j, j < 4 → (o.abm = true → s.OwnSpad t (o.abmaddr + 16 * (4 * c + j)) 16 false) ∧
      (o.bbm = true → s.OwnSpad t (o.bbmaddr + 16 * (4 * c + j)) 16 false)) →
    (∀ x, x ∈ ks → s.OwnSpad t (atA x.k) sizeA false ∧ s.OwnSpad t (atB x.k) sizeB false) →
    runChunk s tk o cs c = (updTile s tk o.tile (tileChunk o cs c false
      (ks.map fun x => { x with a := (num (atA x.k) sizeA, 0), b := (num (atB x.k) sizeB, 0) })), .ok)) ∧
  (∀ (o : MxOp) (cs : Kv Nat) (c : Nat) (bad : Bool) (xs : List MxK) (t : Tile) (i j : Nat), i < 128 → j < 128 → o.m ≤ 128 → o.n ≤ 128 →
    let at_ (t : Tile) : Word := kvGetD 0 t.elems (128 * i + j)
    at_ (tileChunk o cs c bad xs t) =
      if i < o.m ∧ j < o.n ∧ kvGetD 0 cs (i / 8) ≤ 4 * c ∧ activeKs xs i j ≠ [] then
        let v := chunkSum o t (activeKs xs i j) (o.sb0 + 4 * c / o.sblk) i j
        if v.isZero then at_ t else BitVec.ofNat 32 (F32.round .rne ((F32.value (at_ t).toNat).add false v))
      else at_ t) ∧
  (∀ (s : State) (tk r : Nat) (t : Team) (o : DrOp), s.team tk = some t → s.accs = [] → (t.tile o.tile).poison = [] →
    r < o.m + (if o.trn then o.n else 0) →
    let main := decide (r < o.m)
    let f := if main then o.fo else o.ft
    let count := if main then o.n else o.m
    let el (i : Nat) : Word := kvGetD 0 (t.tile o.tile).elems (if main then 128 * r + i else 128 * i + (r - o.m))
    let w := fmtWidth (slotFmt f)
    let n := count * w / 8
    let size := if slotFmt f = 1 ∨ slotKind f = 0 then 0 else if slotKind f = 1 then 1 else 2
    let data := if main then o.odata + r * o.ostride else o.tdata + (r - o.m) * o.tstride
    let scale := if main then o.oscale + size * r else o.tscale + size * (r - o.m)
    (slotFmt f = 1 ∨ operandFmt (slotFmt f) = true) → slotKind f ≤ 2 → s.OwnSpad t data n true → (size ≠ 0 → s.OwnSpad t scale size true) →
    (size = 0 ∨ data + n ≤ scale ∨ scale + size ≤ data) →
    ∃ v row e sn sd, runRow s tk o r = (v, .ok) ∧
      (slotFmt f ≠ 1 → RowScale f ((List.range count).map fun i => F32.value (el i).toNat) e sn sd) ∧
      (∀ i, i < count → elem w i row = if slotFmt f = 1 then (el i).toNat else
        convertTo f (match F32.value (el i).toNat with
          | .fin neg a b => .fin neg (a * sd) (b * sn)
          | x => x) % 2 ^ w) ∧
      s.Leaves v t fun va =>
        if data ≤ va ∧ va < data + n then some (BitVec.ofNat 8 (row / 2 ^ (8 * (va - data))))
        else if scale ≤ va ∧ va < scale + size then some (BitVec.ofNat 8 (e / 2 ^ (8 * (va - scale)))) else none) ∧
  (∀ (o : CpOp) (s : State) (tk x n : Nat) (t : Team), 0 < n → 0 < o.len →
    (o.src + (o.rows - 1) * o.sstride + (o.len - 1) < o.dst ∨ o.dst + (o.rows - 1) * o.dstride + (o.len - 1) < o.src ∨ o.sg ≠ o.dg) →
    let rows := (List.range ((x + n - 1) / o.len + 1 - x / o.len)).map (x / o.len + ·)
    let lo (r : Nat) : Nat := max x (r * o.len)
    let hi (r : Nat) : Nat := min (x + n) ((r + 1) * o.len)
    let part (base stride r : Nat) : Nat × Nat := (base + r * stride + (lo r - r * o.len), hi r - lo r)
    (∀ s1 bs, readMany s tk o.sg (rows.map (part o.src o.sstride)) = (s1, .ok bs) →
      rowPiece o s tk x n = storePiece s1 tk o.dg (rows.map (part o.dst o.dstride)) bs) ∧
    (s.team tk = some t → s.accs = [] → (s.core t.core).spadPoison = [] → o.sg = false → o.dg = false →
      (o.len ≤ o.dstride ∨ x + n ≤ o.len) →
      let from_ (b : Nat) : Nat := o.src + b / o.len * o.sstride + b % o.len
      let to_ (b : Nat) : Nat := o.dst + b / o.len * o.dstride + b % o.len
      (∀ b, x ≤ b → b < x + n → s.OwnSpad t (from_ b) 1 false ∧ s.OwnSpad t (to_ b) 1 true) →
      ∃ v f, rowPiece o s tk x n = (v, .ok) ∧ s.Leaves v t f ∧
        (∀ b, x ≤ b → b < x + n → f (to_ b) = some (s.spadByte t (from_ b))) ∧
        ∀ va, (∀ b, x ≤ b → b < x + n → va ≠ to_ b) → f va = none)) ∧
  (∀ (fmt : Nat) (es : List (Nat × Bool)), operandFmt fmt = true → es.length ≤ 128 →
    let bs := (planeRec fmt es).map (·.1)
    let rec_ := ofLe bs
    let bit (off i : Nat) : Nat := rec_ / 2 ^ (8 * off + i) % 2
    let e (i : Nat) : Nat := (es[i]?.map (·.1)).getD 0
    (∀ w, fmtOfCode fmt = none → w = fmtWidth fmt → bs.length = 16 * w ∧
      ∀ i j, i < 128 → j < w → bit (16 * j) i = e i / 2 ^ (w - 1 - j) % 2) ∧
    ∀ F, fmtOfCode fmt = some F → bs.length = 144 + 16 * (F.f + 1) ∧ ∀ i, i < 128 →
      let x := e i / 2 ^ F.f % 2 ^ (F.width - 1 - F.f)
      let fr := e i % 2 ^ F.f
      let v : Nat × Nat := match F.value (e i) with
        | .nan => (255, 2 ^ (F.f + 1) - 1)
        | .inf _ => (255, 0)
        | .fin .. => if x ≠ 0 then (x + 127 - F.bias, 2 ^ F.f + fr) else if fr ≠ 0 then (128 - F.bias, fr) else (0, 0)
      bit 0 i = e i / 2 ^ (F.width - 1) % 2 ∧ rec_ / 2 ^ (8 * (16 + i)) % 256 = v.1 ∧
      ∀ j, j < F.f + 1 → bit (144 + 16 * j) i = v.2 / 2 ^ (F.f - j) % 2) ∧
  (∀ (fmt : Nat) (o : CpOp) (s : State) (tk x n : Nat) (t : Team), s.team tk = some t → s.accs = [] →
    (s.core t.core).spadPoison = [] → operandFmt fmt = true → o.sg = false → o.len % 4 = 0 →
    let w := fmtWidth fmt
    let size := recBytes fmt (planeWidth fmt)
    let line (i : Nat) : Nat := ofLe ((List.range (o.len * w / 8)).map fun j => s.spadByte t (o.src + i * o.sstride + j))
    let stack (b : Nat) : Byte :=
      ((planeRec fmt ((List.range o.rows).map fun i => (elem w (b / size) (line i), false))).map (·.1)).getD (b % size) 0
    0 < n → x + n ≤ o.len * size → o.rows ≤ 128 →
    (∀ i, i < o.rows → s.OwnSpad t (o.src + i * o.sstride) (o.len * w / 8) false) → s.OwnSpad t (o.dst + x) n true →
    ∃ v, planePiece fmt o s tk x n = (v, .ok) ∧
      s.Leaves v t fun va => if o.dst + x ≤ va ∧ va < o.dst + x + n then some (stack (va - o.dst)) else none) ∧
  (∀ (y : ScaleLay) (kind : Nat) (o : CpOp) (s s1 : State) (tk x n : Nat) (bs : List (Byte × Bool)) (t : Team),
    let size := if kind = 1 then 1 else 2
    let home (e : Nat) : Nat := y.base + e % 128 * y.rstride + (o.srcb + e / 128) * y.bstride
    let place (e : Nat) : Nat := 4096 * o.half + size * ((o.sb + e / 128) * 128 + e % 128)
    x % size = 0 → n % size = 0 →
    readMany s tk true ((List.range (n / size)).map fun j => (home (x / size + j), size)) = (s1, .ok bs) → bs.length = n →
    s1.team tk = some t → o.tile < t.tiles.length → t.cp.isSome = true →
    ∃ v u, scalePiece y kind o s tk x n = (v, .ok) ∧ v = { s1 with teams := v.teams } ∧ v.team tk = some u ∧
      (∀ j q, j < n / size → q < size →
        kvGetD 0 (u.tile o.tile).scales (place (x / size + j) + q) = ((bs[size * j + q]?).map (·.1)).getD 0) ∧
      ∀ c, (∀ j q, j < n / size → q < size → c ≠ place (x / size + j) + q) →
        kvGetD 0 (u.tile o.tile).scales c = kvGetD 0 (t.tile o.tile).scales c) ∧
  ∀ (s : State) (g tk : Nat) (cp : Bool) (t : Team) (r : Run) (st : Nat),
    finishedTeam s g cp = some tk → s.team tk = some t → t.run cp = some r → r.status = some st →
    let q := if cp then 1 else 0
    let b := r.cmd.blk
    let t' := (if cmdTok cp b then t.setTokens q (t.tokens q ++ [BitVec.ofNat 32 (st * 2 ^ 24 + cmdTag b)]) else t).setRun cp none
    let k := 65536 * dieOf t.core + cmdBend b
    (cmdBen cp b = false → Settles s (.engineCommandComplete g cp) fun u => u = s.setTeam tk t') ∧
    (cmdBen cp b = true → engBendOk s t cp b = true → bendWaiters s k = [] → (s.bend k).count.toNat < 2 ^ 64 - 1 →
      Settles s (.engineCommandComplete g cp) fun u =>
        u = (s.setTeam tk t').setBend k { s.bend k with count := (s.bend k).count + 1 })

/-! ## The die scheduler -/

/-- PERIOD_BOUNDARY completes where a period has passed: every spend counter keeps its debt alone, at most one budget (R63, R64),
a launch that was passed over and not broken counts one period more, any other none, and a count of eight stands until the
launch places a team (R73), the next boundary lies ahead, and the tree and its
queues are read (R62). DOORBELL reads the named queue at once and advances its HEAD: an entry of 0 has no effect, a misaligned
one is reported, and any other is a launch taken (R61, R62, R114). SWAP_TICK makes as many of a launch's long-resident teams as
it has teams waiting leave for a save, or all where it has fewer, the longest resident first, and none else (R84).
The model's own choices in it: that a count of eight stands until a team is placed (log 100), and that a launch remembers which
of its teams a swap took off, so that those which waited are placed first (log 118). -/
def Obligations.Periods : Prop :=
  (∀ (s : State) (d : Nat), rcbOn (s.die d) = true → (s.die d).nextPeriod ≤ schedCyc (s.die d) → dieGo s d = true →
    let a := countPassed ((clearSpends s d).updDie d fun x => { x with nextPeriod := (schedCyc x / 10000 + 1) * 10000 }) d
    exec (.periodBoundary d) s = .next (settle (serveQueues (liftChanged (readTree a d) d) d)) ∧
    a = { s with dies := a.dies } ∧ (∀ e, e ≠ d → a.die e = s.die e) ∧ schedCyc (s.die d) < (a.die d).nextPeriod ∧
    (∀ n h x, kvGet (s.die d).spends n = some x → headerAt s d n = some h →
      kvGet (a.die d).spends n = some
        { share := match budget h 2 192 16 with
            | none => 0
            | some v => min (shareBudget v) (x.share - shareBudget v),
          memb := match budget h 4 256 32 with
            | none => 0
            | some v => min (256 * v) (x.memb - 256 * v),
          linkb := match budget h 5 288 32 with
            | none => 0
            | some v => min (256 * v) (x.linkb - 256 * v) }) ∧
    ∀ i l, s.launch i = some l → l.die = d →
      let n := kvGetD 0 (s.die d).passed i
      kvGet (a.die d).passed i =
        if 8 ≤ n then some 8 else if i ∈ (s.die d).passedNow ∧ i ∉ (s.die d).broken then some (n + 1) else none) ∧
  (∀ (s s1 s2 : State) (d : Nat) (v : DWord) (q : Node) (hb eb : List Byte),
    dieGo s d = true → rcbOn (s.die d) = true →
    (s.die d).nodes.find? (fun n => n.addr == fld v 7 45 * 128 && n.isQueue) = some q → halted (s.die d) q = false →
    readPhys s d q.addr 128 = (s1, some hb) →
    let h : BitVec 1024 := BitVec.ofNat 1024 (ofLe hb)
    let size := 2 ^ fld q.hdr 576 5
    let head := fld h 608 32 % size
    let e := ofLe eb
    1 < size → fld h 640 32 % size = (head + 1) % size → readPhys s1 d (fld q.hdr 512 64 + 8 * head) 8 = (s2, some eb) →
    let s3 := storePhys s2 d (q.addr + 76) (leBytes 4 ((head + 1) % size))
    (e = 0 → exec (.doorbell d v) s = .next (settle s3)) ∧
    (e % 512 ≠ 0 → exec (.doorbell d v) s = .next (settle (report s3 d (FRec.plain 4 0x21 0 e)))) ∧
    (e ≠ 0 → e % 512 = 0 → Settles s (.doorbell d v) fun u => u = { s3 with launches := u.launches, seq := s3.seq + 1 } ∧
      u.launch s3.seq = some (Launch.taken d e (q.addr :: q.up) s3.seq) ∧ ∀ i, i ≠ s3.seq → u.launch i = s3.launch i)) ∧
  ∀ (s : State) (d : Nat), (s.die d).swapint ≠ 0 → (s.die d).nextSwap ≤ schedCyc (s.die d) → dieGo s d = true →
    (s.teams.map (·.1)).Nodup → (s.launches.map (·.1)).Nodup →
    let now := schedCyc (s.die d)
    let n := (s.die d).swapint.toNat
    let Swaps (l : Launch) : Prop := l.die = d ∧ l.phase = .running ∧ l.savea ≠ 0 ∧ l.below (s.die d).suspended = false
    let old (i : Nat) : List (Nat × Team) := s.teams.filter fun x =>
      x.2.launch == i && x.2.leave.isNone && !x.2.ended && decide (x.2.since + n ≤ now)
    Does s (.swapTick d) fun u => u = { s with dies := u.dies, teams := u.teams, launches := u.launches } ∧
      (∀ e, e ≠ d → u.die e = s.die e) ∧ u.die d = { s.die d with nextSwap := (now / n + 1) * n } ∧
      (∀ k t, s.team k = some t → u.team k = some t ∨ (k, t) ∈ old t.launch ∧ u.team k = some { t with leave := some .save } ∧
        ∃ l, s.launch t.launch = some l ∧ Swaps l) ∧
      (∀ i l, s.launch i = some l → ¬ Swaps l → u.launch i = some l) ∧
      ∀ i l, s.launch i = some l → Swaps l →
        let out := (old i).filter fun x => decide (u.team x.1 ≠ some x.2)
        out.length = min (l.saved.length + l.again.length + (l.gridt - l.nextTeam)) (old i).length ∧
        (∀ x y, x ∈ out → y ∈ old i → y ∉ out → x.2.since ≤ y.2.since) ∧
        ∃ sw, u.launch i = some { l with swapped := sw } ∧ ∀ m, m ∈ sw ↔ m ∈ l.swapped ∨ ∃ x, x ∈ out ∧ x.2.num = m

/-- PREEMPT_REQUEST with GO completes: the node is suspended; with no team below it the request's bend is signalled at once, and
a covered team that was to stay drains, is saved or is discarded as the estimate from its passes decides (R77-R79). A
RESUME_REQUEST with GO lifts the node's suspension and the halts at and below it (R65, R77).
The check of the request's bend and a launch as the node named are the model's reading (log 29, 57). -/
def Obligations.Preemption : Prop := ∀ (s : State) (d : Nat) (v : DWord),
  dieGo s d = true → isNode s d (fld (s.die d).preqnode 7 45 * 128) = true → fld v 63 1 = 1 →
  let a := fld (s.die d).preqnode 7 45 * 128
  let L := fld v 0 32
  let late := fld (s.die d).preqctl 62 1 = 1 ∧ fld v 62 1 = 0
  let ctl : DWord := BitVec.ofNat 64 (fld v 0 48 + if late then 2 ^ 62 else 0)
  let b := 65536 * d + fld v 32 16
  (s.die d).preqs = [] → (∀ t, t ∈ s.teams → s.seq ∉ t.2.reqs) →
  (teamsBelow s d a = [] → sigCheck (s.bend b) 4 0 0 = none → bendWaiters s b = [] → (s.bend b).count.toNat < 2 ^ 64 - 1 →
    Settles s (.preemptRequest d v) fun u =>
      u = { s with dies := u.dies, bends := u.bends, seq := s.seq + 1 } ∧ (∀ e, e ≠ d → u.die e = s.die e) ∧
      u.die d = { s.die d with preqctl := ctl, suspended := natAdd (s.die d).suspended a } ∧
      u.bend b = { s.bend b with count := (s.bend b).count + 1 } ∧ ∀ c, c ≠ b → u.bend c = s.bend c) ∧
  (∀ k t l, teamsBelow s d a = [k] → s.team k = some t → dieOf t.core = d → s.launch t.launch = some l → l.die = d →
    t.leave = none → t.mx = none → t.cp = none → l.savea ≠ 0 →
    let c := (s.core t.core).cyc - t.cyc0
    let drains := t.tpass ≠ 0 ∧ l.phint ≠ 0 ∧ ((l.phint - t.tpass) * c + t.tpass - 1) / t.tpass ≤ L * 35 / 4
    Settles s (.preemptRequest d v) fun u => (u.die d).suspended = natAdd (s.die d).suspended a ∧
      (u.die d).preqs = [⟨s.seq, a, fld v 32 16, schedCyc (s.die d) + L⟩] ∧ u.bends = s.bends ∧
      u.team k = some { t with
        reqs := t.reqs ++ [s.seq],
        leave := some (if drains then .drain else if l.pclass ∧ 8 * t.tpass < l.phint then .discard else .save),
        deadline := if drains then some (schedCyc (s.die d) + L) else t.deadline }) ∧
  ∀ w : DWord, fld w 63 1 = 1 → isNode s d (fld w 7 45 * 128) = true →
    Settles s (.resumeRequest d w) fun u => u = { s with dies := u.dies } ∧ (∀ e, e ≠ d → u.die e = s.die e) ∧
      let n := fld w 7 45 * 128
      u.die d = { s.die d with
        pres := BitVec.ofNat 64 n
        suspended := (s.die d).suspended.filter (· != n)
        halts := (s.die d).halts.filter fun h =>
          !(h.node == n || h.up.contains n || (s.die d).nodes.any fun m => m.addr == h.node && m.up.contains n) }

/-- LAUNCH_ACCEPT completes: a record, image header and block table that pass the checks in their order make the launch run
with its blocks, a check that fails gives it that check's status (R66-R70), and a launch that was stopped while its record was
read places no team (R65). TEAM_PLACE completes for an unplaced team: it stands
on the chosen core with its registers from the record and an empty scratchpad, and each of its threads starts with its slot
number and the team's number in v0 and v1 and zero elsewhere, ready for block 0; every full-empty bit of its scratchpad is
empty (R24, R71, R74). GRID_COMPLETE forgets a
launch without a completion record whose teams and passes have ended, and signals its bend (R75, R76; log 102). DRAIN_DEADLINE turns a drain into a
save (R79). TEAM_SAVE and TEAM_DISCARD start the write-backs of the team's windows (R174), and once these are done put the team's number
back with the launch, and the team leaves its core with everything that it had outstanding (R79, R80).
The layout of a save area where the spec has none, and what stands beside it, are the model's (log 26, 112). -/
def Obligations.Launches : Prop :=
  (∀ (s s1 s3 s4 : State) (i : Nat) (l : Launch) (bs : List Byte) (hb tb : List (Byte × Bool)),
    s.launch i = some l → dieGo s l.die = true → l.phase = .taken → (∀ k, physKey s l.die l.addr = some k → roomFor s k 1 = true) →
    readPlain (askRecord s i l) l.die l.addr 512 = (s1, some bs) →
    let l1 := { l with phase := .waiting, record := BitVec.ofNat 4096 (ofLe bs) }
    let s2 := (s1.setLaunch i { l1 with order := s1.seq }).bump
    (l.status ≠ 0 → Settles s (.launchAccept i) fun u =>
      u.launch i = some { l1 with phase := .stopping, nextTeam := l1.gridt }) ∧
    (l.status = 0 → recordOk l1 = false → Settles s (.launchAccept i) fun u =>
      u.launch i = some { l1 with order := s1.seq, phase := .completing, status := 0x0010 }) ∧
    (l.status = 0 → recordOk l1 = true → 4096 ≤ l1.actx → Settles s (.launchAccept i) fun u =>
      u.launch i = some { l1 with order := s1.seq, phase := .completing, status := 0x0014 }) ∧
    (l.status = 0 → recordOk l1 = true → l1.actx < 4096 → l1.kimg % 256 ≠ 0 → Settles s (.launchAccept i) fun u =>
      u.launch i = some { l1 with order := s1.seq, phase := .completing, status := 0x0011 }) ∧
    (l.status = 0 → recordOk l1 = true → l1.actx < 4096 → l1.kimg % 256 = 0 →
        readVirt s2 (.sched l.die i) l1.actx l1.kimg 256 = (s3, .ok hb) →
      let l2 := { l1 with header := BitVec.ofNat 2048 (ofLe (hb.map (·.1))) }
      (imageOk l2 = false → Settles s (.launchAccept i) fun u =>
        u.launch i = some { l2 with phase := .completing, status := 0x0011 }) ∧
      (imageOk l2 = true → readVirt s3 (.sched l.die i) l1.actx ((l1.kimg + l2.btoff) % 2 ^ 64) (32 * l2.nblk) = (s4, .ok tb) →
      let es := entriesOf (tb.map (·.1)) l2.nblk
      Settles s (.launchAccept i) fun u => u = { s4 with launches := u.launches } ∧ u.launch i = some
        (if lateStatus s4 l2 es = 0 then { l2 with phase := .running, blocks := es.map blkOf, order := s4.seq }
         else { l2 with phase := .completing, status := lateStatus s4 l2 es,
                        missing := if lateStatus s4 l2 es = 0x0013 then missingFeats l2 else 0 })))) ∧
  (∀ (s : State) (d i g g0 base num : Nat) (l : Launch),
    dieGo s d = true → choosePlace s d = some (i, g, g0, base) → s.launch i = some l → nextTeamOf l = some (num, false) →
    g0 + l.teamg ≤ 64 →
    Settles s (.teamPlace d) fun u => u.mem = s.mem ∧ u.accs = s.accs ∧
      (∃ (t : Team) (l' : Launch), u.team (64 * g + g0) = some t ∧ t.launch = i ∧ t.num = num ∧ t.core = g ∧ t.g0 = g0 ∧
        t.gangs = l.teamg ∧ t.spadBase = base ∧ t.spadK = l.spadk ∧ t.tiles = List.replicate l.ntiles Tile.reset ∧ t.tpass = 0 ∧
        t.q0 = [] ∧ t.q1 = [] ∧ t.q8 = [] ∧ t.q9 = [] ∧ t.expand = Expand.reset ∧ t.leave = none ∧
        (∀ n, kvGetD 0 t.kregs n = if n < l.nkregs then BitVec.ofNat 32 (l.get (1024 + 32 * n) 32) else 0) ∧
        u.launch i = some l' ∧ l' = if num ∈ l.again then { l with again := l.again.filter (· != num) }
          else { l with nextTeam := l.nextTeam + 1 }) ∧
      (∀ q, base ≤ q → q < base + 1024 * l.spadk → cellGet (u.core g).spad q = 0) ∧
      (∀ q, base ≤ 16 * q → 16 * q < base + 1024 * l.spadk → q ∉ (u.core g).full) ∧
      ∀ r, r < 32 * l.teamg →
        let x := u.thread (2048 * g + 32 * g0 + r)
        (∀ n, (x.reg n).toNat = if n = 0 then r % 2 ^ 32 else if n = 1 then num % 2 ^ 32 else 0) ∧
        (∀ q, q < 7 → x.pred q = false) ∧ x.fpmode = 1 ∧ x.depth = 0 ∧ x.team = 64 * g + g0 ∧ x.blk = 0 ∧ x.pkt = 0 ∧
        x.slot = 0 ∧ x.due = none ∧ (x.status = .pending ∨ x.status = .overflow)) ∧
  (∀ (s : State) (i : Nat) (l : Launch),
    s.launch i = some l → gridDone s i l = true → dieGo s l.die = true → isParked s l.die (.complete i) = false → l.crec = 0 →
    (l.cben = false → Settles s (.gridComplete i) fun u => u = { s with launches := u.launches, dies := u.dies } ∧
      u.launch i = none ∧ ∀ j, j ≠ i → u.launch j = s.launch j) ∧
    let b := 65536 * l.die + l.cbend
    (l.cben = true → sigCheck (s.bend b) 4 0 0 = none → bendWaiters s b = [] → (s.bend b).count.toNat < 2 ^ 64 - 1 →
      Settles s (.gridComplete i) fun u => u.launch i = none ∧ u.mem = s.mem ∧ u.threads = s.threads ∧
        u.bend b = { s.bend b with count := (s.bend b).count + 1 })) ∧
  (∀ (s : State) (k : Nat) (t : Team), s.team k = some t →
    (∀ n, t.leave = some .drain → t.deadline = some n → n < schedCyc (s.die (dieOf t.core)) → t.ended = false →
      dieGo s (dieOf t.core) = true →
      exec (.drainDeadline k) s = .next (s.setTeam k { t with leave := some .save, deadline := none })) ∧
    (∀ l w, s.launch t.launch = some l → t.leave = some .save → t.ended = false → saveReady s k t = true →
      isParked s l.die (.save k) = false → dieGo s l.die = true →
      let dirty := t.stash.filter (·.modified)
      (dirty ≠ [] → exec (.teamSave k) s = .next (dirty.foldl (fun u x => startWb u k t x) s)) ∧
      (dirty = [] → writePieces s t.launch l (saveBase l t.num) (savePieces s l t) = (w, .ok) →
        exec (.teamSave k) s =
          .next (settle (dropTeam (w.updLaunch t.launch fun l => { l.keepTeam s t with saved := l.saved ++ [t.num] }) k t)))) ∧
    (t.leave = some .discard → t.ended = false → dieGo s (dieOf t.core) = true → teamStill s t = true →
      (∀ a, a ∈ s.accs → a.2.team = k → mustFinish a.2 = false) →
      let v := endWindows s k
      ((∃ a, a ∈ v.accs ∧ a.2.team = k ∧ mustFinish a.2 = true) → exec (.teamDiscard k) s = .next (settle v)) ∧
      ((∀ a, a ∈ v.accs → a.2.team = k → mustFinish a.2 = false) → exec (.teamDiscard k) s =
        .next (settle (dropTeam (v.updLaunch t.launch fun l => { l with again := natAdd l.again t.num }) k t)))) ∧
    ((s.die (dieOf t.core)).preqs = [] →
      let u := dropTeam s k t
      u.team k = none ∧ (∀ j, j ≠ k → u.team j = s.team j) ∧ (∀ i, i ∈ t.tids → u.thread i = Thread.reset) ∧
      (∀ id a, u.acc id = some a → a.team ≠ k) ∧ u.mem = s.mem))

/-! ## System software -/

/-- REPLAY completes (R291): with ACTION 00 what is parked on the token restarts, an access from its first part, and no translation
that was cached before serves the address that faulted; with ACTION 01 an access is not performed and its thread takes the trap when
it would enter its successor, an engine command ends with status 4, the threads pending at a block whose fetch faulted take the trap,
the launch that the die scheduler reads for ends with status 2, and a completion record is not written. A write
of FQHEAD lets a held record into the queue (R287, R289). TLBINVC starts an invalidation of its kind, unless one is under way;
a receiver drops the translations and replicas that it covers, and acknowledges once no write-back that was translated under
one of them is under way; the last acknowledgement clears GO (R286). EXPREVOKE drops the translations into the exporter
everywhere and takes the range home from other dies, their non-coherent copies and replicas with it, and starts to develop
every latent sector of the range (R189, R204); REVOKE_COMPLETE clears GO once nothing of the range develops.
The model's own choices in it: the TPC of a thread whose fetch faulted (log 65), and that of two traps due a thread takes the first
(log 107). -/
def Obligations.FaultsAndInvalidations : Prop :=
  (∀ (s : State) (d tok : Nat) (t : Token), dieGo s d = true → kvGet (s.die d).tokens tok = some t →
    (Settles s (.replayAccess d tok) fun u => u = { s with dies := u.dies, cores := u.cores, accs := u.accs } ∧
      (u.die d).tokens = kvDel (s.die d).tokens tok ∧ u.die d = { s.die d with tokens := (u.die d).tokens, tlb := (u.die d).tlb } ∧
      (∀ x, x ∈ (u.die d).tlb → x ∈ (s.die d).tlb ∧ x.covers t.fault.ctx t.fault.addr = false) ∧
      (∀ g, dieOf g = d → u.core g = { s.core g with tlb := (u.core g).tlb } ∧
        ∀ x, x ∈ (u.core g).tlb → x ∈ (s.core g).tlb ∧ x.covers t.fault.ctx t.fault.addr = false) ∧
      ∀ id, ((∃ n, Parked.access id n ∈ t.who) → u.acc id = (s.acc id).map fun a =>
          { a with parts := a.parts.map fun p => { p with done := false }, poisoned := false,
                   got := match a.kind with
                     | .stashFill .. => a.got
                     | _ => 0 }) ∧
        ((∀ n, Parked.access id n ∉ t.who) → u.acc id = s.acc id)) ∧
    (∀ id n a, t.who = [.access id n] → s.acc id = some a → Settles s (.replayDeliver d tok) fun u =>
      u = { s with dies := u.dies, accs := u.accs, threads := u.threads } ∧ u.acc id = none ∧
      (∀ i, i ≠ id → u.acc i = s.acc i) ∧ (∀ k, k ≠ a.tid → u.thread k = s.thread k) ∧
      u.thread a.tid = { s.thread a.tid with due := some (((s.thread a.tid).due).getD ⟨t.fault.cause, t.fault.sub, a.word⟩) }) ∧
    (∀ k m r cp, t.who = [if cp = true then .copy k else .matrix k] → s.team k = some m → m.run cp = some r →
      Settles s (.replayDeliver d tok) fun u => u = { s with dies := u.dies, teams := u.teams } ∧
        u.team k = some (m.setRun cp (some { r with status := some 4 }))) ∧
    (∀ g b n x, t.who = [.fetch g b n x] →
      let tids := ((s.core g).census.filter fun e => e.blk == b && e.lidx == x).flatMap (·.tids)
      tids.Nodup → (∀ k, k ∈ tids → CanTrap s k) → Settles s (.replayDeliver d tok) fun u => u.mem = s.mem ∧ u.accs = s.accs ∧
        (∀ k l, k ∈ tids → launchOf s k = some l → TookTrap s k t.fault.cause t.fault.sub 0
          (BitVec.ofNat 64 (l.pktVa (s.thread k).pkt)) (s.thread k) (u.thread k)) ∧
        (∀ e k, e ∈ (u.core g).census → k ∈ tids → k ∉ e.tids) ∧
        ((s.core g).overflow = [] → ∀ k, k ∉ tids → u.thread k = s.thread k)) ∧
    (∀ i l, s.launch i = some l → ((t.who = [.accept i] ∨ ∃ n, t.who = [.place i n]) ∨
        ∃ k m, t.who = [.save k] ∧ s.team k = some m ∧ m.launch = i) →
      (l.phase = .waiting → Settles s (.replayDeliver d tok) fun u => u = { s with dies := u.dies, launches := u.launches } ∧
        u.launch i = some { l with phase := .stopping, status := 0x0002, nextTeam := l.gridt }) ∧
      (l.phase = .running → Settles s (.replayDeliver d tok) fun u =>
        u = { s with dies := u.dies, launches := u.launches, teams := u.teams } ∧
        u.launch i = some { l with phase := .stopping, status := 0x0002, saved := [], again := [], nextTeam := l.gridt } ∧
        ∀ k, u.team k = (s.team k).map fun m => if m.launch = i then { m with leave := some .stop } else m)) ∧
    ∀ i l, t.who = [.complete i] → s.launch i = some l → Settles s (.replayDeliver d tok) fun u =>
      u = { s with dies := u.dies, launches := u.launches } ∧ u.launch i = some { l with record := setFld l.record 768 64 0 }) ∧
  (∀ (s : State) (d : Nat) (v : Word), dieGo s d = true →
    ((s.die d).held = [] → Settles s (.fqheadWrite d v) fun u => u = { s with dies := u.dies } ∧
      (∀ e, e ≠ d → u.die e = s.die e) ∧ u.die d = { s.die d with fqhead := v }) ∧
    ∀ r k, (s.die d).held = [r] → (s.die d).unwritten = [] → ((s.die d).fqtail - v).toNat ≠ fqSize (s.die d) →
      physKey s d (fld (s.die d).fqbase 12 40 * 4096 + 32 * ((s.die d).fqtail.toNat % fqSize (s.die d))) = some k →
      farPort s k = none → Settled s (k / 64) → HeatOff s →
      Settles s (.fqheadWrite d v) fun u => Stored u s k r.bytes ∧ u.out = s.out ++ [.msix d 0] ∧
        u.die d = { s.die d with fqhead := v, fqtail := (s.die d).fqtail + 1, held := [] }) ∧
  (∀ (s : State) (d kind : Nat) (v : DWord) (i : Instr),
    (kind = 0 ∧ i = .tlbInvalidatePages d v) ∨ (kind = 1 ∧ i = .tlbInvalidateContext d v) ∨ (kind = 2 ∧ i = .tlbInvalidateAll d v) →
    dieGo s d = true → fld v 16 2 = kind → v.getLsbD 63 = true →
    ((s.die d).tlbinvc.getLsbD 63 = true → exec i s = .next s) ∧
    ((s.die d).tlbinvc.getLsbD 63 = false → Does s i fun u => u = { s with dies := u.dies } ∧
      (∀ e, e ≠ d → u.die e = s.die e) ∧ u.die d = { s.die d with
        tlbinvc := v &&& 0x8000FFFF0003FFFF
        inval := some { kind := kind, ctx := fld v 0 16, va := fld (s.die d).tlbinva 12 45 * 4096, count := fld v 32 16 + 1,
                        toReach := invReceivers s, toAck := [] } })) ∧
  (∀ (s : State) (src r : Nat) (i : Inval), (s.die src).inval = some i →
    (i.toReach.contains r = true → s.hubStopped = false → (r < 8 → dieGo s r = true) →
      (∀ e op cs, e ∈ s.dir → e.2 ≠ .latent op cs) →
      Settles s (.invalidationRequest src r) fun u => u = { s with dies := u.dies, cores := u.cores } ∧
        (u.die src).inval = some (if r < 8 ∧ stillUnder s r i = true then i
          else { i with toReach := i.toReach.filter (· != r), toAck := i.toAck ++ [r] }) ∧
        (∀ e, e ≠ src → e ≠ r → u.die e = s.die e) ∧
        (∀ g, (u.core g).tlb = if r < 8 ∧ dieOf g = r then (s.core g).tlb.filter (fun t => !i.covers t.ctx t.va t.size)
          else (s.core g).tlb) ∧
        (r < 8 → (u.die r).tlb = (s.die r).tlb.filter (fun t => !i.covers t.ctx t.va t.size) ∧
          (u.die r).walkc = (s.die r).walkc.filter (fun w => !i.coversTable w) ∧
          ∀ x, x ∈ (u.die r).replicas → x ∈ (s.die r).replicas ∧
            i.covers (((s.launch x.launch).map (·.actx)).getD i.ctx) (4096 * x.page) 4096 = false)) ∧
    (i.toAck.contains r = true → dieGo s src = true →
      let i' := { i with toReach := i.toReach.filter (· != r), toAck := i.toAck.filter (· != r) }
      Does s (.invalidationAck src r) fun u => u = { s with dies := u.dies } ∧ (∀ e, e ≠ src → u.die e = s.die e) ∧
        u.die src = if i'.toReach = [] ∧ i'.toAck = []
          then { s.die src with inval := none, tlbinvc := (s.die src).tlbinvc &&& 0x0000FFFF0003FFFF }
          else { s.die src with inval := some i' })) ∧
  ∀ (s : State) (d : Nat) (v : DWord), dieGo s d = true →
    ((s.die d).exprevoke.getLsbD 63 = true →
      ((s.die d).revoke = none → Settles s (.revokeComplete d) fun u => u = { s with dies := u.dies } ∧
        (∀ e, e ≠ d → u.die e = s.die e) ∧ u.die d = { s.die d with exprevoke := (s.die d).exprevoke &&& 0xFFFF }) ∧
      ∀ r, (s.die d).revoke = some r →
        let u := recallRange s d r
        exec (.revokeComplete d) s = .next (settle
          (if recalling u d r = true then u
           else u.updDie d fun x => { x with exprevoke := x.exprevoke &&& 0xFFFF, revoke := none }))) ∧
    (v.getLsbD 63 = true → (s.die d).exprevoke.getLsbD 63 = false →
      let out (l : List Tlb) : List Tlb := l.filter fun t => !(fld t.pte 56 1 == 1 && fld t.pte 52 4 == d)
      ∃ s0 : State, s0 = { s with dies := s0.dies, cores := s0.cores } ∧
        (∀ e, (s0.die e).tlb = out (s.die e).tlb) ∧ (∀ g, s0.core g = { s.core g with tlb := out (s.core g).tlb }) ∧
        (s0.die d).exprevoke = v &&& 0x800000000000FFFF ∧
        ∀ s1 r, exportRange s0 d (fld v 0 16) = (s1, r) →
          let s2 := s1.updDie d fun x => { x with revoke := r }
          (r = none → exec (.exprevoke d v) s = .next s2) ∧
          ∀ q, r = some q → exec (.exprevoke d v) s = .next (settle (recallRange s2 d q))) ∧
    ∀ r, d < 8 → (s.dir.map (·.1)).Nodup → anyStopped s = false →
      (∀ g x, dieOf g ≠ d → x ∈ (s.core g).nc → inRange d r x.1 = false) →
      let u := recallRange s d r
      u.threads = s.threads ∧ ((∀ e op cs, e ∈ s.dir → e.2 ≠ .latent op cs) → SameBytes u s) ∧
      (∀ k x, inRange d r k = true → kvGet u.dir k = some x →
        (heldAway d x = false ∧ ∀ op cs, x ≠ .latent op cs) ∨ (kvGet u.devs k).isSome = true) ∧
      ∀ e y, e ≠ d → y ∈ (u.die e).replicas → inRange d r y.key = false

/-- REGISTER_WRITE of 8 bytes to a register that holds what it is given leaves its writable bits there, one of its low 4 bytes
leaves the high half, and neither changes another of these registers; a read-only register and a misaligned or odd-sized write
change nothing (R113-R115, R304, R305); a core's AGELIM is stored and comes into effect with the next pass (R110, R116). OVPPUSH
and OVPPOP work the pool as a list through the blocks' first bytes (R184). HEATDECAY halves every counter (R302). BENDTAKE takes
a unit or answers 0, BENDCNT sets the count, BENDCTL binds a bend whose kinds may be bound (R327). A write to GSTAT clears the
record (R111). A write of ATTGO's low half starts nothing (R304). ATTGO writes 4 KiB that hold the nonce, every die's firmware digest,
which dies are fenced and the anti-rollback version, after a signature index of the hub's key, and clears bit 0 (R315); where they
stand, and the bytes of the signature, are the model's and free (log 4). -/
def Obligations.SoftwareRegisters : Prop := ∀ (s : State) (d : Nat), dieGo s d = true →
  let x := s.die d
  let b := 65536 * d + fld x.bendsel 0 16
  let holds : List (Nat × Nat × DWord) :=
    [(0x80, 0x1010, 0x000FFFFFFFFFFF81), (0x90, 0x1012, 0x000FFFFFFFFFFF80), (0x180, 0x1030, 0x01FFFFFFFFFFF000),
     (0x200, 0x1040, 0x000FFFFFFFFFF001), (0x8400, 0x8400, 0xFFFF), (0x8520, 0x8520, 0xFFFFFFFFFFFFFFFF),
     (0x8528, 0x8528, 0xFFFFFFFFFFFFFFFF), (0x8530, 0x8530, 0xFFFFFFFFFFFFFFFF), (0x8600, 0x8600, 0x000FFFFFFFFFF01F),
     (0x8608, 0x8608, 0x000FFFFFFFFFF01F), (0x8708, 0x8708, 0xFFFFFFFFFFFFFFFF)]
  (∀ off r m v, (off, r, m) ∈ holds →
    (Does s (.registerWrite d off 8 v) fun u => u = { s with dies := u.dies } ∧ (∀ e, e ≠ d → u.die e = s.die e) ∧
      readReg u d r = (v &&& m).toNat ∧ ∀ h, h ∈ holds → h.2.1 ≠ r → readReg u d h.2.1 = readReg s d h.2.1) ∧
    Does s (.registerWrite d off 4 v) fun u => u = { s with dies := u.dies } ∧
      readReg u d r = (BitVec.ofNat 64 (readReg s d r / 2 ^ 32 * 2 ^ 32 + v.toNat % 2 ^ 32) &&& m).toNat) ∧
  (∀ off v, off ∈ [0x0, 0x8, 0x10, 0x110, 0x8308, 0x8310, 0x8318, 0x8510, 0x8518] →
    exec (.registerWrite d off 8 v) s = .next s ∧ exec (.registerWrite d off 4 v) s = .next s) ∧
  (∀ off size v, (size ≠ 4 ∧ size ≠ 8) ∨ off % size ≠ 0 → exec (.registerWrite d off size v) s = .next s) ∧
  (∀ c v, c < 128 → Does s (.registerWrite d (0x100000 + 0x1000 * c + 8) 4 v) fun u => u = { s with cores := u.cores } ∧
    (∀ g, g ≠ 128 * d + c → u.core g = s.core g) ∧ (u.core (128 * d + c)).eff = (s.core (128 * d + c)).eff ∧
    (u.core (128 * d + c)).csr = { (s.core (128 * d + c)).csr with agelim := v.setWidth 32 &&& 0xFFFF }) ∧
  (∀ v k, physKey s d (fld v 8 44 * 256) = some k → Settled s (k / 64) → HeatOff s → Settles s (.ovppush d v) fun u =>
    Stored u s k (leBytes 8 x.ovpHead) ∧ u.threads = s.threads ∧
    u.die d = { x with ovpHead := fld v 8 44 * 256, ovpfree := x.ovpfree + 1 }) ∧
  (x.ovpfree = 0 → exec (.ovppop d) s = .next (s.emit (.regData d 0))) ∧
  (∀ s1 bs, x.ovpfree ≠ 0 → readPhys s d x.ovpHead 8 = (s1, some bs) → Does s (.ovppop d) fun u =>
    u = { s1 with dies := u.dies, out := s1.out ++ [.regData d (BitVec.ofNat 64 x.ovpHead)] } ∧
    u.die d = { s1.die d with ovpHead := ofLe bs / 256 * 256, ovpfree := (s1.die d).ovpfree - 1 }) ∧
  (∀ k, physKey s d (fld x.heatbase 12 40 * 4096) = some k →
    (∀ e, e ∈ s.dir → 64 * e.1 + 64 ≤ k ∨ k + 2 * (Config.ddrBytes / 4096) ≤ 64 * e.1) →
    Settles s (.heatdecay d) fun u => u = { s with mem := u.mem } ∧
      (∀ i, i < Config.ddrBytes / 4096 → ofLe (cellGets u.mem (k + 2 * i) 2) = ofLe (cellGets s.mem (k + 2 * i) 2) / 2) ∧
      ∀ a, a < k ∨ k + 2 * (Config.ddrBytes / 4096) ≤ a → cellGet u.mem a = cellGet s.mem a) ∧
  ((s.bend b).valid = true → fld (s.bend b).wait 61 3 = 5 → (s.bend b).count ≠ 0 →
    exec (.bendtake d) s = .next ((s.setBend b { s.bend b with count := (s.bend b).count - 1 }).emit (.regData d 1))) ∧
  ((s.bend b).valid = false ∨ fld (s.bend b).wait 61 3 ≠ 5 ∨ (s.bend b).count = 0 →
    exec (.bendtake d) s = .next (s.emit (.regData d 0))) ∧
  (∀ v, bendWaiters s b = [] → Settles s (.bendcntWrite d v) fun u => u = s.setBend b { s.bend b with count := v }) ∧
  (∀ v : DWord, Does s (.bendctlWrite d v) fun u => u = { s with bends := u.bends } ∧ (∀ c, c ≠ b → u.bend c = s.bend c) ∧
    u.bend b = { s.bend b with valid := v.getLsbD 0 && ((s.bend b).valid ||
      (decide (fld (s.bend b).sig 61 3 ≤ 5) && (fld (s.bend b).wait 61 3 == 1 || fld (s.bend b).wait 61 3 == 5))) }) ∧
  (∀ g (v : DWord), dieOf g = d → Does s (.gstatClear g v) fun u => u = { s with cores := u.cores } ∧
    (∀ h, h ≠ g → u.core h = s.core h) ∧ u.core g = { s.core g with gstat := (u.core g).gstat } ∧
    (u.core g).gstat.getLsbD 1 = ((s.core g).gstat.getLsbD 1 && !v.getLsbD 1) ∧
    ∀ i, i ≠ 1 → (u.core g).gstat.getLsbD i = ((s.core g).gstat.getLsbD i && !v.getLsbD 0)) ∧
  (∀ v, Does s (.registerWrite d 0x8220 4 v) fun u => u = { s with dies := u.dies } ∧ (∀ e, e ≠ d → u.die e = s.die e) ∧
    u.die d = { x with attgo := (u.die d).attgo }) ∧
  ∀ (v : DWord) k, v.getLsbD 0 = true →
    let n := kvGetD 0 s.sigs 8
    (s.hubReady = false ∨ Config.xmssLeaves ≤ n → Does s (.attgo d v) fun u => u = { s with dies := u.dies } ∧
      u.die d = { x with attgo := v &&& 0x000FFFFFFFFFF001, attWait := true }) ∧
    (s.hubReady = true → n < Config.xmssLeaves → physKey s d (fld v 12 40 * 4096) = some k →
      (∀ i, i < 64 → Settled s (k / 64 + i)) → HeatOff s →
      (∀ i, i < 32 → reportByte s d i = BitVec.ofNat 8 ((kvGetD 0 x.attnonce (i / 8)).toNat / 2 ^ (8 * (i % 8)))) ∧
      (∀ e i, e < 8 → i < 32 → reportByte s d (32 + 32 * e + i) = Config.fwDigest e i) ∧
      (∀ e, e < 8 → (reportByte s d 288).getLsbD e = (s.die e).fenced) ∧
      (∀ i, i < 4 → reportByte s d (292 + i) = BitVec.ofNat 8 (Config.rollback.toNat / 2 ^ (8 * i))) ∧
      Settles s (.attgo d v) fun u =>
        Stored u s k ((List.range 4096).map (reportByte s d)) ∧ u.threads = s.threads ∧
        kvGetD 0 u.sigs 8 = n + 1 ∧ u.die d = { x with attgo := v &&& 0x000FFFFFFFFFF000, attWait := false })

/-! ## Links, hosts and management -/

/-- The link events complete on a ready port whose buffer and list of waiting messages are empty (R308-R311). A data flit whose CRC fails, or whose number is not the next one, is
answered by a negative acknowledgement; the next one is acknowledged and, where this package is its destination, its message
takes effect: a read of memory of this package is answered with its bytes, a write is performed at its home, a signal that
passes the check is counted, and answered. Stop and go govern the sender; an acknowledgement empties the retry buffer up to
its flit, and either lets go what waited at the port for room, in its order; a negative one replays from its flit, counted in RETRIES; an idle flit does nothing. LINK_TIMEOUT and LINK_RETRAIN
take the link down, counted in DOWNS and recorded, and LINK_TRAINED brings it up, with vectors 1 and 2 on every die.
The model's own choices in it: the kinds of message and the answer to a signal (log 20), the record's die and address
(log 66), any other number as a gap (log 68), a vector on every die (log 71), and that a link going down or coming up starts its
sequence numbers afresh with an empty retry buffer (log 99). -/
def Obligations.Links : Prop := ∀ (s : State) (p : Nat),
  let x := s.port p
  let own := ownPkg s p
  let up (v : Nat) : List Out := ((List.range 8).filter (dieUp s)).map fun d => Out.msix d v
  let Port1 (u : State) (y : Port) : Prop :=
    u = { s with ports := u.ports, out := u.out } ∧ u.port p = y ∧ ∀ q, q ≠ p → u.port q = s.port q
  let Answers (u : State) (m : LinkMsg) : Prop :=
    let f : Flit := ⟨x.nextSeq, x.peer, true, m⟩
    u.port p = { x with expect := (x.expect + 1) % 4096, nextSeq := (x.nextSeq + 1) % 4096, retry := x.retry ++ [f] } ∧
    u.out = s.out ++ [.linkAck p x.expect, .linkFlit p f]
  let Sends (u : State) (y : Port) (left : List Flit) : Prop :=
    let n := if y.stopped then 0 else Config.linkFlits - left.length
    let fs := (y.unsent.take n).mapIdx fun i m => (⟨(x.nextSeq + i) % 4096, x.peer, true, mapKey (wireKey own) m⟩ : Flit)
    Port1 u { y with unsent := y.unsent.drop n, nextSeq := (x.nextSeq + fs.length) % 4096, retry := left ++ fs } ∧
    u.out = s.out ++ fs.map (.linkFlit p)
  (x.ready = true →
    (∀ f : Flit, f.crcOk = false ∨ f.seq ≠ x.expect → exec (.linkDataFlit p f) s = .next (s.emit (.linkNak p x.expect))) ∧
    (x.late = [] → x.wait = [] → x.saidStop = false → (∀ q, q ∈ s.ports → q.1 ≠ p → q.2.late = [] ∧ q.2.wait = []) →
      (∀ (a d : Nat) (bs : List Byte), homeDie a = some d → dieGo s d = true → (s.die d).held = [] → keyWaits s d a = false →
        a % 64 + bs.length ≤ 64 → bs ≠ [] → Settled s (a / 64) → HeatOff s →
        Settles s (.linkDataFlit p ⟨x.expect, own, true, .write (wireKey own a) bs⟩) (fun u => Stored u s a bs ∧ u.threads = s.threads ∧
          u.port p = { x with expect := (x.expect + 1) % 4096 } ∧ u.out = s.out ++ [.linkAck p x.expect]) ∧
        (x.stopped = false → x.unsent = [] → x.retry.length < Config.linkFlits →
          Settles s (.linkDataFlit p ⟨x.expect, own, true, .read (wireKey own a) bs.length⟩) fun u => SameBytes u s ∧ u.threads = s.threads ∧
            Answers u (.data (bytesAt s a bs.length) ((List.range bs.length).filter fun j => poisoned s (a + j) 1)))) ∧
      (∀ (d num lrec team : Nat) (k : Nat), d < 8 → dieGo s d = true → k = 65536 * d + num →
        x.stopped = false → x.unsent = [] → x.retry.length < Config.linkFlits →
        sigCheck (s.bend k) 1 lrec team = none → bendWaiters s k = [] → (s.bend k).count.toNat < 2 ^ 64 - 1 →
        Settles s (.linkDataFlit p ⟨x.expect, own, true, .signal d num 1 lrec team⟩) fun u =>
          u.bend k = { s.bend k with count := (s.bend k).count + 1 } ∧ (∀ c, c ≠ k → u.bend c = s.bend c) ∧ u.mem = s.mem ∧
          Answers u (.counted d num)) ∧
      Settles s (.linkGoFlit p) (fun u => Sends u { x with stopped := false } x.retry) ∧
      Settles s (.linkIdleFlit p) (fun u => Port1 u x ∧ u.out = s.out) ∧
      ∀ n, x.retry.any (·.seq == n) = true → Settles s (.linkAckFlit p n) fun u =>
        let left := (x.retry.dropWhile (·.seq != n)).tail
        Sends u { x with retry := left, fails := 0 } left) ∧
    Does s (.linkStopFlit p) (fun u => Port1 u { x with stopped := true } ∧ u.out = s.out) ∧
    (∀ n again, again = x.retry.dropWhile (·.seq != n) → again ≠ [] → x.fails < 16 → Does s (.linkNakFlit p n) fun u =>
      Port1 u { x with retry := again, fails := x.fails + 1, retries := BitVec.ofNat 32 (min 0xFFFF (x.retries.toNat + 1)) } ∧
      u.out = s.out ++ again.map (.linkFlit p)) ∧
    (∀ d i, d = portDie s p → i = .linkTimeout p ∨ i = .linkRetrain p → partsThrough s p = [] → s.devs = [] →
      (∀ a q e n w, a ∈ s.accs → a.2.kind = .bsig q e n w → q = x.peer → a.2.queued = false) →
      (∀ e, (s.die e).inval = none) → (s.die d).held.length < Config.heldRecords →
      ((s.die d).fqtail - (s.die d).fqhead).toNat = fqSize (s.die d) →
      Settles s i fun u => u.mem = s.mem ∧ u.threads = s.threads ∧ u.accs = s.accs ∧ u.out = s.out ++ up 1 ++ up 2 ∧
        u.port p = { x with
          ready := false, stopped := false, saidStop := false, expect := 0, nextSeq := 0, retry := [], unsent := [], fails := 0,
          downs := min 127 (x.downs + 1) } ∧
        u.die d = (if dieUp s d = true then { s.die d with held := (s.die d).held ++ [FRec.plain 6 0x23 8 0] } else s.die d) ∧
        ∀ e, e ≠ d → u.die e = s.die e)) ∧
  (x.ready = false → ∀ peer, p < 32 → peer < 512 →
    ((s.die (2 * (p / 8))).fenced = false ∨ (s.die (2 * (p / 8) + 1)).fenced = false) →
    Settles s (.linkTrained p peer) fun u => Port1 u { x with
      ready := true, peer := peer, stopped := false, saidStop := false, expect := 0, nextSeq := 0, retry := [], unsent := [], fails := 0 } ∧
      u.out = s.out ++ up 1 ++ up 2)

/-- HOST_READ and HOST_WRITE reach a die's memory as coherent accesses, and its register window as register writes (R303, R304,
R306). HOST_PORT_TRAINED, DIE_AUTHENTICATION and FUNCTION_READY bring the functions up with vector 1 (R307, R311-R314), and
MODULE_RESET puts everything but the contents of memory back (R5, R312; log 1). POWER_SAMPLE sets PWRNOW and TEMPMAX, and
slows the arithmetic clock above the limit (R316). THERMAL_STOP stops a clock above 105 degrees and THERMAL_RESTART starts it
below 95 and hands on what waited, each with vector 3 (R316, R317). An uncorrectable error of any structure leaves poison where it is
and a record with that structure's SUB, a link that fails goes down with one, and a corrected error counts in CECNT (R299, R300, R309).
The model's own choices in it: the addresses of a host's accesses (log 72), a vector on every die (log 71), the
fields of an error's record (log 73), one clock step for a sample (log 74), that the links of a pair of dies that are both fenced go
down as at a timeout (log 99), the order in which what waited is handed on (log 75), and the granules and copies that a mark
of poison covers (log 8). -/
def Obligations.HostsAndManagement : Prop := ∀ (s : State) (d : Nat), d < 8 →
  let x := s.die d
  let up (u : State) (v : Nat) : List Out := ((List.range 8).filter (dieUp u)).map fun e => Out.msix e v
  let Die1 (u : State) (y : Die) : Prop := u = { s with dies := u.dies, out := u.out } ∧ u.die d = y ∧ ∀ e, e ≠ d → u.die e = s.die e
  (hostUp s d = true → dieGo s d = true →
    (∀ (a n : Nat) (bs : List Byte), anyStopped s = false → HeatOff s → x.held = [] → a + n ≤ Config.ddrBytes → 0 < n →
      n = bs.length → (∀ k, Settled s k) →
      Settles s (.hostRead d a n) (fun u => SameBytes u s ∧ u.threads = s.threads ∧
        u.out = s.out ++ [.hostData d (bytesAt s (2 ^ 38 * d + a) n) (poisoned s (2 ^ 38 * d + a) n)]) ∧
      Settles s (.hostWrite d a bs) fun u => Stored u s (2 ^ 38 * d + a) bs ∧ u.threads = s.threads ∧ u.out = s.out) ∧
    ∀ (off : Nat) (bs : List Byte), off < 2 ^ 26 →
      exec (.hostWrite d (2 ^ 48 + off) bs) s = exec (.registerWrite d off bs.length (BitVec.ofNat 64 (ofLe bs))) s) ∧
  (d % 2 = 0 → x.hostReady = false → Settles s (.hostPortTrained d) fun u =>
    Die1 u { x with hostReady := true } ∧ u.out = s.out ++ if x.fenced = false then [.msix d 1]
      else if (s.die (d + 1)).fenced = false then [.msix (d + 1) 1] else []) ∧
  (x.ready = false → x.fenced = false →
    (x.auth = false → ∀ fw au,
      let n (i : Nat) : Nat := kvGetD 0 s.sigs i
      let ok : Prop := fw = true ∧ au = true ∧ n d < Config.xmssLeaves ∧ n 8 < Config.xmssLeaves
      let other := if d % 2 = 0 then d + 1 else d - 1
      Does s (.dieAuthentication d fw au) fun u =>
        ∃ v : State, v = { s with dies := v.dies, sigs := v.sigs } ∧ (∀ e, e ≠ d → v.die e = s.die e) ∧
        (ok → v.die d = { x with auth := true }) ∧ (¬ ok → v.die d = { x with fenced := true }) ∧
        (∀ i, kvGetD 0 v.sigs i = if fw = true ∧ (i = d ∨ i = 8) ∧ n i < Config.xmssLeaves then n i + 1 else n i) ∧
        (ok ∨ (s.die other).fenced = false → u = v) ∧
        (¬ ok → (s.die other).fenced = true → u = (List.range 8).foldl (fun w m =>
          match exec (.linkTimeout (8 * (d / 2) + m)) w with
            | .next w' => w'
            | _ => w) v)) ∧
    (x.auth = true → Settles s (.functionReady d false) fun u =>
      Die1 u { Die.reset with
        ready := true, auth := true, hostReady := x.hostReady, stopped := x.stopped, cyc := x.cyc, waiting := x.waiting } ∧
      u.out = s.out ++ up u 1)) ∧
  (s.hubReady = false → s.hubFenced = false → (∀ e, (s.die e).attWait = false) → Settles s (.functionReady d true) fun u =>
    u = { s with hubReady := true, out := s.out ++ up s 1 }) ∧
  (Does s .moduleReset fun u => u = { State.reset with
    mem := s.mem, poison := s.poison, sigs := s.sigs, seq := s.seq, agenda := s.agenda, out := s.out, free := s.free }) ∧
  (∀ watts temps, Does s (.powerSample watts temps) fun u =>
    u = { s with pwrnow := u.pwrnow, tempmax := u.tempmax, slow := u.slow, temps := temps } ∧
    u.pwrnow.toNat = min 4095 watts ∧ (∀ c, c ∈ temps → min 255 c ≤ u.tempmax.toNat) ∧
    (u.tempmax = 0 ∨ ∃ c, c ∈ temps ∧ u.tempmax.toNat = min 255 c) ∧
    u.slow = if watts ≤ min 2400 s.pwrlim.toNat ∨ 70 ≤ s.slow then s.slow else s.slow + 1) ∧
  (x.stopped = false → degrees s d ≤ 105 → exec (.thermalStop d) s = .next s) ∧
  (x.stopped = false → 105 < degrees s d → Does s (.thermalStop d) fun u =>
    Die1 u { x with stopped := true } ∧ u.out = s.out ++ up s 3) ∧
  (s.hubStopped = false → 105 < degrees s 8 → exec (.thermalStop 8) s =
    .next { s with hubStopped := true, out := s.out ++ up s 3 }) ∧
  (x.stopped = true → 95 ≤ degrees s d → exec (.thermalRestart d) s = .next s) ∧
  (x.stopped = true → degrees s d < 95 → Does s (.thermalRestart d) fun u =>
    u = { s with dies := u.dies, out := s.out ++ up s 3, agenda := x.waiting ++ s.agenda } ∧
    u.die d = { x with stopped := false, waiting := [] } ∧ ∀ e, e ≠ d → u.die e = s.die e) ∧
  (dieUp s d = true →
    (Settles s (.uncorrectableError (.corrected d)) fun u => u.out = s.out ∧
      Die1 u { x with cecnt := if x.cecnt = 0xFFFFFFFFFFFFFFFF then x.cecnt else x.cecnt + 1 }) ∧
    (∀ sub key, 2 ≤ sub → sub ≤ 4 → ∃ v r, exec (.uncorrectableError (.memory d sub key)) s = .next (settle (report v d r)) ∧
      ((∀ h y, kvGet s.dir (key / 64) ≠ some (.modified h y)) → v = { s with poison := natAdd s.poison (key / 16) }) ∧
      (∀ h y, kvGet s.dir (key / 64) = some (.modified h y) → v = { s with teams := v.teams } ∧
        ∀ k m, s.team k = some m → ∃ ys, v.team k = some { m with stash := ys } ∧ ys = if h ≠ .stash k then m.stash
          else m.stash.map fun z => if z.key = key / 64 ∧ z.modified = true then { z with was := natAdd z.was (key / 16) } else z) ∧
      r.cause = 0x23 ∧ r.sub = sub ∧ r.repl = false ∧ r.addr = dieAddr (key / 16 * 16) ∧ r.req = if sub = 3 then 7 else 5) ∧
    (∀ g key, dieOf g = d → ∃ v r, exec (.uncorrectableError (.l1 g key)) s = .next (settle (report v d r)) ∧
      r.cause = 0x23 ∧ r.sub = 1 ∧ r.req = 5 ∧ r.core = g ∧ r.addr = dieAddr (key / 16 * 16) ∧
      let k := key / 64
      let q := key % 64 / 16
      (∀ y, kvGet (s.core g).nc k = some y → v = { s with cores := v.cores } ∧
        kvGet (v.core g).nc k = some { y with poison := natAdd y.poison q }) ∧
      (kvGet (s.core g).nc k = none →
        (holderState s k (.l1 g) = .m → v = { s with poison := natAdd s.poison (key / 16) }) ∧
        (holderState s k (.l1 g) = .s ∨ holderState s k (.l1 g) = .e → v = { s with cores := v.cores } ∧
          kvGet (v.core g).l1Poison k = some (natAdd (kvGetD [] (s.core g).l1Poison k) q)))) ∧
    (∀ g a, dieOf g = d → a < Config.spadBytes → ∃ v r, exec (.uncorrectableError (.scratchpad g a)) s = .next (settle (report v d r)) ∧
      r.cause = 0x23 ∧ r.sub = 5 ∧ r.req = 0 ∧ r.core = g ∧ r.addr = a / 4 * 4 ∧
      (∀ h, v.core h = if h = g then { s.core g with spadPoison := natAdd (s.core g).spadPoison (a / 4) } else s.core h) ∧
      ((∀ t y, t ∈ s.teams → y ∈ t.2.stash → y.modified = false) → v = { s with cores := v.cores })) ∧
    (∀ g n i tk j t, dieOf g = d → coreTile s.teams g n = some (tk, j) → s.team tk = some t → ∃ v r y,
      exec (.uncorrectableError (.tile g n i)) s = .next (settle (report v d r)) ∧
      r.cause = 0x23 ∧ r.sub = 7 ∧ r.req = 2 ∧ r.core = g ∧ r.addr = i ∧ r.tslot = n ∧
      v = { s with teams := v.teams } ∧ (∀ k, k ≠ tk → v.team k = s.team k) ∧ v.team tk = some { t with tiles := y } ∧
      ∀ z, t.tiles[j]? = some z → y[j]? = some
        (if i < 16384 then { z with poison := natAdd z.poison i } else { z with scalePoison := natAdd z.scalePoison (i - 16384) })) ∧
    (∀ p n, portDie s p = d → (s.port p).ready = true → (s.port p).retry.any (·.seq == n) = true → 16 ≤ (s.port p).fails →
      s.accs = [] → s.devs = [] → (∀ e, (s.die e).inval = none) → x.held.length < Config.heldRecords →
      (x.fqtail - x.fqhead).toNat = fqSize x → Settles s (.linkNakFlit p n) fun u => (u.port p).ready = false ∧
        (u.die d).held = x.held ++ [FRec.plain 6 0x23 8 0]) ∧
    ∀ k reg, dieOf (coreOf k) = d → reg < 128 → ∃ v r, exec (.uncorrectableError (.register k reg)) s = .next (settle (report v d r)) ∧
      v = { s with threads := v.threads } ∧ (∀ i, i ≠ k → v.thread i = s.thread i) ∧
      v.thread k = { s.thread k with bad := natAdd (s.thread k).bad reg } ∧ r.cause = 0x23 ∧ r.sub = 6 ∧ r.tslot = slotOf k)
end

