-- ==== Sys2Proof/Laws/Kv.lean ====
section
/-! SUPPORT. Reading a map after an update. -/
namespace Sys2Proof.Machine

@[simp] theorem kvGet_nil {α : Type} (k : Nat) : kvGet ([] : Kv α) k = none := rfl

@[simp] theorem kvGet_kvPut {α : Type} (m : Kv α) (k : Nat) (v : α) (i : Nat) :
    kvGet (kvPut m k v) i = if k = i then some v else kvGet m i := by
  induction m with
  | nil => rfl
  | cons e m ih =>
    simp only [kvPut]
    split
    · simp only [kvGet, ih]; split <;> (try split) <;> first | rfl | omega
    · split
      · simp only [kvGet]; split <;> (try split) <;> first | rfl | omega
      · simp only [kvGet]

@[simp] theorem kvGet_kvDel {α : Type} (m : Kv α) (k i : Nat) :
    kvGet (kvDel m k) i = if k = i then none else kvGet m i := by
  induction m with
  | nil => simp [kvDel, kvGet]
  | cons e m ih =>
    simp only [kvDel]
    split
    · simp only [kvGet, ih]; split <;> (try split) <;> first | rfl | omega
    · simp only [kvGet, ih]; split <;> (try split) <;> first | rfl | omega

@[simp] theorem kvGetD_kvPut {α : Type} (x : α) (m : Kv α) (k : Nat) (v : α) (i : Nat) :
    kvGetD x (kvPut m k v) i = if k = i then v else kvGetD x m i := by
  by_cases h : k = i <;> simp [kvGetD, h]

@[simp] theorem kvGetD_kvDel {α : Type} (x : α) (m : Kv α) (k i : Nat) :
    kvGetD x (kvDel m k) i = if k = i then x else kvGetD x m i := by
  by_cases h : k = i <;> simp [kvGetD, h]

@[simp] theorem kvGetD_kvSet {α : Type} [DecidableEq α] (x : α) (m : Kv α) (k : Nat) (v : α) (i : Nat) :
    kvGetD x (kvSet x m k v) i = if k = i then v else kvGetD x m i := by
  by_cases hv : v = x <;> by_cases h : k = i <;> simp [kvSet, hv, h]

theorem kvGet_mem {α : Type} {m : Kv α} {k : Nat} {v : α} (h : kvGet m k = some v) : (k, v) ∈ m := by
  induction m with
  | nil => cases h
  | cons e m ih =>
    simp only [kvGet] at h
    split at h
    · rename_i hk
      cases h
      subst hk
      exact List.mem_cons_self
    · exact List.mem_cons_of_mem _ (ih h)

end Sys2Proof.Machine
end

