-- ==== Sys2Proof/Laws/State.lean ====
section
/-! SUPPORT. What each update of the state leaves and writes: one lemma per field and update, and reads through the
accessors. -/
namespace Sys2Proof.Machine

@[simp] theorem State.setThread_mem (s : State) (k : Nat) (x : Thread) :
    (s.setThread k x).mem = s.mem := rfl
@[simp] theorem State.setThread_poison (s : State) (k : Nat) (x : Thread) :
    (s.setThread k x).poison = s.poison := rfl
@[simp] theorem State.setThread_dir (s : State) (k : Nat) (x : Thread) :
    (s.setThread k x).dir = s.dir := rfl
@[simp] theorem State.setThread_devs (s : State) (k : Nat) (x : Thread) :
    (s.setThread k x).devs = s.devs := rfl
@[simp] theorem State.setThread_teams (s : State) (k : Nat) (x : Thread) :
    (s.setThread k x).teams = s.teams := rfl
@[simp] theorem State.setThread_passes (s : State) (k : Nat) (x : Thread) :
    (s.setThread k x).passes = s.passes := rfl
@[simp] theorem State.setThread_cores (s : State) (k : Nat) (x : Thread) :
    (s.setThread k x).cores = s.cores := rfl
@[simp] theorem State.setThread_dies (s : State) (k : Nat) (x : Thread) :
    (s.setThread k x).dies = s.dies := rfl
@[simp] theorem State.setThread_bends (s : State) (k : Nat) (x : Thread) :
    (s.setThread k x).bends = s.bends := rfl
@[simp] theorem State.setThread_launches (s : State) (k : Nat) (x : Thread) :
    (s.setThread k x).launches = s.launches := rfl
@[simp] theorem State.setThread_accs (s : State) (k : Nat) (x : Thread) :
    (s.setThread k x).accs = s.accs := rfl
@[simp] theorem State.setThread_ports (s : State) (k : Nat) (x : Thread) :
    (s.setThread k x).ports = s.ports := rfl
@[simp] theorem State.setThread_hubReady (s : State) (k : Nat) (x : Thread) :
    (s.setThread k x).hubReady = s.hubReady := rfl
@[simp] theorem State.setThread_hubFenced (s : State) (k : Nat) (x : Thread) :
    (s.setThread k x).hubFenced = s.hubFenced := rfl
@[simp] theorem State.setThread_hubStopped (s : State) (k : Nat) (x : Thread) :
    (s.setThread k x).hubStopped = s.hubStopped := rfl
@[simp] theorem State.setThread_pwrlim (s : State) (k : Nat) (x : Thread) :
    (s.setThread k x).pwrlim = s.pwrlim := rfl
@[simp] theorem State.setThread_pwrnow (s : State) (k : Nat) (x : Thread) :
    (s.setThread k x).pwrnow = s.pwrnow := rfl
@[simp] theorem State.setThread_tempmax (s : State) (k : Nat) (x : Thread) :
    (s.setThread k x).tempmax = s.tempmax := rfl
@[simp] theorem State.setThread_temps (s : State) (k : Nat) (x : Thread) :
    (s.setThread k x).temps = s.temps := rfl
@[simp] theorem State.setThread_sigs (s : State) (k : Nat) (x : Thread) :
    (s.setThread k x).sigs = s.sigs := rfl
@[simp] theorem State.setThread_slow (s : State) (k : Nat) (x : Thread) :
    (s.setThread k x).slow = s.slow := rfl
@[simp] theorem State.setThread_seq (s : State) (k : Nat) (x : Thread) :
    (s.setThread k x).seq = s.seq := rfl
@[simp] theorem State.setThread_agenda (s : State) (k : Nat) (x : Thread) :
    (s.setThread k x).agenda = s.agenda := rfl
@[simp] theorem State.setThread_turn (s : State) (k : Nat) (x : Thread) :
    (s.setThread k x).turn = s.turn := rfl
@[simp] theorem State.setThread_cur (s : State) (k : Nat) (x : Thread) :
    (s.setThread k x).cur = s.cur := rfl
@[simp] theorem State.setThread_blocked (s : State) (k : Nat) (x : Thread) :
    (s.setThread k x).blocked = s.blocked := rfl
@[simp] theorem State.setThread_out (s : State) (k : Nat) (x : Thread) :
    (s.setThread k x).out = s.out := rfl
@[simp] theorem State.setThread_free (s : State) (k : Nat) (x : Thread) :
    (s.setThread k x).free = s.free := rfl
@[simp] theorem State.setThread_threads (s : State) (k : Nat) (x : Thread) :
    (s.setThread k x).threads = kvPut s.threads k x := rfl
@[simp] theorem State.setThread_team (s : State) (k : Nat) (x : Thread) (i : Nat) :
    (s.setThread k x).team i = s.team i := rfl
@[simp] theorem State.setThread_pass (s : State) (k : Nat) (x : Thread) (i : Nat) :
    (s.setThread k x).pass i = s.pass i := rfl
@[simp] theorem State.setThread_core (s : State) (k : Nat) (x : Thread) (i : Nat) :
    (s.setThread k x).core i = s.core i := rfl
@[simp] theorem State.setThread_die (s : State) (k : Nat) (x : Thread) (i : Nat) :
    (s.setThread k x).die i = s.die i := rfl
@[simp] theorem State.setThread_bend (s : State) (k : Nat) (x : Thread) (i : Nat) :
    (s.setThread k x).bend i = s.bend i := rfl
@[simp] theorem State.setThread_launch (s : State) (k : Nat) (x : Thread) (i : Nat) :
    (s.setThread k x).launch i = s.launch i := rfl
@[simp] theorem State.setThread_acc (s : State) (k : Nat) (x : Thread) (i : Nat) :
    (s.setThread k x).acc i = s.acc i := rfl
@[simp] theorem State.setThread_port (s : State) (k : Nat) (x : Thread) (i : Nat) :
    (s.setThread k x).port i = s.port i := rfl
@[simp] theorem State.setThread_thread (s : State) (k : Nat) (x : Thread) (i : Nat) :
    (s.setThread k x).thread i = if k = i then x else s.thread i := by simp [State.thread]
@[simp] theorem State.setCore_mem (s : State) (k : Nat) (x : Core) :
    (s.setCore k x).mem = s.mem := rfl
@[simp] theorem State.setCore_poison (s : State) (k : Nat) (x : Core) :
    (s.setCore k x).poison = s.poison := rfl
@[simp] theorem State.setCore_dir (s : State) (k : Nat) (x : Core) :
    (s.setCore k x).dir = s.dir := rfl
@[simp] theorem State.setCore_devs (s : State) (k : Nat) (x : Core) :
    (s.setCore k x).devs = s.devs := rfl
@[simp] theorem State.setCore_threads (s : State) (k : Nat) (x : Core) :
    (s.setCore k x).threads = s.threads := rfl
@[simp] theorem State.setCore_teams (s : State) (k : Nat) (x : Core) :
    (s.setCore k x).teams = s.teams := rfl
@[simp] theorem State.setCore_passes (s : State) (k : Nat) (x : Core) :
    (s.setCore k x).passes = s.passes := rfl
@[simp] theorem State.setCore_dies (s : State) (k : Nat) (x : Core) :
    (s.setCore k x).dies = s.dies := rfl
@[simp] theorem State.setCore_bends (s : State) (k : Nat) (x : Core) :
    (s.setCore k x).bends = s.bends := rfl
@[simp] theorem State.setCore_launches (s : State) (k : Nat) (x : Core) :
    (s.setCore k x).launches = s.launches := rfl
@[simp] theorem State.setCore_accs (s : State) (k : Nat) (x : Core) :
    (s.setCore k x).accs = s.accs := rfl
@[simp] theorem State.setCore_ports (s : State) (k : Nat) (x : Core) :
    (s.setCore k x).ports = s.ports := rfl
@[simp] theorem State.setCore_hubReady (s : State) (k : Nat) (x : Core) :
    (s.setCore k x).hubReady = s.hubReady := rfl
@[simp] theorem State.setCore_hubFenced (s : State) (k : Nat) (x : Core) :
    (s.setCore k x).hubFenced = s.hubFenced := rfl
@[simp] theorem State.setCore_hubStopped (s : State) (k : Nat) (x : Core) :
    (s.setCore k x).hubStopped = s.hubStopped := rfl
@[simp] theorem State.setCore_pwrlim (s : State) (k : Nat) (x : Core) :
    (s.setCore k x).pwrlim = s.pwrlim := rfl
@[simp] theorem State.setCore_pwrnow (s : State) (k : Nat) (x : Core) :
    (s.setCore k x).pwrnow = s.pwrnow := rfl
@[simp] theorem State.setCore_tempmax (s : State) (k : Nat) (x : Core) :
    (s.setCore k x).tempmax = s.tempmax := rfl
@[simp] theorem State.setCore_temps (s : State) (k : Nat) (x : Core) :
    (s.setCore k x).temps = s.temps := rfl
@[simp] theorem State.setCore_sigs (s : State) (k : Nat) (x : Core) :
    (s.setCore k x).sigs = s.sigs := rfl
@[simp] theorem State.setCore_slow (s : State) (k : Nat) (x : Core) :
    (s.setCore k x).slow = s.slow := rfl
@[simp] theorem State.setCore_seq (s : State) (k : Nat) (x : Core) :
    (s.setCore k x).seq = s.seq := rfl
@[simp] theorem State.setCore_agenda (s : State) (k : Nat) (x : Core) :
    (s.setCore k x).agenda = s.agenda := rfl
@[simp] theorem State.setCore_turn (s : State) (k : Nat) (x : Core) :
    (s.setCore k x).turn = s.turn := rfl
@[simp] theorem State.setCore_cur (s : State) (k : Nat) (x : Core) :
    (s.setCore k x).cur = s.cur := rfl
@[simp] theorem State.setCore_blocked (s : State) (k : Nat) (x : Core) :
    (s.setCore k x).blocked = s.blocked := rfl
@[simp] theorem State.setCore_out (s : State) (k : Nat) (x : Core) :
    (s.setCore k x).out = s.out := rfl
@[simp] theorem State.setCore_free (s : State) (k : Nat) (x : Core) :
    (s.setCore k x).free = s.free := rfl
@[simp] theorem State.setCore_cores (s : State) (k : Nat) (x : Core) :
    (s.setCore k x).cores = kvPut s.cores k x := rfl
@[simp] theorem State.setCore_thread (s : State) (k : Nat) (x : Core) (i : Nat) :
    (s.setCore k x).thread i = s.thread i := rfl
@[simp] theorem State.setCore_team (s : State) (k : Nat) (x : Core) (i : Nat) :
    (s.setCore k x).team i = s.team i := rfl
@[simp] theorem State.setCore_pass (s : State) (k : Nat) (x : Core) (i : Nat) :
    (s.setCore k x).pass i = s.pass i := rfl
@[simp] theorem State.setCore_die (s : State) (k : Nat) (x : Core) (i : Nat) :
    (s.setCore k x).die i = s.die i := rfl
@[simp] theorem State.setCore_bend (s : State) (k : Nat) (x : Core) (i : Nat) :
    (s.setCore k x).bend i = s.bend i := rfl
@[simp] theorem State.setCore_launch (s : State) (k : Nat) (x : Core) (i : Nat) :
    (s.setCore k x).launch i = s.launch i := rfl
@[simp] theorem State.setCore_acc (s : State) (k : Nat) (x : Core) (i : Nat) :
    (s.setCore k x).acc i = s.acc i := rfl
@[simp] theorem State.setCore_port (s : State) (k : Nat) (x : Core) (i : Nat) :
    (s.setCore k x).port i = s.port i := rfl
@[simp] theorem State.setCore_core (s : State) (k : Nat) (x : Core) (i : Nat) :
    (s.setCore k x).core i = if k = i then x else s.core i := by simp [State.core]
@[simp] theorem State.setDie_mem (s : State) (k : Nat) (x : Die) :
    (s.setDie k x).mem = s.mem := rfl
@[simp] theorem State.setDie_poison (s : State) (k : Nat) (x : Die) :
    (s.setDie k x).poison = s.poison := rfl
@[simp] theorem State.setDie_dir (s : State) (k : Nat) (x : Die) :
    (s.setDie k x).dir = s.dir := rfl
@[simp] theorem State.setDie_devs (s : State) (k : Nat) (x : Die) :
    (s.setDie k x).devs = s.devs := rfl
@[simp] theorem State.setDie_threads (s : State) (k : Nat) (x : Die) :
    (s.setDie k x).threads = s.threads := rfl
@[simp] theorem State.setDie_teams (s : State) (k : Nat) (x : Die) :
    (s.setDie k x).teams = s.teams := rfl
@[simp] theorem State.setDie_passes (s : State) (k : Nat) (x : Die) :
    (s.setDie k x).passes = s.passes := rfl
@[simp] theorem State.setDie_cores (s : State) (k : Nat) (x : Die) :
    (s.setDie k x).cores = s.cores := rfl
@[simp] theorem State.setDie_bends (s : State) (k : Nat) (x : Die) :
    (s.setDie k x).bends = s.bends := rfl
@[simp] theorem State.setDie_launches (s : State) (k : Nat) (x : Die) :
    (s.setDie k x).launches = s.launches := rfl
@[simp] theorem State.setDie_accs (s : State) (k : Nat) (x : Die) :
    (s.setDie k x).accs = s.accs := rfl
@[simp] theorem State.setDie_ports (s : State) (k : Nat) (x : Die) :
    (s.setDie k x).ports = s.ports := rfl
@[simp] theorem State.setDie_hubReady (s : State) (k : Nat) (x : Die) :
    (s.setDie k x).hubReady = s.hubReady := rfl
@[simp] theorem State.setDie_hubFenced (s : State) (k : Nat) (x : Die) :
    (s.setDie k x).hubFenced = s.hubFenced := rfl
@[simp] theorem State.setDie_hubStopped (s : State) (k : Nat) (x : Die) :
    (s.setDie k x).hubStopped = s.hubStopped := rfl
@[simp] theorem State.setDie_pwrlim (s : State) (k : Nat) (x : Die) :
    (s.setDie k x).pwrlim = s.pwrlim := rfl
@[simp] theorem State.setDie_pwrnow (s : State) (k : Nat) (x : Die) :
    (s.setDie k x).pwrnow = s.pwrnow := rfl
@[simp] theorem State.setDie_tempmax (s : State) (k : Nat) (x : Die) :
    (s.setDie k x).tempmax = s.tempmax := rfl
@[simp] theorem State.setDie_temps (s : State) (k : Nat) (x : Die) :
    (s.setDie k x).temps = s.temps := rfl
@[simp] theorem State.setDie_sigs (s : State) (k : Nat) (x : Die) :
    (s.setDie k x).sigs = s.sigs := rfl
@[simp] theorem State.setDie_slow (s : State) (k : Nat) (x : Die) :
    (s.setDie k x).slow = s.slow := rfl
@[simp] theorem State.setDie_seq (s : State) (k : Nat) (x : Die) :
    (s.setDie k x).seq = s.seq := rfl
@[simp] theorem State.setDie_agenda (s : State) (k : Nat) (x : Die) :
    (s.setDie k x).agenda = s.agenda := rfl
@[simp] theorem State.setDie_turn (s : State) (k : Nat) (x : Die) :
    (s.setDie k x).turn = s.turn := rfl
@[simp] theorem State.setDie_cur (s : State) (k : Nat) (x : Die) :
    (s.setDie k x).cur = s.cur := rfl
@[simp] theorem State.setDie_blocked (s : State) (k : Nat) (x : Die) :
    (s.setDie k x).blocked = s.blocked := rfl
@[simp] theorem State.setDie_out (s : State) (k : Nat) (x : Die) :
    (s.setDie k x).out = s.out := rfl
@[simp] theorem State.setDie_free (s : State) (k : Nat) (x : Die) :
    (s.setDie k x).free = s.free := rfl
@[simp] theorem State.setDie_dies (s : State) (k : Nat) (x : Die) :
    (s.setDie k x).dies = kvPut s.dies k x := rfl
@[simp] theorem State.setDie_thread (s : State) (k : Nat) (x : Die) (i : Nat) :
    (s.setDie k x).thread i = s.thread i := rfl
@[simp] theorem State.setDie_team (s : State) (k : Nat) (x : Die) (i : Nat) :
    (s.setDie k x).team i = s.team i := rfl
@[simp] theorem State.setDie_pass (s : State) (k : Nat) (x : Die) (i : Nat) :
    (s.setDie k x).pass i = s.pass i := rfl
@[simp] theorem State.setDie_core (s : State) (k : Nat) (x : Die) (i : Nat) :
    (s.setDie k x).core i = s.core i := rfl
@[simp] theorem State.setDie_bend (s : State) (k : Nat) (x : Die) (i : Nat) :
    (s.setDie k x).bend i = s.bend i := rfl
@[simp] theorem State.setDie_launch (s : State) (k : Nat) (x : Die) (i : Nat) :
    (s.setDie k x).launch i = s.launch i := rfl
@[simp] theorem State.setDie_acc (s : State) (k : Nat) (x : Die) (i : Nat) :
    (s.setDie k x).acc i = s.acc i := rfl
@[simp] theorem State.setDie_port (s : State) (k : Nat) (x : Die) (i : Nat) :
    (s.setDie k x).port i = s.port i := rfl
@[simp] theorem State.setDie_die (s : State) (k : Nat) (x : Die) (i : Nat) :
    (s.setDie k x).die i = if k = i then x else s.die i := by simp [State.die]
@[simp] theorem State.setTeam_mem (s : State) (k : Nat) (x : Team) :
    (s.setTeam k x).mem = s.mem := rfl
@[simp] theorem State.setTeam_poison (s : State) (k : Nat) (x : Team) :
    (s.setTeam k x).poison = s.poison := rfl
@[simp] theorem State.setTeam_dir (s : State) (k : Nat) (x : Team) :
    (s.setTeam k x).dir = s.dir := rfl
@[simp] theorem State.setTeam_devs (s : State) (k : Nat) (x : Team) :
    (s.setTeam k x).devs = s.devs := rfl
@[simp] theorem State.setTeam_threads (s : State) (k : Nat) (x : Team) :
    (s.setTeam k x).threads = s.threads := rfl
@[simp] theorem State.setTeam_passes (s : State) (k : Nat) (x : Team) :
    (s.setTeam k x).passes = s.passes := rfl
@[simp] theorem State.setTeam_cores (s : State) (k : Nat) (x : Team) :
    (s.setTeam k x).cores = s.cores := rfl
@[simp] theorem State.setTeam_dies (s : State) (k : Nat) (x : Team) :
    (s.setTeam k x).dies = s.dies := rfl
@[simp] theorem State.setTeam_bends (s : State) (k : Nat) (x : Team) :
    (s.setTeam k x).bends = s.bends := rfl
@[simp] theorem State.setTeam_launches (s : State) (k : Nat) (x : Team) :
    (s.setTeam k x).launches = s.launches := rfl
@[simp] theorem State.setTeam_accs (s : State) (k : Nat) (x : Team) :
    (s.setTeam k x).accs = s.accs := rfl
@[simp] theorem State.setTeam_ports (s : State) (k : Nat) (x : Team) :
    (s.setTeam k x).ports = s.ports := rfl
@[simp] theorem State.setTeam_hubReady (s : State) (k : Nat) (x : Team) :
    (s.setTeam k x).hubReady = s.hubReady := rfl
@[simp] theorem State.setTeam_hubFenced (s : State) (k : Nat) (x : Team) :
    (s.setTeam k x).hubFenced = s.hubFenced := rfl
@[simp] theorem State.setTeam_hubStopped (s : State) (k : Nat) (x : Team) :
    (s.setTeam k x).hubStopped = s.hubStopped := rfl
@[simp] theorem State.setTeam_pwrlim (s : State) (k : Nat) (x : Team) :
    (s.setTeam k x).pwrlim = s.pwrlim := rfl
@[simp] theorem State.setTeam_pwrnow (s : State) (k : Nat) (x : Team) :
    (s.setTeam k x).pwrnow = s.pwrnow := rfl
@[simp] theorem State.setTeam_tempmax (s : State) (k : Nat) (x : Team) :
    (s.setTeam k x).tempmax = s.tempmax := rfl
@[simp] theorem State.setTeam_temps (s : State) (k : Nat) (x : Team) :
    (s.setTeam k x).temps = s.temps := rfl
@[simp] theorem State.setTeam_sigs (s : State) (k : Nat) (x : Team) :
    (s.setTeam k x).sigs = s.sigs := rfl
@[simp] theorem State.setTeam_slow (s : State) (k : Nat) (x : Team) :
    (s.setTeam k x).slow = s.slow := rfl
@[simp] theorem State.setTeam_seq (s : State) (k : Nat) (x : Team) :
    (s.setTeam k x).seq = s.seq := rfl
@[simp] theorem State.setTeam_agenda (s : State) (k : Nat) (x : Team) :
    (s.setTeam k x).agenda = s.agenda := rfl
@[simp] theorem State.setTeam_turn (s : State) (k : Nat) (x : Team) :
    (s.setTeam k x).turn = s.turn := rfl
@[simp] theorem State.setTeam_cur (s : State) (k : Nat) (x : Team) :
    (s.setTeam k x).cur = s.cur := rfl
@[simp] theorem State.setTeam_blocked (s : State) (k : Nat) (x : Team) :
    (s.setTeam k x).blocked = s.blocked := rfl
@[simp] theorem State.setTeam_out (s : State) (k : Nat) (x : Team) :
    (s.setTeam k x).out = s.out := rfl
@[simp] theorem State.setTeam_free (s : State) (k : Nat) (x : Team) :
    (s.setTeam k x).free = s.free := rfl
@[simp] theorem State.setTeam_teams (s : State) (k : Nat) (x : Team) :
    (s.setTeam k x).teams = kvPut s.teams k x := rfl
@[simp] theorem State.setTeam_thread (s : State) (k : Nat) (x : Team) (i : Nat) :
    (s.setTeam k x).thread i = s.thread i := rfl
@[simp] theorem State.setTeam_pass (s : State) (k : Nat) (x : Team) (i : Nat) :
    (s.setTeam k x).pass i = s.pass i := rfl
@[simp] theorem State.setTeam_core (s : State) (k : Nat) (x : Team) (i : Nat) :
    (s.setTeam k x).core i = s.core i := rfl
@[simp] theorem State.setTeam_die (s : State) (k : Nat) (x : Team) (i : Nat) :
    (s.setTeam k x).die i = s.die i := rfl
@[simp] theorem State.setTeam_bend (s : State) (k : Nat) (x : Team) (i : Nat) :
    (s.setTeam k x).bend i = s.bend i := rfl
@[simp] theorem State.setTeam_launch (s : State) (k : Nat) (x : Team) (i : Nat) :
    (s.setTeam k x).launch i = s.launch i := rfl
@[simp] theorem State.setTeam_acc (s : State) (k : Nat) (x : Team) (i : Nat) :
    (s.setTeam k x).acc i = s.acc i := rfl
@[simp] theorem State.setTeam_port (s : State) (k : Nat) (x : Team) (i : Nat) :
    (s.setTeam k x).port i = s.port i := rfl
@[simp] theorem State.setTeam_team (s : State) (k : Nat) (x : Team) (i : Nat) :
    (s.setTeam k x).team i = if k = i then some x else s.team i := by simp [State.team]
@[simp] theorem State.setLaunch_mem (s : State) (k : Nat) (x : Launch) :
    (s.setLaunch k x).mem = s.mem := rfl
@[simp] theorem State.setLaunch_poison (s : State) (k : Nat) (x : Launch) :
    (s.setLaunch k x).poison = s.poison := rfl
@[simp] theorem State.setLaunch_dir (s : State) (k : Nat) (x : Launch) :
    (s.setLaunch k x).dir = s.dir := rfl
@[simp] theorem State.setLaunch_devs (s : State) (k : Nat) (x : Launch) :
    (s.setLaunch k x).devs = s.devs := rfl
@[simp] theorem State.setLaunch_threads (s : State) (k : Nat) (x : Launch) :
    (s.setLaunch k x).threads = s.threads := rfl
@[simp] theorem State.setLaunch_teams (s : State) (k : Nat) (x : Launch) :
    (s.setLaunch k x).teams = s.teams := rfl
@[simp] theorem State.setLaunch_passes (s : State) (k : Nat) (x : Launch) :
    (s.setLaunch k x).passes = s.passes := rfl
@[simp] theorem State.setLaunch_cores (s : State) (k : Nat) (x : Launch) :
    (s.setLaunch k x).cores = s.cores := rfl
@[simp] theorem State.setLaunch_dies (s : State) (k : Nat) (x : Launch) :
    (s.setLaunch k x).dies = s.dies := rfl
@[simp] theorem State.setLaunch_bends (s : State) (k : Nat) (x : Launch) :
    (s.setLaunch k x).bends = s.bends := rfl
@[simp] theorem State.setLaunch_accs (s : State) (k : Nat) (x : Launch) :
    (s.setLaunch k x).accs = s.accs := rfl
@[simp] theorem State.setLaunch_ports (s : State) (k : Nat) (x : Launch) :
    (s.setLaunch k x).ports = s.ports := rfl
@[simp] theorem State.setLaunch_hubReady (s : State) (k : Nat) (x : Launch) :
    (s.setLaunch k x).hubReady = s.hubReady := rfl
@[simp] theorem State.setLaunch_hubFenced (s : State) (k : Nat) (x : Launch) :
    (s.setLaunch k x).hubFenced = s.hubFenced := rfl
@[simp] theorem State.setLaunch_hubStopped (s : State) (k : Nat) (x : Launch) :
    (s.setLaunch k x).hubStopped = s.hubStopped := rfl
@[simp] theorem State.setLaunch_pwrlim (s : State) (k : Nat) (x : Launch) :
    (s.setLaunch k x).pwrlim = s.pwrlim := rfl
@[simp] theorem State.setLaunch_pwrnow (s : State) (k : Nat) (x : Launch) :
    (s.setLaunch k x).pwrnow = s.pwrnow := rfl
@[simp] theorem State.setLaunch_tempmax (s : State) (k : Nat) (x : Launch) :
    (s.setLaunch k x).tempmax = s.tempmax := rfl
@[simp] theorem State.setLaunch_temps (s : State) (k : Nat) (x : Launch) :
    (s.setLaunch k x).temps = s.temps := rfl
@[simp] theorem State.setLaunch_sigs (s : State) (k : Nat) (x : Launch) :
    (s.setLaunch k x).sigs = s.sigs := rfl
@[simp] theorem State.setLaunch_slow (s : State) (k : Nat) (x : Launch) :
    (s.setLaunch k x).slow = s.slow := rfl
@[simp] theorem State.setLaunch_seq (s : State) (k : Nat) (x : Launch) :
    (s.setLaunch k x).seq = s.seq := rfl
@[simp] theorem State.setLaunch_agenda (s : State) (k : Nat) (x : Launch) :
    (s.setLaunch k x).agenda = s.agenda := rfl
@[simp] theorem State.setLaunch_turn (s : State) (k : Nat) (x : Launch) :
    (s.setLaunch k x).turn = s.turn := rfl
@[simp] theorem State.setLaunch_cur (s : State) (k : Nat) (x : Launch) :
    (s.setLaunch k x).cur = s.cur := rfl
@[simp] theorem State.setLaunch_blocked (s : State) (k : Nat) (x : Launch) :
    (s.setLaunch k x).blocked = s.blocked := rfl
@[simp] theorem State.setLaunch_out (s : State) (k : Nat) (x : Launch) :
    (s.setLaunch k x).out = s.out := rfl
@[simp] theorem State.setLaunch_free (s : State) (k : Nat) (x : Launch) :
    (s.setLaunch k x).free = s.free := rfl
@[simp] theorem State.setLaunch_launches (s : State) (k : Nat) (x : Launch) :
    (s.setLaunch k x).launches = kvPut s.launches k x := rfl
@[simp] theorem State.setLaunch_thread (s : State) (k : Nat) (x : Launch) (i : Nat) :
    (s.setLaunch k x).thread i = s.thread i := rfl
@[simp] theorem State.setLaunch_team (s : State) (k : Nat) (x : Launch) (i : Nat) :
    (s.setLaunch k x).team i = s.team i := rfl
@[simp] theorem State.setLaunch_pass (s : State) (k : Nat) (x : Launch) (i : Nat) :
    (s.setLaunch k x).pass i = s.pass i := rfl
@[simp] theorem State.setLaunch_core (s : State) (k : Nat) (x : Launch) (i : Nat) :
    (s.setLaunch k x).core i = s.core i := rfl
@[simp] theorem State.setLaunch_die (s : State) (k : Nat) (x : Launch) (i : Nat) :
    (s.setLaunch k x).die i = s.die i := rfl
@[simp] theorem State.setLaunch_bend (s : State) (k : Nat) (x : Launch) (i : Nat) :
    (s.setLaunch k x).bend i = s.bend i := rfl
@[simp] theorem State.setLaunch_acc (s : State) (k : Nat) (x : Launch) (i : Nat) :
    (s.setLaunch k x).acc i = s.acc i := rfl
@[simp] theorem State.setLaunch_port (s : State) (k : Nat) (x : Launch) (i : Nat) :
    (s.setLaunch k x).port i = s.port i := rfl
@[simp] theorem State.setLaunch_launch (s : State) (k : Nat) (x : Launch) (i : Nat) :
    (s.setLaunch k x).launch i = if k = i then some x else s.launch i := by simp [State.launch]
@[simp] theorem State.setBend_mem (s : State) (k : Nat) (x : Bend) :
    (s.setBend k x).mem = s.mem := rfl
@[simp] theorem State.setBend_poison (s : State) (k : Nat) (x : Bend) :
    (s.setBend k x).poison = s.poison := rfl
@[simp] theorem State.setBend_dir (s : State) (k : Nat) (x : Bend) :
    (s.setBend k x).dir = s.dir := rfl
@[simp] theorem State.setBend_devs (s : State) (k : Nat) (x : Bend) :
    (s.setBend k x).devs = s.devs := rfl
@[simp] theorem State.setBend_threads (s : State) (k : Nat) (x : Bend) :
    (s.setBend k x).threads = s.threads := rfl
@[simp] theorem State.setBend_teams (s : State) (k : Nat) (x : Bend) :
    (s.setBend k x).teams = s.teams := rfl
@[simp] theorem State.setBend_passes (s : State) (k : Nat) (x : Bend) :
    (s.setBend k x).passes = s.passes := rfl
@[simp] theorem State.setBend_cores (s : State) (k : Nat) (x : Bend) :
    (s.setBend k x).cores = s.cores := rfl
@[simp] theorem State.setBend_dies (s : State) (k : Nat) (x : Bend) :
    (s.setBend k x).dies = s.dies := rfl
@[simp] theorem State.setBend_launches (s : State) (k : Nat) (x : Bend) :
    (s.setBend k x).launches = s.launches := rfl
@[simp] theorem State.setBend_accs (s : State) (k : Nat) (x : Bend) :
    (s.setBend k x).accs = s.accs := rfl
@[simp] theorem State.setBend_ports (s : State) (k : Nat) (x : Bend) :
    (s.setBend k x).ports = s.ports := rfl
@[simp] theorem State.setBend_hubReady (s : State) (k : Nat) (x : Bend) :
    (s.setBend k x).hubReady = s.hubReady := rfl
@[simp] theorem State.setBend_hubFenced (s : State) (k : Nat) (x : Bend) :
    (s.setBend k x).hubFenced = s.hubFenced := rfl
@[simp] theorem State.setBend_hubStopped (s : State) (k : Nat) (x : Bend) :
    (s.setBend k x).hubStopped = s.hubStopped := rfl
@[simp] theorem State.setBend_pwrlim (s : State) (k : Nat) (x : Bend) :
    (s.setBend k x).pwrlim = s.pwrlim := rfl
@[simp] theorem State.setBend_pwrnow (s : State) (k : Nat) (x : Bend) :
    (s.setBend k x).pwrnow = s.pwrnow := rfl
@[simp] theorem State.setBend_tempmax (s : State) (k : Nat) (x : Bend) :
    (s.setBend k x).tempmax = s.tempmax := rfl
@[simp] theorem State.setBend_temps (s : State) (k : Nat) (x : Bend) :
    (s.setBend k x).temps = s.temps := rfl
@[simp] theorem State.setBend_sigs (s : State) (k : Nat) (x : Bend) :
    (s.setBend k x).sigs = s.sigs := rfl
@[simp] theorem State.setBend_slow (s : State) (k : Nat) (x : Bend) :
    (s.setBend k x).slow = s.slow := rfl
@[simp] theorem State.setBend_seq (s : State) (k : Nat) (x : Bend) :
    (s.setBend k x).seq = s.seq := rfl
@[simp] theorem State.setBend_agenda (s : State) (k : Nat) (x : Bend) :
    (s.setBend k x).agenda = s.agenda := rfl
@[simp] theorem State.setBend_turn (s : State) (k : Nat) (x : Bend) :
    (s.setBend k x).turn = s.turn := rfl
@[simp] theorem State.setBend_cur (s : State) (k : Nat) (x : Bend) :
    (s.setBend k x).cur = s.cur := rfl
@[simp] theorem State.setBend_blocked (s : State) (k : Nat) (x : Bend) :
    (s.setBend k x).blocked = s.blocked := rfl
@[simp] theorem State.setBend_out (s : State) (k : Nat) (x : Bend) :
    (s.setBend k x).out = s.out := rfl
@[simp] theorem State.setBend_free (s : State) (k : Nat) (x : Bend) :
    (s.setBend k x).free = s.free := rfl
@[simp] theorem State.setBend_bends (s : State) (k : Nat) (x : Bend) :
    (s.setBend k x).bends = kvPut s.bends k x := rfl
@[simp] theorem State.setBend_thread (s : State) (k : Nat) (x : Bend) (i : Nat) :
    (s.setBend k x).thread i = s.thread i := rfl
@[simp] theorem State.setBend_team (s : State) (k : Nat) (x : Bend) (i : Nat) :
    (s.setBend k x).team i = s.team i := rfl
@[simp] theorem State.setBend_pass (s : State) (k : Nat) (x : Bend) (i : Nat) :
    (s.setBend k x).pass i = s.pass i := rfl
@[simp] theorem State.setBend_core (s : State) (k : Nat) (x : Bend) (i : Nat) :
    (s.setBend k x).core i = s.core i := rfl
@[simp] theorem State.setBend_die (s : State) (k : Nat) (x : Bend) (i : Nat) :
    (s.setBend k x).die i = s.die i := rfl
@[simp] theorem State.setBend_launch (s : State) (k : Nat) (x : Bend) (i : Nat) :
    (s.setBend k x).launch i = s.launch i := rfl
@[simp] theorem State.setBend_acc (s : State) (k : Nat) (x : Bend) (i : Nat) :
    (s.setBend k x).acc i = s.acc i := rfl
@[simp] theorem State.setBend_port (s : State) (k : Nat) (x : Bend) (i : Nat) :
    (s.setBend k x).port i = s.port i := rfl
@[simp] theorem State.setBend_bend (s : State) (k : Nat) (x : Bend) (i : Nat) :
    (s.setBend k x).bend i = if k = i then x else s.bend i := by simp [State.bend]
@[simp] theorem State.setPort_mem (s : State) (k : Nat) (x : Port) :
    (s.setPort k x).mem = s.mem := rfl
@[simp] theorem State.setPort_poison (s : State) (k : Nat) (x : Port) :
    (s.setPort k x).poison = s.poison := rfl
@[simp] theorem State.setPort_dir (s : State) (k : Nat) (x : Port) :
    (s.setPort k x).dir = s.dir := rfl
@[simp] theorem State.setPort_devs (s : State) (k : Nat) (x : Port) :
    (s.setPort k x).devs = s.devs := rfl
@[simp] theorem State.setPort_threads (s : State) (k : Nat) (x : Port) :
    (s.setPort k x).threads = s.threads := rfl
@[simp] theorem State.setPort_teams (s : State) (k : Nat) (x : Port) :
    (s.setPort k x).teams = s.teams := rfl
@[simp] theorem State.setPort_passes (s : State) (k : Nat) (x : Port) :
    (s.setPort k x).passes = s.passes := rfl
@[simp] theorem State.setPort_cores (s : State) (k : Nat) (x : Port) :
    (s.setPort k x).cores = s.cores := rfl
@[simp] theorem State.setPort_dies (s : State) (k : Nat) (x : Port) :
    (s.setPort k x).dies = s.dies := rfl
@[simp] theorem State.setPort_bends (s : State) (k : Nat) (x : Port) :
    (s.setPort k x).bends = s.bends := rfl
@[simp] theorem State.setPort_launches (s : State) (k : Nat) (x : Port) :
    (s.setPort k x).launches = s.launches := rfl
@[simp] theorem State.setPort_accs (s : State) (k : Nat) (x : Port) :
    (s.setPort k x).accs = s.accs := rfl
@[simp] theorem State.setPort_hubReady (s : State) (k : Nat) (x : Port) :
    (s.setPort k x).hubReady = s.hubReady := rfl
@[simp] theorem State.setPort_hubFenced (s : State) (k : Nat) (x : Port) :
    (s.setPort k x).hubFenced = s.hubFenced := rfl
@[simp] theorem State.setPort_hubStopped (s : State) (k : Nat) (x : Port) :
    (s.setPort k x).hubStopped = s.hubStopped := rfl
@[simp] theorem State.setPort_pwrlim (s : State) (k : Nat) (x : Port) :
    (s.setPort k x).pwrlim = s.pwrlim := rfl
@[simp] theorem State.setPort_pwrnow (s : State) (k : Nat) (x : Port) :
    (s.setPort k x).pwrnow = s.pwrnow := rfl
@[simp] theorem State.setPort_tempmax (s : State) (k : Nat) (x : Port) :
    (s.setPort k x).tempmax = s.tempmax := rfl
@[simp] theorem State.setPort_temps (s : State) (k : Nat) (x : Port) :
    (s.setPort k x).temps = s.temps := rfl
@[simp] theorem State.setPort_sigs (s : State) (k : Nat) (x : Port) :
    (s.setPort k x).sigs = s.sigs := rfl
@[simp] theorem State.setPort_slow (s : State) (k : Nat) (x : Port) :
    (s.setPort k x).slow = s.slow := rfl
@[simp] theorem State.setPort_seq (s : State) (k : Nat) (x : Port) :
    (s.setPort k x).seq = s.seq := rfl
@[simp] theorem State.setPort_agenda (s : State) (k : Nat) (x : Port) :
    (s.setPort k x).agenda = s.agenda := rfl
@[simp] theorem State.setPort_turn (s : State) (k : Nat) (x : Port) :
    (s.setPort k x).turn = s.turn := rfl
@[simp] theorem State.setPort_cur (s : State) (k : Nat) (x : Port) :
    (s.setPort k x).cur = s.cur := rfl
@[simp] theorem State.setPort_blocked (s : State) (k : Nat) (x : Port) :
    (s.setPort k x).blocked = s.blocked := rfl
@[simp] theorem State.setPort_out (s : State) (k : Nat) (x : Port) :
    (s.setPort k x).out = s.out := rfl
@[simp] theorem State.setPort_free (s : State) (k : Nat) (x : Port) :
    (s.setPort k x).free = s.free := rfl
@[simp] theorem State.setPort_ports (s : State) (k : Nat) (x : Port) :
    (s.setPort k x).ports = kvPut s.ports k x := rfl
@[simp] theorem State.setPort_thread (s : State) (k : Nat) (x : Port) (i : Nat) :
    (s.setPort k x).thread i = s.thread i := rfl
@[simp] theorem State.setPort_team (s : State) (k : Nat) (x : Port) (i : Nat) :
    (s.setPort k x).team i = s.team i := rfl
@[simp] theorem State.setPort_pass (s : State) (k : Nat) (x : Port) (i : Nat) :
    (s.setPort k x).pass i = s.pass i := rfl
@[simp] theorem State.setPort_core (s : State) (k : Nat) (x : Port) (i : Nat) :
    (s.setPort k x).core i = s.core i := rfl
@[simp] theorem State.setPort_die (s : State) (k : Nat) (x : Port) (i : Nat) :
    (s.setPort k x).die i = s.die i := rfl
@[simp] theorem State.setPort_bend (s : State) (k : Nat) (x : Port) (i : Nat) :
    (s.setPort k x).bend i = s.bend i := rfl
@[simp] theorem State.setPort_launch (s : State) (k : Nat) (x : Port) (i : Nat) :
    (s.setPort k x).launch i = s.launch i := rfl
@[simp] theorem State.setPort_acc (s : State) (k : Nat) (x : Port) (i : Nat) :
    (s.setPort k x).acc i = s.acc i := rfl
@[simp] theorem State.setPort_port (s : State) (k : Nat) (x : Port) (i : Nat) :
    (s.setPort k x).port i = if k = i then x else s.port i := by simp [State.port]
@[simp] theorem State.setPass_mem (s : State) (k : Nat) (x : Pass) :
    (s.setPass k x).mem = s.mem := rfl
@[simp] theorem State.setPass_poison (s : State) (k : Nat) (x : Pass) :
    (s.setPass k x).poison = s.poison := rfl
@[simp] theorem State.setPass_dir (s : State) (k : Nat) (x : Pass) :
    (s.setPass k x).dir = s.dir := rfl
@[simp] theorem State.setPass_devs (s : State) (k : Nat) (x : Pass) :
    (s.setPass k x).devs = s.devs := rfl
@[simp] theorem State.setPass_threads (s : State) (k : Nat) (x : Pass) :
    (s.setPass k x).threads = s.threads := rfl
@[simp] theorem State.setPass_teams (s : State) (k : Nat) (x : Pass) :
    (s.setPass k x).teams = s.teams := rfl
@[simp] theorem State.setPass_cores (s : State) (k : Nat) (x : Pass) :
    (s.setPass k x).cores = s.cores := rfl
@[simp] theorem State.setPass_dies (s : State) (k : Nat) (x : Pass) :
    (s.setPass k x).dies = s.dies := rfl
@[simp] theorem State.setPass_bends (s : State) (k : Nat) (x : Pass) :
    (s.setPass k x).bends = s.bends := rfl
@[simp] theorem State.setPass_launches (s : State) (k : Nat) (x : Pass) :
    (s.setPass k x).launches = s.launches := rfl
@[simp] theorem State.setPass_accs (s : State) (k : Nat) (x : Pass) :
    (s.setPass k x).accs = s.accs := rfl
@[simp] theorem State.setPass_ports (s : State) (k : Nat) (x : Pass) :
    (s.setPass k x).ports = s.ports := rfl
@[simp] theorem State.setPass_hubReady (s : State) (k : Nat) (x : Pass) :
    (s.setPass k x).hubReady = s.hubReady := rfl
@[simp] theorem State.setPass_hubFenced (s : State) (k : Nat) (x : Pass) :
    (s.setPass k x).hubFenced = s.hubFenced := rfl
@[simp] theorem State.setPass_hubStopped (s : State) (k : Nat) (x : Pass) :
    (s.setPass k x).hubStopped = s.hubStopped := rfl
@[simp] theorem State.setPass_pwrlim (s : State) (k : Nat) (x : Pass) :
    (s.setPass k x).pwrlim = s.pwrlim := rfl
@[simp] theorem State.setPass_pwrnow (s : State) (k : Nat) (x : Pass) :
    (s.setPass k x).pwrnow = s.pwrnow := rfl
@[simp] theorem State.setPass_tempmax (s : State) (k : Nat) (x : Pass) :
    (s.setPass k x).tempmax = s.tempmax := rfl
@[simp] theorem State.setPass_temps (s : State) (k : Nat) (x : Pass) :
    (s.setPass k x).temps = s.temps := rfl
@[simp] theorem State.setPass_sigs (s : State) (k : Nat) (x : Pass) :
    (s.setPass k x).sigs = s.sigs := rfl
@[simp] theorem State.setPass_slow (s : State) (k : Nat) (x : Pass) :
    (s.setPass k x).slow = s.slow := rfl
@[simp] theorem State.setPass_seq (s : State) (k : Nat) (x : Pass) :
    (s.setPass k x).seq = s.seq := rfl
@[simp] theorem State.setPass_agenda (s : State) (k : Nat) (x : Pass) :
    (s.setPass k x).agenda = s.agenda := rfl
@[simp] theorem State.setPass_turn (s : State) (k : Nat) (x : Pass) :
    (s.setPass k x).turn = s.turn := rfl
@[simp] theorem State.setPass_cur (s : State) (k : Nat) (x : Pass) :
    (s.setPass k x).cur = s.cur := rfl
@[simp] theorem State.setPass_blocked (s : State) (k : Nat) (x : Pass) :
    (s.setPass k x).blocked = s.blocked := rfl
@[simp] theorem State.setPass_out (s : State) (k : Nat) (x : Pass) :
    (s.setPass k x).out = s.out := rfl
@[simp] theorem State.setPass_free (s : State) (k : Nat) (x : Pass) :
    (s.setPass k x).free = s.free := rfl
@[simp] theorem State.setPass_passes (s : State) (k : Nat) (x : Pass) :
    (s.setPass k x).passes = kvPut s.passes k x := rfl
@[simp] theorem State.setPass_thread (s : State) (k : Nat) (x : Pass) (i : Nat) :
    (s.setPass k x).thread i = s.thread i := rfl
@[simp] theorem State.setPass_team (s : State) (k : Nat) (x : Pass) (i : Nat) :
    (s.setPass k x).team i = s.team i := rfl
@[simp] theorem State.setPass_core (s : State) (k : Nat) (x : Pass) (i : Nat) :
    (s.setPass k x).core i = s.core i := rfl
@[simp] theorem State.setPass_die (s : State) (k : Nat) (x : Pass) (i : Nat) :
    (s.setPass k x).die i = s.die i := rfl
@[simp] theorem State.setPass_bend (s : State) (k : Nat) (x : Pass) (i : Nat) :
    (s.setPass k x).bend i = s.bend i := rfl
@[simp] theorem State.setPass_launch (s : State) (k : Nat) (x : Pass) (i : Nat) :
    (s.setPass k x).launch i = s.launch i := rfl
@[simp] theorem State.setPass_acc (s : State) (k : Nat) (x : Pass) (i : Nat) :
    (s.setPass k x).acc i = s.acc i := rfl
@[simp] theorem State.setPass_port (s : State) (k : Nat) (x : Pass) (i : Nat) :
    (s.setPass k x).port i = s.port i := rfl
@[simp] theorem State.setPass_pass (s : State) (k : Nat) (x : Pass) (i : Nat) :
    (s.setPass k x).pass i = if k = i then some x else s.pass i := by simp [State.pass]
@[simp] theorem State.setAcc_mem (s : State) (k : Nat) (x : Access) :
    (s.setAcc k x).mem = s.mem := rfl
@[simp] theorem State.setAcc_poison (s : State) (k : Nat) (x : Access) :
    (s.setAcc k x).poison = s.poison := rfl
@[simp] theorem State.setAcc_dir (s : State) (k : Nat) (x : Access) :
    (s.setAcc k x).dir = s.dir := rfl
@[simp] theorem State.setAcc_devs (s : State) (k : Nat) (x : Access) :
    (s.setAcc k x).devs = s.devs := rfl
@[simp] theorem State.setAcc_threads (s : State) (k : Nat) (x : Access) :
    (s.setAcc k x).threads = s.threads := rfl
@[simp] theorem State.setAcc_teams (s : State) (k : Nat) (x : Access) :
    (s.setAcc k x).teams = s.teams := rfl
@[simp] theorem State.setAcc_passes (s : State) (k : Nat) (x : Access) :
    (s.setAcc k x).passes = s.passes := rfl
@[simp] theorem State.setAcc_cores (s : State) (k : Nat) (x : Access) :
    (s.setAcc k x).cores = s.cores := rfl
@[simp] theorem State.setAcc_dies (s : State) (k : Nat) (x : Access) :
    (s.setAcc k x).dies = s.dies := rfl
@[simp] theorem State.setAcc_bends (s : State) (k : Nat) (x : Access) :
    (s.setAcc k x).bends = s.bends := rfl
@[simp] theorem State.setAcc_launches (s : State) (k : Nat) (x : Access) :
    (s.setAcc k x).launches = s.launches := rfl
@[simp] theorem State.setAcc_ports (s : State) (k : Nat) (x : Access) :
    (s.setAcc k x).ports = s.ports := rfl
@[simp] theorem State.setAcc_hubReady (s : State) (k : Nat) (x : Access) :
    (s.setAcc k x).hubReady = s.hubReady := rfl
@[simp] theorem State.setAcc_hubFenced (s : State) (k : Nat) (x : Access) :
    (s.setAcc k x).hubFenced = s.hubFenced := rfl
@[simp] theorem State.setAcc_hubStopped (s : State) (k : Nat) (x : Access) :
    (s.setAcc k x).hubStopped = s.hubStopped := rfl
@[simp] theorem State.setAcc_pwrlim (s : State) (k : Nat) (x : Access) :
    (s.setAcc k x).pwrlim = s.pwrlim := rfl
@[simp] theorem State.setAcc_pwrnow (s : State) (k : Nat) (x : Access) :
    (s.setAcc k x).pwrnow = s.pwrnow := rfl
@[simp] theorem State.setAcc_tempmax (s : State) (k : Nat) (x : Access) :
    (s.setAcc k x).tempmax = s.tempmax := rfl
@[simp] theorem State.setAcc_temps (s : State) (k : Nat) (x : Access) :
    (s.setAcc k x).temps = s.temps := rfl
@[simp] theorem State.setAcc_sigs (s : State) (k : Nat) (x : Access) :
    (s.setAcc k x).sigs = s.sigs := rfl
@[simp] theorem State.setAcc_slow (s : State) (k : Nat) (x : Access) :
    (s.setAcc k x).slow = s.slow := rfl
@[simp] theorem State.setAcc_seq (s : State) (k : Nat) (x : Access) :
    (s.setAcc k x).seq = s.seq := rfl
@[simp] theorem State.setAcc_agenda (s : State) (k : Nat) (x : Access) :
    (s.setAcc k x).agenda = s.agenda := rfl
@[simp] theorem State.setAcc_turn (s : State) (k : Nat) (x : Access) :
    (s.setAcc k x).turn = s.turn := rfl
@[simp] theorem State.setAcc_cur (s : State) (k : Nat) (x : Access) :
    (s.setAcc k x).cur = s.cur := rfl
@[simp] theorem State.setAcc_blocked (s : State) (k : Nat) (x : Access) :
    (s.setAcc k x).blocked = s.blocked := rfl
@[simp] theorem State.setAcc_out (s : State) (k : Nat) (x : Access) :
    (s.setAcc k x).out = s.out := rfl
@[simp] theorem State.setAcc_free (s : State) (k : Nat) (x : Access) :
    (s.setAcc k x).free = s.free := rfl
@[simp] theorem State.setAcc_accs (s : State) (k : Nat) (x : Access) :
    (s.setAcc k x).accs = kvPut s.accs k x := rfl
@[simp] theorem State.setAcc_thread (s : State) (k : Nat) (x : Access) (i : Nat) :
    (s.setAcc k x).thread i = s.thread i := rfl
@[simp] theorem State.setAcc_team (s : State) (k : Nat) (x : Access) (i : Nat) :
    (s.setAcc k x).team i = s.team i := rfl
@[simp] theorem State.setAcc_pass (s : State) (k : Nat) (x : Access) (i : Nat) :
    (s.setAcc k x).pass i = s.pass i := rfl
@[simp] theorem State.setAcc_core (s : State) (k : Nat) (x : Access) (i : Nat) :
    (s.setAcc k x).core i = s.core i := rfl
@[simp] theorem State.setAcc_die (s : State) (k : Nat) (x : Access) (i : Nat) :
    (s.setAcc k x).die i = s.die i := rfl
@[simp] theorem State.setAcc_bend (s : State) (k : Nat) (x : Access) (i : Nat) :
    (s.setAcc k x).bend i = s.bend i := rfl
@[simp] theorem State.setAcc_launch (s : State) (k : Nat) (x : Access) (i : Nat) :
    (s.setAcc k x).launch i = s.launch i := rfl
@[simp] theorem State.setAcc_port (s : State) (k : Nat) (x : Access) (i : Nat) :
    (s.setAcc k x).port i = s.port i := rfl
@[simp] theorem State.setAcc_acc (s : State) (k : Nat) (x : Access) (i : Nat) :
    (s.setAcc k x).acc i = if k = i then some x else s.acc i := by simp [State.acc]
@[simp] theorem State.updThread_mem (s : State) (k : Nat) (g : Thread → Thread) :
    (s.updThread k g).mem = s.mem := rfl
@[simp] theorem State.updThread_poison (s : State) (k : Nat) (g : Thread → Thread) :
    (s.updThread k g).poison = s.poison := rfl
@[simp] theorem State.updThread_dir (s : State) (k : Nat) (g : Thread → Thread) :
    (s.updThread k g).dir = s.dir := rfl
@[simp] theorem State.updThread_devs (s : State) (k : Nat) (g : Thread → Thread) :
    (s.updThread k g).devs = s.devs := rfl
@[simp] theorem State.updThread_teams (s : State) (k : Nat) (g : Thread → Thread) :
    (s.updThread k g).teams = s.teams := rfl
@[simp] theorem State.updThread_passes (s : State) (k : Nat) (g : Thread → Thread) :
    (s.updThread k g).passes = s.passes := rfl
@[simp] theorem State.updThread_cores (s : State) (k : Nat) (g : Thread → Thread) :
    (s.updThread k g).cores = s.cores := rfl
@[simp] theorem State.updThread_dies (s : State) (k : Nat) (g : Thread → Thread) :
    (s.updThread k g).dies = s.dies := rfl
@[simp] theorem State.updThread_bends (s : State) (k : Nat) (g : Thread → Thread) :
    (s.updThread k g).bends = s.bends := rfl
@[simp] theorem State.updThread_launches (s : State) (k : Nat) (g : Thread → Thread) :
    (s.updThread k g).launches = s.launches := rfl
@[simp] theorem State.updThread_accs (s : State) (k : Nat) (g : Thread → Thread) :
    (s.updThread k g).accs = s.accs := rfl
@[simp] theorem State.updThread_ports (s : State) (k : Nat) (g : Thread → Thread) :
    (s.updThread k g).ports = s.ports := rfl
@[simp] theorem State.updThread_hubReady (s : State) (k : Nat) (g : Thread → Thread) :
    (s.updThread k g).hubReady = s.hubReady := rfl
@[simp] theorem State.updThread_hubFenced (s : State) (k : Nat) (g : Thread → Thread) :
    (s.updThread k g).hubFenced = s.hubFenced := rfl
@[simp] theorem State.updThread_hubStopped (s : State) (k : Nat) (g : Thread → Thread) :
    (s.updThread k g).hubStopped = s.hubStopped := rfl
@[simp] theorem State.updThread_pwrlim (s : State) (k : Nat) (g : Thread → Thread) :
    (s.updThread k g).pwrlim = s.pwrlim := rfl
@[simp] theorem State.updThread_pwrnow (s : State) (k : Nat) (g : Thread → Thread) :
    (s.updThread k g).pwrnow = s.pwrnow := rfl
@[simp] theorem State.updThread_tempmax (s : State) (k : Nat) (g : Thread → Thread) :
    (s.updThread k g).tempmax = s.tempmax := rfl
@[simp] theorem State.updThread_temps (s : State) (k : Nat) (g : Thread → Thread) :
    (s.updThread k g).temps = s.temps := rfl
@[simp] theorem State.updThread_sigs (s : State) (k : Nat) (g : Thread → Thread) :
    (s.updThread k g).sigs = s.sigs := rfl
@[simp] theorem State.updThread_slow (s : State) (k : Nat) (g : Thread → Thread) :
    (s.updThread k g).slow = s.slow := rfl
@[simp] theorem State.updThread_seq (s : State) (k : Nat) (g : Thread → Thread) :
    (s.updThread k g).seq = s.seq := rfl
@[simp] theorem State.updThread_agenda (s : State) (k : Nat) (g : Thread → Thread) :
    (s.updThread k g).agenda = s.agenda := rfl
@[simp] theorem State.updThread_turn (s : State) (k : Nat) (g : Thread → Thread) :
    (s.updThread k g).turn = s.turn := rfl
@[simp] theorem State.updThread_cur (s : State) (k : Nat) (g : Thread → Thread) :
    (s.updThread k g).cur = s.cur := rfl
@[simp] theorem State.updThread_blocked (s : State) (k : Nat) (g : Thread → Thread) :
    (s.updThread k g).blocked = s.blocked := rfl
@[simp] theorem State.updThread_out (s : State) (k : Nat) (g : Thread → Thread) :
    (s.updThread k g).out = s.out := rfl
@[simp] theorem State.updThread_free (s : State) (k : Nat) (g : Thread → Thread) :
    (s.updThread k g).free = s.free := rfl
@[simp] theorem State.updThread_team (s : State) (k : Nat) (g : Thread → Thread) (i : Nat) :
    (s.updThread k g).team i = s.team i := rfl
@[simp] theorem State.updThread_pass (s : State) (k : Nat) (g : Thread → Thread) (i : Nat) :
    (s.updThread k g).pass i = s.pass i := rfl
@[simp] theorem State.updThread_core (s : State) (k : Nat) (g : Thread → Thread) (i : Nat) :
    (s.updThread k g).core i = s.core i := rfl
@[simp] theorem State.updThread_die (s : State) (k : Nat) (g : Thread → Thread) (i : Nat) :
    (s.updThread k g).die i = s.die i := rfl
@[simp] theorem State.updThread_bend (s : State) (k : Nat) (g : Thread → Thread) (i : Nat) :
    (s.updThread k g).bend i = s.bend i := rfl
@[simp] theorem State.updThread_launch (s : State) (k : Nat) (g : Thread → Thread) (i : Nat) :
    (s.updThread k g).launch i = s.launch i := rfl
@[simp] theorem State.updThread_acc (s : State) (k : Nat) (g : Thread → Thread) (i : Nat) :
    (s.updThread k g).acc i = s.acc i := rfl
@[simp] theorem State.updThread_port (s : State) (k : Nat) (g : Thread → Thread) (i : Nat) :
    (s.updThread k g).port i = s.port i := rfl
@[simp] theorem State.updThread_thread (s : State) (k : Nat) (g : Thread → Thread) (i : Nat) :
    (s.updThread k g).thread i = if k = i then g (s.thread k) else s.thread i := by simp [State.updThread]
@[simp] theorem State.updCore_mem (s : State) (k : Nat) (g : Core → Core) :
    (s.updCore k g).mem = s.mem := rfl
@[simp] theorem State.updCore_poison (s : State) (k : Nat) (g : Core → Core) :
    (s.updCore k g).poison = s.poison := rfl
@[simp] theorem State.updCore_dir (s : State) (k : Nat) (g : Core → Core) :
    (s.updCore k g).dir = s.dir := rfl
@[simp] theorem State.updCore_devs (s : State) (k : Nat) (g : Core → Core) :
    (s.updCore k g).devs = s.devs := rfl
@[simp] theorem State.updCore_threads (s : State) (k : Nat) (g : Core → Core) :
    (s.updCore k g).threads = s.threads := rfl
@[simp] theorem State.updCore_teams (s : State) (k : Nat) (g : Core → Core) :
    (s.updCore k g).teams = s.teams := rfl
@[simp] theorem State.updCore_passes (s : State) (k : Nat) (g : Core → Core) :
    (s.updCore k g).passes = s.passes := rfl
@[simp] theorem State.updCore_dies (s : State) (k : Nat) (g : Core → Core) :
    (s.updCore k g).dies = s.dies := rfl
@[simp] theorem State.updCore_bends (s : State) (k : Nat) (g : Core → Core) :
    (s.updCore k g).bends = s.bends := rfl
@[simp] theorem State.updCore_launches (s : State) (k : Nat) (g : Core → Core) :
    (s.updCore k g).launches = s.launches := rfl
@[simp] theorem State.updCore_accs (s : State) (k : Nat) (g : Core → Core) :
    (s.updCore k g).accs = s.accs := rfl
@[simp] theorem State.updCore_ports (s : State) (k : Nat) (g : Core → Core) :
    (s.updCore k g).ports = s.ports := rfl
@[simp] theorem State.updCore_hubReady (s : State) (k : Nat) (g : Core → Core) :
    (s.updCore k g).hubReady = s.hubReady := rfl
@[simp] theorem State.updCore_hubFenced (s : State) (k : Nat) (g : Core → Core) :
    (s.updCore k g).hubFenced = s.hubFenced := rfl
@[simp] theorem State.updCore_hubStopped (s : State) (k : Nat) (g : Core → Core) :
    (s.updCore k g).hubStopped = s.hubStopped := rfl
@[simp] theorem State.updCore_pwrlim (s : State) (k : Nat) (g : Core → Core) :
    (s.updCore k g).pwrlim = s.pwrlim := rfl
@[simp] theorem State.updCore_pwrnow (s : State) (k : Nat) (g : Core → Core) :
    (s.updCore k g).pwrnow = s.pwrnow := rfl
@[simp] theorem State.updCore_tempmax (s : State) (k : Nat) (g : Core → Core) :
    (s.updCore k g).tempmax = s.tempmax := rfl
@[simp] theorem State.updCore_temps (s : State) (k : Nat) (g : Core → Core) :
    (s.updCore k g).temps = s.temps := rfl
@[simp] theorem State.updCore_sigs (s : State) (k : Nat) (g : Core → Core) :
    (s.updCore k g).sigs = s.sigs := rfl
@[simp] theorem State.updCore_slow (s : State) (k : Nat) (g : Core → Core) :
    (s.updCore k g).slow = s.slow := rfl
@[simp] theorem State.updCore_seq (s : State) (k : Nat) (g : Core → Core) :
    (s.updCore k g).seq = s.seq := rfl
@[simp] theorem State.updCore_agenda (s : State) (k : Nat) (g : Core → Core) :
    (s.updCore k g).agenda = s.agenda := rfl
@[simp] theorem State.updCore_turn (s : State) (k : Nat) (g : Core → Core) :
    (s.updCore k g).turn = s.turn := rfl
@[simp] theorem State.updCore_cur (s : State) (k : Nat) (g : Core → Core) :
    (s.updCore k g).cur = s.cur := rfl
@[simp] theorem State.updCore_blocked (s : State) (k : Nat) (g : Core → Core) :
    (s.updCore k g).blocked = s.blocked := rfl
@[simp] theorem State.updCore_out (s : State) (k : Nat) (g : Core → Core) :
    (s.updCore k g).out = s.out := rfl
@[simp] theorem State.updCore_free (s : State) (k : Nat) (g : Core → Core) :
    (s.updCore k g).free = s.free := rfl
@[simp] theorem State.updCore_thread (s : State) (k : Nat) (g : Core → Core) (i : Nat) :
    (s.updCore k g).thread i = s.thread i := rfl
@[simp] theorem State.updCore_team (s : State) (k : Nat) (g : Core → Core) (i : Nat) :
    (s.updCore k g).team i = s.team i := rfl
@[simp] theorem State.updCore_pass (s : State) (k : Nat) (g : Core → Core) (i : Nat) :
    (s.updCore k g).pass i = s.pass i := rfl
@[simp] theorem State.updCore_die (s : State) (k : Nat) (g : Core → Core) (i : Nat) :
    (s.updCore k g).die i = s.die i := rfl
@[simp] theorem State.updCore_bend (s : State) (k : Nat) (g : Core → Core) (i : Nat) :
    (s.updCore k g).bend i = s.bend i := rfl
@[simp] theorem State.updCore_launch (s : State) (k : Nat) (g : Core → Core) (i : Nat) :
    (s.updCore k g).launch i = s.launch i := rfl
@[simp] theorem State.updCore_acc (s : State) (k : Nat) (g : Core → Core) (i : Nat) :
    (s.updCore k g).acc i = s.acc i := rfl
@[simp] theorem State.updCore_port (s : State) (k : Nat) (g : Core → Core) (i : Nat) :
    (s.updCore k g).port i = s.port i := rfl
@[simp] theorem State.updCore_core (s : State) (k : Nat) (g : Core → Core) (i : Nat) :
    (s.updCore k g).core i = if k = i then g (s.core k) else s.core i := by simp [State.updCore]
@[simp] theorem State.updDie_mem (s : State) (k : Nat) (g : Die → Die) :
    (s.updDie k g).mem = s.mem := rfl
@[simp] theorem State.updDie_poison (s : State) (k : Nat) (g : Die → Die) :
    (s.updDie k g).poison = s.poison := rfl
@[simp] theorem State.updDie_dir (s : State) (k : Nat) (g : Die → Die) :
    (s.updDie k g).dir = s.dir := rfl
@[simp] theorem State.updDie_devs (s : State) (k : Nat) (g : Die → Die) :
    (s.updDie k g).devs = s.devs := rfl
@[simp] theorem State.updDie_threads (s : State) (k : Nat) (g : Die → Die) :
    (s.updDie k g).threads = s.threads := rfl
@[simp] theorem State.updDie_teams (s : State) (k : Nat) (g : Die → Die) :
    (s.updDie k g).teams = s.teams := rfl
@[simp] theorem State.updDie_passes (s : State) (k : Nat) (g : Die → Die) :
    (s.updDie k g).passes = s.passes := rfl
@[simp] theorem State.updDie_cores (s : State) (k : Nat) (g : Die → Die) :
    (s.updDie k g).cores = s.cores := rfl
@[simp] theorem State.updDie_bends (s : State) (k : Nat) (g : Die → Die) :
    (s.updDie k g).bends = s.bends := rfl
@[simp] theorem State.updDie_launches (s : State) (k : Nat) (g : Die → Die) :
    (s.updDie k g).launches = s.launches := rfl
@[simp] theorem State.updDie_accs (s : State) (k : Nat) (g : Die → Die) :
    (s.updDie k g).accs = s.accs := rfl
@[simp] theorem State.updDie_ports (s : State) (k : Nat) (g : Die → Die) :
    (s.updDie k g).ports = s.ports := rfl
@[simp] theorem State.updDie_hubReady (s : State) (k : Nat) (g : Die → Die) :
    (s.updDie k g).hubReady = s.hubReady := rfl
@[simp] theorem State.updDie_hubFenced (s : State) (k : Nat) (g : Die → Die) :
    (s.updDie k g).hubFenced = s.hubFenced := rfl
@[simp] theorem State.updDie_hubStopped (s : State) (k : Nat) (g : Die → Die) :
    (s.updDie k g).hubStopped = s.hubStopped := rfl
@[simp] theorem State.updDie_pwrlim (s : State) (k : Nat) (g : Die → Die) :
    (s.updDie k g).pwrlim = s.pwrlim := rfl
@[simp] theorem State.updDie_pwrnow (s : State) (k : Nat) (g : Die → Die) :
    (s.updDie k g).pwrnow = s.pwrnow := rfl
@[simp] theorem State.updDie_tempmax (s : State) (k : Nat) (g : Die → Die) :
    (s.updDie k g).tempmax = s.tempmax := rfl
@[simp] theorem State.updDie_temps (s : State) (k : Nat) (g : Die → Die) :
    (s.updDie k g).temps = s.temps := rfl
@[simp] theorem State.updDie_sigs (s : State) (k : Nat) (g : Die → Die) :
    (s.updDie k g).sigs = s.sigs := rfl
@[simp] theorem State.updDie_slow (s : State) (k : Nat) (g : Die → Die) :
    (s.updDie k g).slow = s.slow := rfl
@[simp] theorem State.updDie_seq (s : State) (k : Nat) (g : Die → Die) :
    (s.updDie k g).seq = s.seq := rfl
@[simp] theorem State.updDie_agenda (s : State) (k : Nat) (g : Die → Die) :
    (s.updDie k g).agenda = s.agenda := rfl
@[simp] theorem State.updDie_turn (s : State) (k : Nat) (g : Die → Die) :
    (s.updDie k g).turn = s.turn := rfl
@[simp] theorem State.updDie_cur (s : State) (k : Nat) (g : Die → Die) :
    (s.updDie k g).cur = s.cur := rfl
@[simp] theorem State.updDie_blocked (s : State) (k : Nat) (g : Die → Die) :
    (s.updDie k g).blocked = s.blocked := rfl
@[simp] theorem State.updDie_out (s : State) (k : Nat) (g : Die → Die) :
    (s.updDie k g).out = s.out := rfl
@[simp] theorem State.updDie_free (s : State) (k : Nat) (g : Die → Die) :
    (s.updDie k g).free = s.free := rfl
@[simp] theorem State.updDie_thread (s : State) (k : Nat) (g : Die → Die) (i : Nat) :
    (s.updDie k g).thread i = s.thread i := rfl
@[simp] theorem State.updDie_team (s : State) (k : Nat) (g : Die → Die) (i : Nat) :
    (s.updDie k g).team i = s.team i := rfl
@[simp] theorem State.updDie_pass (s : State) (k : Nat) (g : Die → Die) (i : Nat) :
    (s.updDie k g).pass i = s.pass i := rfl
@[simp] theorem State.updDie_core (s : State) (k : Nat) (g : Die → Die) (i : Nat) :
    (s.updDie k g).core i = s.core i := rfl
@[simp] theorem State.updDie_bend (s : State) (k : Nat) (g : Die → Die) (i : Nat) :
    (s.updDie k g).bend i = s.bend i := rfl
@[simp] theorem State.updDie_launch (s : State) (k : Nat) (g : Die → Die) (i : Nat) :
    (s.updDie k g).launch i = s.launch i := rfl
@[simp] theorem State.updDie_acc (s : State) (k : Nat) (g : Die → Die) (i : Nat) :
    (s.updDie k g).acc i = s.acc i := rfl
@[simp] theorem State.updDie_port (s : State) (k : Nat) (g : Die → Die) (i : Nat) :
    (s.updDie k g).port i = s.port i := rfl
@[simp] theorem State.updDie_die (s : State) (k : Nat) (g : Die → Die) (i : Nat) :
    (s.updDie k g).die i = if k = i then g (s.die k) else s.die i := by simp [State.updDie]
@[simp] theorem State.updTeam_mem (s : State) (k : Nat) (g : Team → Team) :
    (s.updTeam k g).mem = s.mem := by unfold State.updTeam; split <;> rfl
@[simp] theorem State.updTeam_poison (s : State) (k : Nat) (g : Team → Team) :
    (s.updTeam k g).poison = s.poison := by unfold State.updTeam; split <;> rfl
@[simp] theorem State.updTeam_dir (s : State) (k : Nat) (g : Team → Team) :
    (s.updTeam k g).dir = s.dir := by unfold State.updTeam; split <;> rfl
@[simp] theorem State.updTeam_devs (s : State) (k : Nat) (g : Team → Team) :
    (s.updTeam k g).devs = s.devs := by unfold State.updTeam; split <;> rfl
@[simp] theorem State.updTeam_threads (s : State) (k : Nat) (g : Team → Team) :
    (s.updTeam k g).threads = s.threads := by unfold State.updTeam; split <;> rfl
@[simp] theorem State.updTeam_passes (s : State) (k : Nat) (g : Team → Team) :
    (s.updTeam k g).passes = s.passes := by unfold State.updTeam; split <;> rfl
@[simp] theorem State.updTeam_cores (s : State) (k : Nat) (g : Team → Team) :
    (s.updTeam k g).cores = s.cores := by unfold State.updTeam; split <;> rfl
@[simp] theorem State.updTeam_dies (s : State) (k : Nat) (g : Team → Team) :
    (s.updTeam k g).dies = s.dies := by unfold State.updTeam; split <;> rfl
@[simp] theorem State.updTeam_bends (s : State) (k : Nat) (g : Team → Team) :
    (s.updTeam k g).bends = s.bends := by unfold State.updTeam; split <;> rfl
@[simp] theorem State.updTeam_launches (s : State) (k : Nat) (g : Team → Team) :
    (s.updTeam k g).launches = s.launches := by unfold State.updTeam; split <;> rfl
@[simp] theorem State.updTeam_accs (s : State) (k : Nat) (g : Team → Team) :
    (s.updTeam k g).accs = s.accs := by unfold State.updTeam; split <;> rfl
@[simp] theorem State.updTeam_ports (s : State) (k : Nat) (g : Team → Team) :
    (s.updTeam k g).ports = s.ports := by unfold State.updTeam; split <;> rfl
@[simp] theorem State.updTeam_hubReady (s : State) (k : Nat) (g : Team → Team) :
    (s.updTeam k g).hubReady = s.hubReady := by unfold State.updTeam; split <;> rfl
@[simp] theorem State.updTeam_hubFenced (s : State) (k : Nat) (g : Team → Team) :
    (s.updTeam k g).hubFenced = s.hubFenced := by unfold State.updTeam; split <;> rfl
@[simp] theorem State.updTeam_hubStopped (s : State) (k : Nat) (g : Team → Team) :
    (s.updTeam k g).hubStopped = s.hubStopped := by unfold State.updTeam; split <;> rfl
@[simp] theorem State.updTeam_pwrlim (s : State) (k : Nat) (g : Team → Team) :
    (s.updTeam k g).pwrlim = s.pwrlim := by unfold State.updTeam; split <;> rfl
@[simp] theorem State.updTeam_pwrnow (s : State) (k : Nat) (g : Team → Team) :
    (s.updTeam k g).pwrnow = s.pwrnow := by unfold State.updTeam; split <;> rfl
@[simp] theorem State.updTeam_tempmax (s : State) (k : Nat) (g : Team → Team) :
    (s.updTeam k g).tempmax = s.tempmax := by unfold State.updTeam; split <;> rfl
@[simp] theorem State.updTeam_temps (s : State) (k : Nat) (g : Team → Team) :
    (s.updTeam k g).temps = s.temps := by unfold State.updTeam; split <;> rfl
@[simp] theorem State.updTeam_sigs (s : State) (k : Nat) (g : Team → Team) :
    (s.updTeam k g).sigs = s.sigs := by unfold State.updTeam; split <;> rfl
@[simp] theorem State.updTeam_slow (s : State) (k : Nat) (g : Team → Team) :
    (s.updTeam k g).slow = s.slow := by unfold State.updTeam; split <;> rfl
@[simp] theorem State.updTeam_seq (s : State) (k : Nat) (g : Team → Team) :
    (s.updTeam k g).seq = s.seq := by unfold State.updTeam; split <;> rfl
@[simp] theorem State.updTeam_agenda (s : State) (k : Nat) (g : Team → Team) :
    (s.updTeam k g).agenda = s.agenda := by unfold State.updTeam; split <;> rfl
@[simp] theorem State.updTeam_turn (s : State) (k : Nat) (g : Team → Team) :
    (s.updTeam k g).turn = s.turn := by unfold State.updTeam; split <;> rfl
@[simp] theorem State.updTeam_cur (s : State) (k : Nat) (g : Team → Team) :
    (s.updTeam k g).cur = s.cur := by unfold State.updTeam; split <;> rfl
@[simp] theorem State.updTeam_blocked (s : State) (k : Nat) (g : Team → Team) :
    (s.updTeam k g).blocked = s.blocked := by unfold State.updTeam; split <;> rfl
@[simp] theorem State.updTeam_out (s : State) (k : Nat) (g : Team → Team) :
    (s.updTeam k g).out = s.out := by unfold State.updTeam; split <;> rfl
@[simp] theorem State.updTeam_free (s : State) (k : Nat) (g : Team → Team) :
    (s.updTeam k g).free = s.free := by unfold State.updTeam; split <;> rfl
@[simp] theorem State.updTeam_thread (s : State) (k : Nat) (g : Team → Team) (i : Nat) :
    (s.updTeam k g).thread i = s.thread i := by unfold State.updTeam; split <;> rfl
@[simp] theorem State.updTeam_pass (s : State) (k : Nat) (g : Team → Team) (i : Nat) :
    (s.updTeam k g).pass i = s.pass i := by unfold State.updTeam; split <;> rfl
@[simp] theorem State.updTeam_core (s : State) (k : Nat) (g : Team → Team) (i : Nat) :
    (s.updTeam k g).core i = s.core i := by unfold State.updTeam; split <;> rfl
@[simp] theorem State.updTeam_die (s : State) (k : Nat) (g : Team → Team) (i : Nat) :
    (s.updTeam k g).die i = s.die i := by unfold State.updTeam; split <;> rfl
@[simp] theorem State.updTeam_bend (s : State) (k : Nat) (g : Team → Team) (i : Nat) :
    (s.updTeam k g).bend i = s.bend i := by unfold State.updTeam; split <;> rfl
@[simp] theorem State.updTeam_launch (s : State) (k : Nat) (g : Team → Team) (i : Nat) :
    (s.updTeam k g).launch i = s.launch i := by unfold State.updTeam; split <;> rfl
@[simp] theorem State.updTeam_acc (s : State) (k : Nat) (g : Team → Team) (i : Nat) :
    (s.updTeam k g).acc i = s.acc i := by unfold State.updTeam; split <;> rfl
@[simp] theorem State.updTeam_port (s : State) (k : Nat) (g : Team → Team) (i : Nat) :
    (s.updTeam k g).port i = s.port i := by unfold State.updTeam; split <;> rfl
@[simp] theorem State.updTeam_team (s : State) (k : Nat) (g : Team → Team) (i : Nat) :
    (s.updTeam k g).team i = if k = i then (s.team k).map g else s.team i := by
  unfold State.updTeam; split <;> by_cases h : k = i <;> simp_all
@[simp] theorem State.updLaunch_mem (s : State) (k : Nat) (g : Launch → Launch) :
    (s.updLaunch k g).mem = s.mem := by unfold State.updLaunch; split <;> rfl
@[simp] theorem State.updLaunch_poison (s : State) (k : Nat) (g : Launch → Launch) :
    (s.updLaunch k g).poison = s.poison := by unfold State.updLaunch; split <;> rfl
@[simp] theorem State.updLaunch_dir (s : State) (k : Nat) (g : Launch → Launch) :
    (s.updLaunch k g).dir = s.dir := by unfold State.updLaunch; split <;> rfl
@[simp] theorem State.updLaunch_devs (s : State) (k : Nat) (g : Launch → Launch) :
    (s.updLaunch k g).devs = s.devs := by unfold State.updLaunch; split <;> rfl
@[simp] theorem State.updLaunch_threads (s : State) (k : Nat) (g : Launch → Launch) :
    (s.updLaunch k g).threads = s.threads := by unfold State.updLaunch; split <;> rfl
@[simp] theorem State.updLaunch_teams (s : State) (k : Nat) (g : Launch → Launch) :
    (s.updLaunch k g).teams = s.teams := by unfold State.updLaunch; split <;> rfl
@[simp] theorem State.updLaunch_passes (s : State) (k : Nat) (g : Launch → Launch) :
    (s.updLaunch k g).passes = s.passes := by unfold State.updLaunch; split <;> rfl
@[simp] theorem State.updLaunch_cores (s : State) (k : Nat) (g : Launch → Launch) :
    (s.updLaunch k g).cores = s.cores := by unfold State.updLaunch; split <;> rfl
@[simp] theorem State.updLaunch_dies (s : State) (k : Nat) (g : Launch → Launch) :
    (s.updLaunch k g).dies = s.dies := by unfold State.updLaunch; split <;> rfl
@[simp] theorem State.updLaunch_bends (s : State) (k : Nat) (g : Launch → Launch) :
    (s.updLaunch k g).bends = s.bends := by unfold State.updLaunch; split <;> rfl
@[simp] theorem State.updLaunch_accs (s : State) (k : Nat) (g : Launch → Launch) :
    (s.updLaunch k g).accs = s.accs := by unfold State.updLaunch; split <;> rfl
@[simp] theorem State.updLaunch_ports (s : State) (k : Nat) (g : Launch → Launch) :
    (s.updLaunch k g).ports = s.ports := by unfold State.updLaunch; split <;> rfl
@[simp] theorem State.updLaunch_hubReady (s : State) (k : Nat) (g : Launch → Launch) :
    (s.updLaunch k g).hubReady = s.hubReady := by unfold State.updLaunch; split <;> rfl
@[simp] theorem State.updLaunch_hubFenced (s : State) (k : Nat) (g : Launch → Launch) :
    (s.updLaunch k g).hubFenced = s.hubFenced := by unfold State.updLaunch; split <;> rfl
@[simp] theorem State.updLaunch_hubStopped (s : State) (k : Nat) (g : Launch → Launch) :
    (s.updLaunch k g).hubStopped = s.hubStopped := by unfold State.updLaunch; split <;> rfl
@[simp] theorem State.updLaunch_pwrlim (s : State) (k : Nat) (g : Launch → Launch) :
    (s.updLaunch k g).pwrlim = s.pwrlim := by unfold State.updLaunch; split <;> rfl
@[simp] theorem State.updLaunch_pwrnow (s : State) (k : Nat) (g : Launch → Launch) :
    (s.updLaunch k g).pwrnow = s.pwrnow := by unfold State.updLaunch; split <;> rfl
@[simp] theorem State.updLaunch_tempmax (s : State) (k : Nat) (g : Launch → Launch) :
    (s.updLaunch k g).tempmax = s.tempmax := by unfold State.updLaunch; split <;> rfl
@[simp] theorem State.updLaunch_temps (s : State) (k : Nat) (g : Launch → Launch) :
    (s.updLaunch k g).temps = s.temps := by unfold State.updLaunch; split <;> rfl
@[simp] theorem State.updLaunch_sigs (s : State) (k : Nat) (g : Launch → Launch) :
    (s.updLaunch k g).sigs = s.sigs := by unfold State.updLaunch; split <;> rfl
@[simp] theorem State.updLaunch_slow (s : State) (k : Nat) (g : Launch → Launch) :
    (s.updLaunch k g).slow = s.slow := by unfold State.updLaunch; split <;> rfl
@[simp] theorem State.updLaunch_seq (s : State) (k : Nat) (g : Launch → Launch) :
    (s.updLaunch k g).seq = s.seq := by unfold State.updLaunch; split <;> rfl
@[simp] theorem State.updLaunch_agenda (s : State) (k : Nat) (g : Launch → Launch) :
    (s.updLaunch k g).agenda = s.agenda := by unfold State.updLaunch; split <;> rfl
@[simp] theorem State.updLaunch_turn (s : State) (k : Nat) (g : Launch → Launch) :
    (s.updLaunch k g).turn = s.turn := by unfold State.updLaunch; split <;> rfl
@[simp] theorem State.updLaunch_cur (s : State) (k : Nat) (g : Launch → Launch) :
    (s.updLaunch k g).cur = s.cur := by unfold State.updLaunch; split <;> rfl
@[simp] theorem State.updLaunch_blocked (s : State) (k : Nat) (g : Launch → Launch) :
    (s.updLaunch k g).blocked = s.blocked := by unfold State.updLaunch; split <;> rfl
@[simp] theorem State.updLaunch_out (s : State) (k : Nat) (g : Launch → Launch) :
    (s.updLaunch k g).out = s.out := by unfold State.updLaunch; split <;> rfl
@[simp] theorem State.updLaunch_free (s : State) (k : Nat) (g : Launch → Launch) :
    (s.updLaunch k g).free = s.free := by unfold State.updLaunch; split <;> rfl
@[simp] theorem State.updLaunch_thread (s : State) (k : Nat) (g : Launch → Launch) (i : Nat) :
    (s.updLaunch k g).thread i = s.thread i := by unfold State.updLaunch; split <;> rfl
@[simp] theorem State.updLaunch_team (s : State) (k : Nat) (g : Launch → Launch) (i : Nat) :
    (s.updLaunch k g).team i = s.team i := by unfold State.updLaunch; split <;> rfl
@[simp] theorem State.updLaunch_pass (s : State) (k : Nat) (g : Launch → Launch) (i : Nat) :
    (s.updLaunch k g).pass i = s.pass i := by unfold State.updLaunch; split <;> rfl
@[simp] theorem State.updLaunch_core (s : State) (k : Nat) (g : Launch → Launch) (i : Nat) :
    (s.updLaunch k g).core i = s.core i := by unfold State.updLaunch; split <;> rfl
@[simp] theorem State.updLaunch_die (s : State) (k : Nat) (g : Launch → Launch) (i : Nat) :
    (s.updLaunch k g).die i = s.die i := by unfold State.updLaunch; split <;> rfl
@[simp] theorem State.updLaunch_bend (s : State) (k : Nat) (g : Launch → Launch) (i : Nat) :
    (s.updLaunch k g).bend i = s.bend i := by unfold State.updLaunch; split <;> rfl
@[simp] theorem State.updLaunch_acc (s : State) (k : Nat) (g : Launch → Launch) (i : Nat) :
    (s.updLaunch k g).acc i = s.acc i := by unfold State.updLaunch; split <;> rfl
@[simp] theorem State.updLaunch_port (s : State) (k : Nat) (g : Launch → Launch) (i : Nat) :
    (s.updLaunch k g).port i = s.port i := by unfold State.updLaunch; split <;> rfl
@[simp] theorem State.updLaunch_launch (s : State) (k : Nat) (g : Launch → Launch) (i : Nat) :
    (s.updLaunch k g).launch i = if k = i then (s.launch k).map g else s.launch i := by
  unfold State.updLaunch; split <;> by_cases h : k = i <;> simp_all
@[simp] theorem State.updAcc_mem (s : State) (k : Nat) (g : Access → Access) :
    (s.updAcc k g).mem = s.mem := by unfold State.updAcc; split <;> rfl
@[simp] theorem State.updAcc_poison (s : State) (k : Nat) (g : Access → Access) :
    (s.updAcc k g).poison = s.poison := by unfold State.updAcc; split <;> rfl
@[simp] theorem State.updAcc_dir (s : State) (k : Nat) (g : Access → Access) :
    (s.updAcc k g).dir = s.dir := by unfold State.updAcc; split <;> rfl
@[simp] theorem State.updAcc_devs (s : State) (k : Nat) (g : Access → Access) :
    (s.updAcc k g).devs = s.devs := by unfold State.updAcc; split <;> rfl
@[simp] theorem State.updAcc_threads (s : State) (k : Nat) (g : Access → Access) :
    (s.updAcc k g).threads = s.threads := by unfold State.updAcc; split <;> rfl
@[simp] theorem State.updAcc_teams (s : State) (k : Nat) (g : Access → Access) :
    (s.updAcc k g).teams = s.teams := by unfold State.updAcc; split <;> rfl
@[simp] theorem State.updAcc_passes (s : State) (k : Nat) (g : Access → Access) :
    (s.updAcc k g).passes = s.passes := by unfold State.updAcc; split <;> rfl
@[simp] theorem State.updAcc_cores (s : State) (k : Nat) (g : Access → Access) :
    (s.updAcc k g).cores = s.cores := by unfold State.updAcc; split <;> rfl
@[simp] theorem State.updAcc_dies (s : State) (k : Nat) (g : Access → Access) :
    (s.updAcc k g).dies = s.dies := by unfold State.updAcc; split <;> rfl
@[simp] theorem State.updAcc_bends (s : State) (k : Nat) (g : Access → Access) :
    (s.updAcc k g).bends = s.bends := by unfold State.updAcc; split <;> rfl
@[simp] theorem State.updAcc_launches (s : State) (k : Nat) (g : Access → Access) :
    (s.updAcc k g).launches = s.launches := by unfold State.updAcc; split <;> rfl
@[simp] theorem State.updAcc_ports (s : State) (k : Nat) (g : Access → Access) :
    (s.updAcc k g).ports = s.ports := by unfold State.updAcc; split <;> rfl
@[simp] theorem State.updAcc_hubReady (s : State) (k : Nat) (g : Access → Access) :
    (s.updAcc k g).hubReady = s.hubReady := by unfold State.updAcc; split <;> rfl
@[simp] theorem State.updAcc_hubFenced (s : State) (k : Nat) (g : Access → Access) :
    (s.updAcc k g).hubFenced = s.hubFenced := by unfold State.updAcc; split <;> rfl
@[simp] theorem State.updAcc_hubStopped (s : State) (k : Nat) (g : Access → Access) :
    (s.updAcc k g).hubStopped = s.hubStopped := by unfold State.updAcc; split <;> rfl
@[simp] theorem State.updAcc_pwrlim (s : State) (k : Nat) (g : Access → Access) :
    (s.updAcc k g).pwrlim = s.pwrlim := by unfold State.updAcc; split <;> rfl
@[simp] theorem State.updAcc_pwrnow (s : State) (k : Nat) (g : Access → Access) :
    (s.updAcc k g).pwrnow = s.pwrnow := by unfold State.updAcc; split <;> rfl
@[simp] theorem State.updAcc_tempmax (s : State) (k : Nat) (g : Access → Access) :
    (s.updAcc k g).tempmax = s.tempmax := by unfold State.updAcc; split <;> rfl
@[simp] theorem State.updAcc_temps (s : State) (k : Nat) (g : Access → Access) :
    (s.updAcc k g).temps = s.temps := by unfold State.updAcc; split <;> rfl
@[simp] theorem State.updAcc_sigs (s : State) (k : Nat) (g : Access → Access) :
    (s.updAcc k g).sigs = s.sigs := by unfold State.updAcc; split <;> rfl
@[simp] theorem State.updAcc_slow (s : State) (k : Nat) (g : Access → Access) :
    (s.updAcc k g).slow = s.slow := by unfold State.updAcc; split <;> rfl
@[simp] theorem State.updAcc_seq (s : State) (k : Nat) (g : Access → Access) :
    (s.updAcc k g).seq = s.seq := by unfold State.updAcc; split <;> rfl
@[simp] theorem State.updAcc_agenda (s : State) (k : Nat) (g : Access → Access) :
    (s.updAcc k g).agenda = s.agenda := by unfold State.updAcc; split <;> rfl
@[simp] theorem State.updAcc_turn (s : State) (k : Nat) (g : Access → Access) :
    (s.updAcc k g).turn = s.turn := by unfold State.updAcc; split <;> rfl
@[simp] theorem State.updAcc_cur (s : State) (k : Nat) (g : Access → Access) :
    (s.updAcc k g).cur = s.cur := by unfold State.updAcc; split <;> rfl
@[simp] theorem State.updAcc_blocked (s : State) (k : Nat) (g : Access → Access) :
    (s.updAcc k g).blocked = s.blocked := by unfold State.updAcc; split <;> rfl
@[simp] theorem State.updAcc_out (s : State) (k : Nat) (g : Access → Access) :
    (s.updAcc k g).out = s.out := by unfold State.updAcc; split <;> rfl
@[simp] theorem State.updAcc_free (s : State) (k : Nat) (g : Access → Access) :
    (s.updAcc k g).free = s.free := by unfold State.updAcc; split <;> rfl
@[simp] theorem State.updAcc_thread (s : State) (k : Nat) (g : Access → Access) (i : Nat) :
    (s.updAcc k g).thread i = s.thread i := by unfold State.updAcc; split <;> rfl
@[simp] theorem State.updAcc_team (s : State) (k : Nat) (g : Access → Access) (i : Nat) :
    (s.updAcc k g).team i = s.team i := by unfold State.updAcc; split <;> rfl
@[simp] theorem State.updAcc_pass (s : State) (k : Nat) (g : Access → Access) (i : Nat) :
    (s.updAcc k g).pass i = s.pass i := by unfold State.updAcc; split <;> rfl
@[simp] theorem State.updAcc_core (s : State) (k : Nat) (g : Access → Access) (i : Nat) :
    (s.updAcc k g).core i = s.core i := by unfold State.updAcc; split <;> rfl
@[simp] theorem State.updAcc_die (s : State) (k : Nat) (g : Access → Access) (i : Nat) :
    (s.updAcc k g).die i = s.die i := by unfold State.updAcc; split <;> rfl
@[simp] theorem State.updAcc_bend (s : State) (k : Nat) (g : Access → Access) (i : Nat) :
    (s.updAcc k g).bend i = s.bend i := by unfold State.updAcc; split <;> rfl
@[simp] theorem State.updAcc_launch (s : State) (k : Nat) (g : Access → Access) (i : Nat) :
    (s.updAcc k g).launch i = s.launch i := by unfold State.updAcc; split <;> rfl
@[simp] theorem State.updAcc_port (s : State) (k : Nat) (g : Access → Access) (i : Nat) :
    (s.updAcc k g).port i = s.port i := by unfold State.updAcc; split <;> rfl
@[simp] theorem State.updAcc_acc (s : State) (k : Nat) (g : Access → Access) (i : Nat) :
    (s.updAcc k g).acc i = if k = i then (s.acc k).map g else s.acc i := by
  unfold State.updAcc; split <;> by_cases h : k = i <;> simp_all
@[simp] theorem State.delAcc_mem (s : State) (k : Nat) :
    (s.delAcc k).mem = s.mem := rfl
@[simp] theorem State.delAcc_poison (s : State) (k : Nat) :
    (s.delAcc k).poison = s.poison := rfl
@[simp] theorem State.delAcc_dir (s : State) (k : Nat) :
    (s.delAcc k).dir = s.dir := rfl
@[simp] theorem State.delAcc_devs (s : State) (k : Nat) :
    (s.delAcc k).devs = s.devs := rfl
@[simp] theorem State.delAcc_threads (s : State) (k : Nat) :
    (s.delAcc k).threads = s.threads := rfl
@[simp] theorem State.delAcc_teams (s : State) (k : Nat) :
    (s.delAcc k).teams = s.teams := rfl
@[simp] theorem State.delAcc_passes (s : State) (k : Nat) :
    (s.delAcc k).passes = s.passes := rfl
@[simp] theorem State.delAcc_cores (s : State) (k : Nat) :
    (s.delAcc k).cores = s.cores := rfl
@[simp] theorem State.delAcc_dies (s : State) (k : Nat) :
    (s.delAcc k).dies = s.dies := rfl
@[simp] theorem State.delAcc_bends (s : State) (k : Nat) :
    (s.delAcc k).bends = s.bends := rfl
@[simp] theorem State.delAcc_launches (s : State) (k : Nat) :
    (s.delAcc k).launches = s.launches := rfl
@[simp] theorem State.delAcc_ports (s : State) (k : Nat) :
    (s.delAcc k).ports = s.ports := rfl
@[simp] theorem State.delAcc_hubReady (s : State) (k : Nat) :
    (s.delAcc k).hubReady = s.hubReady := rfl
@[simp] theorem State.delAcc_hubFenced (s : State) (k : Nat) :
    (s.delAcc k).hubFenced = s.hubFenced := rfl
@[simp] theorem State.delAcc_hubStopped (s : State) (k : Nat) :
    (s.delAcc k).hubStopped = s.hubStopped := rfl
@[simp] theorem State.delAcc_pwrlim (s : State) (k : Nat) :
    (s.delAcc k).pwrlim = s.pwrlim := rfl
@[simp] theorem State.delAcc_pwrnow (s : State) (k : Nat) :
    (s.delAcc k).pwrnow = s.pwrnow := rfl
@[simp] theorem State.delAcc_tempmax (s : State) (k : Nat) :
    (s.delAcc k).tempmax = s.tempmax := rfl
@[simp] theorem State.delAcc_temps (s : State) (k : Nat) :
    (s.delAcc k).temps = s.temps := rfl
@[simp] theorem State.delAcc_sigs (s : State) (k : Nat) :
    (s.delAcc k).sigs = s.sigs := rfl
@[simp] theorem State.delAcc_slow (s : State) (k : Nat) :
    (s.delAcc k).slow = s.slow := rfl
@[simp] theorem State.delAcc_seq (s : State) (k : Nat) :
    (s.delAcc k).seq = s.seq := rfl
@[simp] theorem State.delAcc_agenda (s : State) (k : Nat) :
    (s.delAcc k).agenda = s.agenda := rfl
@[simp] theorem State.delAcc_turn (s : State) (k : Nat) :
    (s.delAcc k).turn = s.turn := rfl
@[simp] theorem State.delAcc_cur (s : State) (k : Nat) :
    (s.delAcc k).cur = s.cur := rfl
@[simp] theorem State.delAcc_blocked (s : State) (k : Nat) :
    (s.delAcc k).blocked = s.blocked := rfl
@[simp] theorem State.delAcc_out (s : State) (k : Nat) :
    (s.delAcc k).out = s.out := rfl
@[simp] theorem State.delAcc_free (s : State) (k : Nat) :
    (s.delAcc k).free = s.free := rfl
@[simp] theorem State.delAcc_accs (s : State) (k : Nat) :
    (s.delAcc k).accs = kvDel s.accs k := rfl
@[simp] theorem State.delAcc_thread (s : State) (k : Nat) (i : Nat) :
    (s.delAcc k).thread i = s.thread i := rfl
@[simp] theorem State.delAcc_team (s : State) (k : Nat) (i : Nat) :
    (s.delAcc k).team i = s.team i := rfl
@[simp] theorem State.delAcc_pass (s : State) (k : Nat) (i : Nat) :
    (s.delAcc k).pass i = s.pass i := rfl
@[simp] theorem State.delAcc_core (s : State) (k : Nat) (i : Nat) :
    (s.delAcc k).core i = s.core i := rfl
@[simp] theorem State.delAcc_die (s : State) (k : Nat) (i : Nat) :
    (s.delAcc k).die i = s.die i := rfl
@[simp] theorem State.delAcc_bend (s : State) (k : Nat) (i : Nat) :
    (s.delAcc k).bend i = s.bend i := rfl
@[simp] theorem State.delAcc_launch (s : State) (k : Nat) (i : Nat) :
    (s.delAcc k).launch i = s.launch i := rfl
@[simp] theorem State.delAcc_port (s : State) (k : Nat) (i : Nat) :
    (s.delAcc k).port i = s.port i := rfl
@[simp] theorem State.emit_mem (s : State) (o : Out) :
    (s.emit o).mem = s.mem := rfl
@[simp] theorem State.emit_poison (s : State) (o : Out) :
    (s.emit o).poison = s.poison := rfl
@[simp] theorem State.emit_dir (s : State) (o : Out) :
    (s.emit o).dir = s.dir := rfl
@[simp] theorem State.emit_devs (s : State) (o : Out) :
    (s.emit o).devs = s.devs := rfl
@[simp] theorem State.emit_threads (s : State) (o : Out) :
    (s.emit o).threads = s.threads := rfl
@[simp] theorem State.emit_teams (s : State) (o : Out) :
    (s.emit o).teams = s.teams := rfl
@[simp] theorem State.emit_passes (s : State) (o : Out) :
    (s.emit o).passes = s.passes := rfl
@[simp] theorem State.emit_cores (s : State) (o : Out) :
    (s.emit o).cores = s.cores := rfl
@[simp] theorem State.emit_dies (s : State) (o : Out) :
    (s.emit o).dies = s.dies := rfl
@[simp] theorem State.emit_bends (s : State) (o : Out) :
    (s.emit o).bends = s.bends := rfl
@[simp] theorem State.emit_launches (s : State) (o : Out) :
    (s.emit o).launches = s.launches := rfl
@[simp] theorem State.emit_accs (s : State) (o : Out) :
    (s.emit o).accs = s.accs := rfl
@[simp] theorem State.emit_ports (s : State) (o : Out) :
    (s.emit o).ports = s.ports := rfl
@[simp] theorem State.emit_hubReady (s : State) (o : Out) :
    (s.emit o).hubReady = s.hubReady := rfl
@[simp] theorem State.emit_hubFenced (s : State) (o : Out) :
    (s.emit o).hubFenced = s.hubFenced := rfl
@[simp] theorem State.emit_hubStopped (s : State) (o : Out) :
    (s.emit o).hubStopped = s.hubStopped := rfl
@[simp] theorem State.emit_pwrlim (s : State) (o : Out) :
    (s.emit o).pwrlim = s.pwrlim := rfl
@[simp] theorem State.emit_pwrnow (s : State) (o : Out) :
    (s.emit o).pwrnow = s.pwrnow := rfl
@[simp] theorem State.emit_tempmax (s : State) (o : Out) :
    (s.emit o).tempmax = s.tempmax := rfl
@[simp] theorem State.emit_temps (s : State) (o : Out) :
    (s.emit o).temps = s.temps := rfl
@[simp] theorem State.emit_sigs (s : State) (o : Out) :
    (s.emit o).sigs = s.sigs := rfl
@[simp] theorem State.emit_slow (s : State) (o : Out) :
    (s.emit o).slow = s.slow := rfl
@[simp] theorem State.emit_seq (s : State) (o : Out) :
    (s.emit o).seq = s.seq := rfl
@[simp] theorem State.emit_agenda (s : State) (o : Out) :
    (s.emit o).agenda = s.agenda := rfl
@[simp] theorem State.emit_turn (s : State) (o : Out) :
    (s.emit o).turn = s.turn := rfl
@[simp] theorem State.emit_cur (s : State) (o : Out) :
    (s.emit o).cur = s.cur := rfl
@[simp] theorem State.emit_blocked (s : State) (o : Out) :
    (s.emit o).blocked = s.blocked := rfl
@[simp] theorem State.emit_free (s : State) (o : Out) :
    (s.emit o).free = s.free := rfl
@[simp] theorem State.emit_out (s : State) (o : Out) :
    (s.emit o).out = s.out ++ [o] := rfl
@[simp] theorem State.emit_thread (s : State) (o : Out) (i : Nat) :
    (s.emit o).thread i = s.thread i := rfl
@[simp] theorem State.emit_team (s : State) (o : Out) (i : Nat) :
    (s.emit o).team i = s.team i := rfl
@[simp] theorem State.emit_pass (s : State) (o : Out) (i : Nat) :
    (s.emit o).pass i = s.pass i := rfl
@[simp] theorem State.emit_core (s : State) (o : Out) (i : Nat) :
    (s.emit o).core i = s.core i := rfl
@[simp] theorem State.emit_die (s : State) (o : Out) (i : Nat) :
    (s.emit o).die i = s.die i := rfl
@[simp] theorem State.emit_bend (s : State) (o : Out) (i : Nat) :
    (s.emit o).bend i = s.bend i := rfl
@[simp] theorem State.emit_launch (s : State) (o : Out) (i : Nat) :
    (s.emit o).launch i = s.launch i := rfl
@[simp] theorem State.emit_acc (s : State) (o : Out) (i : Nat) :
    (s.emit o).acc i = s.acc i := rfl
@[simp] theorem State.emit_port (s : State) (o : Out) (i : Nat) :
    (s.emit o).port i = s.port i := rfl
@[simp] theorem State.bump_mem (s : State) :
    (s.bump).mem = s.mem := rfl
@[simp] theorem State.bump_poison (s : State) :
    (s.bump).poison = s.poison := rfl
@[simp] theorem State.bump_dir (s : State) :
    (s.bump).dir = s.dir := rfl
@[simp] theorem State.bump_devs (s : State) :
    (s.bump).devs = s.devs := rfl
@[simp] theorem State.bump_threads (s : State) :
    (s.bump).threads = s.threads := rfl
@[simp] theorem State.bump_teams (s : State) :
    (s.bump).teams = s.teams := rfl
@[simp] theorem State.bump_passes (s : State) :
    (s.bump).passes = s.passes := rfl
@[simp] theorem State.bump_cores (s : State) :
    (s.bump).cores = s.cores := rfl
@[simp] theorem State.bump_dies (s : State) :
    (s.bump).dies = s.dies := rfl
@[simp] theorem State.bump_bends (s : State) :
    (s.bump).bends = s.bends := rfl
@[simp] theorem State.bump_launches (s : State) :
    (s.bump).launches = s.launches := rfl
@[simp] theorem State.bump_accs (s : State) :
    (s.bump).accs = s.accs := rfl
@[simp] theorem State.bump_ports (s : State) :
    (s.bump).ports = s.ports := rfl
@[simp] theorem State.bump_hubReady (s : State) :
    (s.bump).hubReady = s.hubReady := rfl
@[simp] theorem State.bump_hubFenced (s : State) :
    (s.bump).hubFenced = s.hubFenced := rfl
@[simp] theorem State.bump_hubStopped (s : State) :
    (s.bump).hubStopped = s.hubStopped := rfl
@[simp] theorem State.bump_pwrlim (s : State) :
    (s.bump).pwrlim = s.pwrlim := rfl
@[simp] theorem State.bump_pwrnow (s : State) :
    (s.bump).pwrnow = s.pwrnow := rfl
@[simp] theorem State.bump_tempmax (s : State) :
    (s.bump).tempmax = s.tempmax := rfl
@[simp] theorem State.bump_temps (s : State) :
    (s.bump).temps = s.temps := rfl
@[simp] theorem State.bump_sigs (s : State) :
    (s.bump).sigs = s.sigs := rfl
@[simp] theorem State.bump_slow (s : State) :
    (s.bump).slow = s.slow := rfl
@[simp] theorem State.bump_agenda (s : State) :
    (s.bump).agenda = s.agenda := rfl
@[simp] theorem State.bump_turn (s : State) :
    (s.bump).turn = s.turn := rfl
@[simp] theorem State.bump_cur (s : State) :
    (s.bump).cur = s.cur := rfl
@[simp] theorem State.bump_blocked (s : State) :
    (s.bump).blocked = s.blocked := rfl
@[simp] theorem State.bump_out (s : State) :
    (s.bump).out = s.out := rfl
@[simp] theorem State.bump_free (s : State) :
    (s.bump).free = s.free := rfl
@[simp] theorem State.bump_seq (s : State) :
    (s.bump).seq = s.seq + 1 := rfl
@[simp] theorem State.bump_thread (s : State) (i : Nat) :
    (s.bump).thread i = s.thread i := rfl
@[simp] theorem State.bump_team (s : State) (i : Nat) :
    (s.bump).team i = s.team i := rfl
@[simp] theorem State.bump_pass (s : State) (i : Nat) :
    (s.bump).pass i = s.pass i := rfl
@[simp] theorem State.bump_core (s : State) (i : Nat) :
    (s.bump).core i = s.core i := rfl
@[simp] theorem State.bump_die (s : State) (i : Nat) :
    (s.bump).die i = s.die i := rfl
@[simp] theorem State.bump_bend (s : State) (i : Nat) :
    (s.bump).bend i = s.bend i := rfl
@[simp] theorem State.bump_launch (s : State) (i : Nat) :
    (s.bump).launch i = s.launch i := rfl
@[simp] theorem State.bump_acc (s : State) (i : Nat) :
    (s.bump).acc i = s.acc i := rfl
@[simp] theorem State.bump_port (s : State) (i : Nat) :
    (s.bump).port i = s.port i := rfl
@[simp] theorem State.delAcc_acc (s : State) (k i : Nat) :
    (s.delAcc k).acc i = if k = i then none else s.acc i := by simp [State.delAcc, State.acc]

/-- Registers and predicates of a thread after a write. -/
@[simp] theorem Thread.setReg_reg (t : Thread) (i : Nat) (v : Word) (j : Nat) :
    (t.setReg i v).reg j = if i = j then v else t.reg j := by simp [Thread.setReg, Thread.reg]
@[simp] theorem Thread.setReg_pred (t : Thread) (i : Nat) (v : Word) (j : Nat) : (t.setReg i v).pred j = t.pred j := rfl
@[simp] theorem Thread.setPred_reg (t : Thread) (i : Nat) (v : Bool) (j : Nat) : (t.setPred i v).reg j = t.reg j := by
  unfold Thread.setPred; split <;> rfl
/-- p7 reads true whatever is written to it (R88). -/
@[simp] theorem Thread.setPred_pred (t : Thread) (i : Nat) (v : Bool) (j : Nat) :
    (t.setPred i v).pred j = if j = 7 then true else if i = j then v else t.pred j := by
  unfold Thread.setPred
  by_cases h : i = 7
  · subst h; by_cases hj : j = 7
    · simp [hj, Thread.pred]
    · simp [hj, Ne.symm hj]
  · by_cases hj : j = 7
    · simp [h, hj, Thread.pred]
    · by_cases hi : i = j
      · subst hi; simp [h, Thread.pred]
      · simp [h, hj, hi, Thread.pred]

@[simp] theorem Thread.setReg_preds (t : Thread) (i : Nat) (v : Word) : (t.setReg i v).preds = t.preds := rfl
@[simp] theorem Thread.setReg_fpmode (t : Thread) (i : Nat) (v : Word) : (t.setReg i v).fpmode = t.fpmode := rfl
@[simp] theorem Thread.setReg_depth (t : Thread) (i : Nat) (v : Word) : (t.setReg i v).depth = t.depth := rfl
@[simp] theorem Thread.setReg_trap (t : Thread) (i : Nat) (v : Word) : (t.setReg i v).trap = t.trap := rfl
@[simp] theorem Thread.setReg_outer (t : Thread) (i : Nat) (v : Word) : (t.setReg i v).outer = t.outer := rfl
@[simp] theorem Thread.setReg_pubaddr (t : Thread) (i : Nat) (v : Word) : (t.setReg i v).pubaddr = t.pubaddr := rfl
@[simp] theorem Thread.setReg_status (t : Thread) (i : Nat) (v : Word) : (t.setReg i v).status = t.status := rfl
@[simp] theorem Thread.setReg_team (t : Thread) (i : Nat) (v : Word) : (t.setReg i v).team = t.team := rfl
@[simp] theorem Thread.setReg_blk (t : Thread) (i : Nat) (v : Word) : (t.setReg i v).blk = t.blk := rfl
@[simp] theorem Thread.setReg_pkt (t : Thread) (i : Nat) (v : Word) : (t.setReg i v).pkt = t.pkt := rfl
@[simp] theorem Thread.setReg_slot (t : Thread) (i : Nat) (v : Word) : (t.setReg i v).slot = t.slot := rfl
@[simp] theorem Thread.setReg_resume (t : Thread) (i : Nat) (v : Word) : (t.setReg i v).resume = t.resume := rfl
@[simp] theorem Thread.setReg_fall (t : Thread) (i : Nat) (v : Word) : (t.setReg i v).fall = t.fall := rfl
@[simp] theorem Thread.setReg_stamp (t : Thread) (i : Nat) (v : Word) : (t.setReg i v).stamp = t.stamp := rfl
@[simp] theorem Thread.setReg_due (t : Thread) (i : Nat) (v : Word) : (t.setReg i v).due = t.due := rfl
@[simp] theorem Thread.setReg_held (t : Thread) (i : Nat) (v : Word) : (t.setReg i v).held = t.held := rfl
@[simp] theorem Thread.setReg_parkedAt (t : Thread) (i : Nat) (v : Word) : (t.setReg i v).parkedAt = t.parkedAt := rfl
@[simp] theorem Thread.setReg_parkWord (t : Thread) (i : Nat) (v : Word) : (t.setReg i v).parkWord = t.parkWord := rfl
@[simp] theorem Thread.setReg_bad (t : Thread) (i : Nat) (v : Word) : (t.setReg i v).bad = t.bad := rfl
@[simp] theorem Thread.setPred_regs (t : Thread) (i : Nat) (v : Bool) : (t.setPred i v).regs = t.regs := by
  unfold Thread.setPred; split <;> rfl
@[simp] theorem Thread.setPred_fpmode (t : Thread) (i : Nat) (v : Bool) : (t.setPred i v).fpmode = t.fpmode := by
  unfold Thread.setPred; split <;> rfl
@[simp] theorem Thread.setPred_depth (t : Thread) (i : Nat) (v : Bool) : (t.setPred i v).depth = t.depth := by
  unfold Thread.setPred; split <;> rfl
@[simp] theorem Thread.setPred_trap (t : Thread) (i : Nat) (v : Bool) : (t.setPred i v).trap = t.trap := by
  unfold Thread.setPred; split <;> rfl
@[simp] theorem Thread.setPred_outer (t : Thread) (i : Nat) (v : Bool) : (t.setPred i v).outer = t.outer := by
  unfold Thread.setPred; split <;> rfl
@[simp] theorem Thread.setPred_pubaddr (t : Thread) (i : Nat) (v : Bool) : (t.setPred i v).pubaddr = t.pubaddr := by
  unfold Thread.setPred; split <;> rfl
@[simp] theorem Thread.setPred_status (t : Thread) (i : Nat) (v : Bool) : (t.setPred i v).status = t.status := by
  unfold Thread.setPred; split <;> rfl
@[simp] theorem Thread.setPred_team (t : Thread) (i : Nat) (v : Bool) : (t.setPred i v).team = t.team := by
  unfold Thread.setPred; split <;> rfl
@[simp] theorem Thread.setPred_blk (t : Thread) (i : Nat) (v : Bool) : (t.setPred i v).blk = t.blk := by
  unfold Thread.setPred; split <;> rfl
@[simp] theorem Thread.setPred_pkt (t : Thread) (i : Nat) (v : Bool) : (t.setPred i v).pkt = t.pkt := by
  unfold Thread.setPred; split <;> rfl
@[simp] theorem Thread.setPred_slot (t : Thread) (i : Nat) (v : Bool) : (t.setPred i v).slot = t.slot := by
  unfold Thread.setPred; split <;> rfl
@[simp] theorem Thread.setPred_resume (t : Thread) (i : Nat) (v : Bool) : (t.setPred i v).resume = t.resume := by
  unfold Thread.setPred; split <;> rfl
@[simp] theorem Thread.setPred_fall (t : Thread) (i : Nat) (v : Bool) : (t.setPred i v).fall = t.fall := by
  unfold Thread.setPred; split <;> rfl
@[simp] theorem Thread.setPred_stamp (t : Thread) (i : Nat) (v : Bool) : (t.setPred i v).stamp = t.stamp := by
  unfold Thread.setPred; split <;> rfl
@[simp] theorem Thread.setPred_due (t : Thread) (i : Nat) (v : Bool) : (t.setPred i v).due = t.due := by
  unfold Thread.setPred; split <;> rfl
@[simp] theorem Thread.setPred_held (t : Thread) (i : Nat) (v : Bool) : (t.setPred i v).held = t.held := by
  unfold Thread.setPred; split <;> rfl
@[simp] theorem Thread.setPred_parkedAt (t : Thread) (i : Nat) (v : Bool) : (t.setPred i v).parkedAt = t.parkedAt := by
  unfold Thread.setPred; split <;> rfl
@[simp] theorem Thread.setPred_parkWord (t : Thread) (i : Nat) (v : Bool) : (t.setPred i v).parkWord = t.parkWord := by
  unfold Thread.setPred; split <;> rfl
@[simp] theorem Thread.setPred_bad (t : Thread) (i : Nat) (v : Bool) : (t.setPred i v).bad = t.bad := by
  unfold Thread.setPred; split <;> rfl

end Sys2Proof.Machine
end

