-- ==== Sys2Proof/Laws/Lanes.lean ====
section
/-! SUPPORT. Everything that the shared moulds of the thread-only instructions can do. -/
namespace Sys2Proof.Machine

theorem Thread.group_setReg_lt (t : Thread) (i : Nat) (v : Word) : ∀ (n r : Nat), i < r → (t.setReg i v).group n r = t.group n r
  | 0, _, _ => rfl
  | n + 1, r, h => by simp [Thread.group, Thread.group_setReg_lt t i v n (r + 1) (by omega), Nat.ne_of_lt h]

theorem Thread.setGroup_out (t : Thread) : ∀ (n d v r : Nat), r < d ∨ d + n ≤ r → (t.setGroup n d v).reg r = t.reg r
  | 0, _, _, _, _ => rfl
  | n + 1, d, v, r, h => by
    rw [Thread.setGroup, Thread.setGroup_out _ n (d + 1) _ r (by omega)]
    simp; omega

theorem Thread.setGroup_regs (t : Thread) : ∀ (n d v : Nat), t.setGroup n d v = { t with regs := (t.setGroup n d v).regs }
  | 0, _, _ => rfl
  | n + 1, d, v => by
    rw [Thread.setGroup]
    have := Thread.setGroup_regs (t.setReg d (BitVec.ofNat 32 v)) n (d + 1) (v / 2 ^ 32)
    rw [this]; rfl

theorem Thread.setGroup_group (t : Thread) : ∀ (n d v : Nat), (t.setGroup n d v).group n d = v % 2 ^ (32 * n)
  | 0, _, v => by simp [Thread.group, Nat.mod_one]
  | n + 1, d, v => by
    rw [Thread.group, Thread.setGroup, Thread.setGroup_group _ n (d + 1), Thread.setGroup_out _ _ _ _ _ (by omega)]
    have e : 2 ^ (32 * (n + 1)) = 2 ^ 32 * 2 ^ (32 * n) := by rw [← Nat.pow_add]; congr 1; omega
    rw [e, Nat.mod_mul]; simp

/-- Writing a group of registers. -/
theorem Thread.setGroup_wrote (t : Thread) (n d v : Nat) : t.Wrote (t.setGroup n d v) n d v :=
  ⟨t.setGroup_regs n d v, t.setGroup_out n d v, t.setGroup_group n d v⟩

/-- Writing one register. -/
theorem Thread.setReg_wrote (t : Thread) (d : Nat) (v : Word) : t.Wrote (t.setReg d v) 1 d v.toNat := by
  refine ⟨rfl, fun r h => ?_, ?_⟩
  · simp; omega
  · have := v.isLt; simp [Thread.group]; omega

/-- Writing a predicate. -/
theorem Thread.setPred_wrote (t : Thread) (p : Nat) (v : Bool) : t.WrotePred (t.setPred p v) p v := by
  refine ⟨?_, fun q => ?_⟩
  · unfold Thread.setPred; split <;> rfl
  · simp [eq_comm]

/-- A fold that sets threads from an unchanging source. -/
theorem foldl_setThread (g : Nat → Thread) : ∀ (l : List Nat) (s : State),
    let t := l.foldl (fun s' k => s'.setThread k (g k)) s
    t = { s with threads := t.threads } ∧ ∀ k, t.thread k = if k ∈ l then g k else s.thread k
  | [], s => by simp
  | x :: l, s => by
    obtain ⟨h1, h2⟩ := foldl_setThread g l (s.setThread x (g x))
    refine ⟨?_, fun k => ?_⟩
    · rw [List.foldl_cons, h1]; rfl
    · rw [List.foldl_cons, h2]
      by_cases hl : k ∈ l
      · simp [hl]
      · by_cases hx : x = k
        · subst hx; simp [hl]
        · simp [hl, hx, Ne.symm hx]

/-- The slot acts in each active thread on its own, and changes nothing else. -/
theorem mapLanes_step (s : State) (f : Thread → Thread) : LaneStep s (mapLanes s f) fun _ x y => y = f x := by
  obtain ⟨h1, h2⟩ := foldl_setThread (fun k => f (s.thread k)) s.cur.tids s
  exact ⟨h1, fun k hk => by rw [mapLanes, h2]; simp [hk], fun k hk => by rw [mapLanes, h2]; simp [hk]⟩

theorem LaneStep.mono {s t : State} {R Q : Nat → Thread → Thread → Prop} (h : LaneStep s t R)
    (hq : ∀ k x y, R k x y → Q k x y) : LaneStep s t Q :=
  ⟨h.1, h.2.1, fun k hk => hq k _ _ (h.2.2 k hk)⟩

/-- A slot whose meaning writes a group of registers in each active thread. -/
theorem gives_group {s : State} {i : Instr} {n : Nat} {d : Reg} {v : Nat → Thread → Nat} (f : Thread → Nat)
    (h : exec i s = .next (mapLanes s fun t => t.setGroup n d.toNat (f t)))
    (hv : ∀ k x, f x % 2 ^ (32 * n) = v k x % 2 ^ (32 * n)) : Gives s i n d v :=
  ⟨_, h, (mapLanes_step s _).mono fun k x y e => by
    subst e; have := x.setGroup_wrote n d.toNat (f x); exact ⟨this.1, this.2.1, this.2.2.trans (hv k x)⟩⟩

/-- A slot whose meaning writes a predicate in each active thread. -/
theorem gives_pred {s : State} {i : Instr} {p : Nat} {v : Nat → Thread → Bool} (f : Thread → Bool)
    (h : exec i s = .next (mapLanes s fun t => t.setPred p (f t))) (hv : ∀ k x, f x = v k x) : GivesPred s i p v :=
  ⟨_, h, (mapLanes_step s _).mono fun k x y e => by subst e; rw [← hv k x]; exact x.setPred_wrote p (f x)⟩

end Sys2Proof.Machine
end

