-- ==== Sys2Proof/Laws/Traps.lean ====
section
/-! SUPPORT. Everything that a precise trap does. -/
namespace Sys2Proof.Machine

/-- A thread just after it took a trap of its launch's trap block. -/
def trapped (t : Thread) (blk start cause sub : Nat) (word : Word) (pc : DWord) : Thread :=
  { t with
    outer := if t.depth = 1 then t.trap else t.outer
    depth := t.depth + 1
    trap := { pc := pc, cause := BitVec.ofNat 32 (sub * 65536 + cause), word := word, held := carriedTargets t.held }
    held := []
    status := ((carriedWait t.held).map fun w => Status.parked w.1).getD .dataWait
    blk := blk
    pkt := start
    slot := 0
    resume := false
    fall := none }

theorem enterTrap_eq {s : State} {tid : Nat} {l : Launch} {b : Blk} (hd : (s.thread tid).depth < 2)
    (hl : launchOf s tid = some l) (hb : l.blk l.trapblk = some b) (cause sub : Nat) (word : Word) (pc : DWord) :
    ∃ n w m, enterTrap s tid cause sub word pc =
      s.setThread tid { trapped (s.thread tid) l.trapblk b.start cause sub word pc with parkedAt := n, parkWord := w, parkPass := m } := by
  simp only [enterTrap, parkCarried, hl, hb, Nat.not_le.2 hd, trapped, Option.bind_some, Option.map_some, if_false]
  cases carriedWait (s.thread tid).held <;> exact ⟨_, _, _, rfl⟩

/-- What a thread leaves its pass with. -/
def heldTo (p : Pass) (tid pkt slot : Nat) : Held := ⟨4 * pkt + slot, kvGet p.targets tid, kvGet p.waits tid, p.waitWord, p.tslot⟩

/-- Everything that leaving a pass does. -/
theorem leavePass_eq (s : State) (pk tid pkt slot : Nat) :
    ∃ (hs : List Held) (ps : Kv Pass),
      hs.length ≤ 1 ∧ (∀ h, h ∈ hs → h.target.isSome = true ∨ h.wait.isSome = true) ∧
      (∀ k, (leavePass s pk tid pkt slot).thread k =
        if tid = k then { s.thread k with held := hs ++ (s.thread k).held } else s.thread k) ∧
      leavePass s pk tid pkt slot = { s with passes := ps, threads := (leavePass s pk tid pkt slot).threads } ∧
      (∀ q, q ≠ pk → kvGet ps q = s.pass q) ∧
      kvGet ps pk = (s.pass pk).map fun p =>
        { p with tids := p.tids.filter (· != tid), targets := kvDel p.targets tid, waits := kvDel p.waits tid } := by
  cases hp : s.pass pk with
  | none =>
    have e : leavePass s pk tid pkt slot = s := by simp [leavePass, hp]
    exact ⟨[], s.passes, by simp, by simp, by rw [e]; intro k; split <;> simp, by rw [e], fun q _ => rfl, hp⟩
  | some p =>
    let p' : Pass := { p with tids := p.tids.filter (· != tid), targets := kvDel p.targets tid, waits := kvDel p.waits tid }
    by_cases hh : (heldTo p tid pkt slot).target.isSome || (heldTo p tid pkt slot).wait.isSome
    · have e : leavePass s pk tid pkt slot =
          (s.updThread tid fun t => { t with held := heldTo p tid pkt slot :: t.held }).setPass pk p' := by
        simp only [leavePass, hp]
        rw [if_pos]
        · rfl
        · exact hh
      refine ⟨[heldTo p tid pkt slot], (leavePass s pk tid pkt slot).passes, by simp, by simpa using hh, ?_, ?_⟩
      · intro k
        rw [e]
        by_cases hk : tid = k
        · subst hk; simp
        · simp [hk]
      · rw [e]
        exact ⟨rfl, fun q hq => by simp [Ne.symm hq, State.pass], by simp [p']⟩
    · have e : leavePass s pk tid pkt slot = s.setPass pk p' := by
        simp only [leavePass, hp]
        rw [if_neg]
        exact hh
      refine ⟨[], (leavePass s pk tid pkt slot).passes, by simp, by simp, ?_⟩
      rw [e]
      exact ⟨fun k => by split <;> simp, rfl, fun q hq => by simp [Ne.symm hq, State.pass], by simp [p']⟩

/-- What one precise trap does to the state. -/
structure Raised (s t : State) (tid cause sub : Nat) (pc : DWord) : Prop where
  frame : t = { s with threads := t.threads, passes := t.passes, cur := t.cur }
  other : ∀ k, k ≠ tid → t.thread k = s.thread k
  took : TookTrap s tid cause sub s.cur.word pc (s.thread tid) (t.thread tid)
  team : (t.thread tid).team = (s.thread tid).team
  left : ∀ p, t.pass s.curPass = some p → ∃ q, s.pass s.curPass = some q ∧ p.tids = q.tids.filter (· != tid)
  away : ∀ q, q ≠ s.curPass → t.pass q = s.pass q
  cur : t.cur = { s.cur with tids := s.cur.tids.filter (· != tid), all := s.cur.all.filter (· != tid) }

theorem raiseAt_raised {s : State} {tid : Nat} (h : CanTrap s tid) (cause sub : Nat) (pc : DWord) :
    Raised s (raiseAt s tid cause sub pc) tid cause sub pc := by
  obtain ⟨hd, l, b, hl, hb⟩ := h
  obtain ⟨hs, ps, hlen, hkind, hth, hframe, haway, hleft⟩ := leavePass_eq s s.curPass tid s.cur.pkt s.cur.slot
  generalize hu : leavePass s s.curPass tid s.cur.pkt s.cur.slot = u at *
  have ht : u.thread tid = { s.thread tid with held := hs ++ (s.thread tid).held } := by rw [hth]; simp
  have hul : launchOf u tid = some l := by
    rw [← hl]; simp only [launchOf, ht]; rw [hframe]; rfl
  obtain ⟨n, w, m, e⟩ := enterTrap_eq (s := u) (tid := tid) (l := l) (b := b) (by rw [ht]; exact hd) hul hb cause sub s.cur.word pc
  generalize hv : ({ trapped (u.thread tid) l.trapblk b.start cause sub s.cur.word pc with parkedAt := n, parkWord := w, parkPass := m } : Thread) = v at e
  have key : raiseAt s tid cause sub pc =
      { u.setThread tid v with
        cur := { s.cur with tids := s.cur.tids.filter (· != tid), all := s.cur.all.filter (· != tid) } } := by
    unfold raiseAt
    rw [hu, e]
    have hc : u.cur = s.cur := by rw [hframe]
    simp [hc]
  rw [key]
  have th : ∀ k, ({ u.setThread tid v
      with cur := { s.cur with tids := s.cur.tids.filter (· != tid), all := s.cur.all.filter (· != tid) } } : State).thread k =
      if tid = k then v else s.thread k := by
    intro k
    show (u.setThread tid _).thread k = _
    rw [State.setThread_thread, hth]
    by_cases hk : tid = k <;> simp [hk]
  have hps : u.passes = ps := by rw [hframe]
  refine ⟨?_, ?_, ?_, ?_, ?_, ?_, rfl⟩
  · rw [hframe]; rfl
  · intro k hk; rw [th]; simp [Ne.symm hk]
  · rw [th, if_pos rfl, ← hv, ht]
    exact ⟨l, b, hl, hb, rfl, rfl, by simp [trapped], rfl, rfl, rfl, rfl, rfl, rfl, rfl, rfl, rfl, rfl, rfl, rfl, rfl, rfl,
      hs, rfl, rfl, hlen, hkind⟩
  · rw [th, if_pos rfl, ← hv, ht]; rfl
  · intro p hp
    have hp : kvGet u.passes s.curPass = some p := hp
    rw [hps, hleft] at hp
    simp only [Option.map_eq_some_iff] at hp
    obtain ⟨q, hq, rfl⟩ := hp
    exact ⟨q, hq, rfl⟩
  · intro q hq
    show kvGet u.passes q = _
    rw [hps]
    exact haway q hq

theorem Raised.curPass {s t : State} {tid cause sub : Nat} {pc : DWord} (h : Raised s t tid cause sub pc) :
    t.curPass = s.curPass := by
  simp [State.curPass, h.cur]

theorem Raised.curPc {s t : State} {tid cause sub : Nat} {pc : DWord} (h : Raised s t tid cause sub pc) :
    curPc t = curPc s := by
  simp [Sys2Proof.Machine.curPc, h.cur]

theorem Raised.launchOf {s t : State} {tid cause sub : Nat} {pc : DWord} (h : Raised s t tid cause sub pc) (k : Nat) :
    launchOf t k = launchOf s k := by
  have e : (t.thread k).team = (s.thread k).team := by
    by_cases hk : k = tid
    · subst hk; exact h.team
    · rw [h.other k hk]
  have h1 : ∀ i, t.team i = s.team i := by intro i; rw [h.frame]; rfl
  have h2 : ∀ i, t.launch i = s.launch i := by intro i; rw [h.frame]; rfl
  simp only [Sys2Proof.Machine.launchOf, e, h1, h2]

theorem Raised.canTrap {s t : State} {tid cause sub : Nat} {pc : DWord} (h : Raised s t tid cause sub pc) {k : Nat}
    (hk : k ≠ tid) (hc : CanTrap s k) : CanTrap t k := by
  obtain ⟨hd, l, b, hl, hb⟩ := hc
  exact ⟨by rw [h.other k hk]; exact hd, l, b, by rw [h.launchOf]; exact hl, hb⟩

end Sys2Proof.Machine
end

