-- ==== Sys2Proof/Laws/Accesses.lean ====
section
/-! SUPPORT. Everything that making accesses does: `Adds` of a fold, for the instructions that make one access in each
active thread. -/
namespace Sys2Proof.Machine

theorem addAcc_acc (s : State) (a : Access) (id : Nat) :
    (addAcc s a).acc id = if id = s.seq then some a else s.acc id := by
  by_cases h : id = s.seq
  · subst h; simp [addAcc, State.bump, State.setAcc, State.acc]
  · simp [addAcc, State.bump, State.setAcc, State.acc, h, Ne.symm h]

/-- A fold that makes one access in each thread of a list, whatever accesses there are already. -/
theorem adds_foldl {s : State} {f : State → Nat → State} {acc : Nat → Access} {A : Nat → Access → Prop} {l : List Nat}
    (hf : ∀ m n k, k ∈ l → f { s with accs := m, seq := n } k = addAcc { s with accs := m, seq := n } (acc k))
    (hA : ∀ k, k ∈ l → Fresh s k (acc k) ∧ A k (acc k)) : Adds s (l.foldl f s) l A := by
  suffices h : ∀ (l : List Nat), (∀ m n k, k ∈ l → f { s with accs := m, seq := n } k = addAcc { s with accs := m, seq := n } (acc k)) →
      ∀ m n, let t := l.foldl f { s with accs := m, seq := n }
      t = { s with accs := t.accs, seq := n + l.length } ∧
      (∀ j (h : j < l.length), t.acc (n + j) = some (acc l[j])) ∧
      ∀ id, id < n ∨ n + l.length ≤ id → t.acc id = kvGet m id by
    obtain ⟨h1, h2, h3⟩ := h l hf s.accs s.seq
    have e : (l.foldl f s).seq = s.seq + l.length := congrArg State.seq h1
    exact ⟨by rw [e]; exact h1, e,
      fun j hj => ⟨_, h2 j hj, (hA _ (List.getElem_mem hj)).1, (hA _ (List.getElem_mem hj)).2⟩, h3⟩
  clear hf hA l
  intro l
  induction l with
  | nil => intro _ m n; exact ⟨rfl, fun j hj => absurd hj (Nat.not_lt_zero _), fun _ _ => rfl⟩
  | cons k l ih =>
    intro hf m n
    have hk := hf m n k (by simp)
    simp only [List.foldl_cons, hk]
    obtain ⟨h1, h2, h3⟩ := ih (fun m n k h => hf m n k (by simp [h])) (kvPut m n (acc k)) (n + 1)
    refine ⟨?_, ?_, ?_⟩
    · rw [show n + (k :: l).length = n + 1 + l.length by simp; omega]; exact h1
    · intro j hj
      cases j with
      | zero => exact (h3 n (by omega)).trans (by simp)
      | succ j => rw [show n + (j + 1) = n + 1 + j by omega]; exact h2 j (by simpa using hj)
    · intro id hid
      simp only [List.length_cons] at hid
      rw [show addAcc { s with accs := m, seq := n } (acc k) = { s with accs := kvPut m n (acc k), seq := n + 1 } from rfl]
      rw [h3 id (by omega)]
      have : id ≠ n := by omega
      simp [Ne.symm this]

/-- An instruction whose lanes make one access each. -/
theorem starts_eachLane {s : State} {i : Instr} {f : State → Nat → State} {acc : Nat → Access} {A : Nat → Access → Prop}
    (hi : exec i s = .next (eachLane s f))
    (hf : ∀ m n k, k ∈ s.cur.tids → f { s with accs := m, seq := n } k = addAcc { s with accs := m, seq := n } (acc k))
    (hA : ∀ k, k ∈ s.cur.tids → Fresh s k (acc k) ∧ A k (acc k)) : Starts s i A :=
  ⟨_, hi, adds_foldl hf hA⟩

end Sys2Proof.Machine
end

