-- ==== Sys2Proof/Laws/Mem.lean ====
section
/-! SUPPORT. Every write of memory keeps its canonical form, and a read after a write gives what was written. -/
namespace Sys2Proof.Machine

theorem cellsWf_mono {lo lo' : Nat} (h : lo' ≤ lo) : ∀ {m : List Host.Cell}, cellsWf lo m = true → cellsWf lo' m = true
  | [], _ => rfl
  | (a, b) :: m, hm => by simp only [cellsWf, Bool.and_eq_true, decide_eq_true_eq] at hm ⊢; exact ⟨⟨by omega, hm.1.2⟩, hm.2⟩

theorem cellDel_wf (a : Nat) : ∀ {lo : Nat} {m : List Host.Cell}, cellsWf lo m = true → cellsWf lo (cellDel m a) = true
  | _, [], _ => rfl
  | lo, (a', b) :: m, hm => by
    simp only [cellsWf, Bool.and_eq_true, decide_eq_true_eq] at hm
    simp only [cellDel]
    split
    · exact cellDel_wf a (cellsWf_mono (by omega) hm.2)
    · simp only [cellsWf, Bool.and_eq_true, decide_eq_true_eq]; exact ⟨hm.1, cellDel_wf a hm.2⟩

theorem cellIns_wf (a : Nat) (b : Byte) (hb : b ≠ 0) :
    ∀ {lo : Nat} {m : List Host.Cell}, cellsWf lo m = true → lo ≤ a → cellsWf lo (cellIns m a b) = true
  | _, [], _, h => by simp [cellIns, cellsWf, h]; exact hb
  | lo, (a', b') :: m, hm, h => by
    simp only [cellsWf, Bool.and_eq_true, decide_eq_true_eq] at hm
    simp only [cellIns]
    split
    · simp only [cellsWf, Bool.and_eq_true, decide_eq_true_eq]; exact ⟨hm.1, cellIns_wf a b hb hm.2 (by omega)⟩
    · split
      · subst a'; simp [cellsWf, h, hm.2]; exact hb
      · have : a < a' := by omega
        simp only [cellsWf, Bool.and_eq_true, decide_eq_true_eq]
        exact ⟨⟨h, by simpa using hb⟩, ⟨by omega, hm.1.2⟩, hm.2⟩

/-- Writing a byte keeps the canonical form. -/
theorem cellPut_wf (a : Nat) (b : Byte) {m : List Host.Cell} (h : Memory.wf m = true) : Memory.wf (cellPut m a b) = true := by
  unfold cellPut; split
  · exact cellDel_wf a h
  · exact cellIns_wf a b ‹_› h (Nat.zero_le _)

/-- Writing bytes keeps the canonical form. -/
theorem cellPuts_wf : ∀ (bs : List Byte) (a : Nat) {m : List Host.Cell}, Memory.wf m = true → Memory.wf (cellPuts m a bs) = true
  | [], _, _, h => h
  | b :: bs, a, _, h => cellPuts_wf bs (a + 1) (cellPut_wf a b h)

@[simp] theorem cellGet_cellDel (m : List Host.Cell) (a i : Nat) :
    cellGet (cellDel m a) i = if a = i then 0 else cellGet m i := by
  induction m with
  | nil => simp [cellDel, cellGet]
  | cons e m ih =>
    simp only [cellDel]
    split
    · simp only [cellGet, ih]; split <;> (try split) <;> first | rfl | omega
    · simp only [cellGet, ih]; split <;> (try split) <;> first | rfl | omega

@[simp] theorem cellGet_cellIns (m : List Host.Cell) (a : Nat) (b : Byte) (i : Nat) :
    cellGet (cellIns m a b) i = if a = i then b else cellGet m i := by
  induction m with
  | nil => rfl
  | cons e m ih =>
    simp only [cellIns]
    split
    · simp only [cellGet, ih]; split <;> (try split) <;> first | rfl | omega
    · split
      · simp only [cellGet]; split <;> (try split) <;> first | rfl | omega
      · simp only [cellGet]

/-- A byte reads as it was last written. -/
@[simp] theorem cellGet_cellPut (m : List Host.Cell) (a : Nat) (b : Byte) (i : Nat) :
    cellGet (cellPut m a b) i = if a = i then b else cellGet m i := by
  unfold cellPut; split
  · subst b; simp
  · simp

/-- What a read of one byte gives after a write of several: the byte written there, or what stood there. -/
theorem cellGet_cellPuts : ∀ (bs : List Byte) (m : List Host.Cell) (a i : Nat),
    cellGet (cellPuts m a bs) i = if h : a ≤ i ∧ i - a < bs.length then bs[i - a]'h.2 else cellGet m i
  | [], _, _, _ => by simp [cellPuts]
  | b :: bs, m, a, i => by
    rw [cellPuts, cellGet_cellPuts bs]
    by_cases h : a = i
    · subst h; simp; try (intro h; omega)
    · by_cases h1 : a + 1 ≤ i ∧ i - (a + 1) < bs.length
      · have e : i - a = (i - (a + 1)) + 1 := by omega
        rw [dif_pos h1, dif_pos (by simp only [List.length_cons]; omega)]
        simp only [e, List.getElem_cons_succ]
      · rw [dif_neg h1, dif_neg (by simp only [List.length_cons]; omega)]; simp [h]

/-- Bytes outside those written read as before. -/
theorem cellGet_cellPuts_out (bs : List Byte) (m : List Host.Cell) (a i : Nat) (h : i < a ∨ a + bs.length ≤ i) :
    cellGet (cellPuts m a bs) i = cellGet m i := by
  rw [cellGet_cellPuts, dif_neg (by omega)]

/-- Reading back what was written. -/
theorem cellGets_cellPuts (bs : List Byte) (m : List Host.Cell) (a : Nat) : cellGets (cellPuts m a bs) a bs.length = bs := by
  apply List.ext_getElem (by simp [cellGets])
  intro i h1 h2
  simp [cellGets, cellGet_cellPuts, h2]

@[simp] theorem leBytes_length : ∀ (n v : Nat), (leBytes n v).length = n
  | 0, _ => rfl
  | n + 1, v => by simp [leBytes, leBytes_length n]

/-- Bytes and the number they form. -/
theorem ofLe_leBytes : ∀ (n v : Nat), ofLe (leBytes n v) = v % 256 ^ n
  | 0, v => by simp [leBytes, ofLe, Nat.mod_one]
  | n + 1, v => by
    simp only [leBytes, ofLe, ofLe_leBytes n, BitVec.toNat_ofNat]
    have e : 256 ^ (n + 1) = 256 * 256 ^ n := by rw [Nat.pow_succ, Nat.mul_comm]
    rw [e, Nat.mod_mul]

end Sys2Proof.Machine
end

