-- ==== Sys2Proof/Laws/Engines.lean ====
section
/-! SUPPORT. What an engine's reads and writes of its team's own allotment do, where nothing is outstanding (R163, R170, R172). -/
namespace Sys2Proof.Machine

theorem mem_natAdd (l : List Nat) (n m : Nat) : m ∈ natAdd l n ↔ m ∈ l ∨ m = n := by
  induction l with
  | nil => simp [natAdd]
  | cons x l ih =>
    unfold natAdd
    split
    · simp [ih, or_assoc]
    · split
      · subst_vars; simp only [List.mem_cons]; exact ⟨.inl, fun h => h.elim id .inl⟩
      · simp only [List.mem_cons]; exact ⟨fun h => h.elim .inr .inl, fun h => h.elim .inr .inl⟩

/-! ## Pieces -/

/-- Each piece of a range starts at its offset, is not empty and ends within the range. -/
theorem spadPieces_mem {va n : Nat} {p : Nat × Nat × Nat} (h : p ∈ spadPieces va n) :
    p.1 = va + p.2.1 ∧ 0 < p.2.2 ∧ p.2.1 + p.2.2 ≤ n := by
  unfold spadPieces at h
  split at h
  · cases h
  · simp only [sectorsOf, List.map_map, List.mem_map, List.mem_range, Function.comp] at h
    obtain ⟨i, hi, rfl⟩ := h
    simp only
    omega

/-- Every byte of a range lies in one of its pieces. -/
theorem spadPieces_cover {va n j : Nat} (h : j < n) : ∃ p, p ∈ spadPieces va n ∧ p.2.1 ≤ j ∧ j < p.2.1 + p.2.2 := by
  unfold spadPieces
  rw [if_neg (by omega)]
  refine ⟨_, List.mem_map.mpr ⟨_, List.mem_map.mpr ⟨(va + j) / 64 - va / 64, List.mem_range.mpr (by omega), rfl⟩, rfl⟩, ?_⟩
  simp only
  omega

/-! ## Places -/

theorem State.OwnSpad.sub {s : State} {t : Team} {va n : Nat} {wr : Bool} (h : s.OwnSpad t va n wr) {o m : Nat} (hm : o + m ≤ n) :
    s.OwnSpad t (va + o) m wr :=
  ⟨by have := h.1; omega, h.2.1, fun i hi => by
    have := h.2.2 (o + i) (by omega)
    rwa [← Nat.add_assoc] at this⟩

theorem spadResolve_own {s : State} {t : Team} {va n : Nat} {wr : Bool} (h : s.OwnSpad t va n wr) {i : Nat} (hi : i < n) :
    spadResolve s t ((va + i) % 2 ^ 32) 1 wr true = .ok (.phys t.core (t.spadBase + (va + i)) true) := by
  obtain ⟨h1, h2, h3⟩ := h
  have hv : va + i < 2 ^ 19 := by omega
  rw [Nat.mod_eq_of_lt (by omega)]
  unfold spadResolve
  rw [Nat.div_eq_of_lt (by omega : va + i < 2 ^ 30)]
  simp only [Nat.div_eq_of_lt hv, Nat.mod_eq_of_lt hv, Nat.mod_one, ne_eq, not_true_eq_false, if_false]
  rw [if_neg (by omega), (h3 i hi).1]

theorem wbAt_nil {s : State} (h : s.accs = []) (g p n : Nat) : wbAt s g p n = false := by simp [wbAt, h]

theorem touchPiece_own {s : State} {tk va n : Nat} {t : Team} {wr : Bool} (ht : s.team tk = some t) (ha : s.accs = [])
    (h : s.OwnSpad t va n wr) (hn : 0 < n) : touchPiece s tk va n wr = (s, .ok) := by
  have h0 : spadResolve s t ((va + 0) % 2 ^ 32) 1 wr true = _ := spadResolve_own h hn
  have hno : ((List.range n).any fun i => (spadResolve s t ((va + i) % 2 ^ 32) 1 wr true).toOption.isNone) = false := by
    rw [List.any_eq_false]
    intro i hi
    rw [spadResolve_own h (List.mem_range.mp hi)]
    simp [Except.toOption]
  unfold touchPiece
  simp only [ht, hno, h0, wbAt_nil ha, Bool.false_eq_true, if_false]

/-- Readying a range of the own allotment changes nothing. -/
theorem touchSpad_own {s : State} {tk va n : Nat} {t : Team} {wr : Bool} (ht : s.team tk = some t) (ha : s.accs = [])
    (h : n ≠ 0 → s.OwnSpad t va n wr) : touchSpad s tk va n wr = (s, .ok) := by
  unfold touchSpad
  have go : ∀ l : List (Nat × Nat × Nat), (∀ p, p ∈ l → p ∈ spadPieces va n) →
      l.foldl (fun (r : State × Touch) p => match r.2 with
        | .ok => touchPiece r.1 tk p.1 p.2.2 wr
        | _ => r) (s, .ok) = (s, .ok) := by
    intro l
    induction l with
    | nil => intro _; rfl
    | cons p l ih =>
      intro hl
      have hp := spadPieces_mem (hl p (by simp))
      rw [List.foldl_cons]
      have : touchPiece s tk p.1 p.2.2 wr = (s, .ok) := by
        rw [hp.1]
        exact touchPiece_own ht ha (State.OwnSpad.sub (h (by omega)) (by omega)) hp.2.1
      simp only [this]
      exact ih fun q hq => hl q (by simp [hq])
  exact go _ fun _ h => h

theorem peekSpad_own {s : State} {t : Team} {va n : Nat} (h : s.OwnSpad t va n false) (hp : (s.core t.core).spadPoison = []) {i : Nat}
    (hi : i < n) : peekSpad s t (va + i) = some (s.spadByte t (va + i), false) := by
  unfold peekSpad
  rw [spadResolve_own h hi]
  simp [State.spadByte, spadPoisoned, hp]

/-! ## Writes -/

theorem fillGranule_nil {s : State} (h : s.accs = []) (g p : Nat) : fillGranule s g p = setFull s g p := by
  have hw : ∀ c, ldfeWaiters (setFull s g p) g p c = [] := fun c => by simp [ldfeWaiters, setFull, State.updCore, h, sortBy]
  simp [fillGranule, hw]

theorem setFull_full (s : State) (g p q : Nat) : isFull (setFull s g p) g q = true ↔ isFull s g q = true ∨ q / 16 = p / 16 := by
  simp [isFull, setFull, State.updCore, mem_natAdd]

/-- Filling a range touches the full bits of its core alone: those of the range are set, and none is cleared. -/
theorem fillRange_nil {s : State} (h : s.accs = []) (g p n : Nat) : let v := fillRange s g p n
    v = { s with cores := v.cores } ∧ (∀ i, i ≠ g → v.core i = s.core i) ∧ v.core g = { s.core g with full := (v.core g).full } ∧
    (∀ q, isFull s g q = true → isFull v g q = true) ∧ ∀ j, j < n → isFull v g (p + j) = true := by
  have go : ∀ (l : List Nat) (s : State), s.accs = [] →
      let v := l.foldl (fun s i => fillGranule s g (p / 16 * 16 + 16 * i)) s
      v = { s with cores := v.cores } ∧ (∀ i, i ≠ g → v.core i = s.core i) ∧ v.core g = { s.core g with full := (v.core g).full } ∧
      (∀ q, isFull s g q = true → isFull v g q = true) ∧ ∀ i, i ∈ l → ∀ q, q / 16 = p / 16 + i → isFull v g q = true := by
    intro l
    induction l with
    | nil => intro s _; exact ⟨rfl, fun _ _ => rfl, rfl, fun _ h => h, fun _ hi => absurd hi (by simp)⟩
    | cons i l ih =>
      intro s h
      simp only [List.foldl_cons, fillGranule_nil h]
      obtain ⟨h1, h2, h3, h4, h5⟩ := ih (setFull s g (p / 16 * 16 + 16 * i)) (by simp [setFull, State.updCore, h])
      refine ⟨?_, fun j hj => ?_, ?_, fun q hq => h4 q ?_, fun j hj q hq => ?_⟩
      · rw [h1]; simp [setFull, State.updCore, State.setCore]
      · rw [h2 j hj]; simp [setFull, State.updCore, Ne.symm hj]
      · rw [h3]; simp [setFull, State.updCore]
      · rw [setFull_full]; exact .inl hq
      · rcases List.mem_cons.mp hj with rfl | hj
        · apply h4; rw [setFull_full]; exact .inr (by omega)
        · exact h5 j hj q hq
  obtain ⟨h1, h2, h3, h4, h5⟩ := go (List.range ((p % 16 + n + 15) / 16)) s h
  exact ⟨h1, h2, h3, h4, fun j hj => h5 ((p + j) / 16 - p / 16) (List.mem_range.mpr (by omega)) _ (by omega)⟩

theorem keepsBit_ne (c : Byte) : ¬ ∀ b : Byte, (b &&& 0xFD) ||| (c &&& 2) = b := fun h => by
  have h0 : c &&& 2 = 0 := by simpa using h 0
  have h2 := h 2
  rw [h0] at h2
  exact absurd h2 (by decide)

/-- A byte follows every write to it unless it is the BOUND byte of a descriptor (R172). -/
theorem maskBound_open (s : State) (g p : Nat) :
    (∀ b, maskBound s g p b = b) ↔ ∀ k t, teamAt s g p = some (k, t) → boundByte t p = false := by
  unfold maskBound
  generalize cellGet (s.core g).spad p = c
  constructor
  · intro h k t ht
    rw [ht] at h
    cases hb : boundByte t p with
    | false => rfl
    | true => simp only [hb, if_true] at h; exact absurd h (keepsBit_ne c)
  · intro h b
    split
    · rfl
    · rename_i k t ht
      rw [h k t ht]; rfl

/-- A write that leaves the team's descriptors alone changes no check of its allotment. -/
theorem State.OwnSpad.after {s v : State} {t : Team} {f : Nat → Option Byte} (hv : s.Leaves v t f)
    (hf : ∀ a, 1024 * t.spadK - 256 ≤ a → f a = none) {va n : Nat} {wr : Bool} (h : s.OwnSpad t va n wr) : v.OwnSpad t va n wr := by
  obtain ⟨h1, h2, h3⟩ := h
  obtain ⟨e, -, -, -, -, hb⟩ := hv
  have hcell : ∀ a, 1024 * t.spadK - 256 ≤ a →
      cellGet (v.core t.core).spad (t.spadBase + a) = cellGet (s.core t.core).spad (t.spadBase + a) := fun a ha => by
    have := (hb a).1
    rw [hf a ha] at this
    exact this
  have hd : ∀ w, winBound v t w = winBound s t w := fun w => by
    simp only [winBound, hcell (descOff t w) (by unfold descOff; omega)]
  have hdesc : ∀ w, descOf v t w = descOf s t w := fun w => by
    unfold descOf spadGet cellGets
    have : (List.range 32).map (fun i => cellGet (v.core t.core).spad (t.spadBase + descOff t w + i)) =
        (List.range 32).map (fun i => cellGet (s.core t.core).spad (t.spadBase + descOff t w + i)) := by
      apply List.map_congr_left
      intro i _
      rw [Nat.add_assoc]
      exact hcell _ (by unfold descOff; omega)
    rw [this]
  have hp : ∀ o m wr, protect v t o m true wr = protect s t o m true wr := fun o m wr => by
    have h1 : inBacking v t o m = inBacking s t o m := by simp only [inBacking, winSoff, winLen, hd, hdesc]
    have h2 : inDescriptor v t o m = inDescriptor s t o m := by simp only [inDescriptor, hd]
    unfold protect
    rw [h1, h2]
  have hteams : v.teams = s.teams := by rw [e]
  refine ⟨h1, h2, fun i hi => ⟨by rw [hp]; exact (h3 i hi).1, fun b => ?_⟩⟩
  exact (maskBound_open v _ _).mpr (fun k u hu => (maskBound_open s _ _).mp (h3 i hi).2 k u (by rw [← hu]; simp only [teamAt, hteams])) b

/-- One write after another. -/
theorem State.Leaves.trans {s v w : State} {t : Team} {f g : Nat → Option Byte} (h : s.Leaves v t f) (k : v.Leaves w t g) :
    s.Leaves w t fun a => (g a).or (f a) := by
  obtain ⟨a1, a2, a3, a4, a5, a6⟩ := h
  obtain ⟨b1, b2, b3, b4, b5, b6⟩ := k
  refine ⟨by rw [b1, a1], fun i hi => by rw [b2 i hi, a2 i hi], by rw [b3, a3], fun q hq => by rw [b4 q hq, a4 q hq],
    fun q hq => b5 q (a5 q hq), fun va => ⟨?_, fun hs => ?_⟩⟩
  · rw [(b6 va).1, (a6 va).1]
    show (g va).getD _ = ((g va).or (f va)).getD _
    cases g va <;> simp
  · cases hg : g va with
    | none => simp only [hg, Option.none_or] at hs; exact b5 _ ((a6 va).2 hs)
    | some x => exact (b6 va).2 (by rw [hg]; rfl)

theorem State.Leaves.refl (s : State) (t : Team) : s.Leaves s t fun _ => none :=
  ⟨rfl, fun _ _ => rfl, rfl, fun _ _ => rfl, fun _ h => h, fun _ => ⟨rfl, fun h => absurd h (by simp)⟩⟩

theorem State.Leaves.congr {s v : State} {t : Team} {f g : Nat → Option Byte} (h : s.Leaves v t f) (e : ∀ a, f a = g a) : s.Leaves v t g := by
  have : f = g := funext e
  rwa [← this]

/-- The bytes of a list from a local address on. -/
def bytesFrom (va : Nat) (bs : List (Byte × Bool)) (a : Nat) : Option Byte :=
  if va ≤ a then (bs[a - va]?).map (·.1) else none

theorem writePiece_own {s : State} {tk va : Nat} {t : Team} (ht : s.team tk = some t) (ha : s.accs = []) (bs : List (Byte × Bool))
    (h : s.OwnSpad t va bs.length true) (hn : 0 < bs.length) :
    ∃ v, writePiece s tk va bs = (v, false) ∧ s.Leaves v t (bytesFrom va bs) := by
  have h0 : spadResolve s t (va % 2 ^ 32) 1 true true = .ok (.phys t.core (t.spadBase + va) true) := spadResolve_own h hn
  have hmask : (bs.map (·.1)).mapIdx (fun i b => maskBound s t.core (t.spadBase + va + i) b) = bs.map (·.1) := by
    apply List.ext_getElem (by simp)
    intro i h1 h2
    rw [List.getElem_mapIdx, Nat.add_assoc]
    exact (h.2.2 i (by simpa using h2)).2 _
  have hw : let x := spadWrite s t.core (t.spadBase + va) bs
      x = { s with cores := x.cores } ∧ (∀ g, g ≠ t.core → x.core g = s.core g) ∧ x.core t.core = { s.core t.core with
        spad := cellPuts (s.core t.core).spad (t.spadBase + va) (bs.map (·.1)), spadPoison := (x.core t.core).spadPoison } := by
    simp only [spadWrite, spadPut, hmask]
    split
    · exact ⟨rfl, fun g hg => by simp [State.updCore, Ne.symm hg], by simp [State.updCore]⟩
    · exact ⟨rfl, fun g hg => by simp [State.updCore, Ne.symm hg], by simp [State.updCore]⟩
  generalize hx : spadWrite s t.core (t.spadBase + va) bs = x at hw
  obtain ⟨w1, w2, w3⟩ := hw
  obtain ⟨f1, f2, f3, f4, f5⟩ := fillRange_nil (s := x) (by rw [w1]; exact ha) t.core (t.spadBase + va) bs.length
  refine ⟨fillRange x t.core (t.spadBase + va) bs.length, by simp only [writePiece, ht, h0, hx], ?_⟩
  have hsp : ((fillRange x t.core (t.spadBase + va) bs.length).core t.core).spad =
      cellPuts (s.core t.core).spad (t.spadBase + va) (bs.map (·.1)) := by
    rw [f3]; simp only; rw [w3]
  refine ⟨by rw [f1, w1], fun g hg => by rw [f2 g hg, w2 g hg], by rw [f3, w3], fun q hq => ?_, fun q hq => ?_,
    fun a => ⟨?_, fun hs => ?_⟩⟩
  · rw [hsp, cellGet_cellPuts_out _ _ _ _ (by omega)]
  · apply f4
    unfold isFull at hq ⊢
    rw [w3]
    exact hq
  · simp only [State.spadByte, hsp, cellGet_cellPuts, bytesFrom, List.length_map]
    by_cases hva : va ≤ a
    · by_cases hlt : a - va < bs.length
      · have e : t.spadBase + a - (t.spadBase + va) = a - va := by omega
        rw [dif_pos ⟨by omega, by omega⟩]
        simp [hva, List.getElem?_eq_getElem hlt, e]
      · rw [dif_neg (by omega)]
        simp [List.getElem?_eq_none (by omega : bs.length ≤ a - va)]
    · rw [dif_neg (by omega)]
      simp [hva]
  · have hva : va ≤ a ∧ a - va < bs.length := by
      unfold bytesFrom at hs
      split at hs
      · refine ⟨‹_›, ?_⟩
        by_cases hlt : a - va < bs.length
        · exact hlt
        · rw [List.getElem?_eq_none (by omega)] at hs; cases hs
      · cases hs
    have := f5 (a - va) hva.2
    rwa [show t.spadBase + va + (a - va) = t.spadBase + a by omega] at this

/-- A write of the own allotment leaves its bytes there. -/
theorem writeSpad_own {s : State} {tk va : Nat} {t : Team} (ht : s.team tk = some t) (ha : s.accs = []) (bs : List (Byte × Bool))
    (h : bs.length ≠ 0 → s.OwnSpad t va bs.length true) :
    ∃ v, writeSpad s tk va bs = (v, .ok) ∧ s.Leaves v t (bytesFrom va bs) := by
  have go : ∀ (l : List (Nat × Nat × Nat)) (s : State), s.team tk = some t → s.accs = [] → (bs.length ≠ 0 → s.OwnSpad t va bs.length true) →
      (∀ p, p ∈ l → p ∈ spadPieces va bs.length) →
      ∃ v f, l.foldl (fun (r : State × Touch) p => match r.2 with
        | .ok =>
          let w := writePiece r.1 tk p.1 ((bs.drop p.2.1).take p.2.2)
          (w.1, if w.2 then .fault 0x15 0 15 (poolAddr r.1 tk p.1) 1 else .ok)
        | _ => r) (s, .ok) = (v, .ok) ∧ s.Leaves v t f ∧
        (∀ a, f a = none ∨ f a = bytesFrom va bs a) ∧
        ∀ p, p ∈ l → ∀ j, p.2.1 ≤ j → j < p.2.1 + p.2.2 → f (va + j) = bytesFrom va bs (va + j) := by
    intro l
    induction l with
    | nil => intro s _ _ _ _; exact ⟨s, _, rfl, .refl s t, fun _ => .inl rfl, fun _ hp => absurd hp (by simp)⟩
    | cons p l ih =>
      intro s ht ha h hl
      have hp := spadPieces_mem (hl p (by simp))
      have hlen : ((bs.drop p.2.1).take p.2.2).length = p.2.2 := by simp; omega
      have hown : s.OwnSpad t p.1 ((bs.drop p.2.1).take p.2.2).length true := by
        rw [hlen, hp.1]; exact (State.OwnSpad.sub (h (by omega)) hp.2.2)
      obtain ⟨v, hv, hL⟩ := writePiece_own ht ha _ hown (by omega)
      have hpart : ∀ a, bytesFrom p.1 ((bs.drop p.2.1).take p.2.2) a =
          if p.2.1 ≤ a - va ∧ a - va < p.2.1 + p.2.2 ∧ va ≤ a then bytesFrom va bs a else none := by
        intro a
        unfold bytesFrom
        rw [hp.1]
        by_cases h1 : va + p.2.1 ≤ a
        · by_cases h2 : a - va < p.2.1 + p.2.2
          · rw [if_pos h1, if_pos ⟨by omega, h2, by omega⟩, if_pos (by omega), List.getElem?_take_of_lt (by omega), List.getElem?_drop,
              show p.2.1 + (a - (va + p.2.1)) = a - va by omega]
          · rw [if_pos h1, if_neg (by omega), List.getElem?_eq_none (by rw [hlen]; omega)]; rfl
        · rw [if_neg h1, if_neg (by omega)]
      have hend : ∀ a, 1024 * t.spadK - 256 ≤ a → bytesFrom p.1 ((bs.drop p.2.1).take p.2.2) a = none := fun a ha' => by
        rw [hpart, if_neg]
        have := (h (by omega)).1
        omega
      have ev := hL.1
      obtain ⟨w, f, hw, hwL, hf1, hf2⟩ := ih v (by rw [ev]; exact ht) (by rw [ev]; exact ha)
        (fun hne => State.OwnSpad.after hL hend (h hne)) (fun q hq => hl q (by simp [hq]))
      refine ⟨w, _, ?_, hL.trans hwL, fun a => ?_, fun q hq j h1 h2 => ?_⟩
      · rw [List.foldl_cons]
        simp only [hv, Bool.false_eq_true, if_false]
        exact hw
      · rcases hf1 a with e | e
        · rw [e, hpart]; simp only [Option.none_or]; split
          · exact .inr rfl
          · exact .inl rfl
        · rw [e, hpart]
          right
          cases hb : bytesFrom va bs a with
          | none => simp
          | some x => simp
      · rcases List.mem_cons.mp hq with rfl | hq
        · rw [hpart, if_pos ⟨by omega, by omega, by omega⟩]
          rcases hf1 (va + j) with e | e <;> rw [e]
          · simp
          · cases bytesFrom va bs (va + j) <;> rfl
        · rw [hf2 q hq j h1 h2, hpart]
          cases hb : bytesFrom va bs (va + j) with
          | none => simp
          | some x => simp
  obtain ⟨v, f, hv, hL, hf1, hf2⟩ := go (spadPieces va bs.length) s ht ha h fun _ hp => hp
  refine ⟨v, hv, hL.congr fun a => ?_⟩
  rcases hf1 a with e | e
  · by_cases hin : va ≤ a ∧ a - va < bs.length
    · obtain ⟨p, hp, h1, h2⟩ := spadPieces_cover (va := va) hin.2
      have := hf2 p hp _ h1 h2
      rwa [show va + (a - va) = a by omega] at this
    · rw [e]
      unfold bytesFrom
      split
      · rw [List.getElem?_eq_none (by omega)]; rfl
      · rfl
  · exact e

end Sys2Proof.Machine
end

