-- ==== Sys2Proof/Tests/Slice0.lean ====
section
/-! SUPPORT. Tests: words written out from the encodings of the spec decode to their instructions, ill-formed terms are
refused, results that the spec works out come out so, and the hypotheses of every statement are met somewhere. -/
open Sys2Proof Sys2Proof.Machine

section Tests
set_option Elab.async false

/-! ## Helpers -/

/-- The slot being executed: slot A of the one packet, by some threads of gang 0 of core 0. -/
def tCur (tids : List Nat) (w : Word) (lit : Option DWord) : Issue :=
  { Issue.reset with all := tids, tids := tids, pass := 1, slot := 1, word := w, lit := lit }

/-- The stage of `placeWord` with a slot under way, the threads as given. -/
def tState (tids : List Nat) (f : Nat → Thread → Thread) : State :=
  let s := tids.foldl (fun s k => s.updThread k (f k)) (placeWord State.reset 0x01000000)
  { s with cur := tCur tids 0x01000000 none }

/-- Thread 0 alone, with some registers. -/
def tOne (regs : Kv Word) : State := tState [0] fun _ x => { x with regs := regs }

def tDec (w : Word) (i : Instr) : Bool :=
  match decodeWord w with
  | .ok j => decide (j = i) && decide (encode i = some w)
  | .error _ => false

def tExec (i : Instr) (s : State) : Option State :=
  match exec i s with
  | .next t => some t
  | _ => none

/-- Runs the instruction of a word, with its literal. -/
def tRun (w : Word) (lit : Option DWord) (s : State) : Option State :=
  match decodeWord w with
  | .ok i => tExec i { s with cur := { s.cur with word := w, lit := lit } }
  | .error _ => none

/-- What a word leaves in n registers of thread 0 from register d on. -/
def tReg (w : Word) (lit : Option DWord) (regs : Kv Word) (n d : Nat) : Option Nat :=
  (tRun w lit (tOne regs)).map fun t => (t.thread 0).group n d

/-- What a word leaves in a predicate of thread 0, which starts with some predicates true. -/
def tPred (w : Word) (regs : Kv Word) (preds : List Nat) (p : Nat) : Option Bool :=
  (tRun w none (tState [0] fun _ x => { x with regs := regs, preds := preds.map fun p => (p, true) })).map fun t =>
    (t.thread 0).pred p

/-- `CanTrap`, as a test. -/
def tCan (s : State) (k : Nat) : Bool :=
  decide ((s.thread k).depth < 2) && (match launchOf s k with | some l => (l.blk l.trapblk).isSome | none => false)

theorem tCanTrap {s : State} {k : Nat} (h : tCan s k = true) : CanTrap s k := by
  simp only [tCan, Bool.and_eq_true, decide_eq_true_eq] at h
  refine ⟨h.1, ?_⟩
  have h2 := h.2
  split at h2
  · rename_i l hl
    obtain ⟨b, hb⟩ := Option.isSome_iff_exists.mp h2
    exact ⟨l, b, hl, hb⟩
  · exact absurd h2 (by simp)

theorem tCanTraps {s : State} {l : List Nat} (h : l.all (tCan s) = true) : ∀ k, k ∈ l → CanTrap s k :=
  fun k hk => tCanTrap (List.all_eq_true.mp h k hk)

theorem tSettled {s : State} {k : Nat} (h : ((kvGet s.devs k).isNone &&
    (match kvGet s.dir k with | some (.latent _ _) => false | _ => true)) = true) : Settled s k := by
  simp only [Bool.and_eq_true, Option.isNone_iff_eq_none] at h
  refine ⟨h.1, fun op cs hc => ?_⟩
  rw [hc] at h
  exact absurd h.2 (by simp)

/-! ## Well-formed terms -/

/-- One ill-formed term for each check of `wellFormed`. -/
theorem test_wellFormed_refuses : [
    Instr.bri 1, .calli 3, .iadd .i64 1 2 4, .iadd .n64 2 3 4, .isub .i64 2 4 5, .imul .n64 1 2 4, .imad .i64 2 4 7,
    .imulh .i32s 1 2 3, .imin .i64 1 2 4, .imax .n32s 1 2 3, .iabs .n32 1 2, .ineg .n64 2 4, .icmp .un .i32 1 2 3,
    .icmp .eq .i32s 1 2 3, .icmp .eq .i64 1 3 4, .lea 0 1 2 3, .lea 0 2 3 4, .mov true 1 2, .movPop 1 2, .andB .w64 1 2 4,
    .notB .w64 2 3, .brev .w64 3 2, .shl .w64 3 2 1, .bfi .w64 2 3 1, .bfx .i32s 1 2 3, .bfx .i64 1 2 3, .popc .w64 1 3,
    .clz .w64 1 3, .ctz .w64 1 3, .fadd .d .dyn 1 2 4, .ffma .d .dyn 2 4 5, .fmin .d 2 3 4, .fcmp .eq .d 1 3 4,
    .fclass .d 1 3, .fexpo .d 1 3, .frnd .d .dyn 1 2, .fscale .d .dyn 2 3 4, .fmant .d 2 3, .fcvt .f32F16 .rne 1 2,
    .fcvt .dF32 .dyn 1 2, .fcvt .f32D .dyn 1 3, .ftoi .i32s .f32 .dyn 1 2, .ftoi .i64 .f32 .dyn 1 2, .ftoi .i32 .d .dyn 1 3,
    .itof .n32s .f32 .dyn 1 2, .itof .i32 .d .dyn 1 2, .itof .i64 .f32 .dyn 1 3, .expred 1 2, .logred 1 2, .sinred 1 2,
    .dot8s .ii 1 3 4, .dot8s .ii 1 2 5, .spars 1 2, .spars 2 3, .ld .b32 true .none 1 2 0, .ld .b64 false .none 1 2 0,
    .ld .b128 false .none 2 2 0, .ld .b32 false .none 1 3 0, .st .b32 .repl 1 2 0, .st .b64 .none 1 2 0, .lds .b64 1 2 0,
    .lds .b128 2 2 0, .sts .b64 1 2 0, .ldfe .b64 false 1 2 0, .stfe .b128 2 2 0, .pref .none 1 0, .cwb 1 0,
    .lup .addI 1 3 0, .devl 1 0, .atomAdd .die .w64 .rlx 1 2, .atomXchg .die .w32 .rlx 1 3, .atomMin .die .w64 true .rlx 1 2,
    .atomFadd .die .rlx 1 3, .cas .die .w32 .rlx 1 2, .cas .die .w64 .rlx 2 2, .cas .die .w32 .rlx 2 3, .pubv 1, .cyc 1,
    .expn 1 2, .vote .all 8 1, .matchKey .w64 1 3, .mxrd 2 0 1, .mxwr 0 2 1, .qstat 1 2, .csrr 1 0x200, .csrr 2 0x001,
    .csrw 1 0x22, .passStart 1024 0, .passStart 0 2, .entryClose 1024, .gangTimeout 1024 0 0].all (fun i => !wellFormed i) =
    true := by decide +kernel

/-! ## Decoding: words written out field by field, OP MOD D A B (R100-R102, R122-R135) -/

theorem test_decode_control : [
    ((0x01#8 ++ 0#3 ++ 0#7 ++ 0#7 ++ 0#7 : Word), Instr.nop), (0x02FFFFFD, .bra 0xFFFFFD),
    (0x03#8 ++ 0#3 ++ 0#7 ++ 6#7 ++ 0#7, .bri 6), (0x04000005, .call 5), (0x05#8 ++ 0#3 ++ 0#7 ++ 8#7 ++ 0#7, .calli 8),
    (0x06#8 ++ 0#24, .ret), (0x07#8 ++ 0#24, .exit), (0x0800002A, .trap 0x2A), (0x09#8 ++ 0#24, .rte)].all
    (fun x => tDec x.1 x.2) = true := by decide +kernel

theorem test_decode_integer : [
    ((0x10808184 : Word), Instr.iadd .i32s 2 3 4), (0x11#8 ++ 5#3 ++ 2#7 ++ 3#7 ++ 4#7, .isub .n32s 2 3 4),
    (0x12#8 ++ 2#3 ++ 2#7 ++ 4#7 ++ 6#7, .imul .i64 2 4 6), (0x13#8 ++ 1#3 ++ 2#7 ++ 3#7 ++ 4#7, .imulh .n32 2 3 4),
    (0x14#8 ++ 3#3 ++ 2#7 ++ 4#7 ++ 6#7, .imad .n64 2 4 6), (0x15#8 ++ 0#3 ++ 2#7 ++ 3#7 ++ 4#7, .imin .i32 2 3 4),
    (0x16#8 ++ 1#3 ++ 2#7 ++ 3#7 ++ 4#7, .imax .n32 2 3 4), (0x17#8 ++ 4#3 ++ 2#7 ++ 3#7 ++ 0#7, .iabs .i32s 2 3),
    (0x18#8 ++ 2#3 ++ 2#7 ++ 4#7 ++ 0#7, .ineg .i64 2 4), (0x19044101, .icmp .lt .i32 1 2 1),
    (0x1A420203, .lea 2 8 4 3), (0x1B410286, .sel 2 4 5 6), (0x1C#8 ++ 0#3 ++ 5#7 ++ 9#7 ++ 0#7, .mov false 5 9),
    (0x1C#8 ++ 1#3 ++ 4#7 ++ 8#7 ++ 0#7, .mov true 4 8), (0x1C408200, .movK 2 4), (0x1C614080, .movPop 5 1),
    (0x1C#8 ++ 4#3 ++ 1#7 ++ 9#7 ++ 0#7, .movPush 1 9)].all (fun x => tDec x.1 x.2) = true := by decide +kernel

theorem test_decode_logic : [
    ((0x2000C205 : Word), Instr.andB .w32 3 4 5), (0x21408206, .andn .w64 2 4 6), (0x2200C205, .orB .w32 3 4 5),
    (0x23408206, .xorB .w64 2 4 6), (0x2400C200, .notB .w32 3 4), (0x25408206, .shl .w64 2 4 6),
    (0x26#8 ++ 0#3 ++ 2#7 ++ 3#7 ++ 4#7, .shr .w32 2 3 4), (0x27008180, .sha .w32 2 3 0),
    (0x28#8 ++ 2#3 ++ 2#7 ++ 4#7 ++ 7#7, .rot .w64 2 4 7), (0x29#8 ++ 1#3 ++ 5#7 ++ 6#7 ++ 7#7, .bfx .n32 5 6 7),
    (0x2A#8 ++ 2#3 ++ 4#7 ++ 6#7 ++ 7#7, .bfi .w64 4 6 7), (0x2B408200, .popc .w64 2 4),
    (0x2C#8 ++ 2#3 ++ 2#7 ++ 4#7 ++ 0#7, .clz .w64 2 4), (0x2D#8 ++ 0#3 ++ 2#7 ++ 4#7 ++ 0#7, .ctz .w32 2 4),
    (0x2E#8 ++ 0#3 ++ 2#7 ++ 4#7 ++ 0#7, .brev .w32 2 4), (0x2F00E082, .plop 8 3 1 2)].all (fun x => tDec x.1 x.2) = true :=
  by decide +kernel

theorem test_decode_float : [
    ((0x31214307 : Word), Instr.fadd .h2 .rne 5 6 7), (0x36#8 ++ 4#3 ++ 1#7 ++ 2#7 ++ 3#7, .fsub .b2 .rdn 1 2 3),
    (0x3B#8 ++ 0#3 ++ 2#7 ++ 4#7 ++ 6#7, .fmul .d .dyn 2 4 6), (0x3C20C202, .ffma .f32 .rne 3 4 2),
    (0x40#8 ++ 0#3 ++ 1#7 ++ 2#7 ++ 3#7, .fmin .f32 1 2 3), (0x47#8 ++ 0#3 ++ 2#7 ++ 4#7 ++ 6#7, .fmax .d 2 4 6),
    (0x48044103, .fcmp .lt .f32 1 2 3), (0x4A010080, .fclass .f32 4 1), (0x4D#8 ++ 2#3 ++ 2#7 ++ 4#7 ++ 0#7, .frnd .d .rtz 2 4),
    (0x4E208082, .fcvt .f16F32 .rne 2 1), (0x4E424184, .fcvt .bf16F32 .rtz 9 3), (0x4F414300, .ftoi .i32 .f32 .rtz 5 6),
    (0x50220380, .itof .i32 .f32 .rne 8 7), (0x51208187, .fscale .f32 .rne 2 3 7), (0x54#8 ++ 0#3 ++ 3#7 ++ 4#7 ++ 0#7, .fexpo .d 3 4),
    (0x55#8 ++ 0#3 ++ 3#7 ++ 4#7 ++ 0#7, .fmant .f32 3 4), (0x57008080, .rcpseed 2 1), (0x58008080, .rsqseed 2 1),
    (0x59018080, .expred 6 1), (0x5A018080, .logred 6 1), (0x5B018080, .sinred 6 1)].all (fun x => tDec x.1 x.2) = true :=
  by decide +kernel

theorem test_decode_packed : [
    ((0x60024184 : Word), Instr.dot8 .ii 9 3 4), (0x61#8 ++ 1#3 ++ 9#7 ++ 3#7 ++ 4#7, .dot4 .nn 9 3 4),
    (0x62628082, .dotf8 3 10 1 2), (0x63#8 ++ 2#3 ++ 9#7 ++ 3#7 ++ 4#7, .dotf4 2 9 3 4), (0x64028308, .dot8s .ii 10 6 8),
    (0x65224202, .packn 1 9 4 2), (0x66210482, .unpkn 1 4 9 2), (0x67018100, .spars 6 2)].all (fun x => tDec x.1 x.2) = true :=
  by decide +kernel

theorem test_decode_memory : [
    ((0x72014304 : Word), Instr.ld .b32 false .none 5 6 4), (0x71A14300, .ld .b16 true .strm 5 6 0),
    (0x77014304, .st .b32 .none 5 6 4), (0x79C20300, .st .b128 .byp 8 6 0), (0x7A808490, .lds .b32 2 9 16),
    (0x7B808490, .sts .b32 2 9 16), (0x7C610480, .ldfe .b64 true 4 9 0), (0x7D810480, .stfe .b128 4 9 0),
    (0x7E800302, .pref .strm 6 2), (0x7F#8 ++ 0#3 ++ 0#7 ++ 6#7 ++ 1#7, .cwb 6 1),
    (0x80#8 ++ 2#3 ++ 4#7 ++ 6#7 ++ 0#7, .atomAdd .die .w32 .rlx 4 6), (0x81#8 ++ 0#3 ++ 4#7 ++ 6#7 ++ 0x48#7, .atomMin .team .w64 false .acq 4 6),
    (0x82410330, .atomMax .die .w32 true .rel 4 6), (0x83#8 ++ 1#3 ++ 4#7 ++ 6#7 ++ 0#7, .atomAnd .cluster .w32 .rlx 4 6),
    (0x84#8 ++ 3#3 ++ 4#7 ++ 6#7 ++ 0#7, .atomOr .domain .w32 .rlx 4 6), (0x85#8 ++ 4#3 ++ 4#7 ++ 6#7 ++ 0#7, .atomXor .system .w32 .rlx 4 6),
    (0x86#8 ++ 2#3 ++ 4#7 ++ 6#7 ++ 0x40#7, .atomXchg .die .w64 .rlx 4 6), (0x87410300, .atomFadd .die .rlx 4 6),
    (0x88420318, .cas .die .w32 .ar 8 6), (0x89C10302, .lup .bacc 4 6 2), (0x8A#8 ++ 0#3 ++ 0#7 ++ 6#7 ++ 1#7, .devl 6 1),
    (0x8B400002, .fence .die .rel), (0x8B800003, .fence .system .full), (0x8C010000, .pubv 4), (0x8D600000, .sbind 3),
    (0x8EA00000, .sunb 5), (0x8EA00001, .sunbDisc 5)].all (fun x => tDec x.1 x.2) = true := by decide +kernel

theorem test_decode_sync : [
    ((0x90#8 ++ 5#3 ++ 0#7 ++ 0#7 ++ 5#7 : Word), Instr.bsig true .die 5), (0x91#8 ++ 0#3 ++ 0#7 ++ 0#7 ++ 5#7, .bwait false .team 5),
    (0x92#8 ++ 3#3 ++ 2#7 ++ 0#7 ++ 5#7, .btry true .cluster 2 5), (0x93600000, .bar 3), (0x94008000, .elect 2),
    (0x95010380, .kmov 4 7), (0x96208080, .vote .any 2 1), (0x96614080, .vote .ballot 5 1), (0x9700C280, .matchKey .w32 3 5),
    (0x98C10280, .gred .addF 4 5), (0x9960C180, .gshf .xor 3 3 0)].all (fun x => tDec x.1 x.2) = true := by decide +kernel

theorem test_decode_expand : [
    ((0xA0204103 : Word), Instr.expb .g2 1 2 3), (0xA1010001, .expn 4 1), (0xA201C000, .expq 7), (0xA3000280, .segr .addI 5),
    (0xA3200280, .segr .addF 5), (0xA4#8 ++ 0#3 ++ 0#7 ++ 3#7 ++ 0#7, .expsv 3), (0xA5#8 ++ 0#3 ++ 0#7 ++ 3#7 ++ 0#7, .exprs 3)].all
    (fun x => tDec x.1 x.2) = true := by decide +kernel

theorem test_decode_system : [
    ((0xB0000180 : Word), Instr.mxiss 3), (0xB1000180, .mxdrn 3), (0xB2008000, .mxclr 2), (0xB3020085, .mxrd 8 1 5),
    (0xB4004405, .mxwr 1 8 5), (0xB5#8 ++ 0#3 ++ 0#7 ++ 3#7 ++ 0#7, .cpiss 3), (0xB6014400, .qstat 5 8),
    (0xE0028200, .csrr 10 0x200), (0xE100C000, .csrw 3 0), (0xE2010000, .cyc 4)].all (fun x => tDec x.1 x.2) = true := by
  decide +kernel

/-- The rejections of R104: a zero word, an unassigned opcode, an unused field that is not 0, a reserved MOD, an odd pair. -/
theorem test_decode_rejects : [(0 : Word), 0x00000001, 0x0A000000, 0x72E00000, 0xC0000000, 0xFF000000, 0x01000001, 0x17018181,
    0x10404184, 0x10C04184, 0x20204184].all (fun w => match decodeWord w with | .ok _ => false | .error _ => true) = true := by
  decide +kernel

/-! ## Results, of the spec's worked examples and by hand from its rules -/

/-- R356: the example of IADD.I32.SAT, the wrapped sum, and a 64-bit carry. -/
theorem test_iadd : tReg 0x10808184 none [(3, 0x7FFFFFF0), (4, 0x20)] 1 2 = some 0x7FFFFFFF ∧
    tReg 0x10008184 none [(3, 0x7FFFFFF0), (4, 0x20)] 1 2 = some 0x80000010 ∧
    tReg (0x10#8 ++ 2#3 ++ 2#7 ++ 4#7 ++ 6#7) none [(4, 0xFFFFFFFF), (6, 1)] 2 2 = some 0x100000000 := by decide +kernel
/-- R356: ISUB.N32.SAT gives 0 for 3 − 5. -/
theorem test_isub : tReg (0x11#8 ++ 5#3 ++ 2#7 ++ 3#7 ++ 4#7) none [(3, 3), (4, 5)] 1 2 = some 0 ∧
    tReg (0x11#8 ++ 0#3 ++ 2#7 ++ 3#7 ++ 4#7) none [(3, 3), (4, 5)] 1 2 = some 0xFFFFFFFE := by decide +kernel
theorem test_imul : tReg (0x12#8 ++ 0#3 ++ 2#7 ++ 3#7 ++ 4#7) none [(3, 0x10001), (4, 0x10001)] 1 2 = some 0x20001 := by
  decide +kernel
/-- The high half of −1 times 2 is −1, and of 2^32 − 1 times 2 is 1. -/
theorem test_imulh : tReg (0x13#8 ++ 0#3 ++ 2#7 ++ 3#7 ++ 4#7) none [(3, 0xFFFFFFFF), (4, 2)] 1 2 = some 0xFFFFFFFF ∧
    tReg (0x13#8 ++ 1#3 ++ 2#7 ++ 3#7 ++ 4#7) none [(3, 0xFFFFFFFF), (4, 2)] 1 2 = some 1 := by decide +kernel
theorem test_imad : tReg (0x14#8 ++ 0#3 ++ 2#7 ++ 3#7 ++ 4#7) none [(2, 5), (3, 6), (4, 7)] 1 2 = some 47 := by decide +kernel
theorem test_imin : tReg (0x15#8 ++ 0#3 ++ 2#7 ++ 3#7 ++ 4#7) none [(3, 0xFFFFFFFF), (4, 2)] 1 2 = some 0xFFFFFFFF ∧
    tReg (0x15#8 ++ 1#3 ++ 2#7 ++ 3#7 ++ 4#7) none [(3, 0xFFFFFFFF), (4, 2)] 1 2 = some 2 := by decide +kernel
theorem test_imax : tReg (0x16#8 ++ 0#3 ++ 2#7 ++ 3#7 ++ 4#7) none [(3, 0xFFFFFFFF), (4, 2)] 1 2 = some 2 := by decide +kernel
/-- The most negative number: wrapped, and clamped. -/
theorem test_iabs : tReg (0x17#8 ++ 0#3 ++ 2#7 ++ 3#7 ++ 0#7) none [(3, 0x80000000)] 1 2 = some 0x80000000 ∧
    tReg (0x17#8 ++ 4#3 ++ 2#7 ++ 3#7 ++ 0#7) none [(3, 0x80000000)] 1 2 = some 0x7FFFFFFF := by decide +kernel
theorem test_ineg : tReg (0x18#8 ++ 2#3 ++ 2#7 ++ 4#7 ++ 0#7) none [(4, 1)] 2 2 = some 0xFFFFFFFFFFFFFFFF := by decide +kernel
theorem test_icmp : tPred (0x19#8 ++ 0#3 ++ 2#4 ++ 1#3 ++ 2#7 ++ 3#7) [(2, 0xFFFFFFFF), (3, 1)] [] 1 = some true ∧
    tPred (0x19#8 ++ 1#3 ++ 2#4 ++ 1#3 ++ 2#7 ++ 3#7) [(2, 0xFFFFFFFF), (3, 1)] [] 1 = some false := by decide +kernel
/-- R364's example. -/
theorem test_lea : tReg 0x1A420203 none [(4, 0x00001000), (5, 0x40), (3, 0xFFFFFFFF)] 2 8 = some 0x4000000FFC := by decide +kernel
theorem test_sel : tReg 0x1B410286 none [(5, 7), (6, 9)] 1 4 = some 9 := by decide +kernel
theorem test_mov : tReg (0x1C#8 ++ 1#3 ++ 4#7 ++ 8#7 ++ 0#7) none [(8, 1), (9, 2)] 2 4 = some 0x200000001 := by decide +kernel
theorem test_logic : tReg 0x2000C205 none [(4, 0xFF00), (5, 0x0FF0)] 1 3 = some 0x0F00 ∧
    tReg (0x21#8 ++ 0#3 ++ 3#7 ++ 4#7 ++ 5#7) none [(4, 0xFF00), (5, 0x0FF0)] 1 3 = some 0xF000 ∧
    tReg 0x2200C205 none [(4, 0xFF00), (5, 0x0FF0)] 1 3 = some 0xFFF0 ∧
    tReg (0x23#8 ++ 0#3 ++ 3#7 ++ 4#7 ++ 5#7) none [(4, 0xFF00), (5, 0x0FF0)] 1 3 = some 0xF0F0 ∧
    tReg 0x2400C200 none [(4, 0xFF00)] 1 3 = some 0xFFFF00FF := by decide +kernel
/-- R383's examples, with a literal as B. -/
theorem test_shifts : tReg 0x27008180 (some 40) [(3, 0x80000010)] 1 2 = some 0xFFFFFFFF ∧
    tReg 0x26008180 (some 40) [(3, 0x80000010)] 1 2 = some 0 ∧ tReg 0x28008180 (some 36) [(3, 0x80000001)] 1 2 = some 0x18 ∧
    tReg 0x25408206 none [(4, 0x80000000), (6, 1)] 2 2 = some 0x100000000 := by decide +kernel
/-- R323's example. -/
theorem test_bfx : tReg (0x29#8 ++ 0#3 ++ 5#7 ++ 6#7 ++ 0#7) (some 0x508) [(6, 0x1F00)] 1 5 = some 0xFFFFFFFF ∧
    tReg (0x29#8 ++ 1#3 ++ 5#7 ++ 6#7 ++ 0#7) (some 0x508) [(6, 0x1F00)] 1 5 = some 0x1F ∧
    tReg (0x29#8 ++ 0#3 ++ 5#7 ++ 6#7 ++ 0#7) (some 0x41E) [(6, 0xC0000000)] 1 5 = some 3 := by decide +kernel
theorem test_bfi : tReg (0x2A#8 ++ 0#3 ++ 5#7 ++ 6#7 ++ 0#7) (some 0x804) [(5, 0xFFFFFFFF), (6, 0)] 1 5 = some 0xFFFFF00F := by
  decide +kernel
/-- R325's and R377's examples. -/
theorem test_counts : tReg 0x2B408200 none [(4, 1), (5, 0xFFFF0000)] 1 2 = some 17 ∧
    tReg (0x2C#8 ++ 2#3 ++ 2#7 ++ 4#7 ++ 0#7) none [(4, 0x10000)] 1 2 = some 47 ∧
    tReg (0x2D#8 ++ 2#3 ++ 2#7 ++ 4#7 ++ 0#7) none [(4, 0x10000)] 1 2 = some 16 ∧
    tReg (0x2E#8 ++ 0#3 ++ 2#7 ++ 4#7 ++ 0#7) none [(4, 3)] 1 2 = some 0xC0000000 := by decide +kernel
theorem test_plop : tPred 0x2F00E082 [] [1, 2] 3 = some true ∧ tPred 0x2F00E082 [] [1] 3 = some false := by decide +kernel
/-- The worked example under R347: a tie that overflows to infinity in one element, 2.0 in the other; and F32 sums. -/
theorem test_fadd : tReg 0x31214307 none [(6, 0x3C007BFF), (7, 0x3C004C00)] 1 5 = some 0x40007C00 ∧
    tReg 0x31414307 none [(6, 0x3C007BFF), (7, 0x3C004C00)] 1 5 = some 0x40007BFF ∧
    tReg (0x30#8 ++ 1#3 ++ 5#7 ++ 6#7 ++ 7#7) none [(6, 0x3F800000), (7, 0x33800000)] 1 5 = some 0x3F800000 := by decide +kernel
theorem test_fsub : tReg (0x34#8 ++ 0#3 ++ 5#7 ++ 6#7 ++ 7#7) none [(6, 0x40000000), (7, 0x40000000)] 1 5 = some 0 := by
  decide +kernel
theorem test_fmul : tReg (0x38#8 ++ 0#3 ++ 5#7 ++ 6#7 ++ 7#7) none [(6, 0x40400000), (7, 0xC0000000)] 1 5 = some 0xC0C00000 := by
  decide +kernel
theorem test_ffma : tReg 0x3C20C202 none [(3, 0x3F800000), (4, 0x40000000), (2, 0x40400000)] 1 3 = some 0x40E00000 := by
  decide +kernel
/-- R140: a NaN gives the other operand, and −0 is below +0. -/
theorem test_fminmax : tReg (0x40#8 ++ 0#3 ++ 5#7 ++ 6#7 ++ 7#7) none [(6, 0x7FC00000), (7, 0x40000000)] 1 5 = some 0x40000000 ∧
    tReg (0x40#8 ++ 0#3 ++ 5#7 ++ 6#7 ++ 7#7) none [(6, 0), (7, 0x80000000)] 1 5 = some 0x80000000 ∧
    tReg (0x44#8 ++ 0#3 ++ 5#7 ++ 6#7 ++ 7#7) none [(6, 0), (7, 0x80000000)] 1 5 = some 0 := by decide +kernel
theorem test_fcmp : tPred 0x48044103 [(2, 0x3F800000), (3, 0x40000000)] [] 1 = some true ∧
    tPred 0x48044103 [(2, 0x7FC00000), (3, 0x40000000)] [1] 1 = some false := by decide +kernel
/-- R345's example: a subnormal is class 0x20. -/
theorem test_fclass : tReg 0x4A010080 none [(1, 1)] 1 4 = some 0x20 := by decide +kernel
theorem test_frnd : tReg (0x4C#8 ++ 1#3 ++ 2#7 ++ 1#7 ++ 0#7) none [(1, 0x40200000)] 1 2 = some 0x40000000 := by decide +kernel
/-- R349's example: 70,000.0 to F16. -/
theorem test_fcvt : tReg 0x4E208082 none [(1, 0x4788B800)] 1 2 = some 0x7C00 ∧
    tReg 0x4E408082 none [(1, 0x4788B800)] 1 2 = some 0x7BFF := by decide +kernel
/-- R353's example: −2.7. -/
theorem test_ftoi : tReg 0x4F414300 none [(6, 0xC02CCCCD)] 1 5 = some 0xFFFFFFFE ∧
    tReg 0x4F214300 none [(6, 0xC02CCCCD)] 1 5 = some 0xFFFFFFFD ∧ tReg 0x4F414301 none [(6, 0xC02CCCCD)] 1 5 = some 0 := by
  decide +kernel
theorem test_itof : tReg 0x50220380 none [(7, 0xFFFFFFFE)] 1 8 = some 0xC0000000 := by decide +kernel
theorem test_fscale : tReg 0x51208187 none [(3, 0x3F800000), (7, 3)] 1 2 = some 0x41000000 := by decide +kernel
theorem test_fexpo : tReg (0x53#8 ++ 0#3 ++ 2#7 ++ 1#7 ++ 0#7) none [(1, 0x41000000)] 1 2 = some 3 ∧
    tReg (0x53#8 ++ 0#3 ++ 2#7 ++ 1#7 ++ 0#7) none [(1, 0x80000000)] 1 2 = some 0x80000000 := by decide +kernel
theorem test_fmant : tReg (0x55#8 ++ 0#3 ++ 2#7 ++ 1#7 ++ 0#7) none [(1, 0xC1400000)] 1 2 = some 0xBFC00000 := by decide +kernel
/-- The worked examples under R154 and R155. -/
theorem test_seeds : tReg 0x57008080 none [(1, 0x40400000)] 1 2 = some 0x3EAA8000 ∧
    tReg 0x58008080 none [(1, 0x40000000)] 1 2 = some 0x3F34C000 := by decide +kernel
/-- The examples of EXPRED, LOGRED and SINRED. -/
theorem test_reductions : tReg 0x59018080 none [(1, 0xC0200000)] 2 6 = some 0xFFFFFFFEBF000000 ∧
    tReg 0x5A018080 none [(1, 0x41000000)] 2 6 = some 0x300000000 ∧
    tReg 0x5B018080 none [(1, 0x40000000)] 2 6 = some 0x13EDBC095 := by decide +kernel
theorem test_dot8 : tReg 0x60024184 none [(3, 0xFF020304), (4, 0x01010101), (9, 10)] 1 9 = some 18 := by decide +kernel
theorem test_dot4 : tReg (0x61#8 ++ 0#3 ++ 9#7 ++ 3#7 ++ 4#7) none [(3, 0x0000000F), (4, 0x00000002), (9, 10)] 1 9 = some 8 := by
  decide +kernel
/-- The worked example under R276: selection, metadata and the sparse dot product, and the trap of malformed metadata. -/
theorem test_sparse : tReg 0x67018100 none [(2, 0x0404FC04), (3, 0x040009FC)] 2 6 = some 0xA880904FC04 ∧
    tReg 0x64028308 none [(6, 0x0904FC04), (7, 0xA88), (8, 0x04030201), (9, 0x08070605)] 1 10 = some 62 ∧
    tReg (0x64#8 ++ 0#3 ++ 9#7 ++ 6#7 ++ 8#7) none [(6, 0x0904FC04), (7, 0xA88), (8, 0x04030201), (9, 0x08070605)] 1 9 =
      some 0x08070643 ∧
    (tRun 0x64028308 none (tOne [(6, 0x0904FC04), (7, 0xA48)])).map (fun t => ((t.thread 0).depth, (t.thread 0).trap.cause)) =
      some (1, 0x0C) := by decide +kernel

/-- Format slots 1 and 3 bind F8A, 2 binds F4, 5 binds F8B and 6 binds F8A with OVF, all with RNE (R68); 4 and 7 bind none. -/
def tFmt (regs : Kv Word) : State :=
  let s := tOne regs
  s.setLaunch 0 { stageLaunch with
    record := stageLaunch.record + BitVec.ofNat 4096 (4 * 2 ^ 2176 + 6 * 2 ^ 2304 + 4 * 2 ^ 2432 + 5 * 2 ^ 2688 + 0x20004 * 2 ^ 2816) }

def tFmtReg (w : Word) (regs : Kv Word) (n d : Nat) : Option Nat :=
  (tRun w none (tFmt regs)).map fun t => (t.thread 0).group n d

/-- The worked examples of R341 and R375 (300.7, 470.0, 0.01 and −0.0009), and an element of F4. -/
theorem test_formats : tFmtReg 0x62628082 [(1, 0x3038), (2, 0x3838), (10, 0x4B800000)] 1 10 = some 0x4B800001 ∧
    tFmtReg 0x65224202 [(2, 0x3F800000), (4, 0x4396599A), (5, 0x43EB0000), (6, 0x3C23D70A), (7, 0xBA6BEDFA)] 1 9 =
      some 0x80057E79 ∧
    tFmtReg 0x65C24202 [(2, 0x3F800000), (4, 0x4396599A), (5, 0x43EB0000), (6, 0x3C23D70A), (7, 0xBA6BEDFA)] 1 9 =
      some 0x80057F79 ∧
    tFmtReg 0x66210482 [(2, 0x3F800000), (9, 0x80057E79)] 4 4 = some 0x800000003C20000043E0000043900000 ∧
    tFmtReg (0x63#8 ++ 2#3 ++ 9#7 ++ 3#7 ++ 4#7) [(3, 0x2), (4, 0x4), (9, 0x3F800000)] 1 9 = some 0x40400000 := by decide +kernel

/-- Slot 4 binds no format: the illegal-format-slot trap with SUB 4, and D unchanged (R69). -/
theorem test_format_trap : (tRun (0x62#8 ++ 4#3 ++ 9#7 ++ 3#7 ++ 4#7) none (tFmt [(9, 5)])).map (fun t =>
    ((t.thread 0).trap.cause, (t.thread 0).reg 9)) = some (0x40006, 5) := by decide +kernel

/-! ## Control: results, and where the statements' hypotheses are met -/

/-- Threads of the stage with two blocks: packet 0, a GANG block, and packets 1 and 2, an ordinary block. -/
def tCtl (tids : List Nat) (f : Nat → Thread → Thread) : State :=
  (tState tids f).setLaunch 0 { stageLaunch with
    header := BitVec.ofNat 2048 (128 * 2 ^ 192 + 0xFF * 2 ^ 224 + 48 * 2 ^ 384)
    blocks := [⟨0, 1, 0, true, 0⟩, ⟨1, 2, 0, false, 0⟩] }

/-- Thread 0 of `tCtl` with some registers. -/
def tJump (regs : Kv Word) : State := tCtl [0] fun _ x => { x with regs := regs }

/-- The pass's target of thread 0 after a word: 4 times the packet plus the slot. -/
def tTo (w : Word) (s : State) : Option Nat := (tRun w none s).bind fun t => (t.pass 0).bind fun p => kvGet p.targets 0

theorem test_nop : tExec .nop (tOne [(1, 2)]) = some (tOne [(1, 2)]) := by decide +kernel
theorem test_bra : tTo 0x02000001 (tJump []) = some 4 ∧ (tRun 0x02000002 none (tJump [])).map (fun t => (t.thread 0).trap.cause) =
    some 0x03 := by decide +kernel
theorem test_bri : tTo 0x03000300 (tJump [(6, 16)]) = some 4 := by decide +kernel
/-- R332: the link is the packet after the call's. -/
theorem test_call : tTo 0x04000001 (tJump []) = some 4 ∧
    (tRun 0x04000001 none (tJump [])).map (fun t => (t.thread 0).group 2 126) = some 16 := by decide +kernel
theorem test_calli : tTo (0x05#8 ++ 0#3 ++ 0#7 ++ 126#7 ++ 0#7) (tJump [(126, 0)]) = some 0 ∧
    (tRun (0x05#8 ++ 0#3 ++ 0#7 ++ 126#7 ++ 0#7) none (tJump [(126, 0)])).map (fun t => (t.thread 0).group 2 126) = some 16 := by
  decide +kernel
theorem test_ret : tTo 0x06000000 (tJump [(126, 16)]) = some 4 := by decide +kernel
/-- The worked example of R382: TRAP 0x2A. -/
theorem test_trap : (tRun 0x0800002A none (tJump [])).map (fun t => let x := t.thread 0
    (x.depth, x.trap.cause, x.trap.word, x.trap.pc)) = some (1, 0x0E, 0x0800002A, 16) := by decide +kernel
theorem test_exit : (tRun 0x07000000 none (tJump [])).bind (fun t => (t.pass 0).bind fun p => kvGet p.waits 0) = some .exit := by
  decide +kernel
theorem test_bar : (tRun 0x93600000 none (tJump [])).bind (fun t => (t.pass 0).bind fun p => kvGet p.waits 0) =
    some (.bar 3 false) := by decide +kernel
/-- A word that is no instruction traps every thread that reaches the slot, whatever its guard. -/
theorem test_illegal : (tExec .illegalInstruction { tOne [] with cur := { tCur [] 0 none with all := [0, 1] } }).map (fun t =>
    ((t.thread 0).trap.cause, (t.thread 1).trap.cause, (t.thread 2).trap.cause)) = some (1, 1, 0) := by decide +kernel
/-- RTE to a packet's start from depth 1, and from depth 0 the illegal-context trap. -/
theorem test_rte : tTo 0x09000000 (tCtl [0] fun _ x => { x with depth := 1, trap := { x.trap with pc := 16 } }) = some 4 ∧
    (tRun 0x09000000 none (tJump [])).map (fun t => (t.thread 0).trap.cause) = some 0x20004 := by decide +kernel

theorem test_w_Branches :
    let s := tJump [(6, 16), (126, 16)]
    (∃ p l, s.pass s.curPass = some p ∧ s.launch p.launch = some l ∧ (l.blkAt 1).isSome = true ∧ (l.blkAt 2).isSome = false ∧
      kvGet p.waits 0 ≠ some .exit) ∧
    packetAt s ((s.thread 0).group 2 6) = some 1 ∧ packetAt s ((s.thread 0).group 2 126) = some 1 ∧
    ((1 : Nat) : Int) = s.cur.pkt + (1 : BitVec 24).toInt ∧ ((2 : Nat) : Int) = s.cur.pkt + (2 : BitVec 24).toInt ∧
    s.cur.tids.Nodup ∧ ∀ k, k ∈ s.cur.tids → CanTrap s k := by
  refine ⟨⟨_, _, rfl, rfl, by decide +kernel, by decide +kernel, by decide +kernel⟩, by decide +kernel, by decide +kernel,
    by decide +kernel, by decide +kernel, by decide +kernel, tCanTraps (by decide +kernel)⟩

theorem test_w_Calls :
    let s := tJump [(6, 16)]
    (∃ p l, s.pass s.curPass = some p ∧ s.launch p.launch = some l ∧ (l.blkAt 1).isSome = true ∧
      ∀ k, k ∈ s.cur.tids → kvGet p.waits k ≠ some .exit) ∧
    packetAt s ((s.thread 0).group 2 6) = some 1 :=
  ⟨⟨_, _, rfl, rfl, by decide +kernel, by decide +kernel⟩, by decide +kernel⟩

/-- Also of SoftwareTraps, whose pass is this one. -/
theorem test_w_ThreadWaits : ∃ p, (tOne []).pass (tOne []).curPass = some p ∧ kvGet p.waits 0 ≠ some .exit :=
  ⟨_, rfl, by decide +kernel⟩

theorem test_w_SoftwareTraps : let s := tState [0, 1] fun _ x => x
    s.cur.tids.Nodup ∧ s.cur.all.Nodup ∧ (∀ k, k ∈ s.cur.tids → CanTrap s k) ∧ ∀ k, k ∈ s.cur.all → CanTrap s k :=
  ⟨by decide +kernel, by decide +kernel, tCanTraps (by decide +kernel), tCanTraps (by decide +kernel)⟩

/-- At depth 1 and at depth 2, and at depth 0. -/
theorem test_w_TrapReturn :
    (∀ d, d = 1 ∨ d = 2 →
      let s := tCtl [0] fun _ x => { x with depth := d, trap := { x.trap with pc := 16 } }
      ∃ p l, s.pass s.curPass = some p ∧ s.launch p.launch = some l ∧ s.cur.tids = [0] ∧ kvGet p.waits 0 ≠ some .exit ∧
        (s.thread 0).depth = d ∧ packetAt s ((s.thread 0).trap.pc.toNat / 16 * 16) = some 1 ∧
        returnOk s l 1 ((s.thread 0).trap.pc.toNat % 4) = true) ∧
    ∀ k, k ∈ (tJump []).cur.tids → ((tJump []).thread k).depth = 0 ∧ CanTrap (tJump []) k := by
  refine ⟨?_, fun k hk => ⟨?_, tCanTraps (by decide +kernel) k hk⟩⟩
  · rintro d (rfl | rfl) <;> exact ⟨_, _, rfl, rfl, rfl, by decide +kernel, by decide +kernel, by decide +kernel, by decide +kernel⟩
  · revert k; decide +kernel

/-! ## Global memory and scratchpad -/

/-- Threads 0 and 1 with addresses in x6, and data in v4 to v9. -/
def tMem (lo hi : Word) : State := tState [0, 1] fun k x => { x with
  regs := [(4, 0x11), (5, 0x22), (6, lo + BitVec.ofNat 32 (64 * k)), (7, hi), (8, 0x33), (9, BitVec.ofNat 32 (0x40 + 16 * k))] }

/-- The accesses that a word makes: address, size, destination registers and operand data. -/
def tAccs (w : Word) (lit : Option DWord) (s : State) : Option (List (Nat × Nat × List Nat × Nat)) :=
  (tRun w lit s).map fun t => t.accs.map fun a => (a.2.va, a.2.size, a.2.dst, a.2.data.toNat)

/-- R360, R390: the offset of LD.B32 v5, [x6+16] and ST.B32 counts words; thread 1 follows thread 0. -/
theorem test_ld : tAccs 0x72014304 none (tMem 0x1000 0x40) = some [(0x4000001010, 4, [5], 0), (0x4000001050, 4, [5], 0)] := by
  decide +kernel
theorem test_st : tAccs 0x77014304 none (tMem 0x1000 0x40) = some [(0x4000001010, 4, [], 0x22), (0x4000001050, 4, [], 0x22)] := by
  decide +kernel
/-- An address that is not canonical traps with cause 0x09, a misaligned atomic with cause 0x08. -/
theorem test_address_traps : (tRun 0x72014304 none (tMem 0x1000 0x40000000)).map (fun t => (t.thread 0).trap.cause) = some 9 ∧
    (tRun 0x87410300 none (tMem 0x1002 0x40)).map (fun t => (t.thread 0).trap.cause) = some 8 := by decide +kernel
theorem test_lup : tAccs 0x89C10302 none (tMem 0x1000 0x40) = some [(0x4000001008, 4, [], 0x11), (0x4000001048, 4, [], 0x11)] := by
  decide +kernel
theorem test_cas : tAccs 0x88420318 none (tMem 0x1000 0x40) =
    some [(0x4000001000, 4, [8, 9], 0x4000000033), (0x4000001040, 4, [8, 9], 0x5000000033)] := by decide +kernel
/-- R320's example: both lanes receive 1.0 and the word stays 1.0; R333: CAS tells whether it stored. -/
theorem test_atomic_values : atomNew .fadd .w32 0x3F800000 0x33800000 = (0x3F800000, 0x3F800000) ∧
    atomNew .cas .w32 5 (7 * 2 ^ 32 + 5) = (7, 5 + 2 ^ 32) ∧ atomNew .cas .w32 6 (7 * 2 ^ 32 + 5) = (6, 6) ∧
    atomNew .min .w32 1 0xFFFFFFFF = (0xFFFFFFFF, 1) ∧ atomNew .umin .w32 1 0xFFFFFFFF = (1, 1) := by decide +kernel
/-- A quad that crosses a sector is performed in two parts (R218). -/
theorem test_parts : partsOf 0x103C 16 = [⟨0x103C, 0, 4, false⟩, ⟨0x1040, 4, 12, false⟩] := by decide +kernel
/-- A fence with nothing to wait for goes at once (R351). -/
theorem test_fence : (tRun 0x8B400002 none (tMem 0 0)).map (·.accs) = some [] := by decide +kernel
/-- STS then LDS at [v9+0x40] (R363, R392). -/
theorem test_spad : ((tRun 0x7B808490 none (tMem 0x1000 0x40)).bind (tRun 0x7A810490 none)).map (fun t =>
    ((t.thread 0).reg 4, (t.core 0).spad)) = some (0, []) ∧
    ((tRun 0x7B810490 none (tMem 0x1000 0x40)).bind (tRun 0x7A808490 none)).map (fun t =>
    ((t.thread 0).reg 2, (t.thread 1).reg 2, (t.core 0).spad)) = some (0x11, 0x11, [(0x80, 0x11), (0x90, 0x11)]) := by decide +kernel
/-- R164: a place beyond the allotment of 4 KiB traps with SUB 2. -/
theorem test_spad_trap : (tRun 0x7A808490 none (tState [0] fun _ x => { x with regs := [(9, 4096)] })).map (fun t =>
    (t.thread 0).trap.cause) = some 0x2000A := by decide +kernel
/-- STFE fills, LDFE.CLR reads and empties, LDFE at an empty granule waits. -/
theorem test_full_empty : ((tRun 0x7D810480 none (tMem 0x1000 0x40)).map fun t => (t.core 0).full) = some [4, 5] ∧
    (((tRun 0x7D810480 none (tMem 0x1000 0x40)).bind (tRun 0x7C688480 none)).map fun t =>
      ((t.core 0).full, (t.thread 1).group 2 34)) = some ([], 0x2200000011) ∧
    (tAccs 0x7C408480 none (tMem 0x1000 0x40)).map (·.length) = some 2 := by decide +kernel

/-- The last byte of the lower half of the canonical addresses, and a literal offset that wraps. -/
theorem test_w_LoadsAndStores :
    (∀ k, k ∈ (tMem 0xFFFFFFBF 0x00FFFFFF).cur.tids →
      canonicalAll (((tMem 0xFFFFFFBF 0x00FFFFFF).thread k).group 2 6 % 2 ^ 64) 1 = true) ∧
    (∀ k, k ∈ (tMem 0x1000 0x40).cur.tids →
      canonicalAll ((((tMem 0x1000 0x40).thread k).group 2 6 : Nat) + 4 * 4 : Nat) 4 = true ∧
      ((((tMem 0x1000 0x40).thread k).group 2 6 : Nat) + 4 * 4) % 4 = 0) := by decide +kernel
theorem test_w_AccessParts : (2 ^ 64 - 1 < 2 ^ 64 ∧ 0 < 16) ∧ partsOf (2 ^ 64 - 1) 16 = [⟨2 ^ 64 - 1, 0, 1, false⟩, ⟨0, 1, 15, false⟩] ∧
    (0 < 2 ^ 64 ∧ 0 < 1) ∧ partsOf 0 1 = [⟨0, 0, 1, false⟩] := by decide +kernel
/-- Both widths. -/
theorem test_w_Atomics : ∀ w, w = Width.w32 ∨ w = .w64 → ∀ k, k ∈ (tMem 0x1000 0x40).cur.tids →
    canonical (((tMem 0x1000 0x40).thread k).group 2 6) = true ∧
    ((tMem 0x1000 0x40).thread k).group 2 6 % (4 * wRegs w) = 0 := by
  rintro w (rfl | rfl) <;> decide +kernel
theorem test_w_AtomicResults : (2 ^ 32 - 1 < 2 ^ wBits .w32 ∧ 0 < 2 ^ wBits .w32) ∧ 2 ^ 64 - 1 < 2 ^ wBits .w64 := by decide
theorem test_w_LineOperations : ∀ k, k ∈ (tMem 0x1000 0x40).cur.tids →
    canonical (gAddr (tMem 0x1000 0x40).cur ((tMem 0x1000 0x40).thread k) 6 0x7F 256) = true ∧
    canonical (gAddr (tMem 0x1000 0x40).cur ((tMem 0x1000 0x40).thread k) 6 0x7F 64) = true := by decide +kernel
theorem test_w_AddressTraps :
    (let s := tMem 0 0x01000000
     s.cur.tids.Nodup ∧ (∀ k, k ∈ s.cur.tids → CanTrap s k) ∧
       ∀ k, k ∈ s.cur.tids → canonicalAll (gAddr s.cur (s.thread k) 6 0 4) 4 = false ∧ canonical (gAddr s.cur (s.thread k) 6 0 4) = false ∧
         canonical (gAddr s.cur (s.thread k) 6 0 256) = false ∧ canonical (gAddr s.cur (s.thread k) 6 0 64) = false ∧
         canonical ((s.thread k).group 2 6) = false) ∧
    (let s := tMem 0x1001 0x40
     (∀ k, k ∈ s.cur.tids → CanTrap s k) ∧
       (∀ k, k ∈ s.cur.tids → canonical (gAddr s.cur (s.thread k) 6 0 4) = true ∧ gAddr s.cur (s.thread k) 6 0 4 % 4 ≠ 0) ∧
       ∀ k, k ∈ s.cur.tids → canonical ((s.thread k).group 2 6) = true ∧ (s.thread k).group 2 6 % (4 * wRegs .w64) ≠ 0) :=
  ⟨⟨by decide +kernel, tCanTraps (by decide +kernel), by decide +kernel⟩,
   tCanTraps (by decide +kernel), by decide +kernel, by decide +kernel⟩

/-- Whether a result is a value. -/
def tOk {ε α : Type} [DecidableEq α] (r : Except ε α) (a : α) : Bool :=
  match r with
  | .ok b => decide (b = a)
  | .error _ => false

theorem tIsOk {ε α : Type} [DecidableEq α] {r : Except ε α} {a : α} (h : tOk r a = true) : r = .ok a := by
  cases r <;> simp_all [tOk]

/-- Whether a result is an error. -/
def tErr {ε α : Type} [DecidableEq ε] (r : Except ε α) (e : ε) : Bool :=
  match r with
  | .ok _ => false
  | .error f => decide (f = e)

theorem tIsErr {ε α : Type} [DecidableEq ε] {r : Except ε α} {e : ε} (h : tErr r e = true) : r = .error e := by
  cases r <;> simp_all [tErr]

/-- Threads 0 and 1 with the first word of the allotment, and the last one below its descriptors, in v9; v10 names granules,
the last one below the table of descriptors for thread 1. -/
def tSpad : State := tState [0, 1] fun k x => { x with
  regs := [(9, BitVec.ofNat 32 (3836 * k)), (10, BitVec.ofNat 32 (3824 * k)), (11, 4096), (12, 2)] }

theorem test_w_ScratchpadAccesses : tSpad.accs = [] ∧ ∀ wr : Bool, ∀ k, k ∈ tSpad.cur.tids →
    resolveFor tSpad k (sAddr tSpad.cur (tSpad.thread k) 9 0 4) 4 wr true = .ok (.phys 0 (3836 * k) true) ∧
    spadPoisoned tSpad 0 (3836 * k) 4 = false := by
  refine ⟨by decide +kernel, fun wr k hk => ⟨tIsOk ?_, ?_⟩⟩ <;> revert k <;> revert wr <;> decide +kernel
/-- The BOUND byte of the stage's first descriptor, and its neighbours. -/
theorem test_w_ScratchpadAccesses_bound : ∀ q, q = 3839 ∨ q = 3840 ∨ q = 3841 →
    ((teamAt tSpad 0 q).any fun x => decide (1024 * x.2.spadK - 256 ≤ q - x.2.spadBase ∧ (q - x.2.spadBase) % 32 = 0)) = (q == 3840) := by
  rintro q (rfl | rfl | rfl) <;> decide +kernel
/-- A place beyond the allotment; a misaligned one. -/
theorem test_w_ScratchpadAccesses_traps : tSpad.cur.tids.Nodup ∧ (∀ k, k ∈ tSpad.cur.tids → CanTrap tSpad k) ∧
    (∀ t, t ∈ tSpad.cur.tids → resolveFor tSpad t (sAddr tSpad.cur (tSpad.thread t) 11 0 4) 4 false true = .error 2) ∧
    ∀ t, t ∈ tSpad.cur.tids → resolveFor tSpad t (sAddr tSpad.cur (tSpad.thread t) 12 0 4) 4 true true = .error 7 := by
  refine ⟨by decide +kernel, tCanTraps (by decide +kernel), fun k hk => tIsErr ?_, fun k hk => tIsErr ?_⟩ <;> revert k <;>
    decide +kernel
/-- Granules that are empty, and the same ones full. -/
theorem test_w_FullEmptyAccesses : ∀ f : Bool,
    let s := tSpad.updCore 0 fun c => { c with full := if f then [0, 239] else [] }
    s.accs = [] ∧ (s.cur.tids.Nodup ∧ ∀ k, k ∈ s.cur.tids → coreOf k = s.cur.core) ∧ (∀ wr : Bool, ∀ k, k ∈ s.cur.tids →
      resolveFor s k (sAddr s.cur (s.thread k) 10 0 16) 16 wr false = .ok (.phys 0 (3824 * k) true) ∧
      spadPoisoned s 0 (3824 * k) 16 = false ∧ isFull s 0 (3824 * k) = f) ∧
    s.cur.tids.Pairwise (fun i j => 3824 * i / 16 ≠ 3824 * j / 16) := by
  intro f
  refine ⟨by revert f; decide +kernel, by revert f; decide +kernel, fun wr k hk => ⟨tIsOk ?_, ?_⟩, by revert f; decide +kernel⟩ <;>
    revert k <;> revert wr <;> revert f <;> decide +kernel

/-- Descriptor of window 2 of the stage's team: 128 bytes from 0x4000000000, writable, backed from local offset 256 (R172). -/
def tDesc (gva len soff flags : Nat) : List Byte := leBytes 32 (gva * 2 ^ 128 + len * 2 ^ 64 + soff * 2 ^ 32 + flags)

def tStash (bs : List Byte) : State :=
  (tOne [(9, 0x40020004)]).updCore 0 fun c => { c with spad := cellPuts c.spad 3904 bs }

/-- R385, R172: SBIND sets BOUND; a window of length 96 cannot be bound; SUNB clears BOUND. -/
theorem test_stash : (tRun 0x8D400000 none (tStash (tDesc 0x4000000000 128 256 1))).map (fun t =>
      cellGet (t.core 0).spad 3904) = some 3 ∧
    (tRun 0x8D400000 none (tStash (tDesc 0x4000000000 96 256 1))).map (fun t => (t.thread 0).trap.cause) = some 0x1000A ∧
    (tRun 0x8E400000 none (tStash (tDesc 0x4000000000 128 256 3))).map (fun t => cellGet (t.core 0).spad 3904) = some 1 ∧
    (tRun 0x8E400001 none (tStash (tDesc 0x4000000000 128 256 3))).map (fun t => cellGet (t.core 0).spad 3904) = some 1 := by
  decide +kernel

/-- Unbound with a good and with a bad descriptor, and bound. -/
theorem test_w_StashWindows : ∀ f l, (f = 1 ∧ (l = 128 ∨ l = 96)) ∨ (f = 3 ∧ l = 128) →
    let s := tStash (tDesc 0x4000000000 l 256 f)
    ∃ t, slotTeams s = [(0, s.cur.tids)] ∧ s.team 0 = some t ∧ 0 < t.spadK ∧ winBound s t 2 = (f == 3) ∧
      stashWbs s 0 (some 2) = [] ∧ (f = 1 → bindable s t 2 = (l == 128)) ∧ s.cur.tids.Nodup ∧ CanTrap s 0 := by
  rintro f l (⟨rfl, rfl | rfl⟩ | ⟨rfl, rfl⟩) <;>
    exact ⟨_, by decide +kernel, rfl, by decide +kernel, by decide +kernel, by decide +kernel, by decide +kernel,
      by decide +kernel, tCanTrap (by decide +kernel)⟩

/-! ## Bends, lead and gang -/

/-- Thread 0 and 1 with bend 40 in v9, bound by the stage's team on both sides, its count `n`; v10 names bend 40 of die 0 from
afar, v11 bend 41, which is not bound. -/
def tBend (n : DWord) : State :=
  (tState [0, 1] fun _ x => { x with regs := [(9, 40), (10, 0x80000028), (11, 41)] }).setBend 40
    { Bend.reset with sig := 0x2000000000000000, wait := 0x2000000000000000, valid := true, count := n }

/-- R328: each thread signals once. R329, R330: BTRY takes a unit while one is left. R331: an unbound bend traps with SUB 1. -/
theorem test_bend : (tRun (0x90#8 ++ 4#3 ++ 0#7 ++ 0#7 ++ 9#7) none (tBend 5)).map (fun t => (t.bend 40).count) = some 7 ∧
    (tRun (0x92#8 ++ 4#3 ++ 2#7 ++ 0#7 ++ 9#7) none (tBend 1)).map (fun t =>
      ((t.bend 40).count, (t.thread 0).pred 2, (t.thread 1).pred 2)) = some (0, true, false) ∧
    (tRun (0x91#8 ++ 4#3 ++ 0#7 ++ 0#7 ++ 9#7) none (tBend 0)).bind (fun t => (t.pass 0).bind fun p => kvGet p.waits 1) =
      some (.bend 40 false) ∧
    (tRun (0x92#8 ++ 4#3 ++ 2#7 ++ 0#7 ++ 11#7) none (tBend 1)).map (fun t => (t.thread 0).trap.cause) = some 0x1000D := by
  decide +kernel

theorem test_w_Bends : let s := tBend 2
    (∀ k, k ∈ s.cur.tids → dieOf (coreOf k) = 0 ∧
      bendName s 0 (rdB s.cur (s.thread k) .w32 9) = some ⟨false, fld (s.die 0).pkgid 0 9, 0, 40⟩ ∧
      sigCheck (s.bend 40) 1 (partyOf s k).1 (partyOf s k).2 = none) ∧
    s.accs = [] ∧ bendWaiters s 40 = [] ∧ (s.bend 40).count.toNat + s.cur.tids.length < 2 ^ 64 ∧
    (∀ k, k ∈ s.cur.tids →
      bendName s (dieOf (coreOf k)) (rdB s.cur (s.thread k) .w32 10) = some ⟨true, fld (s.die 0).pkgid 0 9, 0, 40⟩ ∧
      sigCheck (s.bend 40) 1 (partyOf s k).1 (partyOf s k).2 = none) ∧
    (∀ k, k ∈ s.cur.tids → checkTake s k (rdB s.cur (s.thread k) .w32 9) = .ok 40) ∧ s.cur.tids.Nodup ∧
    ∀ k, k ∈ s.cur.tids → CanTrap s k ∧ checkTake s k (rdB s.cur (s.thread k) .w32 11) = .error 1 := by
  refine ⟨by decide +kernel, by decide +kernel, by decide +kernel, by decide +kernel, by decide +kernel, fun k hk => tIsOk ?_,
    by decide +kernel, fun k hk => ⟨tCanTraps (by decide +kernel) k hk, tIsErr ?_⟩⟩ <;> revert k <;> decide +kernel

theorem tNoFall {s : State} (h : (s.threads.all fun e => e.2.fall.isNone) = true) : ∀ k, (s.thread k).fall = none := by
  intro k
  show (kvGetD Thread.reset s.threads k).fall = none
  unfold kvGetD
  cases hk : kvGet s.threads k with
  | none => rfl
  | some x => exact Option.isNone_iff_eq_none.mp (List.all_eq_true.mp h _ (kvGet_mem hk))

/-- Thread 0 alone, with the bends of `tBend`; v12 names bend 40 of die 0 of package 9, to which port 3 leads, and v13 is no name. -/
def tBendOne (n : DWord) : State :=
  let s := (tBend n).updThread 0 fun x => { x with regs := x.regs ++ [(12, 0x80480028), (13, 0x10000028)] }
  { s with cur := tCur [0] 0 none }.setPort 3 { Port.reset with ready := true, peer := 9 }

/-- The names in turn: of the die itself, of the package, of another package, and none; a unit left and none left. -/
theorem test_w_Bends_names : ∀ n, n = 2 ∨ n = 0 → let s := tBendOne n
    (∀ k, (s.thread k).fall = none) ∧ s.cur.tids = [0] ∧ CanTrap s 0 ∧
    ((List.range 4).map fun i => bendName s 0 (rdB s.cur (s.thread 0) .w32 (BitVec.ofNat 7 (if i = 0 then 9 else i + 9 + i / 2)))) =
      [some ⟨false, 0, 0, 40⟩, some ⟨true, 0, 0, 40⟩, some ⟨true, 9, 0, 40⟩, none] ∧
    bendHere s 0 ⟨true, 0, 0, 40⟩ = true ∧ bendHere s 0 ⟨true, 9, 0, 40⟩ = false ∧
    sigCheck (s.bend 40) 1 (partyOf s 0).1 (partyOf s 0).2 = none ∧ sigCheck (s.bend 41) 1 (partyOf s 0).1 (partyOf s 0).2 = some 1 ∧
    bendName s 0 (rdB s.cur (s.thread 0) .w32 11) = some ⟨false, 0, 0, 41⟩ ∧ checkTake s 0 (rdB s.cur (s.thread 0) .w32 9) = .ok 40 := by
  rintro n (rfl | rfl) <;>
    exact ⟨tNoFall (by decide +kernel), by decide +kernel, tCanTrap (by decide +kernel), by decide +kernel, by decide +kernel,
      by decide +kernel, by decide +kernel, by decide +kernel, by decide +kernel, tIsOk (by decide +kernel)⟩

/-- R342: thread 0 is the lead of the stage's team. R359: its KMOV writes k4, which MOV.K then reads; another's traps. -/
theorem test_team_registers : (tRun 0x94008000 none (tState [0, 1] fun _ x => x)).map (fun t =>
      ((t.thread 0).pred 2, (t.thread 1).pred 2)) = some (true, false) ∧
    ((tRun 0x95010380 none (tOne [(7, 9)])).bind fun t => (t.team 0).map fun u => kvGetD 0 u.kregs 4) = some 9 ∧
    (tRun 0x95010380 none (tState [1] fun _ x => x)).map (fun t => (t.thread 1).trap.cause) = some 5 ∧
    (tRun 0x1C408200 none ((tOne []).updTeam 0 fun t => { t with kregs := [(4, 8)] })).map (fun t => (t.thread 0).reg 2) = some 8 := by
  decide +kernel

theorem test_w_TeamRegisters :
    (∃ p t, (tOne []).pass (tOne []).curPass = some p ∧ (tOne []).team ((tOne []).thread 0).team = some t ∧
      (tOne []).cur.tids = [0] ∧ (t.tids.find? fun j => ((tOne []).thread j).live) = some 0 ∧ p.chain = [] ∧ t.kpend = []) ∧
    (let s := tState [1] fun _ x => x
     s.cur.tids = [1] ∧ CanTrap s 1 ∧ ∃ t, s.team (s.thread 1).team = some t ∧ (t.tids.find? fun j => (s.thread j).live) ≠ some 1) :=
  ⟨⟨_, _, rfl, rfl, by decide +kernel, by decide +kernel, rfl, rfl⟩,
   by decide +kernel, tCanTrap (by decide +kernel), _, rfl, by decide +kernel⟩

/-- A whole gang with the values of v5 and p1 by lane. -/
def tGang (f : Nat → Word) (p : Nat → Bool) : State :=
  tState (List.range 32) fun k x => { x with regs := [(5, f k)], preds := [(1, p k)] }

/-- R394's example with every lane present, lane 5 false. -/
theorem test_vote : (tRun 0x96614080 none (tGang (fun _ => 0) (· != 5))).map (fun t => (t.thread 31).reg 5) = some 0xFFFFFFDF ∧
    (tRun 0x96208080 none (tGang (fun _ => 0) (· != 5))).map (fun t => (t.thread 7).pred 2) = some true ∧
    (tRun 0x96008080 none (tGang (fun _ => 0) (· != 5))).map (fun t => (t.thread 7).pred 2) = some false := by decide +kernel
/-- R367's example. -/
theorem test_match : (tRun 0x9700C280 none (tGang (fun k => if k = 0 then 0 else if k = 1 then 0x80000000 else if k ≤ 3 then 0x7FC00000
      else if k = 4 then 0x7FC00001 else BitVec.ofNat 32 k) (fun _ => true))).map (fun t =>
    [0, 1, 2, 3, 4].map fun k => (t.thread k).reg 3) = some [1, 2, 12, 12, 16] := by decide +kernel
/-- R354's example: the fold in ascending lanes, and with lanes 0 and 2 swapped. -/
theorem test_gred : (tRun 0x98C10280 none (tGang (fun k => if k = 0 then 0x4B800000 else if k ≤ 2 then 0x3F800000 else 0)
      (fun _ => true))).map (fun t => (t.thread 9).reg 4) = some 0x4B800000 ∧
    (tRun 0x98C10280 none (tGang (fun k => if k = 2 then 0x4B800000 else if k ≤ 1 then 0x3F800000 else 0)
      (fun _ => true))).map (fun t => (t.thread 9).reg 4) = some 0x4B800001 := by decide +kernel
/-- R355's example: an exchange of neighbours; and UP past lane 0 keeps the own value. -/
theorem test_gshf : (tRun (0x99#8 ++ 3#3 ++ 3#7 ++ 5#7 ++ 0#7) (some 1) (tGang (fun k => BitVec.ofNat 32 (100 + k)) (fun _ => true))).map
      (fun t => ((t.thread 6).reg 3, (t.thread 7).reg 3)) = some (107, 106) ∧
    (tRun (0x99#8 ++ 1#3 ++ 3#7 ++ 5#7 ++ 0#7) (some 3) (tGang (fun k => BitVec.ofNat 32 (100 + k)) (fun _ => true))).map
      (fun t => ((t.thread 2).reg 3, (t.thread 3).reg 3)) = some (102, 100) := by decide +kernel

/-- The stage's block is a GANG block; and with an ordinary one. -/
def tPlain (tids : List Nat) (f : Nat → Thread → Thread) : State :=
  let s := tState tids f
  match s.pass 0 with
  | some p => s.setPass 0 { p with gang := false }
  | none => s

/-- Also of ExpandIterations. -/
theorem test_w_GangOperations : curGang (tGang (fun _ => 0) (fun _ => true)) = true ∧
    (let s := tPlain [0, 1] fun _ x => x
     curGang s = false ∧ s.cur.tids.Nodup ∧ ∀ i, i ∈ s.cur.tids → CanTrap s i) :=
  ⟨by decide +kernel, by decide +kernel, by decide +kernel, tCanTraps (by decide +kernel)⟩

/-! ## Expand unit, engine slots, control registers -/

/-- The worked example under R271, dealing: lanes 0, 2 and 3 brought loops of 3, 5 and 1 iterations, 9 in all. -/
def tExp : State :=
  let e (s : List Host.Cell) (p start len : Nat) : List Host.Cell := cellPuts s (2816 + 32 * p) (leBytes 4 start ++ leBytes 4 len)
  let s := tState (List.range 4) fun _ x => x
  (s.updTeam 0 fun t => { t with expand := { t.expand with st := 2, cmask := 1, total := 9 } }).updCore 0 fun c =>
    { c with spad := e (e (e [] 0 100 3) 2 200 5) 3 300 1 }

/-- The same after EXPN x4, p1 by threads 0, 1 and 3 alone. -/
def tAsked : State :=
  let s := { tExp with cur := tCur [0, 1, 3] 0 none }
  (tRun 0xA1010001 none s).getD s

/-- EXPB by lanes 0, 2 and 3 opens that expansion. -/
theorem test_expb : (tRun 0xA0000103 none (tState [0, 2, 3] fun k x => { x with
      regs := [(2, BitVec.ofNat 32 (if k = 0 then 100 else 100 * k)), (3, if k = 0 then 3 else if k = 2 then 5 else 1)] })).map
      (fun t => ((t.team 0).map fun u => (u.expand.st, u.expand.total, u.expand.cmask), spadGet t 0 2880 8)) =
    some (some (2, 9, 1), leBytes 4 200 ++ leBytes 4 5) := by decide +kernel
theorem test_expq : (tRun 0xA201C000 none tExp).map (fun t => (t.thread 3).reg 7) = some 9 := by decide +kernel
theorem test_expn : tAsked.accs.map (fun a => (a.2.tid, a.2.dst, a.2.dstP)) =
    [(0, [4, 5], some 1), (1, [4, 5], some 1), (3, [4, 5], some 1)] := by decide +kernel
/-- The first deal gives thread 0 the value 100 of owner 0. -/
theorem test_expn_deal : (tExec (.expnDeal 0) tAsked).map (fun t => ((t.thread 0).reg 4, (t.thread 0).reg 5, (t.thread 0).pred 1,
    (t.team 0).map (·.expand.cursor))) = some (100, 0, true, some 1) := by decide +kernel
/-- SEGR of the dealt iteration settles it: the accumulator of owner 0 holds 100. R270: without one, SUB 8. -/
theorem test_segr : (((tExec (.expnDeal 0) tAsked).map fun s => { s with cur := tCur [0] 0 none }).bind
      (tRun (0xA3#8 ++ 0#3 ++ 0#7 ++ 4#7 ++ 0#7) none)).map (fun t => (t.team 0).map fun u => kvGetD 0 u.expand.acc 0) =
      some (some 100) ∧
    (tRun (0xA3#8 ++ 0#3 ++ 0#7 ++ 4#7 ++ 0#7) none { tExp with cur := tCur [0] 0 none }).map (fun t => (t.thread 0).trap.cause) =
      some 0x8000B := by decide +kernel
/-- R272: the image goes to local offset 0 and the unit falls idle; EXPRS of an image of zeros, whose MAGIC is none, traps. -/
theorem test_expsv : ((tRun (0xA4#8 ++ 0#3 ++ 0#7 ++ 9#7 ++ 0#7) none { tExp with cur := tCur [0] 0 none }).map fun t =>
    (t.team 0).map (·.expand.st)) = some (some 0) := by decide +kernel
theorem test_exprs : ((tRun (0xA5#8 ++ 0#3 ++ 0#7 ++ 9#7 ++ 0#7) none { tExp with cur := tCur [0] 0 none }).map fun t =>
    (t.thread 0).trap.cause) = some 0xB000B := by decide +kernel

/-- What the unit took before takes effect first: nothing here, where no request is ready; and in `tAsked` a deal. -/
theorem test_w_Expand_requests : (∀ s, s = tExp ∨ s = tGang (fun _ => 1) (fun _ => true) →
      afterRequests s = s ∧ s.teams.all (fun t => t.2.expq.all fun q => !q.live || q.ready == 0) = true) ∧
    decide (afterRequests tAsked = tAsked) = false := by
  refine ⟨?_, by decide +kernel⟩
  rintro s (rfl | rfl) <;> decide +kernel

/-- EXPB meets its checks; a second EXPB of the gang while the unit deals fails with SUB 2; an ordinary block. -/
theorem test_w_ExpandBuild :
    (let s := tGang (fun _ => 1) (fun _ => true)
     curGang s = true ∧ s.cur.tids = 0 :: (List.range 32).tail ∧ (s.thread 0).team = 0 ∧
       ((s.team 0).map fun t => expbBad s t (grpLog .g1) 0 0 32) = some none) ∧
    (curGang tExp = true ∧ tExp.cur.tids.Nodup ∧ (∀ k, k ∈ tExp.cur.tids → CanTrap tExp k) ∧
       ((tExp.team 0).map fun t => expbBad tExp t (grpLog .g1) 0 0 9) = some (some 2)) ∧
    (let s := tPlain [0, 1] fun _ x => x
     curGang s = false ∧ s.cur.tids.Nodup ∧ ∀ k, k ∈ s.cur.tids → CanTrap s k) :=
  ⟨⟨by decide +kernel, by decide +kernel, by decide +kernel, by decide +kernel⟩,
   ⟨by decide +kernel, by decide +kernel, tCanTraps (by decide +kernel), by decide +kernel⟩,
   by decide +kernel, by decide +kernel, tCanTraps (by decide +kernel)⟩

/-- A participant, its open iteration, and the traps of the others: also the clauses of ExpandImages, whose threads act in turn. -/
theorem test_w_ExpandIterations : curGang tExp = true ∧ CanTrap tExp 1 ∧
    ((tExp.team 0).any fun t => partOf t 0 == some 0 && leadOf tExp t == some 0 && t.expand.st == 2) = true ∧
    stashWbs tExp 0 none = [] :=
  ⟨by decide +kernel, tCanTrap (by decide +kernel), by decide +kernel, by decide +kernel⟩

/-- With iterations left; and with none left, the cursor at the total. -/
theorem test_w_ExpandDeals : ∀ c, c = 0 ∨ c = 9 →
    let s := tAsked.updTeam 0 fun t => { t with expand := { t.expand with cursor := c } }
    ((s.team 0).any fun t => t.expand.st == 2 && t.expand.cursor == c && t.expand.total == 9 && dieGo s (dieOf t.core) &&
      t.expq.head?.any fun r => r.live && r.ready != 0 &&
        (t.expq.tail.all fun q => !q.live || q.ready == 0 || decide (r.ready ≤ q.ready)) &&
        (s.acc r.acc).any fun x => x.dst == [4, 5]) = true := by
  rintro c (rfl | rfl) <;> decide +kernel

/-- R371's example: MXRD at row 20, columns 12 to 15. -/
theorem test_mxrd : (tRun 0xB3020085 none (tOne [(5, 0xA0C)])).map (fun t => t.accs.map fun a => (a.2.kind, a.2.dst)) =
    some [(.mxrd 1 2572, [8, 9, 10, 11])] := by decide +kernel
theorem test_mxwr : (tRun 0xB4004405 none (tOne [(5, 0xA0C), (8, 3)])).map (fun t => t.accs.map fun a => (a.2.kind, a.2.data.toNat)) =
    some [(.mxwr 1 2572, 3)] := by decide +kernel
theorem test_mxclr : (tRun 0xB2008000 none (tState [0, 1] fun _ x => x)).map (fun t => t.accs.map (·.2.kind)) = some [.mxclr 2] := by
  decide +kernel
theorem test_engine_pushes : ((tRun 0xB0000180 none (tOne [(3, 64)])).bind fun t => (t.pass 0).bind fun p => kvGet p.waits 0) =
      some (.push 1 64) ∧
    (tRun 0xB1000180 none (tOne [(3, 65)])).map (fun t => (t.thread 0).trap.cause) = some 0x7000A ∧
    ((tRun 0xB5000180 none (tOne [(3, 64)])).bind fun t => (t.pass 0).bind fun p => kvGet p.waits 0) = some (.push 0 64) := by
  decide +kernel
theorem test_qstat : (tRun 0xB6000000 none ((tOne []).updTeam 0 fun t => { t with q0 := [5, 6] })).map (fun t => (t.thread 0).reg 0) =
    some 2 := by decide +kernel

/-- The last block of the allotment below its descriptors; and one beyond it. -/
theorem test_w_EngineSlots : 3776 < 2 ^ 19 ∧ 3776 % 64 = 0 ∧
    (((tOne []).team 0).any fun t => decide (3776 + 64 ≤ 1024 * t.spadK) && (protect (tOne []) t 3776 64 true false).isNone &&
      tErr (localBlock (tOne []) t 4096 64 64 false) 2) = true := by decide +kernel

/-- R335's examples, and a write of FPMODE whose RM is no mode; R110, R337. -/
theorem test_csrs : tReg 0xE0028200 none [] 2 10 = some 0 ∧
    (tRun 0xE100C000 none (tOne [(3, 0x37)])).map (fun t => (t.thread 0).fpmode) = some 0x31 ∧
    (tRun 0xE100C000 none (tOne [(3, 0x12)])).map (fun t => (t.thread 0).fpmode) = some 0x12 ∧
    (tRun 0xE2010000 none ((tOne []).updCore 0 fun c => { c with cyc := 2 ^ 32 })).map (fun t => (t.thread 0).group 2 4) = some (2 ^ 32) := by
  decide +kernel
theorem test_csr_privilege : (tRun (0xE0#8 ++ 0#3 ++ 4#7 ++ 0x20#7 ++ 0x10#7) none (tOne [])).map (fun t => (t.thread 0).trap.cause) =
    some 7 := by decide +kernel
theorem test_w_ControlRegisters : ∀ k, k ∈ (tOne []).cur.tids → ((tOne []).team ((tOne []).thread k).team).isSome = true ∧
    tCan (tOne []) k = true := by decide +kernel
/-- Also of EncodeDecode and DecodeEncode. -/
theorem test_w_EncodeDecode : wellFormed (.iadd .i64 126 126 126) = true ∧ inSlot (.iadd .i64 126 126 126) = true ∧
    ∃ i, decodeWord (0x10#8 ++ 2#3 ++ 126#7 ++ 126#7 ++ 126#7) = .ok i := ⟨rfl, rfl, _, rfl⟩
theorem test_w_FloatConversions : isInt4 .n64 = true := rfl
theorem test_w_PlopTruthTable : (0x2FFFFFFF &&& 0xFF1FFFFF : Word).extractLsb' 24 8 = 0x2F ∧
    (0x2FFFFFFF &&& 0xFF1FFFFF : Word).extractLsb' 21 3 = 0 := by decide
theorem test_w_IntegerDots : let s := tState [0, 1] fun k x => { x with regs := [(7, if k = 0 then 0xA88 else 0xA48)] }
    s.cur.tids.Nodup ∧ ∀ k, k ∈ s.cur.tids → CanTrap s k := ⟨by decide +kernel, tCanTraps (by decide +kernel)⟩
/-- Slots that bind F8A, F8B and F4, and one that binds none. -/
theorem test_w_FormatSlots : let s := tFmt []
    (fmtSlot s 3).map slotFmt = some 4 ∧ (fmtSlot s 5).map slotFmt = some 5 ∧ (fmtSlot s 2).map slotFmt = some 6 ∧
    ((fmtSlot s 3).bind fun v => fmtElems (slotFmt v)) = some 4 ∧ (fmtSlot s 4).map slotFmt = some 0 ∧ fmtElems 0 = none ∧
    s.cur.tids.Nodup ∧ ∀ k, k ∈ s.cur.tids → CanTrap s k := by
  refine ⟨?_, ?_, ?_, ?_, ?_, ?_, ?_, tCanTraps ?_⟩ <;> decide +kernel

/-! ## Steps -/

/-- IADD.I32.SAT v2, v3, v4 where the next step runs it. -/
theorem test_step : (match step ((State.reset.withFetchWord 32 0x10808184).updThread 3 fun x =>
      { x with regs := [(3, 0x7FFFFFF0), (4, 0x20)] }) with
    | .next t => some ((t.thread 3).reg 2)
    | _ => none) = some 0x7FFFFFFF := by decide +kernel
/-- A slot whose packet was poisoned when it was fetched. -/
def tBad : State :=
  let s := placeWord State.reset 0x01000000
  match s.pass 0 with
  | some p => s.setPass 0 { p with code := p.code.map fun k => { k with bad := true } }
  | none => s
/-- Also of SlotThreads. -/
theorem test_w_StepRunsSlot : (let s := State.reset.withFetchWord 32 0x10808184
      s.agenda = [] ∧ (firstDue (carryOut exec) s (startEvents s)).isNone = true ∧ s.turn = false ∧ (nextIssue s).2.map (·.plan) = some (.run 1 (.iadd .i32s 2 3 4))) ∧
    ((nextIssue (State.reset.withFetchWord 32 0)).2.map (·.plan) = some (.run 1 .illegalInstruction)) ∧
    tBad.agenda = [] ∧ (firstDue (carryOut exec) tBad (startEvents tBad)).isNone = true ∧ tBad.turn = false ∧ (nextIssue tBad).2.map (·.plan) = some (.trap 0 0x0F) := by decide +kernel
theorem test_w_StepRunsEvent :
    { State.reset with agenda := [Instr.hostPortTrained 0] }.agenda = [Instr.hostPortTrained 0] ∧ State.reset.agenda = [] ∧
    ∀ p, p ∈ State.reset.passes → nextOf State.reset p.1 = none := by decide +kernel
/-- After reset nothing but time passes (log 14). -/
theorem test_step_reset : step State.reset = .next (idle State.reset) := by rfl
theorem test_reset : MemoryOk State.reset := by unfold MemoryOk; decide
theorem test_w_MemoryStaysCanonical : MemoryOk State.reset ∧ ∃ t, step State.reset = .next t :=
  ⟨test_reset, _, test_step_reset⟩

/-! ## The capstan -/

theorem tHeatOff {s : State} (h : (s.dies.all fun e => fld e.2.heatbase 0 1 == 0) = true) : HeatOff s := by
  intro d
  unfold State.die kvGetD
  generalize s.dies = m at h
  induction m with
  | nil => show fld Die.reset.heatbase 0 1 = 0; decide
  | cons e m ih =>
    simp only [List.all_cons, Bool.and_eq_true, beq_iff_eq] at h
    unfold kvGet
    split
    · exact h.1
    · exact ih h.2

/-! ### Translations of the stage's page

Whether a TLB or the walk cache answers is a free choice, so the kernel cannot evaluate a second translation; every choice gives
the same. -/

/-- The leaf of the stage's page, which stands for memory of die 0 from 0, or for host memory from 0. -/
def tPte (w : Bool) : DWord := if w then 0x10000000C0F else 0xC8F
def tBase (w : Bool) : Nat := if w then 0x10000000000 else 0
def tKey (w : Bool) (va : Nat) : Nat := if w then 2 ^ 64 + va else va
/-- The TLB entry of the stage's page. -/
def tEnt (w : Bool) : Tlb := ⟨0, 0, 2 ^ 30, tBase w, tPte w, 2⟩

/-- The stage's page at address 0 stands in the table; TLBs and the walk cache hold nothing but it; the walker alone holds sectors, and no
clock is stopped. -/
structure TMapped (w : Bool) (s : State) : Prop where
  host : hostUp s 0 = true ∨ w = false
  dir : ∀ k x, kvGet s.dir k = some x → x = .shared [.walker 0]
  devs : s.devs = []
  heat : HeatOff s
  still : anyStopped s = false
  ctx : ((s.die 0).ctx 0).ptbase = 0x1001
  tlb : ∀ t, t ∈ (s.die 0).tlb → t = tEnt w
  own : ∀ t, t ∈ (s.core 0).tlb → t = tEnt w
  walkc : ∀ x, x ∈ (s.die 0).walkc → x = ⟨0, 3, 0, 0x2000⟩ ∨ x = ⟨0, 2, 0, 0x3000⟩
  t4 : cellGets s.mem 0x1000 8 = leBytes 8 0x2001
  t3 : cellGets s.mem 0x2000 8 = leBytes 8 0x3001
  t2 : cellGets s.mem 0x3000 8 = leBytes 8 (tPte w).toNat

/-- `TMapped`, as a test. -/
def tMapB (w : Bool) (s : State) : Bool :=
  (hostUp s 0 || !w) && (s.dir.all fun e => decide (e.2 = .shared [.walker 0])) && decide (s.devs = []) &&
  (s.dies.all fun e => fld e.2.heatbase 0 1 == 0) && !anyStopped s && ((s.die 0).ctx 0).ptbase == 0x1001 &&
  ((s.die 0).tlb.all fun t => decide (t = tEnt w)) && ((s.core 0).tlb.all fun t => decide (t = tEnt w)) &&
  ((s.die 0).walkc.all fun x => decide (x = ⟨0, 3, 0, 0x2000⟩ ∨ x = ⟨0, 2, 0, 0x3000⟩)) &&
  cellGets s.mem 0x1000 8 == leBytes 8 0x2001 && cellGets s.mem 0x2000 8 == leBytes 8 0x3001 &&
  cellGets s.mem 0x3000 8 == leBytes 8 (tPte w).toNat
theorem tMappedOf {w : Bool} {s : State} (h : tMapB w s = true) : TMapped w s := by
  simp only [tMapB, Bool.and_eq_true, Bool.or_eq_true, Bool.not_eq_true', decide_eq_true_eq, List.all_eq_true, beq_iff_eq] at h
  obtain ⟨⟨⟨⟨⟨⟨⟨⟨⟨⟨⟨h1, h2⟩, h3⟩, h4⟩, h5⟩, h6⟩, h7⟩, h8⟩, h9⟩, ha⟩, hb⟩, hc⟩ := h
  exact ⟨h1, fun k x hk => h2 _ (kvGet_mem hk), h3, tHeatOff (by simpa only [List.all_eq_true, beq_iff_eq] using h4), h5, h6, h7, h8, h9,
    ha, hb, hc⟩

/-- What a read leaves. -/
def TSame (s s' : State) : Prop := s'.mem = s.mem ∧ s'.teams = s.teams ∧ s'.launches = s.launches ∧ s'.accs = s.accs ∧
  ∀ g, (s'.core g).spad = (s.core g).spad
theorem TSame.refl (s : State) : TSame s s := ⟨rfl, rfl, rfl, rfl, fun _ => rfl⟩
theorem TSame.trans {a b c : State} (h : TSame a b) (k : TSame b c) : TSame a c :=
  ⟨k.1.trans h.1, k.2.1.trans h.2.1, k.2.2.1.trans h.2.2.1, k.2.2.2.1.trans h.2.2.2.1, fun g => (k.2.2.2.2 g).trans (h.2.2.2.2 g)⟩

theorem tAnyPut {m : Kv Die} (p : Die → Bool) (d : Nat) (x : Die) (h : m.any (fun e => p e.2) = false) (hx : p x = false) :
    (kvPut m d x).any (fun e => p e.2) = false := by
  induction m with
  | nil => simp [kvPut, hx]
  | cons e m ih =>
    simp only [List.any_cons, Bool.or_eq_false_iff] at h
    simp only [kvPut]
    split
    · simp [h.1, ih h.2]
    · split <;> simp [h.1, h.2, hx]

theorem tNoneStopped {s : State} (h : anyStopped s = false) (d : Nat) : (s.die d).stopped = false := by
  simp only [anyStopped, Bool.or_eq_false_iff] at h
  replace h := h.2
  unfold State.die kvGetD
  generalize s.dies = m at h
  induction m with
  | nil => rfl
  | cons e m ih =>
    simp only [List.any_cons, Bool.or_eq_false_iff] at h
    unfold kvGet
    split
    · exact h.1
    · exact ih h.2

/-- What a die keeps that an access changes only in its caches and counters. -/
theorem TMapped.upd {w : Bool} {s : State} (h : TMapped w s) (d : Nat) (f : Die → Die)
    (h1 : (f (s.die d)).stopped = (s.die d).stopped ∧ (f (s.die d)).hostReady = (s.die d).hostReady) (h2 : (f (s.die d)).heatbase = (s.die d).heatbase)
    (h3 : (f (s.die d)).ctxs = (s.die d).ctxs) (h4 : d = 0 → ∀ t, t ∈ (f (s.die d)).tlb → t = tEnt w)
    (h5 : d = 0 → ∀ x, x ∈ (f (s.die d)).walkc → x = ⟨0, 3, 0, 0x2000⟩ ∨ x = ⟨0, 2, 0, 0x3000⟩) : TMapped w (s.updDie d f) := by
  have hd (e : Nat) : (s.updDie d f).die e = if d = e then f (s.die d) else s.die e := by
    simp [State.die, State.updDie, State.setDie]
  refine ⟨?_, h.dir, h.devs, fun e => ?_, ?_, ?_, ?_, h.own, ?_, h.t4, h.t3, h.t2⟩
  · have hh := h.host
    unfold hostUp at hh ⊢
    rw [hd]; split
    · rename_i e; rw [← e] at hh; rw [h1.2]; exact hh
    · exact hh
  · rw [hd]; split
    · rw [h2]; exact h.heat d
    · exact h.heat e
  · have hs := h.still
    simp only [anyStopped, Bool.or_eq_false_iff] at hs ⊢
    exact ⟨hs.1, tAnyPut (·.stopped) d _ hs.2 (h1.1.trans (tNoneStopped h.still d))⟩
  · rw [hd]; split
    · rename_i e; subst e
      have := h.ctx
      simp only [Die.ctx, h3] at this ⊢
      exact this
    · exact h.ctx
  · rw [hd]; split
    · rename_i e; subst e; exact h4 rfl
    · exact h.tlb
  · rw [hd]; split
    · rename_i e; subst e; exact h5 rfl
    · exact h.walkc
theorem TMapped.free {w : Bool} {s : State} (h : TMapped w s) (n : Nat) : TMapped w { s with free := n } :=
  ⟨h.host, h.dir, h.devs, h.heat, h.still, h.ctx, h.tlb, h.own, h.walkc, h.t4, h.t3, h.t2⟩
theorem TMapped.kept {w : Bool} {s : State} (h : TMapped w s) (m : Kv Sec)
    (hm : ∀ k x, kvGet m k = some x → x = .shared [.walker 0]) : TMapped w { s with dir := m } :=
  ⟨h.host, hm, h.devs, h.heat, h.still, h.ctx, h.tlb, h.own, h.walkc, h.t4, h.t3, h.t2⟩
theorem tCacheAdd {α : Type} [BEq α] {n : Nat} {l : List α} {x : α} {P : α → Prop} (h : ∀ y, y ∈ l → P y) (hx : P x) :
    ∀ y, y ∈ cacheAdd n l x → P y := by
  intro y hy
  unfold cacheAdd at hy
  split at hy
  · exact h y hy
  · rcases List.mem_append.mp hy with hy | hy
    · split at hy
      · exact h y hy
      · exact h y (List.mem_of_mem_drop hy)
    · rw [List.mem_singleton.mp hy]; exact hx

theorem tNoHeat {s : State} (h : HeatOff s) (k : Nat) : heatTick s k = s := by
  unfold heatTick
  split
  · rfl
  · exact if_pos (h _)
theorem TMapped.dirOf {w : Bool} {s : State} (h : TMapped w s) (k : Nat) : kvGet s.dir k = none ∨ kvGet s.dir k = some (.shared [.walker 0]) := by
  cases hk : kvGet s.dir k with
  | none => exact .inl rfl
  | some x => exact .inr (by rw [h.dir k x hk])
theorem TMapped.byte {w : Bool} {s : State} (h : TMapped w s) (i : Nat) : s.byteAt i = cellGet s.mem i := by
  unfold State.byteAt
  rcases h.dirOf (i / 64) with e | e <;> rw [e]
theorem TMapped.noWait {w : Bool} {s : State} (h : TMapped w s) (k : Nat) : mustWait s k = (s, false) := by
  unfold mustWait
  rcases h.dirOf k with e | e <;> rw [e] <;> simp only [h.devs] <;> rfl
theorem TMapped.noDev {w : Bool} {s : State} (h : TMapped w s) (k : Nat) : developIf s k = s := by
  rw [developIf, h.noWait]
theorem TMapped.noKeyWait {w : Bool} {s : State} (h : TMapped w s) (d k : Nat) : keyWaits s d k = false := by
  simp [keyWaits, keyStill, h.still]

/-- The walker reads eight bytes of a sector. -/
theorem tRd {w : Bool} {s : State} (h : TMapped w s) (k : Nat) (hk : sectorsOf (64 * k) 8 = [(k, 0, 0, 8)]) :
    ∃ s', readBy s (some (.walker 0)) (64 * k) 8 = (s', cellGets s.mem (64 * k) 8) ∧ TMapped w s' ∧ TSame s s' := by
  have hp : peerOf k (.walker 0) = false := by
    unfold peerOf; cases homeDie (64 * k) <;> rfl
  have hr : ∃ s', readFor s k (some (.walker 0)) = s' ∧ TMapped w s' ∧ TSame s s' := by
    refine ⟨_, rfl, ?_⟩
    simp only [readFor, hp, tNoHeat h.heat, h.noDev]
    split
    · exact ⟨h, .refl s⟩
    · simp only [Bool.false_eq_true, if_false]
      rcases h.dirOf k with e | e
      · simp only [readState, e]
        refine ⟨h.kept _ fun j x hj => ?_, rfl, rfl, rfl, rfl, fun _ => rfl⟩
        rw [kvGet_kvPut] at hj
        split at hj
        · cases hj; rfl
        · exact h.dir j x hj
      · simp only [readState, e, List.contains_cons, BEq.rfl, Bool.true_or, if_true]
        exact ⟨h, .refl s⟩
  obtain ⟨s', h1, h2, h3⟩ := hr
  refine ⟨s', ?_, h2, h3⟩
  simp only [readBy, hk, List.foldl_cons, List.foldl_nil, h1, h2.byte, h3.1, cellGets, List.nil_append, Nat.add_zero]

theorem tEntry {w : Bool} {s : State} (h : TMapped w s) {va : Nat} (hv : va < 2 ^ 30) (lvl k v : Nat) (hl : 30 ≤ leafLog lvl)
    (hk : sectorsOf (64 * k) 8 = [(k, 0, 0, 8)]) (hd : 64 * k < Config.ddrBytes) (hm : cellGets s.mem (64 * k) 8 = leBytes 8 v) :
    ∃ s', TMapped w s' ∧ TSame s s' ∧ walkEntry s 0 va (64 * k) lvl =
      (let e : DWord := BitVec.ofNat 64 (ofLe (leBytes 8 v))
       if fld e 0 1 = 0 then (s', .inl (.bad 0x10 lvl lvl))
       else if fld e 3 1 = 1 then
         let h := if fld e 56 1 = 1 then importHandle s' 0 (fld e 36 16) else (s', none)
         (h.1, .inl (if leafReserved e lvl 0 h.2 then .bad 0x13 lvl lvl else .leaf e lvl (64 * k)))
       else if lvl = 0 ∨ fld e 52 12 ≠ 0 ∨ fld e 4 8 ≠ 0 ∨ fld e 1 2 ≠ 0 ∨ !ownAddr s' 0 (fld e 12 40 * 4096)
         then (s', .inl (.bad 0x13 lvl lvl))
       else (s', .inr (fld e 12 40 * 4096))) := by
  have hz : va / 2 ^ leafLog lvl = 0 := Nat.div_eq_of_lt (Nat.lt_of_lt_of_le hv (Nat.pow_le_pow_right (by decide) hl))
  obtain ⟨s', h1, h2, h3⟩ := tRd h k hk
  refine ⟨s', h2, h3, ?_⟩
  have hm' : 64 * k / 64 = k := by omega
  have hf : farPackage (64 * k) = none := by
    have : 64 * k < 2 ^ 51 := Nat.lt_trans hd (by decide)
    simp only [farPackage]; rw [if_neg]; omega
  have hf' : ∀ m, askFar s (64 * k) m = s := fun m => by simp only [askFar, farPort, hf, Option.bind_none]
  simp only [walkEntry, hz, Nat.zero_mod, Nat.mul_zero, Nat.add_zero, physKey, hd, Nat.zero_add, if_true, hm', h.noWait, h.noKeyWait,
    Bool.or_false, Bool.false_eq_true, if_false, hf', h1, hm]

theorem tCached {w : Bool} {s : State} (h : TMapped w s) (va lvl : Nat) :
    (∃ s', TMapped w s' ∧ TSame s s' ∧ cachedTable s 0 0 va lvl = (s', none)) ∨
    (∃ s', TMapped w s' ∧ TSame s s' ∧ ((lvl = 3 ∧ cachedTable s 0 0 va lvl = (s', some 0x2000)) ∨
      (lvl = 2 ∧ cachedTable s 0 0 va lvl = (s', some 0x3000)))) := by
  unfold cachedTable
  split
  · exact .inl ⟨s, h, .refl s, rfl⟩
  · rename_i x hx
    have hm := List.mem_of_find?_eq_some hx
    have hp := List.find?_some hx
    simp only [Bool.and_eq_true, beq_iff_eq] at hp
    cases hc : s.choose.2
    · exact .inl ⟨_, h.free (s.free + 1), ⟨rfl, rfl, rfl, rfl, fun _ => rfl⟩, by simp only [hc]; rfl⟩
    · refine .inr ⟨_, h.free (s.free + 1), ⟨rfl, rfl, rfl, rfl, fun _ => rfl⟩, ?_⟩
      rcases h.walkc x hm with e | e
      · exact .inl ⟨by rw [← hp.1.2, e], by simp only [hc, e]; rfl⟩
      · exact .inr ⟨by rw [← hp.1.2, e], by simp only [hc, e]; rfl⟩

theorem TMapped.keep {w : Bool} {s : State} (h : TMapped w s) {va : Nat} (hv : va < 2 ^ 30) (lvl t : Nat)
    (he : (lvl = 3 ∧ t = 0x2000) ∨ (lvl = 2 ∧ t = 0x3000)) : TMapped w (keepTable s 0 0 va lvl t) ∧ TSame s (keepTable s 0 0 va lvl t) := by
  have hm : va % 2 ^ 57 = va := Nat.mod_eq_of_lt (Nat.lt_of_lt_of_le hv (by decide))
  refine ⟨h.upd 0 _ ⟨rfl, rfl⟩ rfl rfl (fun _ => h.tlb) fun _ => ?_, rfl, rfl, rfl, rfl, fun _ => rfl⟩
  refine tCacheAdd h.walkc ?_
  rcases he with ⟨rfl, rfl⟩ | ⟨rfl, rfl⟩
  · left; simp only [regionOf, hm]; rw [Nat.div_eq_of_lt (Nat.lt_of_lt_of_le hv (by decide))]
  · right; simp only [regionOf, hm]; rw [Nat.div_eq_of_lt (Nat.lt_of_lt_of_le hv (by decide))]

theorem tWalk2 {w : Bool} {s : State} (h : TMapped w s) {va : Nat} (hv : va < 2 ^ 30) :
    ∃ s', walkFrom s 0 0 va 0x3000 2 = (s', .leaf (tPte w) 2 0x3000) ∧ TMapped w s' ∧ TSame s s' := by
  have go {s : State} (h : TMapped w s) : ∃ s', TMapped w s' ∧ TSame s s' ∧ walkEntry s 0 va 0x3000 2 = (s', .inl (.leaf (tPte w) 2 0x3000)) := by
    obtain ⟨s', h1, h2, h3⟩ := tEntry h hv 2 192 (tPte w).toNat (by decide) rfl (by decide) h.t2
    exact ⟨s', h1, h2, h3.trans (by cases w <;> rfl)⟩
  rcases tCached h va 1 with ⟨s1, h1, k1, e1⟩ | ⟨s1, h1, k1, ⟨he, _⟩ | ⟨he, _⟩⟩
  · obtain ⟨s2, h2, k2, e2⟩ := go h1
    exact ⟨s2, by simp only [walkFrom, e1, e2], h2, k1.trans k2⟩
  · exact absurd he (by decide)
  · exact absurd he (by decide)
theorem tWalk3 {w : Bool} {s : State} (h : TMapped w s) {va : Nat} (hv : va < 2 ^ 30) :
    ∃ s', walkFrom s 0 0 va 0x2000 3 = (s', .leaf (tPte w) 2 0x3000) ∧ TMapped w s' ∧ TSame s s' := by
  rcases tCached h va 2 with ⟨s1, h1, k1, e1⟩ | ⟨s1, h1, k1, ⟨he, _⟩ | ⟨_, e1⟩⟩
  · obtain ⟨s2, h2, k2, e2⟩ := tEntry h1 hv 3 128 0x3001 (by decide) rfl (by decide) h1.t3
    have e2 : walkEntry s1 0 va 0x2000 3 = (s2, .inr 0x3000) := e2.trans rfl
    obtain ⟨h3, k3⟩ := h2.keep hv 2 0x3000 (.inr ⟨rfl, rfl⟩)
    obtain ⟨s4, e4, h4, k4⟩ := tWalk2 h3 hv
    exact ⟨s4, by rw [walkFrom, e1]; simp only [e2]; exact e4, h4, ((k1.trans k2).trans k3).trans k4⟩
  · exact absurd he (by decide)
  · obtain ⟨s4, e4, h4, k4⟩ := tWalk2 h1 hv
    exact ⟨s4, by rw [walkFrom, e1]; exact e4, h4, k1.trans k4⟩
theorem tWalk {w : Bool} {s : State} (h : TMapped w s) {va : Nat} (hv : va < 2 ^ 30) :
    ∃ s', walk s 0 0 va = (s', .leaf (tPte w) 2 0x3000) ∧ TMapped w s' ∧ TSame s s' := by
  have hw : walk s 0 0 va = walkFrom s 0 0 va 0x1000 4 := by
    have hb : fld (0x1001 : DWord) 12 40 * 4096 = 0x1000 := by decide
    unfold walk
    rw [h.ctx]
    exact (if_neg (by decide)).trans (by rw [hb])
  rw [hw]
  rcases tCached h va 3 with ⟨s1, h1, k1, e1⟩ | ⟨s1, h1, k1, ⟨_, e1⟩ | ⟨he, _⟩⟩
  · obtain ⟨s2, h2, k2, e2⟩ := tEntry h1 hv 4 64 0x2001 (by decide) rfl (by decide) h1.t4
    have e2 : walkEntry s1 0 va 0x1000 4 = (s2, .inr 0x2000) := e2.trans rfl
    obtain ⟨h3, k3⟩ := h2.keep hv 3 0x2000 (.inl ⟨rfl, rfl⟩)
    obtain ⟨s4, e4, h4, k4⟩ := tWalk3 h3 hv
    exact ⟨s4, by rw [walkFrom, e1]; simp only [e2]; exact e4, h4, ((k1.trans k2).trans k3).trans k4⟩
  · obtain ⟨s4, e4, h4, k4⟩ := tWalk3 h1 hv
    exact ⟨s4, by rw [walkFrom, e1]; exact e4, h4, k1.trans k4⟩
  · exact absurd he (by decide)

theorem tPlace {w : Bool} {s : State} (hw : hostUp s 0 = true ∨ w = false) {va : Nat} (hv : va < 2 ^ 30) (a : Xacc) :
    place s 0 va (tEnt w) a = (s, .ok ⟨tKey w va, tPte w⟩) := by
  have hm : va % 2 ^ 57 = va := Nat.mod_eq_of_lt (Nat.lt_of_lt_of_le hv (by decide))
  have hd : va < Config.ddrBytes := Nat.lt_of_lt_of_le hv (by decide)
  have hk : physKey s 0 ((tEnt w).base + (va % 2 ^ 57 - (tEnt w).va)) = some (tKey w va) := by
    rw [show (tEnt w).base + (va % 2 ^ 57 - (tEnt w).va) = tBase w + va by rw [hm]; rfl]
    cases w
    · rw [show tBase false + va = va from Nat.zero_add _]
      unfold physKey
      rw [if_pos hd, Nat.mul_zero, Nat.zero_add]
      rfl
    · have h1 : ¬(tBase true + va < Config.ddrBytes) := by simp only [tBase, if_true, Config.ddrBytes]; omega
      have h2 : 0x10000000000 ≤ tBase true + va ∧ tBase true + va < 0x20000000000 := by simp only [tBase, if_true]; omega
      have h3 : hostUp s 0 = true := hw.resolve_right (by decide)
      unfold physKey
      rw [if_neg h1, if_pos h2, if_pos h3]
      simp only [tBase, tKey, if_true, Nat.add_sub_cancel_left]
  unfold place
  refine (if_neg (by cases w <;> decide)).trans ((if_neg (by cases w <;> decide)).trans ?_)
  rw [hk]
  rfl
theorem tPermits (w : Bool) (s : State) (va : Nat) (a : Xacc) (ha : a = .rd ∨ a = .wr) : permits s 0 0 va (tPte w) a = none := by
  rcases ha with rfl | rfl <;> cases w <;> rfl
theorem tUse {w : Bool} {s : State} (hw : hostUp s 0 = true ∨ w = false) {va : Nat} (hv : va < 2 ^ 30) (a : Xacc) (ha : a = .rd ∨ a = .wr) :
    useTlb s 0 0 va (tEnt w) a = (s, .ok ⟨tKey w va, tPte w⟩) := by
  show (match permits s 0 0 va (tEnt w).pte a with
    | some (cause, sub) => _
    | none => _) = _
  rw [show (tEnt w).pte = tPte w from rfl, tPermits w s va a ha]
  simp only [tPlace hw hv a]

theorem tXlateDie {w : Bool} {s : State} (h : TMapped w s) {va : Nat} (hv : va < 2 ^ 30) (a : Xacc) (ha : a = .rd ∨ a = .wr) :
    ∃ s', xlateDie s 0 0 va a = (s', .ok ⟨tKey w va, tPte w⟩) ∧ TMapped w s' ∧ TSame s s' := by
  have hw {s : State} (h : TMapped w s) : ∃ s', xlateWalk s 0 0 va a = (s', .ok ⟨tKey w va, tPte w⟩) ∧ TMapped w s' ∧ TSame s s' := by
    have hm : va % 2 ^ 57 = va := Nat.mod_eq_of_lt (Nat.lt_of_lt_of_le hv (by decide))
    have hz : va / 2 ^ leafLog 2 = 0 := Nat.div_eq_of_lt hv
    have ht : tlbOf 0 va (tPte w) 2 = tEnt w := by
      cases w <;> (simp only [tlbOf, hm, hz]; rfl)
    obtain ⟨s1, e1, h1, k1⟩ := tWalk h hv
    have hp := tPermits w s1 va a ha
    have hs : setAd s1 0x3000 (tPte w) a = (s1, (tPte w)) := by
      have : setFld (if a.writes then setFld (tPte w) 11 1 1 else (tPte w)) 10 1 1 = tPte w := by rcases ha with rfl | rfl <;> cases w <;> decide
      simp only [setAd, this, if_true]
    have h2 := h1.upd 0 (fun x => { x with tlb := cacheAdd Config.dieTlb x.tlb (tEnt w) }) ⟨rfl, rfl⟩ rfl rfl
      (fun _ => tCacheAdd h1.tlb rfl) (fun _ => h1.walkc)
    refine ⟨_, ?_, h2, k1⟩
    simp only [xlateWalk, e1, hp, hs, ht]
    exact tUse h2.host hv a ha
  unfold xlateDie
  split
  · exact hw h
  · rename_i t hf
    have e := h.tlb t (List.mem_of_find?_eq_some hf)
    subst e
    cases hc : s.choose.2
    · obtain ⟨s', e1, h1, k1⟩ := hw (h.free (s.free + 1))
      exact ⟨s', by simp only [hc]; exact e1, h1, k1⟩
    · exact ⟨_, by simp only [hc, if_true]; exact tUse (h.free (s.free + 1)).host hv a ha, h.free (s.free + 1), rfl, rfl, rfl, rfl, fun _ => rfl⟩

theorem TMapped.keepTlb {w : Bool} {s : State} (h : TMapped w s) (va : Nat) (a : Xacc) :
    TMapped w (keepTlb s 0 0 va a) ∧ TSame s (keepTlb s 0 0 va a) := by
  unfold Machine.keepTlb
  split
  · exact ⟨h, .refl s⟩
  · rename_i t hf
    have e := h.tlb t (List.mem_of_find?_eq_some hf)
    subst e
    refine ⟨⟨h.host, h.dir, h.devs, h.heat, h.still, h.ctx, h.tlb, ?_, h.walkc, h.t4, h.t3, h.t2⟩, rfl, rfl, rfl, rfl, fun g => ?_⟩
    have : (s.updCore 0 fun x => { x with tlb := cacheAdd Config.coreTlb x.tlb (tEnt w) }).core 0 =
        { s.core 0 with tlb := cacheAdd Config.coreTlb (s.core 0).tlb (tEnt w) } := by
      simp [State.core, State.updCore, State.setCore]
    · rw [this]
      exact tCacheAdd h.own rfl
    · simp only [State.updCore, State.setCore_core]
      split
      · rename_i e; rw [← e]
      · rfl

theorem tXlate {w : Bool} {s : State} (h : TMapped w s) {va : Nat} (hv : va < 2 ^ 30) (a : Xacc) (ha : a = .rd ∨ a = .wr) :
    ∃ s', xlate s 0 0 va a = (s', .ok ⟨tKey w va, tPte w⟩) ∧ TMapped w s' ∧ TSame s s' := by
  have miss {s : State} (h : TMapped w s) : ∃ s',
      (match (xlateDie s (dieOf 0) 0 va a).2 with
        | .ok _ => (keepTlb (xlateDie s (dieOf 0) 0 va a).1 0 0 va a, (xlateDie s (dieOf 0) 0 va a).2)
        | _ => xlateDie s (dieOf 0) 0 va a) = (s', .ok ⟨tKey w va, tPte w⟩) ∧ TMapped w s' ∧ TSame s s' := by
    obtain ⟨s1, e1, h1, k1⟩ := tXlateDie h hv a ha
    obtain ⟨h2, k2⟩ := h1.keepTlb va a
    exact ⟨_, by rw [show dieOf 0 = 0 from rfl, e1], h2, k1.trans k2⟩
  unfold xlate
  split
  · exact miss h
  · rename_i t hf
    have e := h.own t (List.mem_of_find?_eq_some hf)
    subst e
    cases hc : s.choose.2
    · obtain ⟨s', e1, h1, k1⟩ := miss (h.free (s.free + 1))
      exact ⟨s', by simp only [hc]; exact e1, h1, k1⟩
    · exact ⟨_, by simp only [hc, if_true]; exact tUse (h.free (s.free + 1)).host hv a ha, h.free (s.free + 1), rfl, rfl, rfl, rfl, fun _ => rfl⟩

/-- An agent of die 0. -/
def tAgent (ag : Agent) : Prop := (∃ l, ag = .sched 0 l) ∨ ∃ l, ag = .engine 0 l
theorem tAgXlate {w : Bool} {s : State} (h : TMapped w s) {ag : Agent} (hg : tAgent ag) {va : Nat} (hv : va < 2 ^ 30) (a : Xacc) (ha : a = .rd ∨ a = .wr) :
    ∃ s', ag.xlate s 0 va a = (s', .ok ⟨tKey w va, tPte w⟩) ∧ TMapped w s' ∧ TSame s s' := by
  rcases hg with ⟨l, rfl⟩ | ⟨l, rfl⟩
  · exact tXlateDie h hv a ha
  · exact tXlate h hv a ha
theorem tFar {w : Bool} {va : Nat} (hv : va < 2 ^ 30) : farPackage (tKey w va) = none := by
  have : ¬(2 ^ 51 ≤ tKey w va ∧ tKey w va < 2 ^ 52) := fun h => by unfold tKey at h; split at h <;> omega
  simp only [farPackage, this, if_false]
theorem tMakeRoom (x : Die) (n : Nat) : (makeRoom x n).stopped = x.stopped ∧ (makeRoom x n).hostReady = x.hostReady ∧
    (makeRoom x n).heatbase = x.heatbase ∧ (makeRoom x n).ctxs = x.ctxs ∧ (makeRoom x n).tlb = x.tlb ∧ (makeRoom x n).walkc = x.walkc := by
  unfold makeRoom
  dsimp only
  split
  · exact ⟨rfl, rfl, rfl, rfl, rfl, rfl⟩
  · split <;> exact ⟨rfl, rfl, rfl, rfl, rfl, rfl⟩
theorem tAllocLine {w : Bool} {s : State} (h : TMapped w s) (k : Nat) (al : Alloc) :
    TMapped w (allocLine s k al) ∧ TSame s (allocLine s k al) := by
  unfold allocLine
  split
  · exact ⟨h, .refl s⟩
  split
  · exact ⟨h, .refl s⟩
  obtain ⟨e1, e2, e3, e4, e5, e6⟩ := tMakeRoom (s.die ‹Nat›) (sliceOf (dieAddr (256 * (k / 4))))
  have hr (b : Bool) : TMapped w (s.updDie ‹Nat› fun x =>
      let x' := if b then x else makeRoom x (sliceOf (dieAddr (256 * (k / 4))))
      { x' with lines := kvPut x'.lines (k / 4) ⟨natAdd (((kvGet x.lines (k / 4)).map (·.secs)).getD []) (k % 4), al == .low⟩ }) := by
    cases b
    · exact h.upd _ _ ⟨e1, e2⟩ e3 e4 (fun e => by show ∀ t, t ∈ (makeRoom _ _).tlb → _; rw [e5, e]; exact h.tlb)
        fun e => by show ∀ t, t ∈ (makeRoom _ _).walkc → _; rw [e6, e]; exact h.walkc
    · exact h.upd _ _ ⟨rfl, rfl⟩ rfl rfl (fun e => by rw [e]; exact h.tlb) fun e => by rw [e]; exact h.walkc
  refine ⟨?_, rfl, rfl, rfl, rfl, fun _ => rfl⟩
  have he : (s.updDie ‹Nat› fun x =>
      { (if (kvGet x.lines (k / 4)).isSome then x else makeRoom x (sliceOf (dieAddr (256 * (k / 4))))) with
        lines := kvPut (if (kvGet x.lines (k / 4)).isSome then x else makeRoom x (sliceOf (dieAddr (256 * (k / 4))))).lines (k / 4)
          ⟨natAdd (((kvGet x.lines (k / 4)).map (·.secs)).getD []) (k % 4), al == .low⟩ }) =
      s.updDie ‹Nat› fun x =>
      let x' := if (kvGet (s.die ‹Nat›).lines (k / 4)).isSome then x else makeRoom x (sliceOf (dieAddr (256 * (k / 4))))
      { x' with lines := kvPut x'.lines (k / 4) ⟨natAdd (((kvGet x.lines (k / 4)).map (·.secs)).getD []) (k % 4), al == .low⟩ } := by
    simp only [State.updDie]
  exact he ▸ hr _
theorem tAgRequest {w : Bool} {s : State} (h : TMapped w s) {ag : Agent} (hg : tAgent ag) {va : Nat} (hv : va < 2 ^ 30) (m : LinkMsg) :
    TMapped w (ag.request s ⟨tKey w va, tPte w⟩ m) ∧ TSame s (ag.request s ⟨tKey w va, tPte w⟩ m) := by
  rcases hg with ⟨l, rfl⟩ | ⟨l, rfl⟩
  · simp only [Agent.request, sideRequest, tFar hv]
    exact ⟨h, .refl s⟩
  · have hc : TMapped w (charge s l 0 64 0) ∧ TSame s (charge s l 0 64 0) := by
      unfold charge
      split
      · exact ⟨h, .refl s⟩
      · exact ⟨h.upd _ _ ⟨rfl, rfl⟩ rfl rfl (fun e => by rw [e]; exact h.tlb) fun e => by rw [e]; exact h.walkc, rfl, rfl, rfl, rfl, fun _ => rfl⟩
    simp only [Agent.request, request, tFar hv]
    exact ⟨(tAllocLine hc.1 _ _).1, hc.2.trans (tAllocLine hc.1 _ _).2⟩
theorem tReach {w : Bool} {s : State} (h : TMapped w s) {va : Nat} (hv : va < 2 ^ 30) : reachable s (tKey w va) = (s, true) := by
  simp only [reachable, h.noWait, roomFor, farPort, tFar hv]
  rfl
theorem tNoVaWait {w : Bool} {s : State} (h : TMapped w s) (d c va : Nat) : vaWaits s d c va = false := by
  simp only [vaWaits, h.still, Bool.false_and]

/-- Bytes of memory, sector by sector. -/
def tBytes (m : List Host.Cell) (a n : Nat) : List Byte :=
  (sectorsOf a n).flatMap fun p => (List.range p.2.2.2).map fun i => cellGet m (64 * p.1 + p.2.1 + i)
theorem tReadHome {w : Bool} {s : State} (h : TMapped w s) (a n : Nat) : readHome s a n = (s, tBytes s.mem a n) := by
  have hr (k : Nat) : readFor s k none = s := by
    simp only [readFor, tNoHeat h.heat, h.noDev, readStateHome]
    rcases h.dirOf k with e | e <;> rw [e]
  have go (ps : List (Nat × Nat × Nat × Nat)) (acc : List Byte) :
      ps.foldl (fun (r : State × List Byte) p =>
        let s := readFor r.1 p.1 none
        (s, r.2 ++ (List.range p.2.2.2).map fun i => s.byteAt (64 * p.1 + p.2.1 + i))) (s, acc) =
      (s, acc ++ ps.flatMap fun p => (List.range p.2.2.2).map fun i => cellGet s.mem (64 * p.1 + p.2.1 + i)) := by
    induction ps generalizing acc with
    | nil => simp
    | cons p ps ih => simp only [List.foldl_cons, hr, h.byte, List.flatMap_cons]; rw [ih, List.append_assoc]
  simp only [readHome, readBy, tBytes]
  exact (go _ []).trans (by simp)

theorem tReadVirt {w : Bool} {s : State} (h : TMapped w s) {ag : Agent} (hg : tAgent ag) (va n : Nat) (hp : ∀ p, p ∈ partsOf va n → p.va < 2 ^ 30) :
    ∃ s' bs, readVirt s ag 0 va n = (s', .ok bs) ∧ bs.map (·.1) = (partsOf va n).flatMap (fun p => tBytes s.mem (tKey w p.va) p.n) ∧
      TMapped w s' ∧ TSame s s' := by
  have hd : ag.die = 0 := by rcases hg with ⟨l, rfl⟩ | ⟨l, rfl⟩ <;> rfl
  unfold readVirt
  generalize partsOf va n = ps at hp
  have go : ∀ (ps : List Part) (s : State) (acc : List (Byte × Bool)), TMapped w s → (∀ p, p ∈ ps → p.va < 2 ^ 30) →
      ∃ s' bs, ps.foldl (fun r p =>
        match r.2 with
        | .error _ => r
        | .ok bs =>
          let x := ag.xlate r.1 0 p.va .rd
          if vaWaits r.1 ag.die 0 p.va then (r.1, .error .wait) else
          match x.2 with
          | .wait => (x.1, .error .wait)
          | .bad cause sub lvl => (x.1, .error (.fault cause sub lvl p.va 0))
          | .ok tr =>
            let m := reachable x.1 tr.key
            if !m.2 then (m.1, .error .wait) else
            let q := readHome (ag.request m.1 tr (.read tr.key p.n)) tr.key p.n
            (q.1, .ok (bs ++ q.2.mapIdx fun i b => (b, poisoned q.1 (tr.key + i) 1))))
        ((s, .ok acc) : State × Except Touch (List (Byte × Bool))) = (s', .ok bs) ∧
        bs.map (·.1) = acc.map (·.1) ++ ps.flatMap (fun p => tBytes s.mem (tKey w p.va) p.n) ∧ TMapped w s' ∧ TSame s s' := by
    intro ps
    induction ps with
    | nil => intro s acc h _; exact ⟨s, acc, rfl, by simp, h, .refl s⟩
    | cons p ps ih =>
      intro s acc h hp
      have hv := hp p (by simp)
      obtain ⟨s1, e1, h1, k1⟩ := tAgXlate h hg hv .rd (.inl rfl)
      obtain ⟨h2, k2⟩ := tAgRequest h1 hg hv (.read (tKey w p.va) p.n)
      simp only [List.foldl_cons, tNoVaWait h, e1, tReach h1 hv, Bool.not_true, Bool.false_eq_true, if_false, tReadHome h2]
      obtain ⟨s', bs, e, hb, h', k'⟩ := ih (ag.request s1 ⟨tKey w p.va, tPte w⟩ (.read (tKey w p.va) p.n))
        (acc ++ (tBytes (ag.request s1 ⟨tKey w p.va, tPte w⟩ (.read (tKey w p.va) p.n)).mem (tKey w p.va) p.n).mapIdx fun i b =>
          (b, poisoned (ag.request s1 ⟨tKey w p.va, tPte w⟩ (.read (tKey w p.va) p.n)) (tKey w p.va + i) 1)) h2 fun q hq => hp q (by simp [hq])
      refine ⟨s', bs, e, ?_, h', (k1.trans k2).trans k'⟩
      have hm : (ag.request s1 ⟨tKey w p.va, tPte w⟩ (.read (tKey w p.va) p.n)).mem = s.mem := k2.1.trans k1.1
      rw [hb, hm, List.flatMap_cons, List.map_append, List.append_assoc]
      congr 2
      exact List.ext_getElem (by simp) fun i _ _ => by simp
  obtain ⟨s', bs, e, hb, h', k'⟩ := go ps s [] h hp
  exact ⟨s', bs, e, by simpa using hb, h', k'⟩

/-- Bytes in a place above the table leave it. -/
theorem TMapped.put {s : State} (h : TMapped false s) (a : Nat) (bs : List Byte) (ha : 0x4000 ≤ a) (p : List Nat) (m : Kv Sec)
    (hm : ∀ k x, kvGet m k = some x → x = .shared [.walker 0]) :
    TMapped false { s with dir := m, mem := cellPuts s.mem a bs, poison := p } := by
  have e (t : Nat) (ht : t + 8 ≤ 0x4000) : cellGets (cellPuts s.mem a bs) t 8 = cellGets s.mem t 8 := by
    simp only [cellGets]
    refine List.map_congr_left fun i hi => cellGet_cellPuts_out bs s.mem a _ (.inl ?_)
    have := List.mem_range.mp hi
    omega
  exact ⟨h.host, hm, h.devs, h.heat, h.still, h.ctx, h.tlb, h.own, h.walkc, (e _ (by decide)).trans h.t4, (e _ (by decide)).trans h.t3,
    (e _ (by decide)).trans h.t2⟩
theorem TMapped.store {s : State} (h : TMapped false s) (k off : Nat) (bs : List Byte) (ha : 0x4000 ≤ 64 * k + off) :
    TMapped false (storeFor s k none off bs) := by
  simp only [storeFor, tNoHeat h.heat]
  rcases h.dirOf k with e | e
  · simp only [toHome, e]
    exact h.put _ bs ha _ s.dir h.dir
  · simp only [toHome, e, List.foldl_cons, List.foldl_nil]
    refine h.put _ bs ha _ (kvDel s.dir k) fun j x hj => ?_
    rw [kvGet_kvDel] at hj
    split at hj
    · cases hj
    · exact h.dir j x hj
theorem TMapped.putHome {s : State} (h : TMapped false s) (a : Nat) (bs : List Byte) (ha : 0x4000 ≤ a) (hb : a < 2 ^ 30) :
    (putHome s a bs).2 = false ∧ TMapped false (putHome s a bs).1 := by
  have hc : isCmp a = false := by simp only [isCmp, Bool.and_eq_false_iff, decide_eq_false_iff_not]; left; omega
  have go : ∀ (ps : List (Nat × Nat × Nat × Nat)) (s : State), TMapped false s → (∀ p, p ∈ ps → 0x4000 ≤ 64 * p.1 + p.2.1) →
      let r := ps.foldl (fun (r : State × Bool) p =>
        if r.2 then r
        else
          let part := (bs.drop p.2.2.1).take p.2.2.2
          if isCmp a then
            match cmpStore r.1 (64 * p.1 + p.2.1) part with
            | some s => (s, false)
            | none => (r.1, true)
          else (storeFor r.1 p.1 none p.2.1 part, false)) (s, false)
      r.2 = false ∧ TMapped false r.1 := by
    intro ps
    induction ps with
    | nil => exact fun s h _ => ⟨rfl, h⟩
    | cons p ps ih =>
      intro s h hp
      simp only [List.foldl_cons, hc]
      have := ih _ (h.store p.1 p.2.1 ((bs.drop p.2.2.1).take p.2.2.2) (hp p (by simp))) fun q hq => hp q (by simp [hq])
      simp only [hc] at this
      exact this
  refine go _ s h fun p hp => ?_
  simp only [sectorsOf, List.mem_map] at hp
  obtain ⟨i, -, rfl⟩ := hp
  simp only
  omega

theorem tKeep {s : State} (h : TMapped false s) (i va : Nat) (bs : List (Byte × Bool)) (h1 : 0x4000 ≤ va) (h2 : va + bs.length < 2 ^ 30) :
    ∃ s', writeVirt s (.sched 0 i) 0 va bs = (s', .ok) ∧ TMapped false s' := by
  have hg : tAgent (.sched 0 i) := .inl ⟨i, rfl⟩
  have go : ∀ (ps : List Part) (s : State), TMapped false s → (∀ p, p ∈ ps → 0x4000 ≤ p.va ∧ p.va < 2 ^ 30) →
      ∃ s', ps.foldl (fun (r : State × Touch) p =>
        match r.2 with
        | .ok =>
          let x := Agent.xlate r.1 (.sched 0 i) 0 p.va .wr
          if vaWaits r.1 (Agent.die (.sched 0 i)) 0 p.va then (r.1, .wait) else
          match x.2 with
          | .wait => (x.1, .wait)
          | .bad cause sub lvl => (x.1, .fault cause sub lvl p.va 1)
          | .ok tr =>
            let m := reachable x.1 tr.key
            if !m.2 then (m.1, .wait) else
            let part := (bs.drop p.off).take p.n
            let w := putMarked (Agent.request m.1 (.sched 0 i) tr (.write tr.key (part.map (·.1)))) tr.key part
            (w.1, if w.2 then .fault 0x15 0 15 p.va 1 else .ok)
        | _ => r) (s, .ok) = (s', .ok) ∧ TMapped false s' := by
    intro ps
    induction ps with
    | nil => exact fun s h _ => ⟨s, rfl, h⟩
    | cons p ps ih =>
      intro s h hp
      obtain ⟨ha, hb⟩ := hp p (by simp)
      obtain ⟨s1, e1, h1, -⟩ := tAgXlate h hg hb .wr (.inr rfl)
      have hw := h1.putHome (tKey false p.va) (((bs.drop p.off).take p.n).map (·.1)) ha hb
      simp only [List.foldl_cons, e1, tNoVaWait h, tReach h1 hb, Bool.not_true, Bool.false_eq_true, if_false, Agent.request, sideRequest, tFar hb, putMarked, hw.1]
      have h' := hw.2
      exact ih _ ⟨h'.host, h'.dir, h'.devs, h'.heat, h'.still, h'.ctx, h'.tlb, h'.own, h'.walkc, h'.t4, h'.t3, h'.t2⟩ fun q hq => hp q (by simp [hq])
  refine go _ s h fun p hp => ?_
  simp only [partsOf, sectorsOf, List.mem_map, List.mem_range] at hp
  obtain ⟨q, ⟨i, hi, rfl⟩, rfl⟩ := hp
  simp only
  omega

/-- The stage with one page of 1 GiB, readable, writable, fetchable and open to LUPs, at virtual and physical address 0, and
with nothing running; some more bytes of memory; its one packet at virtual address 0 is a NOP and an EXIT. -/
def tMap (bytes : List Host.Cell) : State :=
  let s := (placeWord State.reset 0x01000000).updDie 0 fun d => { d with ctxs := [(0, { ptbase := 0x1001, ncwb := [], ncwl := [] })] }
  { s with passes := [], cores := [], mem := [(0x1000, 0x01), (0x1001, 0x20), (0x2000, 0x01), (0x2001, 0x30), (0x3000, 0x8F), (0x3001, 0x0C)] ++ bytes }

/-- Threads 0 and 1 wait in the census of core 0 for block 0. -/
def tPending (bytes : List Host.Cell) (closed : Bool) : State :=
  let s := [0, 1].foldl (fun s k => s.updThread k fun x => { x with status := .pending }) (tMap bytes)
  s.updCore 0 fun c => { c with
    lidx := [(0, 0)]
    census := [⟨0, 0, 0, 0, [0, 1], closed, false, 0, [⟨0, [0, 1], 0, true⟩]⟩] }

/-- R41: the pass takes both threads. -/
theorem test_pass_start : (tExec (.passStart 0 0) (tPending [] false)).map (fun t =>
    ((t.pass 0).map fun p => (p.tids, p.pkt), (t.core 0).passcnt, (t.thread 1).status)) = some (some ([0, 1], 0), 1, .running) := by
  decide +kernel
/-- R33: a thread whose data has come joins its successor's entry. -/
theorem test_data_wait : (tExec (.dataWaitResolve 2) ((tPending [] false).updThread 2 fun x => { x with status := .dataWait })).map
    (fun t => ((t.thread 2).status, (t.core 0).census.map (·.tids))) = some (.pending, [[0, 1, 2]]) := by decide +kernel

theorem test_w_PassesStart : let s := tPending [] false
    s.pass 0 = none ∧ dieGo s 0 = true ∧ anyStopped s = false ∧
    (choosePass s 0 (fun e => 0 == 1 && samePick s 0 e) (ageLimit (s.core 0).csr)).map (fun x => (x.1.launch, x.1.blk, x.1.pkt, x.2)) =
      some (0, 0, 0, [0, 1]) ∧
    ((s.launch 0).any fun l => (l.blk 0).any fun b =>
      match (fetchFrom s 0 (some 0) l 0 (b.start + b.count - 0)).2 with | .ok code => code.length == 1 | .error _ => false) = true := by
  decide +kernel
/-- The same entry at port 1, while a pass of another entry runs at port 0; also of StepRunsEvent. -/
theorem test_w_PassesStart_port1 :
    let t := tPending [] false
    let s := match (tOne []).pass 0 with
      | some p => t.setPass 0 { p with blk := 7 }
      | none => t
    s.pass 1 = none ∧ (s.pass (2 * 0)).isSome = true ∧ dieGo s 0 = true ∧ anyStopped s = false ∧
    (choosePass s 0 (fun e => 1 == 1 && samePick s 0 e) (ageLimit (s.core 0).csr)).map (fun x => (x.1.launch, x.1.blk, x.1.pkt, x.2)) =
      some (0, 0, 0, [0, 1]) ∧
    ((s.launch 0).any fun l => (l.blk 0).any fun b =>
      match (fetchFrom s 0 (some 0) l 0 (b.start + b.count - 0)).2 with | .ok code => code.length == 1 | .error _ => false) = true ∧
    t.agenda = [] ∧ (firstDue (carryOut exec) t (startEvents t)).isSome = true := by
  decide +kernel
/-- A wait that ended behind the kernel's last block. -/
theorem test_w_PassesStart_fall :
    let s := (tPending [] false).updThread 2 fun x => { x with status := .dataWait, fall := some 0x93000000 }
    (launchOf s 2).isSome = true ∧ (s.thread 2).status = .dataWait ∧ dieGo s (dieOf (coreOf 2)) = true ∧
      (s.thread 2).fall = some 0x93000000 ∧ CanTrap s 2 :=
  ⟨by decide +kernel, by decide +kernel, by decide +kernel, by decide +kernel, tCanTrap (by decide +kernel)⟩
/-- With nothing due, and with a trap due. -/
theorem test_w_PassesStart_waits : ∀ d, d = none ∨ d = some (Due.mk 0x10 0 0) →
    let s := (tPending [] false).updThread 2 fun x => { x with status := .dataWait, due := d }
    (s.thread 2).status = .dataWait ∧ dieGo s (dieOf (coreOf 2)) = true ∧ ((s.thread 2).fall = none ∧ (s.thread 2).due = d) ∧ CanTrap s 2 ∧
    ((launchOf s 2).any fun l => dataReady s l 2) = true := by
  rintro d (rfl | rfl) <;>
    exact ⟨by decide +kernel, by decide +kernel, by decide +kernel, tCanTrap (by decide +kernel), by decide +kernel⟩

/-- R39: the overflow list's head has aged, and no entry is closed. -/
def tAged : State :=
  (tPending [] false).updCore 0 fun c => { c with overflow := [5], passcnt := 256 }
theorem test_entry_close : (tExec (.entryClose 0) tAged).map (fun t => (t.core 0).census.map (·.closed)) = some [true] := by
  decide +kernel
/-- R45, R46: a gang's group that has collected for its interval of 1,024 cycles. -/
def tShort (w : DWord) : State :=
  (tPending [] false).updCore 0 fun c => { c with
    gstat := w
    cyc := 1024
    census := [⟨0, 0, 0, 0, [0, 1], false, true, 0, [⟨0, [0, 1], 0, false⟩]⟩] }
theorem test_gang_timeout : (tExec (.gangTimeout 0 0 0) (tShort 0)).map (fun t =>
      ((t.core 0).gstat, (t.core 0).census.map fun e => e.groups.map (·.issuable))) = some (0xFFFFFFFC00000001, [[true]]) ∧
    (tExec (.gangTimeout 0 0 0) (tShort 0xFFFFFFFC00000001)).map (fun t => (t.core 0).gstat) = some 0xFFFFFFFC00000003 := by
  decide +kernel
def tExits (w : Wait) : State := (tPending [] false).updThread 2 fun x => { x with status := .parked w }
theorem test_exit_complete : (tExec (.exitComplete 2) (tExits .exit)).map (fun t => (t.thread 2).status) = some .exited := by
  decide +kernel
theorem test_bar_arrival : (tExec (.barArrival 2) (tExits (.bar 3 false))).map (fun t => (t.thread 2).status) =
    some (.parked (.bar 3 true)) := by decide +kernel
theorem test_w_CapstanEvents :
    ((tAged.core 0).overflow = [5] ∧ ageLimit (tAged.core 0).eff ≤ (tAged.core 0).passcnt - (tAged.thread 5).stamp ∧
      (tAged.core 0).census ≠ [] ∧ (∀ e, e ∈ (tAged.core 0).census → e.closed = false) ∧ dieGo tAged (dieOf 0) = true) ∧
    ((timedOut (tShort 0) 0 0 0).any (fun x => decide (x.1.lidx < 32))) = true ∧
    (let s := tExits .exit
     dieGo s (dieOf (coreOf 2)) = true ∧ (s.thread 2).status = .parked .exit ∧ writesDone s 2 = true ∧ cmdsDone s 2 = true) ∧
    (let s := tExits (.bar 3 false)
     dieGo s (dieOf (coreOf 2)) = true ∧ (s.thread 2).status = .parked (.bar 3 false) ∧ eventsDone s 2 = true) := by decide +kernel
/-- The last thread of the team to arrive, and one before it. -/
theorem test_w_CapstanEvents_barrier :
    (let s := (List.range 32).foldl (fun s k => s.updThread k fun x => { x with status := .parked (.bar 3 true) }) (tMap [])
     ∀ i, i ∈ ((s.team 0).map (·.tids)).getD [] → (s.thread i).status = .parked (.bar 3 true)) ∧
    ((tExits (.bar 3 true)).thread 1).status ≠ .parked (.bar 3 true) ∧ ((tExits (.bar 3 true)).thread 1).live = true := by
  decide +kernel

/-! ## Accesses performed, caches, latent sectors -/

/-- Access 9 of thread 0, at an address that the page maps to itself. -/
def tAccOf (k : AccKind) (va n : Nat) (data : Nat) (dst : List Nat) : Access :=
  { tid := 0, team := 0, launch := 0, core := 0, pass := 1, kind := k, word := 0, va := va, size := n, data := BitVec.ofNat 128 data,
    got := 0, dst := dst, dstP := none, parts := partsOf va n, queued := false, poisoned := false, faulted := false, owed := [] }

def tAcc (k : AccKind) (va n : Nat) (data : Nat) (dst : List Nat) : State :=
  let s := (tMap [(0x10000, 0x11), (0x10003, 0x44)]).updDie 0 fun d => { d with hostReady := true }
  s.setAcc 9 (tAccOf k va n data dst)

/-- A store into the bound window 2 of `tStash` still waits for its fill. -/
theorem test_w_StashWindows_drop :
    let s := (tStash (tDesc 0x4000000000 128 256 3)).setAcc 9 (tAccOf (.stashFill 2 0 true false) 0x4000000000 4 0 [])
    slotTeams s = [(0, s.cur.tids)] ∧ (s.team 0).any (fun t => winBound s t 2 && decide (0 < t.spadK)) = true ∧
    (s.acc 9).map (fun a => (a.team, a.kind)) = some (0, .stashFill 2 0 true false) := by decide +kernel

/-- R360: the load's bytes, lowest first; a signed byte is extended. -/
theorem test_ld_complete : (tExec (.accessComplete 9 0) (tAcc (.ld false .none) 0x10000 4 0 [5])).map (fun t =>
      ((t.thread 0).reg 5, t.accs.length)) = some (0x44000011, 0) ∧
    (tExec (.accessComplete 9 0) ((tAcc (.ld true .none) 0x10003 1 0 [5]).updDie 0 fun d => { d with cyc := 1 })).map (fun t =>
      (t.thread 0).reg 5) = some 0x44 := by decide +kernel
theorem test_st_complete : (tExec (.pointOfCoherenceReached 9 0) (tAcc (.st .none) 0x10000 2 0xABCD [])).map (fun t =>
    ([0x10000, 0x10001, 0x10002, 0x10003].map t.byteAt, Memory.wf t.mem)) = some ([0xCD, 0xAB, 0, 0x44], true) := by decide +kernel
/-- R320: ADD and R333: CAS that matches. -/
theorem test_atom_complete : (tExec (.accessComplete 9 0) (tAcc (.atom .add .w32 .rlx .die) 0x10000 4 0xF0000000 [5])).map (fun t =>
      ((t.thread 0).reg 5, [0x10000, 0x10003].map t.byteAt)) = some (0x44000011, [0x11, 0x34]) ∧
    (tExec (.accessComplete 9 0) (tAcc (.atom .cas .w32 .rlx .die) 0x10000 4 (7 * 2 ^ 32 + 0x44000011) [4, 5])).map (fun t =>
      ((t.thread 0).group 2 4, [0x10000, 0x10003].map t.byteAt)) = some (2 ^ 32 + 0x44000011, [7, 0]) := by decide +kernel
/-- R379: the counter in host memory. -/
theorem test_pubv_complete : (tExec (.accessComplete 9 0) (tAcc .pubv 0x2000 8 0 [4, 5])).map (fun t =>
    ((t.thread 0).group 2 4, t.byteAt (2 ^ 64 + 0x2000))) = some (1, 1) := by decide +kernel
/-- An address that nothing maps parks the access on a token (R36, R278). -/
theorem test_not_present : (tExec (.accessComplete 9 0) (tAcc (.ld false .none) 0x40000000 4 0 [5])).map (fun t =>
    ((t.die 0).tokens.map fun k => (k.2.fault.cause, k.2.who), t.accs.length)) = some ([(0x10, [.access 9 0])], 1) := by decide +kernel

def tStill (s : State) (k : Nat) : Bool :=
  (kvGet s.devs k).isNone && (match kvGet s.dir k with | some (.latent _ _) => false | _ => true)

/-- `Performs`, as a test. -/
def tPerf (s s1 : State) (id part : Nat) (a : Access) (p : Part) (x : Trans) (l : Launch) : Bool :=
  decide (s.acc id = some a) && decide (s1.acc id = some a) && decide (a.parts[part]? = some p) && !a.poisoned &&
  mayPerform s a && partReady s id part &&
  (decide (s.launch a.launch = some l) && decide (xlate s a.core l.actx p.va a.kind.xacc = (s1, .ok x)) &&
    !inNcWindow (s1.die (dieOf a.core)) l.actx p.va) &&
  (s1.dies.all fun e => fld e.2.heatbase 0 1 == 0) && tStill s1 (x.key / 64) &&
  (kvGet (s1.core a.core).nc (x.key / 64)).isNone && (kvGet (s1.core a.core).l1Poison (x.key / 64)).isNone &&
  roomFor s1 x.key 4 && !poisoned s1 x.key p.n && decide (x.key % 64 + p.n ≤ 64) && !x.cmp

theorem tPerforms {s s1 : State} {id part : Nat} {a : Access} {p : Part} {x : Trans} {l : Launch}
    (h : tPerf s s1 id part a p x l = true) : Performs s s1 id part a p x := by
  simp only [tPerf, Bool.and_eq_true, Bool.not_eq_true', Option.isNone_iff_eq_none, decide_eq_true_eq] at h
  obtain ⟨⟨⟨⟨⟨⟨⟨⟨⟨⟨⟨⟨⟨⟨h1, h2⟩, h3⟩, h4⟩, h5⟩, h6⟩, ⟨h7, h8⟩, h9⟩, h10⟩, h11⟩, h12⟩, hm⟩, hr⟩, h13⟩, h14⟩, h15⟩ := h
  exact ⟨h1, h2, h3, h4, h5, h6, ⟨l, h7, h8, h9⟩, tHeatOff h10, tSettled h11, h12, hm, hr, h13, h14, h15⟩

/-- The state after the translation, the stage's launch and the leaf. -/
def tXl (s : State) : State := (xlate s 0 0 0x10000 .rd).1
def tLeaf : Trans := ⟨0x10000, 0xC8F⟩

/-- A load, a store and an atomic of one part; and the counter of PUBV. -/
theorem test_w_AccessesPerformed :
    (∀ k, k = AccKind.ld false .none ∨ k = .st .none ∨ k = .atom .add .w32 .rlx .die →
      Performs (tAcc k 0x10000 4 0 []) (tXl (tAcc k 0x10000 4 0 [])) 9 0 (tAccOf k 0x10000 4 0 []) ⟨0x10000, 0, 4, false⟩ tLeaf) ∧
    (let s := tAcc .pubv 0x2000 8 0 [4, 5]
     s.acc 9 = some (tAccOf .pubv 0x2000 8 0 [4, 5]) ∧ mayPerform s (tAccOf .pubv 0x2000 8 0 [4, 5]) = true ∧ accReady s 9 = true ∧
       isParked s 0 (.access 9 0) = false ∧ hostUp s 0 = true ∧ Settled s ((2 ^ 64 + 0x2000) / 64)) := by
  refine ⟨?_, by decide +kernel, by decide +kernel, by decide +kernel, by decide +kernel, by decide +kernel, tSettled (by decide +kernel)⟩
  rintro k (rfl | rfl | rfl) <;> exact tPerforms (l := stageLaunch) (by decide +kernel)

/-- Thread 0's signal to bend 7 of die 1, bound by the stage's team; `w` waits. -/
def tSignal (w : List Nat) : State :=
  let s := (tAcc (.bsig 0 1 7 false) 0 0 0 []).updDie 1 fun d => { d with ready := true }
  let s := w.foldl (fun s k => s.setThread k { Thread.reset with status := .parked (.bend 7 false) }) s
  s.setBend 65543 { Bend.reset with sig := 0x2000000000000000, wait := 0x2000000000000000, valid := true }
/-- R328: the bend of the other die counts the signal. -/
theorem test_remote_bend_signal : (tExec (.remoteBendSignal 9) (tSignal [])).map (fun t => ((t.bend 65543).count, t.accs.length)) =
    some (1, 0) := by decide +kernel
/-- Window 2 of the stage's team stands for 128 bytes from 0x10000, backed from local offset 256. -/
def tFill : State := (tAcc (.stashFill 2 0 false false) 0x10000 4 0 [5]).updCore 0 fun c =>
  { c with spad := cellPuts c.spad 3904 (tDesc 0x10000 128 256 3) }
theorem test_stash_fill : (tExec (.stashFillComplete 9) tFill).map (fun t => ((t.thread 0).reg 5, cellGet (t.core 0).spad 259)) =
    some (0x44000011, 0x44) := by decide +kernel
/-- Sector 1024 of the window has been modified: its bytes go home. -/
def tWb : State :=
  let s := (tAcc (.stashWb 2 256 1024) 0x10000 64 0 []).updTeam 0 fun t => { t with stash := [⟨2, 0, 1024, true, []⟩] }
  let s := s.updCore 0 fun c => { c with spad := cellPuts c.spad 256 [0xAA, 0xBB] }
  { s with dir := [(1024, .modified (.stash 0) 0xBBAA)] }
theorem test_stash_writeback : (tExec (.stashWritebackComplete 9) tWb).map (fun t =>
    ([0x10000, 0x10001, 0x10003].map (cellGet t.mem), kvGet t.dir 1024, t.accs.length)) = some ([0xAA, 0xBB, 0], none, 0) := by decide +kernel
/-- Core 0's L1 holds sector 1024 modified: its eviction leaves the byte as it reads. -/
def tHeld : State := { tMap [] with dir := [(1024, .modified (.l1 0) 0xBBAA)] }
theorem test_l1_eviction : (tExec (.l1Eviction 0 256) tHeld).map (fun t => (cellGet t.mem 0x10001, t.byteAt 0x10001, t.dir)) =
    some (0xBB, 0xBB, []) := by decide +kernel

theorem test_w_CachesAndSignals :
    (∀ w, w = [] ∨ w = [262144] →
      let s := tSignal w
      s.acc 9 = some (tAccOf (.bsig 0 1 7 false) 0 0 0 []) ∧ accReady s 9 = true ∧ dieGo s 0 = true ∧ signalGoes s 0 0 1 = true ∧
        bendWaiters s 65543 = w ∧ (s.bend 65543).count = 0 ∧ (s.thread 262144).fall = none) ∧
    (let s := tFill
     let a := tAccOf (.stashFill 2 0 false false) 0x10000 4 0 [5]
     s.acc 9 = some a ∧ (tXl s).acc 9 = some a ∧ accReady s 9 = true ∧ accParked s 0 9 = false ∧ mayPerform s a = true ∧
       s.launch 0 = some stageLaunch ∧ (xlate s 0 stageLaunch.actx 0x10000 .rd).2 = .ok tLeaf ∧ tLeaf.uncached = false ∧ stashLive (tXl s) a 2 0 = true ∧
       ((tXl s).team 0).any (fun t => (stashAt t 2 0).isNone && stashP (tXl s) t 2 0 == 256 && winSoff (tXl s) t 2 == 256 &&
         decide (0 < t.spadK)) = true ∧
       poisoned (tXl s) 0x10000 64 = false ∧ spadPoisoned (tXl s) 0 256 64 = false ∧ tStill (tXl s) 1024 = true ∧
       ownData (tXl s) 0 1024 = none) ∧
    (let a := tAccOf (.stashWb 2 256 1024) 0x10000 64 0 []
     tWb.acc 9 = some a ∧ accParked tWb 0 9 = false ∧ mayPerform tWb a = true ∧ keyWaits tWb 0 (64 * 1024) = false ∧
       (ownData tWb 0 1024).isSome = true ∧ ownData { tWb with dir := [] } 0 1024 = none ∧
       (tWb.team 0).any (fun t => t.stash.any fun y => y.key == 1024 && y.win == 2 && y.modified) = true ∧ a.parts = [⟨0x10000, 0, 64, false⟩] ∧
       (xlate tWb 0 (a.ctx tWb) 0x10000 .wr).2 = .ok tLeaf ∧
       ((xlate tWb 0 (a.ctx tWb) 0x10000 .wr).1.dies.all fun e => fld e.2.heatbase 0 1 == 0) = true) ∧
    (dieGo tHeld 0 = true ∧ anyStopped tHeld = false) ∧
    (∀ i, i < 4 → kvGet (tHeld.core 0).nc (4 * 256 + i) = none ∧ Settled tHeld (4 * 256 + i)) := by
  refine ⟨?_, by decide +kernel, by decide +kernel, by decide +kernel, fun i hi => ⟨?_, tSettled ?_⟩⟩
  · rintro w (rfl | rfl) <;> decide +kernel
  · revert i; decide +kernel
  · revert i; decide +kernel

/-- Sector 1024, latent under ADD.I32 with copies of ones at some holders. -/
def tLat (cs : List Nat) : State :=
  { tAcc (.lup .addI) 0x10000 4 5 [] with dir := [(1024, .latent .addI (cs.map fun n => ⟨n, secAll 1, [], []⟩))] }
/-- The same while it develops. -/
def tDev (cs collect : List Nat) (flight : List Nat) (g : Nat) (await : List Nat) : State :=
  { tLat cs with devs := [(1024, ⟨.addI, collect, flight.map fun n => ⟨n, secAll 1, [], false⟩, [(g, ⟨await, []⟩)], false, [], []⟩)] }

/-- The same with a copy at the package beyond port 3, whose link is up or down. -/
def tBeyond (up : Bool) : State := (tDev [1043] [1043] [] 2000 [1043]).setPort 3 { Port.reset with ready := up, peer := 9 }

/-- R193, R194: the first LUP leaves an identity copy with 5 in element 0, and one on a copy adds to it. -/
theorem test_lup_complete : ((tExec (.pointOfCoherenceReached 9 0) (tAcc (.lup .addI) 0x10000 4 5 [])).map fun t =>
      (kvGet t.dir 1024, cellGet t.mem 0x10000)) = some (some (.latent .addI [⟨0, 5, [], [(0, 16)]⟩]), 0x11) ∧
    ((tExec (.pointOfCoherenceReached 9 0) (tLat [0])).bind fun t => match kvGet t.dir 1024 with
      | some (.latent _ [c]) => some (secElem c.data 0, secElem c.data 1)
      | _ => none) = some (6, 1) := by decide +kernel
theorem test_collect : ((tExec (.collect 1024 5) (tDev [5] [5] [] 2000 [5])).map fun t =>
      (kvGet t.devs 1024).map fun v => v.flight.map (·.num)) = some (some [5]) ∧
    ((tExec (.collect 1024 1032) (tDev [130] [1032] [] 2000 [1032])).map fun t =>
      (kvGet t.devs 1024).map fun v => (v.toCollect, v.gathers.map (·.1))) = some (some ([1025], [1032, 2000])) := by decide +kernel
/-- R198: the home merges: 0x44000011 + 1. -/
theorem test_composite_report : ((tExec (.compositeReport 1024 5) (tDev [] [] [5] 2000 [5])).map fun t =>
      ([0x10000, 0x10003, 0x10004].map (cellGet t.mem), t.dir, t.devs)) = some ([0x12, 0x44, 1], [], []) ∧
    ((tExec (.compositeReport 1024 130) (tDev [] [] [130] 1025 [130])).map fun t =>
      (kvGet t.devs 1024).map fun v => v.flight.map (·.num)) = some (some [1025]) := by decide +kernel
theorem test_early_merge : ((tExec (.earlyMerge 1024 5) (tLat [5, 6])).map fun t =>
    (cellGet t.mem 0x10000, match kvGet t.dir 1024 with | some (.latent _ cs) => cs.map (·.num) | _ => [])) = some (0x12, [6]) := by
  decide +kernel
/-- R203: a latent sector develops; a coherent one goes home. -/
theorem test_entry_eviction : ((tExec (.directoryEntryEviction 1024) (tLat [5])).map fun t =>
      (kvGet t.devs 1024).map fun v => (v.op, v.toCollect)) = some (some (.addI, [5])) ∧
    ((tExec (.directoryEntryEviction 1024) tHeld).map fun t => (cellGet t.mem 0x10001, t.dir)) = some (0xBB, []) := by decide +kernel

theorem test_w_LatentSectors :
    (let s := tAcc (.lup .addI) 0x10000 4 5 []
     let a := tAccOf (.lup .addI) 0x10000 4 5 []
     s.acc 9 = some a ∧ a.parts = [⟨0x10000, 0, 4, false⟩] ∧ mayPerform s a = true ∧ partReady s 9 0 = true ∧
       (xlate s 0 stageLaunch.actx 0x10000 .lup).2 = .ok tLeaf ∧ (xlate s 0 0 0x10000 .lup).1.acc 9 = some a ∧
       tStill (xlate s 0 0 0x10000 .lup).1 1024 = true ∧ s.launch 0 = some stageLaunch) ∧
    ((xlate (tLat [0]) 0 0 0x10000 .lup).2 = .ok tLeaf ∧ kvGet (xlate (tLat [0]) 0 0 0x10000 .lup).1.devs 1024 = none ∧
      kvGet (xlate (tLat [0]) 0 0 0x10000 .lup).1.dir 1024 = some (.latent .addI [⟨0, secAll 1, [], []⟩])) ∧
    (∀ x : Nat × List Nat, x ∈ [(5, [5]), (6, [5]), (1032, [130])] →
      let s := tDev x.2 [x.1] [] 2000 [x.1]
      ((kvGet s.devs 1024).any fun v => v.toCollect.contains x.1) = true ∧ cacheStill s x.1 = false ∧ portDown s x.1 = false ∧
        (kvGet s.dir 1024).isSome = true) ∧
    (reporters (tLat [5]) 1024 6 [⟨5, secAll 1, [], []⟩] = [] ∧ reporters (tLat [130]) 1024 1032 [⟨130, secAll 1, [], []⟩] ≠ []) ∧
    (∀ x : Nat × Nat × List Nat, x ∈ [(5, 2000, [5]), (5, 2000, [5, 7]), (130, 1025, [130])] →
      let s := tDev [] [] [x.1] x.2.1 x.2.2
      ((kvGet s.devs 1024).any fun v => (v.flight.find? (·.num == x.1)).isSome) = true ∧ toStill s 1024 x.1 = false ∧
        reportsTo s 1024 x.1 = x.2.1 ∧ portDown s x.2.1 = false) ∧
    (let s := tLat [5, 6]
     kvGet s.devs 1024 = none ∧ cacheStill s 5 = false ∧ homeStill s 1024 = false ∧ 5 ∈ chainOf s 1024 5) ∧
    (∀ up, up = true ∨ up = false → let s := tBeyond up
      ((kvGet s.devs 1024).any fun v => v.toCollect.contains 1043) = true ∧ cacheStill s 1043 = false ∧ portDown s 1043 = !up ∧
        mayFlit (s.port 3) = true) ∧
    (anyStopped (tLat [5]) = false ∧ reporters (tLat [5]) 1024 homeGather [⟨5, secAll 1, [], []⟩] ≠ [] ∧
      reporters (tLat []) 1024 homeGather [] = [] ∧ tStill tHeld 1024 = true ∧ (kvGet tHeld.dir 1024).isSome = true) := by
  refine ⟨?_, ?_, ?_, ?_, ?_, ?_, ?_, ?_⟩
  rotate_right 2
  · rintro up (rfl | rfl) <;> decide +kernel
  all_goals decide +kernel

/-! ## Engines and multicast -/

/-- The stage's launch with F8A in slot 1, F8A with E8 scales by blocks of 8 and a scale layout at 0x20000 in slot 2, I4 in slot 3. -/
def tEngLaunch : Launch :=
  { stageLaunch with record := stageLaunch.record + BitVec.ofNat 4096 (4 * 2 ^ 2176 + (0x20000 * 2 ^ 32 + 0x814) * 2 ^ 2304 + 9 * 2 ^ 2432) }

/-- A command at the head of a queue of the stage's team: 0 q9, else q8; some bytes of scratchpad. -/
def tEng (kind : Nat) (blk : Nat) (spad bytes : List Host.Cell) : State :=
  let s := (tMap bytes).setLaunch 0 tEngLaunch
  let c : Cmd := ⟨kind, BitVec.ofNat 512 blk, 0, 0⟩
  let s := s.updTeam 0 fun t => { t with
    q8 := if kind = 0 then [] else [c]
    q9 := if kind = 0 then [c] else []
    tiles := t.tiles.map fun x => { x with elems := [(0, 0x41200000), (1, 0xC0533333)] } }
  s.updCore 0 fun c => { c with spad := spad }

/-- One chunk of 4, one row and one column, of operands in slot 3: planes at 0 and packed elements at 1024, both with 1 at k = 0. -/
def tMx : State := tEng 1 (1 + 3 * 2 ^ 8 + 3 * 2 ^ 11 + 1 * 2 ^ 14 + 0xAB * 2 ^ 48 + 4 * 2 ^ 64 + 1 * 2 ^ 96 + 1 * 2 ^ 104 + 1024 * 2 ^ 192)
  [(48, 1), (1024, 1)] []
/-- 10.0 + 1 × 1 in element 0, status 0 (R241, R247). -/
theorem test_matrix_operation : (tExec (.matrixOperation 0) tMx).map (fun t => (t.team 0).map fun u =>
    (u.mx.map (·.status), u.tiles.head?.map fun x => (kvGet x.elems 0, kvGet x.cursors 0))) =
    some (some (some (some 0), some (some 0x41300000, some 4))) := by decide +kernel
/-- The worked example under R252: a row of 10.0 and −3.3 drained to F8A with an E8 scale. -/
def tDr : State := tEng 2 (2 + 2 * 2 ^ 8 + 1 * 2 ^ 64 + 4 * 2 ^ 72 + 256 * 2 ^ 96 + 512 * 2 ^ 128 + 16 * 2 ^ 224) [] []
theorem test_tile_drain : (tExec (.tileDrain 0) tDr).map (fun t => ((t.core 0).spad, (t.team 0).bind fun u => u.mx.map (·.status))) =
    some ([(256, 0x7A), (257, 0xED), (512, 0x7A)], some (some 0)) := by decide +kernel
/-- Four bytes from the scratchpad to global memory. -/
def tLin : State := tEng 0 (1 + 2 ^ 5 + 0x10000 * 2 ^ 128 + 4 * 2 ^ 192) [(0, 1), (1, 2), (2, 3), (3, 4)] [(0x10001, 9)]
theorem test_copy_linear : (tExec (.copyLinear 0) tLin).map (fun t => [0x10000, 0x10001, 0x10003].map t.byteAt) = some [1, 2, 4] := by
  decide +kernel
/-- Two rows of two bytes, four apart, joined. -/
def tStr : State := tEng 0 (2 + 128 * 2 ^ 128 + 2 * 2 ^ 192 + 2 * 2 ^ 224 + 4 * 2 ^ 256 + 2 * 2 ^ 288) [(0, 1), (1, 2), (4, 5), (5, 6)] []
theorem test_copy_strided : (tExec (.copyStrided 0) tStr).map (fun t => (spadGet t 0 128 4, (t.team 0).map (·.cpprog))) =
    some ([1, 2, 5, 6], some 4) := by decide +kernel
/-- I4 from four packed bytes to the plane records of one row (R234, R235). -/
def tPlane : State := tEng 0 (3 + 3 * 2 ^ 13 + 1024 * 2 ^ 128 + 4 * 2 ^ 192 + 1 * 2 ^ 224) [(0, 1)] []
/-- Rows 0 and 1 hold 0001 and 1000: the leading plane comes first, row r in bit r (R234). -/
theorem test_plane_record : planeRec 9 [(1, false), (8, false)] =
    (2, false) :: List.replicate 47 (0, false) ++ (1, false) :: List.replicate 15 (0, false) := by decide +kernel
/-- The layout at 0x20000: BASE 0x30000, RSTRIDE 1; `len` blocks. -/
def tScale (len : Nat) : State := tEng 0 (4 + 2 * 2 ^ 13 + len * 2 ^ 192) [] [(0x20002, 3), (0x20008, 1), (0x30000, 0x7A)]
theorem test_scale_placement : (tExec (.scalePlacement 0) (tScale 0)).map (fun t => (t.team 0).bind fun u => u.cp.map (·.status)) = some (some (some 0)) := by
  decide +kernel
/-- `TakesNew`, as a test of the stage's team. -/
def tTakes (s : State) (cp : Bool) : Bool :=
  (engNext s 0 cp).any (fun x => x.1 == 0 && decide (s.team 0 = some x.2)) && (s.team 0).any fun t =>
    (t.run cp).isNone && (t.cmds (if cp then 0 else 1)).head?.any fun c => engBendOk s t cp c.blk
theorem tTakesNew {s : State} {cp : Bool} {l : Launch} (h : tTakes s cp = true) (hl : (s.team 0).bind (fun t => s.launch t.launch) = some l) :
    ∃ t c, TakesNew s 0 cp 0 t l c := by
  simp only [tTakes, Bool.and_eq_true, Option.any_eq_true, beq_iff_eq, decide_eq_true_eq, Option.isNone_iff_eq_none] at h
  obtain ⟨⟨x, hx, h0, ht⟩, t, ht', hr, d, hc, hb⟩ := h
  rw [ht] at ht'
  cases ht'
  rw [ht] at hl
  obtain ⟨k, y⟩ := x
  subst h0
  cases hq : y.cmds (if cp then 0 else 1) with
  | nil => rw [hq] at hc; cases hc
  | cons c' rest =>
    rw [hq] at hc
    cases hc
    exact ⟨y, d, hx, ht, hl, hr, ⟨rest, hq⟩, hb⟩

theorem test_w_Engines :
    (∀ s, s = tMx ∨ s = tDr → ∃ t c, TakesNew s 0 false 0 t tEngLaunch c) ∧
    (∀ s, s = tLin ∨ s = tStr ∨ s = tPlane ∨ s = tScale 1 → ∃ t c, TakesNew s 0 true 0 t tEngLaunch c) := by
  refine ⟨?_, ?_⟩
  · rintro s (rfl | rfl) <;> exact tTakesNew (by decide +kernel) (by decide +kernel)
  · rintro s (rfl | rfl | rfl | rfl) <;> exact tTakesNew (by decide +kernel) (by decide +kernel)

def tBlkOf (s : State) (cp : Bool) : SecData := ((s.team 0).bind fun t => (t.cmds (if cp then 0 else 1)).head?.map (·.blk)).getD 0
/-- The state in which a new command has been taken. -/
def tTaken (s : State) (cp : Bool) : State :=
  match s.team 0 with
  | some t => (takeCmd s 0 t cp).1
  | none => s

/-- The state in which the engine goes on with it. -/
def tGoing (s : State) (cp : Bool) : State :=
  match (tTaken s cp).team 0 with
  | some t => (takeCmd (tTaken s cp) 0 t cp).1
  | none => tTaken s cp

/-- The engine goes on with that command. -/
def tGoes (s : State) (cp : Bool) : Bool :=
  let u := tTaken s cp
  (engNext u 0 cp).any (fun x => x.1 == 0 && decide (u.team 0 = some x.2)) && (u.team 0).any fun t =>
    (t.run cp).any fun r => decide (r.cmd.blk = tBlkOf s cp) && r.row == 0
theorem tGoesOn {s : State} {cp : Bool} {l : Launch} (h : tGoes s cp = true)
    (hl : ((tTaken s cp).team 0).bind (fun t => (tTaken s cp).launch t.launch) = some l) :
    ∃ t r, GoesOn (tTaken s cp) 0 cp 0 t l r ∧ r.cmd.blk = tBlkOf s cp := by
  simp only [tGoes, Bool.and_eq_true, Option.any_eq_true, beq_iff_eq, decide_eq_true_eq] at h
  obtain ⟨⟨⟨k, y⟩, hx, rfl, ht⟩, t, ht', r, hr, hb, -⟩ := h
  rw [ht] at ht'
  cases ht'
  rw [ht] at hl
  exact ⟨y, r, ⟨hx, ht, hl, hr⟩, hb⟩

theorem test_w_Engines_on :
    (∀ s, s = tMx ∨ s = tDr → ∃ t r, GoesOn (tTaken s false) 0 false 0 t tEngLaunch r ∧ r.cmd.blk = tBlkOf s false) ∧
    ∀ s, s = tLin ∨ s = tStr ∨ s = tPlane ∨ s = tScale 1 → ∃ t r, GoesOn (tTaken s true) 0 true 0 t tEngLaunch r ∧ r.cmd.blk = tBlkOf s true := by
  refine ⟨?_, ?_⟩
  · rintro s (rfl | rfl) <;> exact tGoesOn (by decide +kernel) (by decide +kernel)
  · rintro s (rfl | rfl | rfl | rfl) <;> exact tGoesOn (by decide +kernel) (by decide +kernel)

def tFine (x : State × Touch) : Bool := decide (x.2 = .ok)
theorem tFine_eq {x : State × Touch} (h : tFine x = true) : x = (x.1, .ok) := Prod.ext rfl (of_decide_eq_true h)
theorem tChunk {o : MxOp} {x : State}
    (h : ((chunkNext o (cursorsOf x 0 o.tile)).any fun n => tFine (runChunk x 0 o (cursorsOf x 0 o.tile) n)) = true) :
    ∃ y, ChunkStep 0 o x y := by
  rw [Option.any_eq_true] at h
  obtain ⟨n, hn, hr⟩ := h
  exact ⟨_, n, _, hn, tFine_eq hr, rfl⟩
theorem tRow {o : DrOp} {r : Nat} {x : State} (h : tFine (runRow x 0 o r) = true) : ∃ y, RowStep 0 o r x y := ⟨_, _, tFine_eq h, rfl⟩
theorem tPiece {piece : State → Nat → Nat → State × Touch} {total : Nat} {x : State}
    (h : (decide (copyDone x 0 < total) && tFine (piece x (copyDone x 0) (min 256 (total - copyDone x 0)))) = true) :
    ∃ y, PieceStep piece 0 total x y := by
  simp only [Bool.and_eq_true, decide_eq_true_eq] at h
  exact ⟨_, _, h.1, tFine_eq h.2, rfl⟩

/-- The state in which a copy's pieces start. -/
def tStart (s : State) : State := (tTaken s true).updTeam 0 fun t => { t with cpprog := 0 }

theorem test_w_Engines_run :
    (mxOk tEngLaunch (tBlkOf tMx false) = true ∧
      ∃ y, ChunkStep 0 (mxOp tEngLaunch (tBlkOf tMx false)) (setCursors (tTaken tMx false) 0 (mxOp tEngLaunch (tBlkOf tMx false)) [] 0) y) ∧
    (∃ y, ChunkStep 0 (mxOp tEngLaunch (tBlkOf tMx false)) (tGoing tMx false) y) ∧
    (drOk tEngLaunch (tBlkOf tDr false) = true ∧
      ∀ s, s = tTaken tDr false ∨ s = tGoing tDr false → ∃ y, RowStep 0 (drOp tEngLaunch (tBlkOf tDr false)) 0 s y) := by
  refine ⟨⟨by decide +kernel, tChunk (by decide +kernel)⟩, tChunk (by decide +kernel), by decide +kernel, ?_⟩
  rintro s (rfl | rfl) <;> exact tRow (by decide +kernel)
/-- Nothing is outstanding or poisoned, and the places are the team's own. -/
def tOwn (s : State) (rs : List (Nat × Nat × Bool)) : Bool :=
  s.accs.isEmpty && (s.team 0).any fun t => decide ((s.core t.core).spadPoison = [] ∧ (t.tile 0).poison = [] ∧
    (t.tile 0).scalePoison = [] ∧ 0 < t.tiles.length) && rs.all fun x =>
      decide (x.1 + x.2.1 ≤ 1024 * t.spadK - 256 ∧ t.spadK ≤ 512) && (List.range x.2.1).all fun i =>
        (protect s t (x.1 + i) 1 true x.2.2).isNone && s.teams.all fun y => !boundByte y.2 (t.spadBase + (x.1 + i))
theorem tOwned {s : State} {rs : List (Nat × Nat × Bool)} (h : tOwn s rs = true) : ∃ t, s.team 0 = some t ∧ s.accs = [] ∧
    (s.core t.core).spadPoison = [] ∧ (t.tile 0).poison = [] ∧ (t.tile 0).scalePoison = [] ∧ 0 < t.tiles.length ∧
    ∀ x, x ∈ rs → s.OwnSpad t x.1 x.2.1 x.2.2 := by
  simp only [tOwn, Bool.and_eq_true, List.isEmpty_iff, Option.any_eq_true, decide_eq_true_eq, List.all_eq_true, List.mem_range] at h
  obtain ⟨ha, t, ht, ⟨hp, he, hs, hl⟩, hr⟩ := h
  refine ⟨t, ht, ha, hp, he, hs, hl, fun x hx => ⟨(hr x hx).1.1, (hr x hx).1.2, fun i hi => ?_⟩⟩
  obtain ⟨h1, h2⟩ := (hr x hx).2 i hi
  exact ⟨by simpa using h1, (maskBound_open _ _ _).mpr fun k y hy => by simpa using h2 _ (List.mem_of_find?_eq_some hy)⟩
/-- A chunk's four records of each operand; a row of a drain and its scale; the rows of a strided copy; a plane stack. -/
theorem test_w_Engines_own :
    (let o := mxOp tEngLaunch (tBlkOf tMx false)
     o.tile = 0 ∧ o.abm = false ∧ o.bbm = false ∧ (o.aaddr, o.baddr) = (0, 1024) ∧ (slotFmt o.fa, slotFmt o.fb) = (9, 9) ∧ (o.m, o.n) = (1, 1) ∧
       tOwn tMx ((List.range 4).flatMap fun k => [(64 * k, 64, false), (1024 + 64 * k, 64, false)]) = true) ∧
    (let o := drOp tEngLaunch (tBlkOf tDr false)
     o.tile = 0 ∧ 0 < o.m ∧ o.n = 4 ∧ (o.odata, o.oscale) = (256, 512) ∧ operandFmt (slotFmt o.fo) = true ∧ slotKind o.fo = 1 ∧
       tOwn tDr [(256, 4, true), (512, 1, true)] = true) ∧
    (let o := cpOp (tBlkOf tStr true)
     (o.len, o.rows, o.src, o.dst, o.sstride, o.dstride) = (2, 2, 0, 128, 4, 2) ∧ o.sg = false ∧ o.dg = false ∧
       tOwn tStr [(0, 1, false), (1, 1, false), (4, 1, false), (5, 1, false), (128, 1, true), (129, 1, true), (130, 1, true), (131, 1, true)] = true) ∧
    (let o := cpOp (tBlkOf tPlane true)
     (o.len, o.rows, o.src, o.dst) = (4, 1, 0, 1024) ∧ o.sg = false ∧ slotFmt (o.fmt tEngLaunch) = 9 ∧ operandFmt 9 = true ∧
       tOwn tPlane [(0, 2, false), (1024, 256, true)] = true) := by decide +kernel
/-- An operation of two chunks: the second is next when the cursors have passed the first. -/
theorem test_w_Engines_cursors : let o := { mxOp tEngLaunch (tBlkOf tMx false) with k := 8 }
    let s := tTaken tMx false
    (s.team 0).any (fun t => decide (o.tile < t.tiles.length)) = true ∧
      chunkNext o (cursorsOf (setCursors s 0 o (cursorsOf s 0 o.tile) (0 + 1)) 0 o.tile) = some 1 := by decide +kernel
theorem test_w_Engines_copies :
    (cpOk tEngLaunch 0 (tBlkOf tLin true) = true ∧ copyDone (tStart tLin) 0 = 0 ∧ (cpOp (tBlkOf tLin true)).len = 4 ∧
      ∃ y, PieceStep (fun s x n => rowPiece (cpOp (tBlkOf tLin true)) s 0 x n) 0 4 (tStart tLin) y) ∧
    (cpOk tEngLaunch 0 (tBlkOf tStr true) = true ∧ (cpOp (tBlkOf tStr true)).rows * (cpOp (tBlkOf tStr true)).len = 4 ∧
      ∃ y, PieceStep (fun s x n => rowPiece (cpOp (tBlkOf tStr true)) s 0 x n) 0 4 (tStart tStr) y) :=
  ⟨⟨by decide +kernel, by decide +kernel, by decide +kernel, tPiece (by decide +kernel)⟩,
   by decide +kernel, by decide +kernel, tPiece (by decide +kernel)⟩
theorem test_w_Engines_planes :
    let o := cpOp (tBlkOf tPlane true)
    let f := o.fmt tEngLaunch
    cpOk tEngLaunch 0 (tBlkOf tPlane true) = true ∧ o.kind = 3 ∧
    ∃ y, PieceStep (fun s x n => planePiece (slotFmt f) o s 0 x n) 0 (o.len * recBytes (slotFmt f) (planeWidth (slotFmt f))) (tStart tPlane) y :=
  ⟨by decide +kernel, by decide +kernel, tPiece (by decide +kernel)⟩

theorem TMapped.teams {w : Bool} {s : State} (h : TMapped w s) (m : Kv Team) : TMapped w { s with teams := m } :=
  ⟨h.host, h.dir, h.devs, h.heat, h.still, h.ctx, h.tlb, h.own, h.walkc, h.t4, h.t3, h.t2⟩
/-- Reads of an engine of the stage's team. -/
theorem tReadMany {t : Team} {l : Launch} (ht : t.core = 0) (hl : l.actx = 0) (rs : List (Nat × Nat)) {s : State} (h : TMapped false s)
    (hs : launchOfTeam s 0 = some (t, l)) (hp : ∀ x, x ∈ rs → x.1 < 2 ^ 64 ∧ ∀ p, p ∈ partsOf x.1 x.2 → p.va < 2 ^ 30) :
    ∃ s' bs, readMany s 0 true rs = (s', .ok bs) := by
  have go : ∀ (rs : List (Nat × Nat)) (s : State) (acc : List (Byte × Bool)), TMapped false s → launchOfTeam s 0 = some (t, l) →
      (∀ x, x ∈ rs → x.1 < 2 ^ 64 ∧ ∀ p, p ∈ partsOf x.1 x.2 → p.va < 2 ^ 30) →
      ∃ s' bs, rs.foldl (fun (r : State × Except Touch (List (Byte × Bool))) x => match r.2 with
        | .error _ => r
        | .ok bs =>
          let y := readSrc r.1 0 true x.1 x.2
          (y.1, match y.2 with
            | .ok cs => .ok (bs ++ cs)
            | .error w => .error w)) (s, .ok acc) = (s', .ok bs) := by
    intro rs
    induction rs with
    | nil => intro s acc _ _ _; exact ⟨s, acc, rfl⟩
    | cons x rs ih =>
      intro s acc h hs hp
      obtain ⟨s1, bs, e, -, h1, k1⟩ := tReadVirt h (.inr ⟨t.launch, rfl⟩) x.1 x.2 (hp x (by simp)).2
      have e : readSrc s 0 true x.1 x.2 = (s1, .ok bs) := by
        simp only [readSrc, readGlobal, hs, ht, hl, e, Nat.mod_eq_of_lt (hp x (by simp)).1, if_true]
      have hs1 : launchOfTeam s1 0 = some (t, l) := by
        rw [← hs]; simp only [launchOfTeam, State.team, State.launch, k1.2.1, k1.2.2]
      obtain ⟨s', bs', e'⟩ := ih s1 (acc ++ bs) h1 hs1 fun y hy => hp y (by simp [hy])
      exact ⟨s', bs', by rw [List.foldl_cons]; simp only [e]; exact e'⟩
  exact go rs s [] h hs hp
theorem tScaleStep {t : Team} {l : Launch} {r : Run} {x : State} (h : TMapped false x) (hs : x.team 0 = some t) (hl : x.launch t.launch = some l)
    (ht : t.core = 0 ∧ l.actx = 0) (hr : t.cp = some r) (hd : r.done = 0 ∧ r.lay = none) (f : BitVec 128) (o : CpOp) (z : ScaleLay)
    (hf : fld f 32 64 = 0x20000 ∧ slotKind f = 1 ∧ o.len = 1)
    (hz : scaleLay (BitVec.ofNat 512 (ofLe ((partsOf 0x20000 64).flatMap fun p => tBytes x.mem (tKey false p.va) p.n))) = z)
    (hp : ∀ j, j < 128 → z.at_ o (j / 128) (j % 128) < 2 ^ 64 ∧ ∀ p, p ∈ partsOf (z.at_ o (j / 128) (j % 128)) 1 → p.va < 2 ^ 30) :
    ∃ x1, readLayout x 0 f = (x1, .ok z) ∧
      ∃ y, PieceStep (fun s x n => scalePiece z (slotKind f) o s 0 x n) 0 (o.len * 128 * scaleSize (slotKind f)) x1 y := by
  have hb : ∀ p, p ∈ partsOf 0x20000 64 → p.va < 2 ^ 30 := by decide
  obtain ⟨s1, bs, e, hm, h1, k1⟩ := tReadVirt h (.inr ⟨t.launch, rfl⟩) 0x20000 64 hb
  have hs1 : s1.team 0 = some t := by rw [← hs]; simp only [State.team, k1.2.1]
  have hl1 : s1.launch t.launch = some l := by rw [← hl]; simp only [State.launch, k1.2.2]
  have hx : readLayout x 0 f = (updRun s1 0 true fun u => { u with lay := some (BitVec.ofNat 512 (ofLe (bs.map (·.1)))) }, .ok z) := by
    simp only [readLayout, hs, hr, hd.2, Option.bind_some, hf.1, readGlobal, launchOfTeam, hl, Option.map_some, ht.1, ht.2, e]
    rw [hm, hz]
  refine ⟨_, hx, ?_⟩
  generalize hx1 : (updRun s1 0 true fun u => { u with lay := some (BitVec.ofNat 512 (ofLe (bs.map (·.1)))) }) = x1
  obtain ⟨t1, ht1, hc1, hn1, hr1⟩ : ∃ t1 : Team, x1.team 0 = some t1 ∧ t1.core = 0 ∧ t1.launch = t.launch ∧ t1.cp.map (·.done) = some 0 := by
    subst hx1
    refine ⟨{ t with cp := some { r with lay := some (BitVec.ofNat 512 (ofLe (bs.map (·.1)))) } }, ?_, ht.1, rfl, ?_⟩
    · simp only [updRun, State.updTeam, State.setTeam, hs1]
      simp only [State.team, kvGet_kvPut, if_true, Team.setRun, Team.run, hr, Option.map_some]
    · simp only [Option.map_some, hd.1]
  have h2 : TMapped false x1 := by
    subst hx1
    simp only [updRun, State.updTeam, State.setTeam, hs1]
    exact h1.teams _
  have hl2 : x1.launch t1.launch = some l := by
    subst hx1; rw [hn1]; simp only [updRun, State.updTeam, State.setTeam, hs1]; exact hl1
  have h0 : copyDone x1 0 = 0 := by simp only [copyDone, ht1, Option.bind_some, hr1, Option.getD_some]
  have hn : o.len * 128 * scaleSize (slotKind f) = 128 := by rw [hf.2.1, hf.2.2]; rfl
  obtain ⟨s3, cs, e3⟩ := tReadMany hc1 ht.2 ((List.range 128).map fun j => (z.at_ o (j / 128) (j % 128), 1)) h2
    (by simp only [launchOfTeam, ht1, hl2, Option.map_some]) (fun y hy => by
      obtain ⟨j, hj, rfl⟩ := List.mem_map.mp hy
      exact hp j (List.mem_range.mp hj))
  have hsc : ∃ v, scalePiece z (slotKind f) o x1 0 0 128 = (v, .ok) := by
    have h1 : scaleSize 1 = 1 := rfl
    simp only [scalePiece, hf.2.1, h1, Nat.div_one, Nat.zero_add, e3]
    exact ⟨_, rfl⟩
  obtain ⟨v, hv⟩ := hsc
  rw [hn]
  exact ⟨_, v, by rw [h0]; decide, by rw [h0]; exact hv, rfl⟩
theorem tScaleMapped (b : Bool) : TMapped false (if b then tStart (tScale 1) else tGoing (tScale 1) true) :=
  tMappedOf (by cases b <;> decide +kernel)
theorem test_w_Engines_scales : let o := cpOp (tBlkOf (tScale 1) true)
    let f := o.fmt tEngLaunch
    cpOk tEngLaunch 0 (tBlkOf (tScale 1) true) = true ∧ o.kind = 4 ∧ fld f 32 64 = 0x20000 ∧
    (ScaleLay.mk 0x30000 1 0 true).fits o (scaleSize (slotKind f)) = true ∧ copyDone (tStart (tScale 1)) 0 = 0 ∧
    ∀ b : Bool, ∃ x1, readLayout (if b then tStart (tScale 1) else tGoing (tScale 1) true) 0 f = (x1, .ok ⟨0x30000, 1, 0, true⟩) ∧
      ∃ y, PieceStep (fun s x n => scalePiece ⟨0x30000, 1, 0, true⟩ (slotKind f) o s 0 x n) 0 (o.len * 128 * scaleSize (slotKind f)) x1 y := by
  have hrun (b : Bool) : ∃ t r, (if b then tStart (tScale 1) else tGoing (tScale 1) true).team 0 = some t ∧
      (if b then tStart (tScale 1) else tGoing (tScale 1) true).launch t.launch = some tEngLaunch ∧ t.core = 0 ∧ t.cp = some r ∧ r.done = 0 ∧
      r.lay = none := by
    have h : ((if b then tStart (tScale 1) else tGoing (tScale 1) true).team 0).any (fun t => t.core == 0 &&
        decide ((if b then tStart (tScale 1) else tGoing (tScale 1) true).launch t.launch = some tEngLaunch) &&
        t.cp.any fun r => r.done == 0 && decide (r.lay = none)) = true := by cases b <;> decide +kernel
    simp only [Option.any_eq_true, Bool.and_eq_true, beq_iff_eq, decide_eq_true_eq] at h
    obtain ⟨t, h1, ⟨h2, h3⟩, r, h4, h5, h6⟩ := h
    exact ⟨t, r, h1, h3, h2, h4, h5, h6⟩
  refine ⟨by decide +kernel, by decide +kernel, by decide +kernel, by decide +kernel, by decide +kernel, fun b => ?_⟩
  obtain ⟨t, r, h1, h2, h3, h4, h5, h6⟩ := hrun b
  refine tScaleStep (tScaleMapped b) h1 h2 ⟨h3, by decide +kernel⟩ h4 ⟨h5, h6⟩ _ _ _ (by decide +kernel) ?_ ?_
  · cases b <;> decide +kernel
  · decide +kernel
/-- One scale of a layout is read, and its place is one of tile 0's. -/
theorem test_w_Engines_scalePiece : ∃ s1 bs t, readMany (tGoing (tScale 1) true) 0 true [(0x30000, 1)] = (s1, .ok bs) ∧ bs.length = 1 ∧
    s1.team 0 = some t ∧ 0 < t.tiles.length ∧ t.cp.isSome = true := by
  obtain ⟨s1, bs, e, m, -, k⟩ := tReadVirt (tScaleMapped false) (.inr ⟨0, rfl⟩) 0x30000 1 (by decide)
  have h : ((tGoing (tScale 1) true).team 0).any (fun t => t.core == 0 && t.launch == 0 && decide (0 < t.tiles.length) && t.cp.isSome &&
      ((tGoing (tScale 1) true).launch 0).any fun l => l.actx == 0) = true := by decide +kernel
  simp only [Option.any_eq_true, Bool.and_eq_true, beq_iff_eq, decide_eq_true_eq] at h
  obtain ⟨t, ht, ⟨⟨⟨hc, hn⟩, htl⟩, hcp⟩, l, hl, ha⟩ := h
  refine ⟨s1, bs, t, ?_, ?_, by rw [← ht]; simp only [State.team, k.2.1]; rfl, htl, hcp⟩
  · simp only [readMany, List.foldl_cons, List.foldl_nil, readSrc, readGlobal, launchOfTeam, ht, hn, hl, Option.map_some, hc, ha]
    simp only [Bool.false_eq_true, if_false] at e
    simp only [show 0x30000 % 2 ^ 64 = 0x30000 from rfl, e, if_true, List.nil_append]
  · have := congrArg List.length m
    rw [List.length_map] at this
    rw [this]
    decide +kernel
/-- A finished command, without and with a bend to signal. -/
def tDone (ben : Nat) : State :=
  let r : Run := ⟨⟨1, BitVec.ofNat 512 (1 + 2 ^ 14 + ben * 2 ^ 15 + 40 * 2 ^ 32 + 0xAB * 2 ^ 48), 0, 0⟩, 0, 0, [], some 0, false, [], 0, none⟩
  (tMx.updTeam 0 fun t => { t with mx := some r }).setBend 40 { Bend.reset with sig := 0x4000000000000000, wait := 0x2000000000000000, valid := true }
/-- The token: the status above the tag. -/
theorem test_engine_complete : (tExec (.engineCommandComplete 0 false) (tDone 0)).map (fun t => (t.team 0).map fun u => (u.q0, u.mx)) =
    some (some ([0xAB], none)) := by decide +kernel
theorem test_w_Engines_complete : ∀ ben, ben = 0 ∨ ben = 1 →
    finishedTeam (tDone ben) 0 false = some 0 ∧ bendWaiters (tDone ben) 40 = [] ∧
    ((tDone ben).team 0).any (fun t => (t.mx.any fun r => r.status == some 0 && cmdBen false r.cmd.blk == (ben == 1) &&
      engBendOk (tDone ben) t false r.cmd.blk)) = true := by
  rintro ben (rfl | rfl) <;> decide +kernel

/-- Cores 0 and 1 of die 0 read the line at 0x10000 together; core 0's command has started, or not. -/
def tMcBlk : Nat := 5 + 2 ^ 4 + 0x10000 * 2 ^ 64 + 256 * 2 ^ 192 + 9 * 2 ^ 240 + 3 * 2 ^ 384
def tMc (started : Bool) : State :=
  let s := tEng 0 tMcBlk [] [(0x10000, 0x11), (0x100FF, 0x22)]
  if started then s.updTeam 0 fun t => { t with q9 := [], cp := some ⟨⟨0, BitVec.ofNat 512 tMcBlk, 0, 0⟩, 0, 0, [], none, false, [], 0, none⟩ } else s
def tMerge : Merge := ⟨0, 9, 256, 3, [0], 0, [0x10]⟩
def tMcMerge (cyc : Nat) (cores : List Nat) : State :=
  (tMc true).updDie 0 fun d => { d with merges := [(77, { tMerge with cores := cores })], cyc := cyc }
def tMcResp (started : Bool) : State :=
  (tMc started).updDie 0 fun d => { d with responses := [(78, ⟨0, 9, 256, 3, 0x11, [], [0, 1]⟩)] }

theorem test_multicast_read : (tExec (.multicastRead 0) (tMc false)).map (fun t => (t.team 0).map fun u => (u.q9.length, u.cp.map (·.done))) =
    some (some (0, some 0)) := by decide +kernel
theorem test_multicast_request : (tExec (.multicastRequest 0 256) (tMc true)).map (fun t => (t.die 0).merges.map (·.2)) =
    some [tMerge] := by decide +kernel
/-- The late core is marked, and both get the response. -/
theorem test_multicast_timeout : (tExec (.multicastMergeTimeout 77) (tMcMerge 512 [0])).map (fun t =>
      ((t.die 0).responses.map fun r => (r.2.toReach, r.2.data.toNat % 256), (t.die 0).missing.map (·.core))) =
      some ([([0, 1], 0x11)], [1]) ∧
    tExec (.multicastMergeTimeout 77) (tMcMerge 511 [0]) = some (tMcMerge 511 [0]) := by decide +kernel
theorem test_w_Multicast :
    (∃ t c, TakesNew (tMc false) 0 true 0 t tEngLaunch c) ∧ fld (tBlkOf (tMc false) true) 0 4 = 5 ∧
    cpOk tEngLaunch 0 (tBlkOf (tMc false) true) = true ∧ 0 < (cpOp (tBlkOf (tMc false) true)).len ∧
    (xlate (tStart (tMc false)) 0 0 0x10000 .rd).2 = .ok tLeaf ∧ homeDie 0x10000 = some 0 ∧
    (let s := tMc true
     (mcRun s 0).any (fun x => x.1 == 0 && engAllowed s x.2.1 && decide (256 * x.2.2.asks < (cpOp x.2.2.cmd.blk).len) &&
        mcVa (cpOp x.2.2.cmd.blk) x.2.2.asks == 0x10000 && (maskCores (cpOp x.2.2.cmd.blk).mask).contains 0 &&
        decide (s.launch x.2.1.launch = some tEngLaunch)) = true ∧
       keyOf s 0 0 0x10000 = some (256 * 256) ∧ (xlate s 0 0 0x10000 .rd).2 = .ok tLeaf ∧ tLeaf.key = 256 * 256 ∧
       ((xlate s 0 0 0x10000 .rd).1.die 0).missing = [] ∧
       ((xlate s 0 0 0x10000 .rd).1.team 0).any (fun t => t.cp.any fun r => decide (r.done < 256)) = true ∧
       ((xlate s 0 0 0x10000 .rd).1.die 0).merges = [] ∧ (1 ∈ maskCores 3 ∧ 1 ≠ 0 % 128)) ∧
    ((((xlate (tMcMerge 0 []) 0 0 0x10000 .rd).1.die 0).merges.find? fun m => m.2.is 0 9 3 && m.2.line == 256).map (·.1) = some 77) ∧
    ((mcDie (tMcMerge 512 [0]) 77).map (·.1) = some 0 ∧ dieGo (tMcMerge 512 [0]) 0 = true ∧ HeatOff (tMcMerge 512 [0]) ∧
      ∀ i, i < 4 → Settled (tMcMerge 512 [0]) (4 * 256 + i)) ∧
    (kvGet ((tMcResp false).die 0).responses 78).any (fun m => m.toReach.contains 0 && mcWants (tMcResp false) 0 0 m == none) = true ∧
    (kvGet ((tMcResp true).die 0).responses 78).any (fun m =>
      mcWants (tMcResp true) 0 0 m == some (0, 0, cpOp (BitVec.ofNat 512 tMcBlk)) &&
      (let w := storePiece (tMcResp true) 0 false [(0, 256)] ((leBytes 256 m.data.toNat).mapIdx fun j b => (b, m.poison.contains (j / 16)))
       tFine w && (w.1.team 0).any fun t => t.cp.any fun r => r.got == [] && r.done == 0)) = true := by
  refine ⟨tTakesNew (by decide +kernel) (by decide +kernel), ?_, ?_, ?_, ?_, ?_, ?_, ?_, ⟨?_, ?_, tHeatOff ?_, fun i hi => tSettled ?_⟩,
    ?_, ?_⟩ <;> (try revert i) <;> decide +kernel
/-- The stage's page stands for host memory, so that the line has no home on the die and is read at once. -/
def tMcHost : State :=
  let s := { tMc false with mem := [(0x1000, 0x01), (0x1001, 0x20), (0x2000, 0x01), (0x2001, 0x30), (0x3000, 0x0F), (0x3001, 0x0C), (0x3005, 0x01)] }
  s.updDie 0 fun d => { d with hostReady := true }
theorem test_w_Multicast_far : (∃ t c, TakesNew tMcHost 0 true 0 t tEngLaunch c) ∧ cpOk tEngLaunch 0 (tBlkOf tMcHost true) = true ∧
    mcVa (cpOp (tBlkOf tMcHost true)) 0 = 0x10000 ∧ homeDie (2 ^ 64 + 0x10000) ≠ some 0 ∧
    ∃ s1, xlate (tStart tMcHost) 0 0 0x10000 .rd = (s1, .ok ⟨2 ^ 64 + 0x10000, tPte true⟩) ∧
      ∃ s2 bs, readGlobal s1 0 0x10000 256 = (s2, .ok bs) := by
  have h : TMapped true (tStart tMcHost) := tMappedOf (by decide +kernel)
  obtain ⟨s1, e1, h1, k1⟩ := tXlate h (va := 0x10000) (by decide) .rd (.inl rfl)
  have hp : ∀ p, p ∈ partsOf 0x10000 256 → p.va < 2 ^ 30 := by decide
  have hr : ((tStart tMcHost).team 0).any (fun t => t.core == 0 &&
      decide ((tStart tMcHost).launch t.launch = some tEngLaunch)) = true := by decide +kernel
  simp only [Option.any_eq_true, Bool.and_eq_true, beq_iff_eq, decide_eq_true_eq] at hr
  obtain ⟨t, ht, hc, hl⟩ := hr
  obtain ⟨s2, bs, e2, -⟩ := tReadVirt h1 (.inr ⟨t.launch, rfl⟩) 0x10000 256 hp
  have hs : launchOfTeam s1 0 = some (t, tEngLaunch) := by
    rw [show launchOfTeam s1 0 = launchOfTeam (tStart tMcHost) 0 by simp only [launchOfTeam, State.team, State.launch, k1.2.1, k1.2.2.1]]
    simp only [launchOfTeam, ht, hl, Option.map_some]
  have ha : tEngLaunch.actx = 0 := by decide +kernel
  refine ⟨tTakesNew (by decide +kernel) (by decide +kernel), by decide +kernel, by decide +kernel, by decide +kernel, s1, e1, s2, bs, ?_⟩
  simp only [readGlobal, hs, hc, ha, e2]
theorem test_multicast_asks : (tExec (.multicastRequest 0 256) (tMc true)).map (fun t => (t.team 0).bind fun u => u.cp.map (·.asks)) =
    some (some 1) := by decide +kernel

/-! ## The die scheduler -/

/-- The stage's die with a tree whose only queue stands at 0x10000, its ring of two entries at 0x11000, a launch below it that was passed over,
and one period gone by. -/
def tTree (e : Nat) (head : Nat) : State :=
  let hdr : BitVec 1024 := BitVec.ofNat 1024 (2 + 1 * 2 ^ 34 + 5 * 2 ^ 192 + 7 * 2 ^ 256 + (2 ^ 32 - 1) * 2 ^ 288 + 0x11000 * 2 ^ 512 + 1 * 2 ^ 576)
  let s := tMap ([(0x1004C, BitVec.ofNat 8 head), (0x10050, BitVec.ofNat 8 (1 - head))] ++
    (leBytes 8 e).mapIdx (fun i b => (0x11000 + 8 * head + i, b)) |>.filter (·.2 != 0))
  let s := s.setLaunch 0 { stageLaunch with up := [0x10000] }
  s.updDie 0 fun d => { d with
    rcbroot := 0x10001, cyc := 87500, nextPeriod := 10000, nodes := [⟨0x10000, [], hdr⟩]
    spends := [(0x10000, ⟨9, 5000, 6⟩)], passedNow := [0], passed := [(0, 3)] }

/-- What was spent beyond a budget is carried, at most one budget of it (R64); what has no budget starts at 0. -/
theorem test_period : (tExec (.periodBoundary 0) (tTree 0 0)).map (fun t =>
    (kvGet (t.die 0).spends 0x10000, kvGet (t.die 0).passed 0, (t.die 0).nextPeriod)) =
    some (some ⟨0, 7 * 256, 0⟩, some 4, 20000) := by decide +kernel
/-- The entry at HEAD, and HEAD wraps (R61). -/
theorem test_doorbell : (tExec (.doorbell 0 0x10000) (tTree 0x20200 1)).map (fun t =>
    (t.launches.map (·.2.addr), t.byteAt 0x1004C)) = some ([0, 0x20200], 0) := by decide +kernel

/-- The ring with its entry 0, misaligned and whole, at both places. -/
theorem test_w_Periods : (let s := tTree 0 0
      rcbOn (s.die 0) = true ∧ (s.die 0).nextPeriod ≤ schedCyc (s.die 0) ∧ dieGo s 0 = true ∧
      kvGet (s.die 0).spends 0x10000 = some ⟨9, 5000, 6⟩ ∧ (headerAt s 0 0x10000).isSome = true ∧
      (s.launch 0).any (·.die == 0) = true ∧ 0 ∈ (s.die 0).passedNow ∧ 0 ∉ (s.die 0).broken) ∧
    (∀ x : Nat × Nat, x ∈ [(0, 0), (0x20201, 1), (0x20200, 1)] → let s := tTree x.1 x.2
      dieGo s 0 = true ∧ rcbOn (s.die 0) = true ∧
      ((s.die 0).nodes.find? fun n => n.addr == fld (0x10000 : DWord) 7 45 * 128 && n.isQueue).any (fun q => !halted (s.die 0) q &&
        (readPhys s 0 q.addr 128).2.any fun hb =>
          let h : BitVec 1024 := BitVec.ofNat 1024 (ofLe hb)
          let head := fld h 608 32 % 2
          fld q.hdr 576 5 == 1 && head == x.2 && fld h 640 32 % 2 == (head + 1) % 2 &&
            (readPhys (readPhys s 0 q.addr 128).1 0 (fld q.hdr 512 64 + 8 * head) 8).2.any fun eb => ofLe eb == x.1) = true) := by
  decide +kernel

/-- The stage's team, older than the swap interval, of a launch with a save area. -/
def tOld : State :=
  (((tMap []).setLaunch 0 { stageLaunch with record := stageLaunch.record + BitVec.ofNat 4096 (2 ^ 704 + 0x40000 * 2 ^ 832) }).updDie 0 fun d =>
    { d with swapint := 1000, nextSwap := 1000, cyc := 8750 }).updCore 0 fun c => { c with cyc := 8750 }
/-- A team waits for a place, so the old one leaves (R84). -/
theorem test_swap : (tExec (.swapTick 0) tOld).map (fun t => ((t.team 0).map (·.leave), (t.die 0).nextSwap)) =
    some (some (some .save), 2000) := by decide +kernel
theorem test_w_Periods_swap : (tOld.die 0).swapint ≠ 0 ∧ (tOld.die 0).nextSwap ≤ schedCyc (tOld.die 0) ∧ dieGo tOld 0 = true ∧
    (tOld.teams.map (·.1)).Nodup ∧ tOld.launches.map (·.1) = [0] ∧
    (tOld.launch 0).any (fun l => l.die == 0 && l.phase == .running && l.savea != 0 && !l.below (tOld.die 0).suspended &&
      decide (tOld.teams.length ≤ l.saved.length + l.again.length + (l.gridt - l.nextTeam))) = true ∧
    (tOld.team 0).any (fun t => t.launch == 0 && t.leave == none && !t.ended && decide (t.since + 1000 ≤ schedCyc (tOld.die 0))) = true := by
  decide +kernel

/-- A die whose request names the queue at 0x10000, above the launch of the stage's team or not, and whose bend 40 requests may signal. -/
def tPreq (above : Bool) (tpass phint pclass : Nat) : State :=
  let s := (tOld.setLaunch 0 { stageLaunch with
    up := if above then [0x10000] else []
    record := stageLaunch.record + BitVec.ofNat 4096 (0x40000 * 2 ^ 832 + phint * 2 ^ 736 + pclass * 2 ^ 640) }).updTeam 0 fun t =>
      { t with tpass := tpass }
  let s := s.updDie 0 fun d => { d with preqnode := 0x10000, nodes := [⟨0x10000, [], 2⟩], suspended := [], halts := [⟨0x10000, [], 5⟩] }
  s.setBend 40 { Bend.reset with sig := 0x8000000000000000, wait := 0x2000000000000000, valid := true }
/-- GO, the bend 40, and a limit. -/
def tReq (lim : Nat) : DWord := BitVec.ofNat 64 (2 ^ 63 + 40 * 2 ^ 32 + lim)

/-- (P − t) ÷ t of 8,750 cycles against a limit of 1,000 scheduler cycles: one pass of two drains, one of three is saved, and with PCLASS and less
than an eighth done it is discarded (R78, R79). -/
theorem test_preempt : ([(1, 2, 0), (1, 3, 0), (1, 9, 1), (0, 0, 0)].map fun x : Nat × Nat × Nat =>
    (tExec (.preemptRequest 0 (tReq 1000)) (tPreq true x.1 x.2.1 x.2.2)).map fun t => (t.team 0).map (·.leave)) =
    [some (some (some .drain)), some (some (some .save)), some (some (some .discard)), some (some (some .save))] := by decide +kernel
theorem test_preempt_empty : (tExec (.preemptRequest 0 (tReq 0)) (tPreq false 1 1 0)).map (fun t =>
    ((t.bend 40).count, (t.die 0).suspended, (t.team 0).map (·.leave))) = some (1, [0x10000], some none) := by decide +kernel
theorem test_resume : (tExec (.resumeRequest 0 (0x8000000000010000)) ((tPreq false 1 1 0).updDie 0 fun d => { d with suspended := [0x10000] })).map
    (fun t => ((t.die 0).suspended, (t.die 0).halts)) = some ([], []) := by decide +kernel

theorem test_w_Preemption :
    (∀ above, above = true ∨ above = false → ∀ x : Nat × Nat × Nat, x ∈ [(1, 2, 0), (1, 3, 0), (1, 9, 1), (1, 8, 1)] →
      let s := tPreq above x.1 x.2.1 x.2.2
      let v := tReq 1000
      dieGo s 0 = true ∧ isNode s 0 (fld (s.die 0).preqnode 7 45 * 128) = true ∧ fld v 63 1 = 1 ∧ (s.die 0).preqs = [] ∧
      s.teams.all (fun t => !t.2.reqs.contains s.seq) = true ∧ teamsBelow s 0 0x10000 = (if above then [0] else []) ∧
      fld v 32 16 = 40 ∧ sigCheck (s.bend 40) 4 0 0 = none ∧ bendWaiters s 40 = [] ∧ (s.bend 40).count.toNat < 2 ^ 64 - 1 ∧
      (s.team 0).any (fun t => dieOf t.core == 0 && t.leave == none && t.mx == none && t.cp == none && t.tpass == x.1 && t.launch == 0) = true ∧
      (s.launch 0).any (fun l => l.die == 0 && l.savea != 0) = true) ∧
    isNode (tPreq false 1 1 0) 0 (fld (0x8000000000010000 : DWord) 7 45 * 128) = true := by
  refine ⟨?_, by decide +kernel⟩
  rintro above (rfl | rfl) <;> decide +kernel

/-- The cells of a number's bytes. -/
def tCells (a n v : Nat) : List Host.Cell := ((leBytes n v).mapIdx fun i b => (a + i, b)).filter (·.2 != 0)
/-- A launch just taken whose record stands at 0x20000, if k is 3, its image's header at 0x30000 and its block table of one block of one
packet behind it. -/
def tTakenLaunch (k : Nat) : State :=
  let s := tMap ((if k = 3 then tCells 0x20000 112 (stageLaunch.record.toNat + 3 + 0x30000 * 2 ^ 512) else []) ++
    tCells 0x30000 80 (0x4F4C4D4B + 2 ^ 32 + 128 * 2 ^ 192 + 1 * 2 ^ 288 + 0x1000 * 2 ^ 320 + 16 * 2 ^ 384 + 0x200 * 2 ^ 448 + 0x100 * 2 ^ 512) ++
    tCells 0x30200 32 (1 * 2 ^ 160 + 2 ^ 176))
  let s := s.updTeam 0 fun t => { t with launch := 7 }
  s.setLaunch 0 (Launch.taken 0 0x20000 [0x10000] 0)

theorem test_accept_malformed : (tExec (.launchAccept 0) (tTakenLaunch 0)).map (fun t => (t.launch 0).map fun l => (l.phase, l.status)) =
    some (some (.completing, 0x10)) := by decide +kernel

/-- The launch and the state that the statement calls l1 and s2. -/
def tRecOf (s : State) : State × Launch :=
  let l := (s.launch 0).getD stageLaunch
  let r := readPlain (askRecord s 0 l) l.die l.addr 512
  let l := { l with phase := .waiting, record := BitVec.ofNat 4096 (ofLe (r.2.getD [])) }
  ((r.1.setLaunch 0 { l with order := r.1.seq }).bump, l)
def tAcc2 : State × Launch := tRecOf (tTakenLaunch 3)
/-- A record of zeros, one of a launch that was stopped, and one that passes every check. -/
theorem test_w_Launches_accept :
    (∀ k, k = 0 ∨ k = 3 → (tTakenLaunch k).launch 0 = some (Launch.taken 0 0x20000 [0x10000] 0) ∧ dieGo (tTakenLaunch k) 0 = true ∧
      (Launch.taken 0 0x20000 [0x10000] 0).status = 0 ∧ (readPlain (askRecord (tTakenLaunch k) 0 (Launch.taken 0 0x20000 [0x10000] 0)) 0 0x20000 512).2.isSome = true) ∧
    (let s := (tTakenLaunch 3).setLaunch 0 { Launch.taken 0 0x20000 [0x10000] 0 with status := 0x20 }
     (s.launch 0).any (fun l => l.phase == .taken && l.status != 0) = true ∧ dieGo s 0 = true ∧ (readPlain (askRecord s 0 { Launch.taken 0 0x20000 [0x10000] 0 with status := 0x20 }) 0 0x20000 512).2.isSome = true) ∧
    recordOk { Launch.taken 0 0x20000 [0x10000] 0 with record := 0 } = false ∧
    recordOk tAcc2.2 = true ∧ tAcc2.2.actx = 0 ∧ tAcc2.2.kimg = 0x30000 ∧
    ∃ s3 hb, readVirt tAcc2.1 (.sched 0 0) 0 0x30000 256 = (s3, .ok hb) ∧
      (let l2 := { tAcc2.2 with header := BitVec.ofNat 2048 (ofLe (hb.map (·.1))) }
       (imageOk l2 && (tAcc2.2.kimg + l2.btoff) % 2 ^ 64 == 0x30200 && l2.nblk == 1) = true) ∧
      ∃ s4 tb, readVirt s3 (.sched 0 0) 0 0x30200 32 = (s4, .ok tb) := by
  refine ⟨fun k hk => by rcases hk with rfl | rfl <;> decide +kernel, by decide +kernel, by decide +kernel, by decide +kernel,
    by decide +kernel, by decide +kernel, ?_⟩
  obtain ⟨s3, hb, e3, m3, h3, -⟩ := tReadVirt (tMappedOf (w := false) (s := tAcc2.1) (by decide +kernel)) (.inl ⟨0, rfl⟩) 0x30000 256 (by decide)
  obtain ⟨s4, tb, e4, -⟩ := tReadVirt h3 (.inl ⟨0, rfl⟩) 0x30200 32 (by decide)
  refine ⟨s3, hb, e3, ?_, s4, tb, e4⟩
  rw [m3]
  decide +kernel

theorem tKeepAll (i : Nat) (l : Launch) (hl : l.die = 0 ∧ l.actx = 0) (base : Nat) : ∀ (ps : List Piece) {s : State}, TMapped false s →
    (∀ p, p ∈ ps → 0x4000 ≤ (base + p.1) % 2 ^ 64 ∧ (base + p.1) % 2 ^ 64 + p.2.length < 2 ^ 30) →
    ∃ s', writePieces s i l base ps = (s', .ok)
  | [], s, _, _ => ⟨s, rfl⟩
  | p :: ps, s, h, hp => by
    obtain ⟨s1, hs, h1⟩ := tKeep h i _ p.2 (hp p (by simp)).1 (hp p (by simp)).2
    obtain ⟨s2, h2⟩ := tKeepAll i l hl base ps h1 fun q hq => hp q (by simp [hq])
    refine ⟨s2, ?_⟩
    rw [← h2, writePieces, List.foldl_cons]
    simp only [hl.1, hl.2, hs]
    simp only [writePieces, hl.1, hl.2]

/-- The stage's team, without a tile and an allotment and one of its threads parked, is to be saved at 0x40000; its page is in the TLB. -/
def tSaving : State :=
  let s := (tOld.setLaunch 0 { stageLaunch with
    record := BitVec.ofNat 4096 (0x3C * 2 ^ 32 + 1 * 2 ^ 592 + 128 * 2 ^ 600 + 1 * 2 ^ 704 + 0x40000 * 2 ^ 832) }).updDie 0 fun d =>
      { d with tlb := [tEnt false] }
  let s := s.updTeam 0 fun t => { t with leave := some .save, spadK := 0, tiles := [] }
  (List.range 32).foldl (fun s i => s.setThread i { Thread.reset with status := if i = 5 then .parked (.bend 40 true) else .pending, team := 0 }) s
def tSavingL : Launch := (tSaving.launch 0).getD stageLaunch
theorem tSavingMapped : TMapped false tSaving := tMappedOf (by decide +kernel)
theorem test_w_Launches_save : (tSaving.launch 0 = some tSavingL ∧ dieGo tSaving 0 = true ∧ isParked tSaving 0 (.save 0) = false ∧
      (tSaving.team 0).any (fun t => t.launch == 0 && t.leave == some .save && !t.ended && t.stash == [] && saveReady tSaving 0 t) = true) ∧
    ((tSaving.team 0).map fun t => savePieces tSaving tSavingL t).isSome = true ∧
    ∀ t, tSaving.team 0 = some t →
      ∃ w, writePieces tSaving t.launch tSavingL (saveBase tSavingL t.num) (savePieces tSaving tSavingL t) = (w, .ok) := by
  refine ⟨by decide +kernel, by decide +kernel, fun t ht => tKeepAll t.launch tSavingL (by decide +kernel) _ _ tSavingMapped ?_⟩
  have h : (tSaving.team 0).all (fun t => (savePieces tSaving tSavingL t).all fun p =>
      decide (0x4000 ≤ (saveBase tSavingL t.num + p.1) % 2 ^ 64 ∧ (saveBase tSavingL t.num + p.1) % 2 ^ 64 + p.2.length < 2 ^ 30)) = true := by
    decide +kernel
  rw [ht] at h
  simpa only [Option.all_some, List.all_eq_true, decide_eq_true_eq] using h

/-- The stage with its team still to be placed. -/
def tPlacing : State :=
  let s := tMap []
  { s with teams := [], threads := [], launches := [(0, { stageLaunch with nextTeam := 0 })] }
theorem test_place : (tExec (.teamPlace 0) tPlacing).map (fun t => ((t.team 0).map (·.num), (t.thread 31).reg 0, (t.thread 31).reg 1,
    (t.thread 31).status, (t.thread 32).team)) = some (some 0, 31, 0, .pending, 0) := by decide +kernel
/-- A launch that has ended its one team, without a completion record. -/
def tGrid (cben : Nat) : State :=
  let s := tPreq false 1 1 0
  { s with teams := [], launches := [(0, { stageLaunch with
      ended := 1, record := stageLaunch.record + BitVec.ofNat 4096 (cben * 2 ^ 688 + 40 * 2 ^ 672) })] }
theorem test_grid : (tExec (.gridComplete 0) (tGrid 1)).map (fun t => (t.launches.length, (t.bend 40).count)) = some (0, 1) := by
  decide +kernel
/-- A team that drains past its deadline of 999, and one that is to be discarded. -/
def tLeaving (l : Leave) : State := tOld.updTeam 0 fun t => { t with leave := some l, deadline := some 999 }
theorem test_deadline : (tExec (.drainDeadline 0) (tLeaving .drain)).map (fun t => (t.team 0).map (·.leave)) = some (some (some .save)) := by
  decide +kernel
theorem test_discard : (tExec (.teamDiscard 0) (tLeaving .discard)).map (fun t =>
    (t.teams.length, (t.launch 0).map (·.again), (t.thread 3).status)) = some (0, some [0], .exited) := by decide +kernel

theorem test_w_Launches :
    (dieGo tPlacing 0 = true ∧ choosePlace tPlacing 0 = some (0, 0, 0, 0) ∧
      (tPlacing.launch 0).any (fun l => nextTeamOf l == some (0, false) && decide (0 + l.teamg ≤ 64)) = true) ∧
    (∀ cben, cben = 0 ∨ cben = 1 → let s := tGrid cben
      (s.launch 0).any (fun l => gridDone s 0 l && l.die == 0 && l.crec == 0 && l.cben == (cben == 1) && l.cbend == 40) = true ∧
      dieGo s 0 = true ∧ isParked s 0 (.complete 0) = false ∧ sigCheck (s.bend 40) 4 0 0 = none ∧ bendWaiters s 40 = [] ∧
      (s.bend 40).count.toNat < 2 ^ 64 - 1) ∧
    (tLeaving .drain).team 0 ≠ none ∧ schedCyc ((tLeaving .drain).die 0) = 1000 ∧ dieGo (tLeaving .drain) 0 = true ∧
    ((tLeaving .discard).team 0).any (fun t => t.leave == some .discard && !t.ended && teamStill (tLeaving .discard) t && t.stash == []) = true ∧
    (tLeaving .discard).accs.length = 0 ∧ ((tLeaving .discard).die 0).preqs = [] := by
  refine ⟨by decide +kernel, ?_, by decide +kernel, by decide +kernel, by decide +kernel, by decide +kernel, by decide +kernel,
    by decide +kernel⟩
  rintro cben (rfl | rfl) <;> decide +kernel

/-! ## Faults, invalidations and exports -/

/-- Thread 0's load parked on token 3, with the stage's matrix command on token 4. -/
def tTok : State :=
  let f : FRec := FRec.plain 0 0x10 2 0x10000
  let s := (tAcc (.ld false .none) 0x10000 4 0 [5]).updTeam 0 fun t =>
    { t with mx := some ⟨⟨1, 0, 0, 0⟩, 0, 0, [], none, false, [], 0, none⟩ }
  let s := { s with accs := s.accs.map fun (a : Nat × Access) => (a.1, { a.2 with faulted := true }) }
  s.updDie 0 fun d => { d with tokens := [(3, ⟨f, [.access 9 0]⟩), (4, ⟨f, [.matrix 0]⟩)] }
theorem test_replay : (tExec (.replayAccess 0 3) tTok).map (fun t => ((t.die 0).tokens.map (·.1), t.accs.map (·.2.parts.map (·.done)))) =
      some ([4], [[false]]) ∧
    (tExec (.replayDeliver 0 3) tTok).map (fun t => ((t.thread 0).due.map fun u => (u.cause, u.sub), t.accs.length)) =
      some (some (0x10, 2), 0) := by decide +kernel

/-- A queue of 16 records at 0x50000, full, with one record held. -/
def tFq (held : List FRec) : State := (tMap []).updDie 0 fun d => { d with
  fqbase := 0x50004, fqtail := 20, fqhead := 4, held := held }
def tRec : FRec := FRec.plain 0 0x10 2 0x10000
theorem test_fqhead : (tExec (.fqheadWrite 0 5) (tFq [tRec])).map (fun t =>
    ((t.die 0).fqtail, (t.die 0).held.length, (bytesAt t (0x50098) 3).map (·.toNat), t.out)) =
    some (21, 0, [0, 0, 1], [.msix 0 0]) := by decide +kernel

/-- Die 1 and port 0 hear the invalidation of die 0. -/
def tInv (reach ack : List Nat) : State :=
  let s := (tMap []).updDie 1 fun d => { d with ready := true, tlb := [tEnt false, ⟨1, 0, 4096, 0, 0xC8F, 0⟩] }
  s.updDie 0 fun d => { d with tlbinvc := 0x8000000000010000, inval := some ⟨1, 0, 0, 1, reach, ack⟩ }
theorem test_inval : (tExec (.invalidationRequest 0 1) (tInv [1] [0])).map (fun t =>
      ((t.die 1).tlb.map (·.ctx), (t.die 0).inval.map fun i => (i.toReach, i.toAck))) = some ([1], some ([], [0, 1])) ∧
    ([[0], [0, 1]].map fun a => (tExec (.invalidationAck 0 0) (tInv [] a)).map fun t => (t.die 0).tlbinvc) =
      [some 0x10000, some 0x8000000000010000] := by decide +kernel

/-- Die 1 exports 8 KiB from 0x2000 and holds nothing; die 0 has a copy of sector 128 of die 1, and a translation into it. -/
def tExport (go : Nat) : State :=
  let k := 2 ^ 38 / 64 + 128
  let s := { tMap [(2 ^ 38 + 9, 0x20), (2 ^ 38 + 17, 0x20)] with dir := [(k, .modified (.l1 0) 0xBB)] }
  let s := s.updDie 0 fun d => { d with tlb := [⟨0, 0, 4096, 0, 0x0110000000000C8F, 0⟩] }
  s.updDie 1 fun d => { d with ready := true, exprevoke := BitVec.ofNat 64 (go * 2 ^ 63) }
theorem test_exprevoke : (tExec (.exprevoke 1 0x8000000000000000) (tExport 0)).map (fun t =>
    ((t.die 0).tlb.length, t.dir.length, cellGet t.mem (2 ^ 38 + 0x2000), (t.die 1).exprevoke)) =
    some (0, 0, 0xBB, 0x8000000000000000) := by decide +kernel

theorem test_w_FaultsAndInvalidations :
    ((dieGo tTok 0 = true ∧ (kvGet (tTok.die 0).tokens 3).map (·.who) = some [.access 9 0] ∧ (tTok.acc 9).isSome = true) ∧
      (kvGet (tTok.die 0).tokens 4).map (·.who) = some [.matrix 0] ∧ (tTok.team 0).any (·.mx.isSome) = true) ∧
    (dieGo (tFq []) 0 = true ∧ ((tFq []).die 0).held = []) ∧
    ((let s := tFq [tRec]
      (s.die 0).held = [tRec] ∧ (s.die 0).unwritten = [] ∧ ((s.die 0).fqtail - 5).toNat ≠ fqSize (s.die 0) ∧
      physKey s 0 (fld (s.die 0).fqbase 12 40 * 4096 + 32 * ((s.die 0).fqtail.toNat % fqSize (s.die 0))) = some 0x50080 ∧ farPort s 0x50080 = none) ∧
      Settled (tFq [tRec]) (0x50080 / 64) ∧ HeatOff (tFq [tRec])) ∧
    (∀ kind : Nat, kind < 3 → let v : DWord := BitVec.ofNat 64 (2 ^ 63 + kind * 2 ^ 16)
      fld v 16 2 = kind ∧ v.getLsbD 63 = true ∧ dieGo (tInv [] []) 0 = true ∧ ((tInv [] []).die 0).tlbinvc.getLsbD 63 = true ∧
      ((tFq []).die 0).tlbinvc.getLsbD 63 = false) ∧
    (∀ r, r = 1 ∨ r = 8 → ((tInv [r] []).die 0).inval.any (fun i => i.toReach.contains r) = true ∧ (tInv [r] []).hubStopped = false ∧
      dieGo (tInv [r] []) 1 = true ∧ (tInv [r] []).dir = []) ∧
    ((tInv [] [0]).die 0).inval.any (fun i => i.toAck.contains 0) = true ∧
    (dieGo (tExport 0) 1 = true ∧ ((tExport 1).die 1).exprevoke.getLsbD 63 = true ∧ ((tExport 0).die 1).exprevoke.getLsbD 63 = false ∧
      (∀ idx, idx = 0 ∨ idx = 1 → (exportRange (tExport 0) 1 idx).2 = if idx = 0 then some (0x2000, 0x2000) else none) ∧
      ((tExport 0).die 1).held = [] ∧ anyStopped (tExport 0) = false ∧ ((tExport 0).dir.map (·.1)).Nodup ∧
      (tExport 0).dir.all (fun e => match e.2 with | .latent _ _ => false | _ => true) = true ∧
      (kvGet (tExport 0).dir (2 ^ 38 / 64 + 128)).isSome = true) := by
  refine ⟨by decide +kernel, by decide +kernel, ⟨by decide +kernel, tSettled (by decide +kernel), tHeatOff (by decide +kernel)⟩,
    by decide +kernel, ?_, by decide +kernel, by decide +kernel, by decide +kernel, by decide +kernel, ?_, by decide +kernel,
    by decide +kernel, by decide +kernel, by decide +kernel⟩
  · rintro r (rfl | rfl) <;> decide +kernel
  · rintro idx (rfl | rfl) <;> decide +kernel

/-- A revocation under way, and one whose range nothing holds any more; no core of another die holds a non-coherent copy. -/
theorem test_w_FaultsAndInvalidations_revoke : ∀ r, r = none ∨ r = some (0x2000, 0x2000) →
    let s := (tExport 1).updDie 1 fun d => { d with revoke := r }
    dieGo s 1 = true ∧ (s.die 1).exprevoke.getLsbD 63 = true ∧ (s.die 1).revoke = r ∧ (s.dir.map (·.1)).Nodup ∧
      ∀ g x, dieOf g ≠ 1 → x ∈ (s.core g).nc → inRange 1 (0x2000, 0x2000) x.1 = false := by
  rintro r (rfl | rfl) <;>
    exact ⟨by decide +kernel, by decide +kernel, by decide +kernel, by decide +kernel, fun g x _ hx => absurd hx (List.not_mem_nil)⟩

/-! ## Software registers, links, hosts and management -/

/-- Two overflow blocks in use of the pool from 0x60000, with bend 40 selected, which system software waits on. -/
def tReg3 (free : Nat) : State :=
  let s := (tMap [(0x60001, 0x01), (0x60002, 0x07)]).updDie 0 fun d => { d with
    ovpHead := 0x60000, ovpfree := BitVec.ofNat 32 free, bendsel := 40, heatbase := 0x70000 }
  s.setBend 40 { Bend.reset with sig := 0x2000000000000000, wait := 0xA000000000000000, valid := true, count := 2 }
theorem test_ovp : (tExec (.ovppop 0) (tReg3 2)).map (fun t => ((t.die 0).ovpHead, (t.die 0).ovpfree, t.out)) =
      some (0x70100, 1, [.regData 0 0x60000]) ∧
    (tExec (.ovppush 0 0x80000) (tReg3 2)).map (fun t => ((t.die 0).ovpHead, (t.die 0).ovpfree, t.byteAt 0x80002)) =
      some (0x80000, 3, 6) := by decide +kernel
theorem test_bend_registers : (tExec (.bendtake 0) (tReg3 0)).map (fun t => ((t.bend 40).count, t.out)) = some (1, [.regData 0 1]) ∧
    (tExec (.bendcntWrite 0 9) (tReg3 0)).map (fun t => (t.bend 40).count) = some 9 := by decide +kernel
/-- R111: GSTAT bit 1 is cleared by a 1, bit 0 clears the record. -/
theorem test_gstat : (tExec (.gstatClear 0 1) (tShort 0xFFFFFFFC00000003)).map (fun t => (t.core 0).gstat) = some 2 := by decide +kernel
/-- R304: FQBASE keeps its writable bits, and its low half alone may be written. -/
theorem test_register_write : (tExec (.registerWrite 0 0x8600 8 0xFFFFFFFFFFFFFFFF) (tReg3 0)).map (fun t => readReg t 0 0x8600) =
    some 0x000FFFFFFFFFF01F := by decide +kernel

theorem test_w_SoftwareRegisters :
    (dieGo (tReg3 0) 0 = true ∧ ((tReg3 0).die 0).ovpfree = 0 ∧ ((tReg3 2).die 0).ovpfree ≠ 0 ∧
      (readPhys (tReg3 2) 0 0x60000 8).2.isSome = true ∧
      physKey (tReg3 2) 0 (fld (0x80000 : DWord) 8 44 * 256) = some 0x80000 ∧ Settled (tReg3 2) (0x80000 / 64) ∧ HeatOff (tReg3 2)) ∧
    (physKey (tReg3 2) 0 (fld ((tReg3 2).die 0).heatbase 12 40 * 4096) = some 0x70000 ∧ (tReg3 2).dir = []) ∧
    (((tReg3 0).bend 40).valid = true ∧ fld ((tReg3 0).bend 40).wait 61 3 = 5 ∧ ((tReg3 0).bend 40).count ≠ 0 ∧
      fld ((tReg3 0).die 0).bendsel 0 16 = 40 ∧ bendWaiters (tReg3 0) 40 = [] ∧ ((tFq []).bend 0).valid = false) ∧
    dieOf 0 = 0 ∧
    kvGetD 0 ({ tFq [] with sigs := [(8, Config.xmssLeaves - 1)] } : State).sigs 8 < Config.xmssLeaves ∧
    Config.xmssLeaves ≤ kvGetD 0 ({ tFq [] with sigs := [(8, Config.xmssLeaves)] } : State).sigs 8 ∧
    (∀ r, r = true ∨ r = false → ({ tFq [] with hubReady := r } : State).hubReady = r ∧ dieGo { tFq [] with hubReady := r } 0 = true ∧
      physKey { tFq [] with hubReady := r } 0 (fld (0x20001 : DWord) 12 40 * 4096) = some 0x20000) ∧
    (∀ i, i < 64 → Settled (tFq []) (0x20000 / 64 + i)) ∧ HeatOff (tFq []) := by
  refine ⟨⟨by decide +kernel, by decide +kernel, by decide +kernel, by decide +kernel, by decide +kernel, tSettled (by decide +kernel),
    tHeatOff (by decide +kernel)⟩, by decide +kernel, by decide +kernel, by decide +kernel, by decide +kernel, by decide +kernel, ?_,
    fun i hi => tSettled ?_, tHeatOff (by decide +kernel)⟩
  · rintro r (rfl | rfl) <;> decide +kernel
  · revert i; decide +kernel

/-- Port 0 is up, with flits 6 and 7 to be acknowledged and flit 5 expected; bend 41 of die 0 takes signals of a team elsewhere. -/
def tPort : State :=
  let s := tReg3 0
  let s := s.setBend 41 { Bend.reset with sig := 0x2000000000000000, wait := 0x2000000000000000, valid := true }
  s.setPort 0 { Port.reset with ready := true, peer := 3, expect := 5, nextSeq := 8, retry := [⟨6, 0, true, .other⟩, ⟨7, 0, true, .other⟩] }
theorem test_link_data : (tExec (.linkDataFlit 0 ⟨5, 0, true, .write (2 ^ 51 + 0x10000) [0xAB]⟩) tPort).map (fun t =>
      (t.byteAt 0x10000, (t.port 0).expect, t.out)) = some (0xAB, 6, [.linkAck 0 5]) ∧
    (tExec (.linkDataFlit 0 ⟨5, 0, false, .other⟩) tPort).map (·.out) = some [.linkNak 0 5] := by decide +kernel
theorem test_link_ack : (tExec (.linkAckFlit 0 6) tPort).map (fun t => (t.port 0).retry.map (·.seq)) = some [7] ∧
    (tExec (.linkNakFlit 0 7) tPort).map (fun t => ((t.port 0).retries, t.out)) = some (1, [.linkFlit 0 ⟨7, 0, true, .other⟩]) := by decide +kernel
/-- A message that waited while the port was stopped goes out with go, numbered and with its home's key. -/
theorem test_link_go : (tExec (.linkGoFlit 0) (tPort.setPort 0 { tPort.port 0 with stopped := true, unsent := [.counted 0 41] })).map (fun t =>
    ((t.port 0).unsent, (t.port 0).nextSeq, t.out)) = some ([], 9, [.linkFlit 0 ⟨8, 3, true, .counted 0 41⟩]) := by decide +kernel
/-- R309-R311, with the fault queue full. -/
def tDown : State :=
  let s := tFq []
  s.setPort 0 { Port.reset with ready := true, peer := 3, downs := 127 }
theorem test_link_down : ([Instr.linkTimeout 0, .linkRetrain 0].map fun i => (tExec i tDown).map fun t =>
    ((t.port 0).ready, (t.port 0).downs, (t.die 0).held.map (·.cause), t.out)) =
    List.replicate 2 (some (false, 127, [0x23], [.msix 0 1, .msix 0 2])) := by decide +kernel

theorem test_w_Links :
    (((tPort.port 0).ready = true ∧ (tPort.port 0).late = [] ∧ (tPort.port 0).wait = [] ∧ (tPort.port 0).unsent = [] ∧
      (tPort.port 0).saidStop = false ∧ homeDie 0x1003F = some 0 ∧
      dieGo tPort 0 = true ∧ (tPort.die 0).held = [] ∧ keyWaits tPort 0 0x1003F = false ∧ (tPort.port 0).stopped = false ∧
      (tPort.port 0).retry.length < Config.linkFlits) ∧ Settled tPort (0x1003F / 64) ∧ HeatOff tPort) ∧
    (tPort.ports.all fun q => q.1 == 0 || q.2.late.isEmpty && q.2.wait.isEmpty) = true ∧ (tPort.port 0).expect = 5 ∧ 2048 ≤ (4 + 4096 - 5) % 4096 ∧
    (sigCheck (tPort.bend 41) 1 0 0 = none ∧ bendWaiters tPort 41 = [] ∧ (tPort.bend 41).count.toNat < 2 ^ 64 - 1) ∧
    (∀ n, n = 6 ∨ n = 7 → (tPort.port 0).retry.any (·.seq == n) = true ∧ (tPort.port 0).retry.dropWhile (·.seq != n) ≠ []) ∧
    (tPort.port 0).fails < 16 ∧
    (portDie tDown 0 = 0 ∧ partsThrough tDown 0 = [] ∧ tDown.accs = [] ∧ tDown.devs = [] ∧ (tDown.dies.all fun e => e.2.inval.isNone) = true ∧
      (tDown.die 0).held.length < Config.heldRecords ∧ ((tDown.die 0).fqtail - (tDown.die 0).fqhead).toNat = fqSize (tDown.die 0)) ∧
    ((tPort.port 31).ready = false ∧ 31 < 32 ∧ 511 < 512 ∧ (tPort.die (2 * (31 / 8))).fenced = false) := by
  refine ⟨⟨by decide +kernel, tSettled (by decide +kernel), tHeatOff (by decide +kernel)⟩, by decide +kernel, by decide +kernel, by decide +kernel, by decide +kernel,
    ?_, by decide +kernel, by decide +kernel, by decide +kernel⟩
  rintro n (rfl | rfl) <;> decide +kernel

/-- Die 0 with its host port. -/
def tHost : State := (tMap [(0x10000, 0x12)]).updDie 0 fun d => { d with hostReady := true }
theorem test_host : (tExec (.hostRead 0 0x10000 2) tHost).map (·.out) = some [.hostData 0 [0x12, 0] false] ∧
    (tExec (.hostWrite 0 0x10000 [0x34]) tHost).map (·.byteAt 0x10000) = some 0x34 := by decide +kernel
/-- R316: the sample's degrees; a clock stops above 105 and not at 105, and starts below 95. -/
theorem test_management : (tExec (.powerSample 2401 [50, 61]) tHost).map (fun t => (t.pwrnow, t.tempmax, t.temps)) =
      some (2401, 61, [50, 61]) ∧
    ([106, 105].map fun c => (tExec (.thermalStop 0) { tHost with temps := [c] }).map (fun t => ((t.die 0).stopped, t.out))) =
      [some (true, [.msix 0 3]), some (false, [])] ∧
    ([94, 95].map fun c => (tExec (.thermalRestart 0) { tHost.updDie 0 fun d => { d with stopped := true } with temps := [c] }).map fun t =>
      (t.die 0).stopped) = [some false, some true] ∧
    (tExec .moduleReset tHost).map (fun t => ((t.die 0).ready, t.byteAt 0x10000)) = some (false, 0x12) := by decide +kernel
theorem test_error : (tExec (.uncorrectableError (.memory 0 2 0x10007)) tHost).map (·.poison) = some [0x1000] := by decide +kernel

theorem test_w_HostsAndManagement :
    (hostUp tHost 0 = true ∧ dieGo tHost 0 = true ∧ anyStopped tHost = false ∧ (tHost.die 0).held = [] ∧ HeatOff tHost ∧
      0x10000 + 2 ≤ Config.ddrBytes ∧ ∀ k, Settled tHost k) ∧
    (let x := State.reset.die 0; x.hostReady = false ∧ x.ready = false ∧ x.fenced = false ∧ x.auth = false ∧ x.stopped = false) ∧
    (let x := ((State.reset.updDie 0 fun d => { d with auth := true }).die 0); x.ready = false ∧ x.fenced = false ∧ x.auth = true) ∧
    (State.reset.hubReady = false ∧ State.reset.hubFenced = false ∧ ∀ e, (State.reset.die e).attWait = false) ∧
    (kvGetD 0 State.reset.sigs 0 < Config.xmssLeaves ∧ kvGetD 0 State.reset.sigs 8 < Config.xmssLeaves ∧
      Config.xmssLeaves ≤ kvGetD 0 ({ tHost with sigs := [(0, Config.xmssLeaves)] } : State).sigs 0) ∧
    (degrees { tHost with temps := [105] } 0 = 105 ∧ degrees { tHost with temps := [106] } 0 = 106 ∧ degrees { tHost with temps := [95] } 0 = 95 ∧
      degrees { tHost with temps := [94] } 0 = 94 ∧ degrees { tHost with temps := List.replicate 9 106 } 8 = 106 ∧ tHost.hubStopped = false) ∧
    ((tHost.updDie 0 fun d => { d with stopped := true }).die 0).stopped = true ∧ dieUp tHost 0 = true ∧ dieOf (coreOf 5) = 0 := by
  refine ⟨⟨by decide +kernel, by decide +kernel, by decide +kernel, by decide +kernel, tHeatOff (by decide +kernel), by decide +kernel,
    fun k => ⟨rfl, fun op cs h => ?_⟩⟩, by decide +kernel, by decide +kernel, ⟨by decide +kernel, by decide +kernel, fun e => ?_⟩,
    by decide +kernel, by decide +kernel, by decide +kernel, by decide +kernel, by decide +kernel⟩
  · exact absurd (show none = some _ from h) (by simp)
  · exact (by decide : Die.reset.attWait = false)

/-! ## Where the clauses on traps, windows, guards and waits are met -/

/-- An address that is no packet of the kernel, and packet 2, which starts no block. -/
theorem test_w_Branches_bad : ∀ a, a = 17 ∨ a = 32 → let s := tJump [(6, a), (126, a)]
    s.cur.tids.Nodup ∧ (∀ k, k ∈ s.cur.tids → CanTrap s k) ∧ ∃ p l, s.pass s.curPass = some p ∧ s.launch p.launch = some l ∧
      kvGet p.waits 0 ≠ some .exit ∧ ((packetAt s ((s.thread 0).group 2 6)).all fun n => (l.blkAt n).isNone) = true ∧
      ((packetAt s ((s.thread 0).group 2 126)).all fun n => (l.blkAt n).isNone) = true := by
  rintro a (rfl | rfl) <;> exact ⟨by decide +kernel, tCanTraps (by decide +kernel), _, _, rfl, rfl, by decide +kernel, by decide +kernel,
    by decide +kernel⟩

/-- TPC beyond the kernel, and at a slot of the packet of NOPs. -/
theorem test_w_TrapReturn_bad : ∀ pc, pc = 0x1000 ∨ pc = 2 →
    let s := tCtl [0] fun _ x => { x with depth := 1, trap := { x.trap with pc := pc } }
    let s := { s with mem := (11, 1) :: (tMap []).mem, dies := (tMap []).dies }
    (s.thread 0).depth ≠ 0 ∧ CanTrap s 0 ∧ ∃ p l, s.pass s.curPass = some p ∧ s.launch p.launch = some l ∧
      ((packetAt s ((s.thread 0).trap.pc.toNat / 16 * 16)).all fun n => !returnOk s l n ((s.thread 0).trap.pc.toNat % 4)) = true := by
  rintro pc (rfl | rfl) <;> exact ⟨by decide +kernel, tCanTrap (by decide +kernel), _, _, rfl, rfl, by decide +kernel⟩

/-- An access that only ends in an address that is not canonical. -/
theorem test_w_AddressTraps_end : let s := tOne [(6, 0xFFFFFFFE), (7, 0x00FFFFFF)]
    CanTrap s 0 ∧ canonical (gAddr s.cur (s.thread 0) 6 0 4) = true ∧ canonicalAll (gAddr s.cur (s.thread 0) 6 0 4) 4 = false :=
  ⟨tCanTrap (by decide +kernel), by decide +kernel, by decide +kernel⟩

/-- A team without a scratchpad; a bound window without a modified sector and with one. -/
theorem test_w_StashWindows_again :
    (let s := (tStash []).updTeam 0 fun t => { t with spadK := 0 }
     slotTeams s = [(0, s.cur.tids)] ∧ (s.team 0).any (fun t => t.spadK == 0) = true ∧ stashWbs s 0 (some 2) = [] ∧ CanTrap s 0) ∧
    ∀ m, m = true ∨ m = false →
      let s := tStash (tDesc 0x10000 128 256 3)
      let s := if m then { s with teams := tWb.teams, dir := tWb.dir } else s
      slotTeams s = [(0, s.cur.tids)] ∧ (s.team 0).any (fun t => winBound s t 2 && decide (0 < t.spadK)) = true ∧
      (tExec (.sunb 2) s).any (fun u => decide (stashWbs u 0 (some 2) = []) == !m && (m || (s.team 0).any fun t => bindable u t 2)) = true := by
  refine ⟨⟨by decide +kernel, by decide +kernel, by decide +kernel, tCanTrap (by decide +kernel)⟩, ?_⟩
  rintro m (rfl | rfl) <;> decide +kernel

/-- Assigned registers that a thread may not write, and may not read. -/
theorem test_w_ControlRegisters_privilege : csrAssigned (0x200 : BitVec 14).toNat = true ∧ csrAssigned (0x1010 : BitVec 14).toNat = true ∧
    (curLaunch (tOne [])).isSome = true := by decide +kernel

/-- The stage's next slot is guarded by p3, which thread 0 alone has; the slot before it in its chain may have written p3. -/
def tGuard (chain : List Old) : State :=
  let s := State.reset.withFetchWord 32 0x10808184
  let s := s.updThread 0 fun x => { x with preds := [(3, true)] }
  match s.pass 0 with
  | some p => s.setPass 0 { p with chain := chain, code := p.code.map fun k => { k with ctl := 0x31DCC000 } }
  | none => s
theorem test_w_SlotThreads : ∀ c, c = [] ∨ c = [⟨1, 131, 1⟩] →
    (nextIssue (tGuard c)).2.any (fun x => decide ((guardOf (decodeCtl (curPacket x.pass).ctl) x.plan.slot).1 = 3) &&
      x.pass.chain == c && decide (staleFor (nextIssue (tGuard c)).1 x.pass x.pass.tids [131] = []) && decide (x.plan = .run 1 (.iadd .i32s 2 3 4)) &&
      decide ((issueStart (nextIssue (tGuard c)).1 x).cur.tids = if c = [] then [0] else [0, 1])) = true := by
  rintro c (rfl | rfl) <;> decide +kernel

/-- A pass whose packet lies in a sector that develops waits for it. -/
def tFetchWaits : State := { tPending [] false with devs := [(0, ⟨.addI, [2000], [], [], false, [], []⟩)] }
theorem test_w_StepRunsEvent_waits :
    (tExec (.passStart 0 0) tFetchWaits).map (·.blocked) = some [0] ∧ kvGet tFetchWaits.dir 0 = none ∧
    (kvGet tFetchWaits.devs 0).any (fun v => !v.waiting.contains (.passStart 0 0)) = true ∧
    (tExec (.hostPortTrained 0) State.reset).map (·.blocked) = some [] := by decide +kernel

/-! ### Lines that a multicast writes -/

/-- A state whose team 0 has 4 KiB at the bottom of core 0's scratchpad, no window bound, no expansion and nothing outstanding. -/
def TPad (t : Team) (s : State) : Prop :=
  (t.core = 0 ∧ t.spadK = 4 ∧ t.spadBase = 0 ∧ t.expand.st = 0) ∧ s.team 0 = some t ∧ s.accs = [] ∧
    ∀ w, w < 8 → (cellGet (s.core 0).spad (3840 + 32 * w)).getLsbD 1 = false
theorem TPad.place {t : Team} {s : State} (h : TPad t s) {a : Nat} (ha : a < 3840) :
    spadResolve s t (a % 2 ^ 32) 1 true true = .ok (.phys 0 a true) := by
  obtain ⟨⟨h1, h2, h3, h4⟩, -, -, h5⟩ := h
  have hb (w : Nat) (hw : w < 8) : winBound s t w = false := by
    have := h5 w hw
    simp only [winBound, descOff, h1, h2, h3, show 0 + (1024 * 4 - 256 + 32 * w) = 3840 + 32 * w by omega, this, Bool.and_false]
  have hp : protect s t a 1 true true = none := by
    have hx (f : Nat → Bool) : ((List.range 8).any fun w => winBound s t w && f w) = false := by
      simp only [List.any_eq_false, List.mem_range]
      exact fun w hw => by simp [hb w hw]
    simp [protect, inBacking, inDescriptor, inTable, h4, hx]
  have e1 : a % 2 ^ 32 / 2 ^ 30 = 0 := by omega
  have e2 : a % 2 ^ 32 / 2 ^ 19 = 0 := by omega
  have e3 : a % 2 ^ 32 % 2 ^ 19 = a := by omega
  have e4 : ¬(1024 * t.spadK < a + 1) := by omega
  have e5 : a % 2 ^ 32 % 1 = 0 := by omega
  simp only [spadResolve, e1, e2, e3, e4, e5, hp, h1, h3, ne_eq, not_true, if_false, Nat.zero_add]
theorem TPad.full {t : Team} {s : State} (h : TPad t s) (p n : Nat) : TPad t (fillRange s 0 p n) := by
  unfold fillRange
  generalize List.range _ = l
  induction l generalizing s with
  | nil => exact h
  | cons i l ih =>
    refine ih ?_
    obtain ⟨h0, h1, h2, h3⟩ := h
    have hw (z : State) (hz : z.accs = []) (c : Bool) (q : Nat) : ldfeWaiters z 0 q c = [] := by
      simp [ldfeWaiters, hz, sortBy]
    have ha (q : Nat) : (setFull s 0 q).accs = [] := h2
    simp only [fillGranule, hw _ (ha _), List.foldl_nil]
    refine ⟨h0, h1, h2, fun w hw => ?_⟩
    have := h3 w hw
    simpa [setFull, State.updCore] using this
theorem TPad.write {t : Team} {s : State} (h : TPad t s) {a : Nat} (bs : List (Byte × Bool)) (ha : a + bs.length ≤ 3840) :
    TPad t (spadWrite s 0 a bs) := by
  obtain ⟨h0, h1, h2, h3⟩ := h
  have hp : TPad t (spadPut s 0 a (bs.map (·.1))) := by
    refine ⟨h0, h1, h2, fun w hw => ?_⟩
    have := h3 w hw
    simp only [spadPut, State.updCore, State.setCore_core, if_true]
    rw [cellGet_cellPuts_out _ _ _ _ (.inr (by simp; omega))]
    exact this
  unfold spadWrite
  dsimp only
  split
  · exact hp
  · obtain ⟨-, g1, g2, g3⟩ := hp
    refine ⟨h0, g1, g2, fun w hw => ?_⟩
    have := g3 w hw
    simpa [State.updCore] using this

theorem TPad.piece {t : Team} {s : State} (h : TPad t s) {a : Nat} (bs : List (Byte × Bool)) (ha : a + bs.length ≤ 3840) (hn : a < 3840) :
    ∃ s', writePiece s 0 a bs = (s', false) ∧ TPad t s' := by
  refine ⟨_, ?_, (h.write bs ha).full a bs.length⟩
  simp only [writePiece, h.2.1, h.place hn]
theorem TPad.touch {t : Team} {s : State} (h : TPad t s) {a n : Nat} (ha : a + n ≤ 3840) (hn : 0 < n) :
    touchPiece s 0 a n true = (s, .ok) := by
  have hp (i : Nat) (hi : i < n) := h.place (a := a + i) (by omega)
  have hw (p : Nat) : wbAt s 0 p n = false := by simp [wbAt, h.2.2.1]
  have ht : (List.range n).any (fun i => (spadResolve s t ((a + i) % 2 ^ 32) 1 true true).toOption.isNone) = false := by
    simp only [List.any_eq_false, List.mem_range]
    intro i hi
    rw [hp i hi]
    simp [Except.toOption]
  have h0 : spadResolve s t ((a + 0) % 2 ^ 32) 1 true true = .ok (.phys 0 (a + 0) true) := hp 0 hn
  simp only [touchPiece, h.2.1, ht, h0, hw, Bool.false_eq_true, if_false]

/-- 256 bytes reach the bottom of the allotment. -/
theorem TPad.store {t : Team} {s : State} (h : TPad t s) (bs : List (Byte × Bool)) (hb : bs.length = 256) :
    ∃ s', writeMany s 0 false [(0, 256)] bs = (s', .ok) ∧ TPad t s' := by
  have hp : spadPieces 0 256 = [(0, 0, 64), (64, 64, 64), (128, 128, 64), (192, 192, 64)] := by decide
  have ht : touchSpad s 0 0 256 true = (s, .ok) := by
    simp only [touchSpad, hp, List.foldl_cons, List.foldl_nil, h.touch (a := 0) (n := 64) (by omega) (by omega),
      h.touch (a := 64) (n := 64) (by omega) (by omega), h.touch (a := 128) (n := 64) (by omega) (by omega),
      h.touch (a := 192) (n := 64) (by omega) (by omega)]
  have hl (n : Nat) : ((bs.drop n).take 64).length ≤ 64 := by rw [List.length_take]; omega
  obtain ⟨s1, e1, h1⟩ := h.piece (a := 0) ((bs.drop 0).take 64) (by have := hl 0; omega) (by omega)
  obtain ⟨s2, e2, h2⟩ := h1.piece (a := 64) ((bs.drop 64).take 64) (by have := hl 64; omega) (by omega)
  obtain ⟨s3, e3, h3⟩ := h2.piece (a := 128) ((bs.drop 128).take 64) (by have := hl 128; omega) (by omega)
  obtain ⟨s4, e4, h4⟩ := h3.piece (a := 192) ((bs.drop 192).take 64) (by have := hl 192; omega) (by omega)
  refine ⟨s4, ?_, h4⟩
  have hk : bs.take 256 = bs := List.take_of_length_le (by omega)
  simp only [writeMany, List.foldl_cons, List.foldl_nil, hk, writeDst, hb, ht, writeSpad, hp, e1, e2, e3, e4, Bool.false_eq_true, if_false]

/-- A line written by a copy leaves how many lines it has asked for. -/
theorem TPad.line {t : Team} {s : State} {r : Run} (h : TPad t s) (hr : t.cp = some r) (o : CpOp) (ho : o.dst = 0)
    (bs : List (Byte × Bool)) (hb : bs.length = 256) :
    ∃ v u q, mcWrite s 0 0 o bs = some v ∧ v.team 0 = some u ∧ u.cp = some q ∧ q.asks = r.asks := by
  obtain ⟨s1, e1, h1⟩ := h.store bs hb
  have hm (z : State) (tz : Team) (rz : Run) (f : Run → Run) (e : z.team 0 = some tz) (er : tz.cp = some rz) :
      (updRun z 0 true f).team 0 = some { tz with cp := some (f rz) } := by
    simp [updRun, Team.setRun, Team.run, e, er]
  have hs : ∃ z tz rz, storePiece s 0 false [(o.dst + 256 * 0, 256)] bs = (z, .ok) ∧ z.team 0 = some tz ∧ tz.cp = some rz ∧ rz.asks = r.asks := by
    simp only [storePiece, ho, Nat.mul_zero, Nat.add_zero, e1]
    split
    · exact ⟨_, _, _, rfl, hm _ _ _ _ h1.2.1 hr, rfl, rfl⟩
    · exact ⟨_, _, _, rfl, h1.2.1, hr, rfl⟩
  obtain ⟨z, tz, rz, e, ez, er, ea⟩ := hs
  have e2 := hm z tz rz (fun r => { r with got := natAdd r.got 0 }) ez er
  simp only [mcWrite, e, e2, Option.bind_some]
  generalize mcAbsorb _ _ _ = n
  have e3 := hm _ _ _ (fun r => { r with got := r.got.filter (n ≤ ·) }) e2 rfl
  have hd (z : State) (tz : Team) (rz : Run) (n : Nat) (e : z.team 0 = some tz) (er : tz.cp = some rz) :
      ∃ tq q, (setDone z 0 n).team 0 = some tq ∧ tq.cp = some q ∧ q.asks = rz.asks :=
    ⟨{ tz with cp := some { rz with done := n }, cpprog := n }, { rz with done := n },
      by simp [setDone, hm z tz rz _ e er], rfl, rfl⟩
  obtain ⟨tq, q, e6, eq, eqa⟩ := hd _ _ _ (256 * n) e3 rfl
  have e7 : ∃ u q, (mcEnd (setDone (updRun (updRun z 0 true fun r => { r with got := natAdd r.got 0 }) 0 true fun r =>
      { r with got := r.got.filter (n ≤ ·) }) 0 (256 * n)) 0 o).team 0 = some u ∧ u.cp = some q ∧ q.asks = r.asks := by
    have eqa : q.asks = r.asks := eqa.trans ea
    simp only [mcEnd, e6, Option.bind_some, eq]
    split
    · exact ⟨_, _, hm _ _ _ _ e6 eq, rfl, eqa⟩
    · exact ⟨_, _, e6, eq, eqa⟩
  obtain ⟨u, q', f1, f2, f3⟩ := e7
  exact ⟨_, u, q', rfl, f1, f2, f3⟩

/-- The stage's team and launch, as the engine reads them after a translation. -/
theorem tReadLine {w : Bool} {z s1 : State} (h1 : TMapped w s1) (k1 : TSame z s1) {t : Team}
    (hz : launchOfTeam z 0 = some (t, tEngLaunch)) (hc : t.core = 0) :
    ∃ s2 bs, readGlobal s1 0 0x10000 256 = (s2, .ok bs) ∧ bs.length = 256 ∧ TSame z s2 := by
  obtain ⟨s2, bs, e2, hb, -, k2⟩ := tReadVirt h1 (.inr ⟨t.launch, rfl⟩) 0x10000 256 (by decide)
  have hs : launchOfTeam s1 0 = some (t, tEngLaunch) := by
    rw [show launchOfTeam s1 0 = launchOfTeam z 0 by simp only [launchOfTeam, State.team, State.launch, k1.2.1, k1.2.2.1], hz]
  have ha : tEngLaunch.actx = 0 := by decide +kernel
  refine ⟨s2, bs, by simp only [readGlobal, hs, hc, ha, e2], ?_, k1.trans k2⟩
  have hl := congrArg List.length hb
  have ht (q : Nat) : (tBytes s1.mem q 64).length = (tBytes [] q 64).length := by simp [tBytes]
  rw [List.length_map] at hl
  rw [hl]
  have hp : partsOf 0x10000 256 = [⟨0x10000, 0, 64, false⟩, ⟨0x10040, 64, 64, false⟩, ⟨0x10080, 128, 64, false⟩, ⟨0x100C0, 192, 64, false⟩] := by
    decide +kernel
  simp only [hp, List.flatMap_cons, List.flatMap_nil, List.length_append, ht, List.length_nil]
  cases w <;> decide +kernel

/-- Core 0's request comes after its merge was answered without it. -/
def tLate : State := (tMc true).updDie 0 fun d => { d with missing := [⟨0, 9, 256, 3, 0⟩] }

theorem TPad.of {t : Team} {s s' : State} (h : TPad t s) (k : TSame s s') : TPad t s' :=
  ⟨h.1, by show kvGet s'.teams 0 = _; rw [k.2.1]; exact h.2.1, k.2.2.2.1.trans h.2.2.1,
   fun w hw => by rw [k.2.2.2.2]; exact h.2.2.2 w hw⟩
theorem TPad.ask {t : Team} {s : State} {r : Run} (h : TPad t s) (hr : t.cp = some r) :
    TPad { t with cp := some { r with asks := r.asks + 1 } } (mcAsk s 0) := by
  refine ⟨h.1, ?_, ?_, fun w hw => ?_⟩
  · simp [mcAsk, updRun, Team.setRun, Team.run, h.2.1, hr]
  · simp [mcAsk, updRun, h.2.2.1]
  · simpa [mcAsk, updRun] using h.2.2.2 w hw
theorem tPadOf {t : Team} {s : State} (ht : s.team 0 = some t)
    (h : (decide (t.core = 0 ∧ t.spadK = 4 ∧ t.spadBase = 0 ∧ t.expand.st = 0) && s.accs.isEmpty &&
      (List.range 8).all fun w => !(cellGet (s.core 0).spad (3840 + 32 * w)).getLsbD 1) = true) : TPad t s := by
  simp only [Bool.and_eq_true, decide_eq_true_eq, List.isEmpty_iff, List.all_eq_true, List.mem_range, Bool.not_eq_true'] at h
  exact ⟨h.1.1, ht, h.1.2, h.2⟩

/-- A line that a copy reads with what follows the translation, and writes. -/
theorem tLine {w : Bool} {z : State} {t : Team} {r : Run} (h1 : TMapped w z) (ht : z.team 0 = some t) (hl : z.launch t.launch = some tEngLaunch)
    (hr : t.cp = some r) (hp : (decide (t.core = 0 ∧ t.spadK = 4 ∧ t.spadBase = 0 ∧ t.expand.st = 0) && z.accs.isEmpty &&
      (List.range 8).all fun w => !(cellGet (z.core 0).spad (3840 + 32 * w)).getLsbD 1) = true) (o : CpOp) (ho : o.dst = 0) :
    ∃ s2 bs v u q, readGlobal z 0 0x10000 256 = (s2, .ok bs) ∧ mcWrite (mcAsk s2 0) 0 0 o bs = some v ∧ v.team 0 = some u ∧
      u.cp = some q ∧ q.asks = r.asks + 1 := by
  have hd := tPadOf ht hp
  obtain ⟨s2, bs, e, hb, k⟩ := tReadLine h1 (.refl z) (by simp only [launchOfTeam, ht, hl, Option.map_some]) hd.1.1
  obtain ⟨v, u, q, f⟩ := ((hd.of k).ask hr).line rfl o ho bs hb
  exact ⟨s2, bs, v, u, q, e, f⟩

theorem test_w_Multicast_late : let o := cpOp (BitVec.ofNat 512 tMcBlk)
    (mcRun tLate 0).any (fun x => x.1 == 0 && engAllowed tLate x.2.1 && decide (x.2.2.asks = 0) && x.2.2.cmd.blk == BitVec.ofNat 512 tMcBlk &&
      decide (tLate.launch x.2.1.launch = some tEngLaunch)) = true ∧ 0 < o.len ∧ mcVa o 0 = 0x10000 ∧ 0 ∈ maskCores o.mask ∧
    keyOf tLate 0 0 0x10000 = some (256 * 256) ∧
    ∃ s1, xlate tLate 0 0 0x10000 .rd = (s1, .ok tLeaf) ∧ (s1.die 0).missing.any (fun y => y.is 0 o.gtag 256 o.mask 0) = true ∧
      ∃ s2 bs v u q, readGlobal s1 0 0x10000 256 = (s2, .ok bs) ∧ mcWrite (mcAsk s2 0) 0 0 o bs = some v ∧ v.team 0 = some u ∧
        u.cp = some q ∧ q.asks = 0 + 1 := by
  refine ⟨by decide +kernel, by decide +kernel, by decide +kernel, by decide +kernel, by decide +kernel, (xlate tLate 0 0 0x10000 .rd).1, ?_,
    by decide +kernel, ?_⟩
  · have : (xlate tLate 0 0 0x10000 .rd).2 = .ok tLeaf := by decide +kernel
    rw [← this]
  · have ht : ((xlate tLate 0 0 0x10000 .rd).1.team 0).any (fun t => decide ((xlate tLate 0 0 0x10000 .rd).1.launch t.launch = some tEngLaunch) &&
        (t.cp.any fun r => decide (r.asks = 0)) && (decide (t.core = 0 ∧ t.spadK = 4 ∧ t.spadBase = 0 ∧ t.expand.st = 0) &&
        (xlate tLate 0 0 0x10000 .rd).1.accs.isEmpty &&
        (List.range 8).all fun w => !(cellGet ((xlate tLate 0 0 0x10000 .rd).1.core 0).spad (3840 + 32 * w)).getLsbD 1)) = true := by
      decide +kernel
    rw [Option.any_eq_true] at ht
    obtain ⟨t, ht, h⟩ := ht
    rw [Bool.and_eq_true, Bool.and_eq_true, Option.any_eq_true] at h
    obtain ⟨⟨hl, r, hr, ha⟩, hp⟩ := h
    obtain ⟨s2, bs, v, u, q, f1, f2, f3, f4, f5⟩ := tLine (w := false) (tMappedOf (by decide +kernel)) ht (of_decide_eq_true hl) hr hp
      (cpOp (BitVec.ofNat 512 tMcBlk)) (by decide +kernel)
    exact ⟨s2, bs, v, u, q, f1, f2, f3, f4, by rw [f5, of_decide_eq_true ha]⟩

theorem test_w_Multicast_far_writes : let o := cpOp (tBlkOf tMcHost true)
    ∃ s1 s2 bs u, xlate (tStart tMcHost) 0 0 0x10000 .rd = (s1, .ok ⟨2 ^ 64 + 0x10000, tPte true⟩) ∧
      readGlobal s1 0 0x10000 256 = (s2, .ok bs) ∧ mcWrite (mcAsk s2 0) 0 0 o bs = some u := by
  have h1 : (xlate (tStart tMcHost) 0 0 0x10000 .rd).2 = .ok ⟨2 ^ 64 + 0x10000, tPte true⟩ := by decide +kernel
  have ht : ((xlate (tStart tMcHost) 0 0 0x10000 .rd).1.team 0).any (fun t =>
      decide ((xlate (tStart tMcHost) 0 0 0x10000 .rd).1.launch t.launch = some tEngLaunch) && t.cp.isSome &&
      (decide (t.core = 0 ∧ t.spadK = 4 ∧ t.spadBase = 0 ∧ t.expand.st = 0) && (xlate (tStart tMcHost) 0 0 0x10000 .rd).1.accs.isEmpty &&
      (List.range 8).all fun w => !(cellGet ((xlate (tStart tMcHost) 0 0 0x10000 .rd).1.core 0).spad (3840 + 32 * w)).getLsbD 1)) = true := by
    decide +kernel
  rw [Option.any_eq_true] at ht
  obtain ⟨t, ht, h⟩ := ht
  rw [Bool.and_eq_true, Bool.and_eq_true, Option.isSome_iff_exists] at h
  obtain ⟨⟨hl, r, hr⟩, hp⟩ := h
  obtain ⟨s2, bs, v, -, -, f1, f2, -⟩ := tLine (w := true) (tMappedOf (by decide +kernel)) ht (of_decide_eq_true hl) hr hp
    (cpOp (tBlkOf tMcHost true)) (by decide +kernel)
  exact ⟨_, s2, bs, v, by rw [← h1], f1, f2⟩

/-- The request that completes a merge, core 1's having come before; and one of a command for core 0 alone. -/
def tAlone : State := (tMc true).updTeam 0 fun t => { t with cp := t.cp.map fun r => { r with cmd := { r.cmd with blk := r.cmd.blk - BitVec.ofNat 512 (2 * 2 ^ 384) } } }
theorem test_multicast_complete : (∀ s, s = tMcMerge 0 [1] ∨ s = tAlone → (tExec (.multicastRequest 0 256) s).map (fun t =>
      ((t.die 0).merges.length, (t.die 0).responses.map fun r => (r.2.data.toNat % 256, r.2.toReach.contains 0))) = some (0, [(0x11, true)])) ∧
    maskCores (cpOp (BitVec.ofNat 512 tMcBlk - BitVec.ofNat 512 (2 * 2 ^ 384))).mask = [0] ∧
    (∀ s, s = tMcMerge 0 [1] ∨ s = tAlone → (xlate s 0 0 0x10000 .rd).2 = .ok tLeaf ∧
      ((xlate s 0 0 0x10000 .rd).1.dies.all fun e => fld e.2.heatbase 0 1 == 0) = true ∧
      (List.range 4).all (fun i => tStill (xlate s 0 0 0x10000 .rd).1 (1024 + i)) = true ∧ ((xlate s 0 0 0x10000 .rd).1.die 0).missing = []) := by
  refine ⟨?_, by decide +kernel, ?_⟩ <;> rintro s (rfl | rfl) <;> decide +kernel

/-! ### The rest -/

theorem test_w_CachesAndSignals_room : (tHeld.dies.all fun e => fld e.2.heatbase 0 1 == 0) = true ∧ roomFor tHeld (256 * 256) 8 = true := by
  decide +kernel

/-- Where a report goes, and that the way home is free; a part that stands at a link port. -/
def tEdge (up : Bool) : State := (tLat [1043, 5]).setPort 3 { Port.reset with ready := up, peer := 9 }
theorem test_w_LatentSectors_ports :
    (∀ x : Nat × Nat × List Nat, x ∈ [(5, 2000, [5]), (5, 2000, [5, 7]), (130, 1025, [130])] →
      ((kvGet (tDev [] [] [x.1] x.2.1 x.2.2).devs 1024).map fun v => v.collectorOf x.1) = some x.2.1) ∧
    roomFor (tLat [5]) (64 * 1024) 1 = true ∧ farPackage (64 * 1024) = none ∧ mergeStill (tLat [5]) 1024 5 = false ∧
    roomFor (tLat [5]) (64 * 1024) (reportFlits [⟨5, secAll 1, [], false⟩]) = true ∧
    (∀ up, up = true ∨ up = false → let s := tEdge up
      kvGet s.devs 1024 = none ∧ mergeStill s 1024 1043 = false ∧ homeDie (64 * 1024) = some 0 ∧
        portDown s 1043 = !up ∧ mayFlit (s.port 3) = true ∧ 5 ∈ chainOf s 1024 5 ∧ ¬ 5 ∈ chainOf s 1024 1043) := by
  refine ⟨by decide +kernel, by decide +kernel, by decide +kernel, by decide +kernel, by decide +kernel, ?_⟩
  rintro up (rfl | rfl) <;> decide +kernel
/-- R201, R206: with the link down the part is poison; with it up a collect goes out, and the part stays until its composite comes. -/
theorem test_early_merge_port :
    ((tExec (.earlyMerge 1024 1043) (tEdge false)).map fun t => (t.poison, match kvGet t.dir 1024 with
      | some (.latent _ cs) => cs.map (·.num)
      | _ => [])) = some ([4096, 4097, 4098, 4099], [5]) ∧
    ((tExec (.earlyMerge 1024 1043) (tEdge true)).map fun t => ((t.port 3).retry.map fun f => (f.dest, f.msg), match kvGet t.dir 1024 with
      | some (.latent _ cs) => cs.map (·.num)
      | _ => [])) = some ([(9, .collect (wireKey 0 65536) .addI)], [1043, 5]) := by decide +kernel

/-! Launches -/
/-- The record of `tTakenLaunch` with more in it, and with bytes of the image header and block table as given. -/
def tTakenWith (rec : Nat) (hdr : List Host.Cell) : State :=
  let s := tMap (tCells 0x20000 112 (stageLaunch.record.toNat + 3 + rec) ++ hdr)
  (s.updTeam 0 fun t => { t with launch := 7 }).setLaunch 0 (Launch.taken 0 0x20000 [0x10000] 0)
/-- R70: a context of 4,096, and an image that is not aligned. -/
theorem test_accept_checks : ([(0x30000 * 2 ^ 512 + 0x1000 * 2 ^ 576, 0x14), (0x30010 * 2 ^ 512, 0x11)].all fun x =>
    (tExec (.launchAccept 0) (tTakenWith x.1 [])).any fun t => (t.launch 0).any fun l => l.phase == .completing && l.status == x.2) = true := by
  decide +kernel
theorem test_w_Launches_checks :
    (∀ x : Nat × Bool × Bool, x ∈ [(0x30000 * 2 ^ 512 + 0x1000 * 2 ^ 576, false, true), (0x30010 * 2 ^ 512, true, false)] →
      let s := tTakenWith x.1 []
      (s.launch 0).any (fun l => l.status == 0 && l.phase == .taken && dieGo s l.die) = true ∧
        physKey s 0 0x20000 = some 0x20000 ∧ roomFor s 0x20000 1 = true ∧ (readPlain (askRecord s 0 ((s.launch 0).getD stageLaunch)) 0 0x20000 512).2.isSome = true ∧
        recordOk (tRecOf s).2 = true ∧ decide ((tRecOf s).2.actx < 4096) = x.2.1 ∧ decide ((tRecOf s).2.kimg % 256 = 0) = x.2.2) ∧
    (let s := tTakenWith (0x30000 * 2 ^ 512) []
     recordOk (tRecOf s).2 = true ∧ (tRecOf s).2.actx = 0 ∧ (tRecOf s).2.kimg = 0x30000 ∧
       ∃ s3 hb, readVirt (tRecOf s).1 (.sched 0 0) 0 0x30000 256 = (s3, .ok hb) ∧
         imageOk { (tRecOf s).2 with header := BitVec.ofNat 2048 (ofLe (hb.map (·.1))) } = false) := by
  refine ⟨by decide +kernel, by decide +kernel, by decide +kernel, by decide +kernel, ?_⟩
  obtain ⟨s3, hb, e3, m3, -⟩ := tReadVirt (tMappedOf (w := false) (s := (tRecOf (tTakenWith (0x30000 * 2 ^ 512) [])).1) (by decide +kernel))
    (.inl ⟨0, rfl⟩) 0x30000 256 (by decide)
  refine ⟨s3, hb, e3, ?_⟩
  rw [m3]
  decide +kernel

/-- The team's window 2 holds sector 1024 modified. -/
def tDirty (s : State) : State :=
  { (s.updTeam 0 fun t => { t with stash := [⟨2, 0, 1024, true, []⟩], spadK := 4 }).updCore 0 fun c =>
      { c with spad := cellPuts c.spad 3904 (tDesc 0x10000 128 256 3) } with dir := [(1024, .modified (.stash 0) 0xBBAA)] }
theorem test_w_Launches_windows :
    (let s := tDirty tSaving
     s.launch 0 = some tSavingL ∧ dieGo s 0 = true ∧ isParked s 0 (.save 0) = false ∧
       (s.team 0).any (fun t => t.leave == some .save && !t.ended && saveReady s 0 t && t.stash.filter (·.modified) != []) = true) ∧
    (let s := tLeaving .discard
     (endWindows s 0).accs = [] ∧ (∀ a, a ∈ s.accs → mustFinish a.2 = false)) ∧
    (let s := tDirty (tLeaving .discard)
     (s.team 0).any (fun t => t.leave == some .discard && !t.ended && teamStill s t) = true ∧ dieGo s 0 = true ∧ s.accs = [] ∧
       (endWindows s 0).accs.any (fun a => a.2.team == 0 && mustFinish a.2) = true) := by decide +kernel

/-! Replays -/
/-- A token that holds one requester. -/
def tParked (w : Parked) (ph : LPhase) : State :=
  let s := (tPending [] false).updTeam 0 fun t => { t with cp := some ⟨⟨0, 0, 0, 0⟩, 0, 0, [], none, false, [], 0, none⟩ }
  (s.updLaunch 0 fun l => { l with phase := ph }).updDie 0 fun d => { d with tokens := [(3, ⟨FRec.plain 1 0x10 2 0x10000, [w]⟩)] }
theorem test_w_FaultsAndInvalidations_who : (∀ w ph, (tParked w ph).launch 0 = some { stageLaunch with phase := ph } ∧
      ((tParked w ph).team 0).any (fun t => t.cp.isSome && t.launch == 0) = true ∧ dieGo (tParked w ph) 0 = true) ∧
    (let s := tParked (.fetch 0 0 0 0) .running
     let tids := ((s.core 0).census.filter fun e => e.blk == 0 && e.lidx == 0).flatMap (·.tids)
     tids = [0, 1] ∧ (∀ k, k ∈ tids → CanTrap s k) ∧ launchOf s 0 = some stageLaunch ∧ (s.core 0).overflow = []) := by
  refine ⟨fun w ph => ⟨rfl, rfl, rfl⟩, by decide +kernel, ?_, by decide +kernel, by decide +kernel⟩
  intro k hk
  exact tCanTrap (by revert k; decide +kernel)
/-- R291: a copy ends with status 4, the threads that a fetch held trap, a launch that is being read or runs stops with status 2, and
a completion record is not written. -/
theorem test_replay_deliver :
    (tExec (.replayDeliver 0 3) (tParked (.copy 0) .running)).map (fun t => (t.team 0).map fun u => u.cp.map (·.status)) = some (some (some (some 4))) ∧
    (tExec (.replayDeliver 0 3) (tParked (.fetch 0 0 0 0) .running)).map (fun t =>
      ([0, 1].map fun k => ((t.thread k).trap.cause, (t.thread k).trap.pc), (t.core 0).census.length)) = some ([(0x20010, 0), (0x20010, 0)], 0) ∧
    (tExec (.replayDeliver 0 3) (tParked (.accept 0) .waiting)).map (fun t => (t.launch 0).map fun l => (l.phase, l.status)) =
      some (some (.stopping, 2)) ∧
    (∀ w, w = .place 0 1 ∨ w = .save 0 → (tExec (.replayDeliver 0 3) (tParked w .running)).map (fun t =>
      (t.launch 0).map fun l => (l.phase, l.status)) = some (some (.stopping, 2))) ∧
    (tExec (.replayDeliver 0 3) (tParked (.complete 0) .completing)).map (fun t => (t.launch 0).map (·.crec)) = some (some 0) := by
  refine ⟨by decide +kernel, by decide +kernel, by decide +kernel, ?_, by decide +kernel⟩
  rintro w (rfl | rfl) <;> decide +kernel

/-! Errors and fences -/
/-- Core 0's L1 holds sector 1024 M, E or S, or a non-coherent copy of it. -/
def tL1 (h : Option Sec) (nc : Bool) : State :=
  { (tHost.updCore 0 fun c => { c with nc := if nc then [(1024, NcSec.none)] else [] }) with
    dir := match h with
      | none => []
      | some x => [(1024, x)] }
/-- R299, R300: the records' SUB, and where the poison is. -/
theorem test_errors :
    (tExec (.uncorrectableError (.l1 0 0x10010)) (tL1 (some (.modified (.l1 0) 0)) false)).map (·.poison) = some [4097] ∧
    (∀ h, h = .shared [.l1 0] ∨ h = .excl (.l1 0) → (tExec (.uncorrectableError (.l1 0 0x10010)) (tL1 (some h) false)).map (fun t =>
      (t.poison, (t.core 0).l1Poison)) = some ([], [(1024, [1])])) ∧
    (tExec (.uncorrectableError (.l1 0 0x10010)) (tL1 none true)).map (fun t => (kvGet (t.core 0).nc 1024).map (·.poison)) = some (some [1]) ∧
    (tExec (.uncorrectableError (.scratchpad 0 7)) tHost).map (fun t => (t.core 0).spadPoison) = some [1] ∧
    (tExec (.uncorrectableError (.tile 0 1 20)) tHost).map (fun t => (t.team 0).map fun u => u.tiles.map (·.poison)) = some (some [[], [20], [], []]) := by
  refine ⟨by decide +kernel, ?_, by decide +kernel, by decide +kernel, by decide +kernel⟩
  rintro h (rfl | rfl) <;> decide +kernel
theorem test_w_HostsAndManagement_errors :
    (∀ h, h = .modified (.l1 0) 0 ∨ h = .shared [.l1 0] ∨ h = .excl (.l1 0) → (tL1 (some h) false).dies = tHost.dies ∧
      kvGet ((tL1 (some h) false).core 0).nc 1024 = none ∧ holderState (tL1 (some h) false) 1024 (.l1 0) ≠ .i) ∧
    (kvGet ((tL1 none true).core 0).nc 1024).isSome = true ∧ 7 < Config.spadBytes ∧ coreTile tHost.teams 0 1 = some (0, 1) ∧
    (∀ t y, t ∈ tHost.teams → y ∈ t.2.stash → y.modified = false) ∧ dieUp tDown 0 = true ∧
    (∀ h, h = .l1 0 ∨ h = .stash 0 → let s := { (tHost.updTeam 0 fun t => { t with stash := [⟨2, 0, 1024, true, []⟩] }) with dir := [(1024, .modified h 0)] }
      dieUp s 0 = true ∧ kvGet s.dir (0x10010 / 64) = some (.modified h 0) ∧
        (tExec (.uncorrectableError (.memory 0 2 0x10010)) s).map (fun t => (t.poison, (t.team 0).map fun m => m.stash.map (·.was))) =
          some ([], some [if h = .l1 0 then [] else [0x1001]])) ∧
    (let s := tDown.updDie 0 fun d => { d with held := [] }
     let s := s.setPort 0 { s.port 0 with fails := 16, retry := [⟨6, 0, true, .other⟩] }
     portDie s 0 = 0 ∧ (s.port 0).ready = true ∧ (s.port 0).retry.any (·.seq == 6) = true ∧ 16 ≤ (s.port 0).fails ∧ s.accs = [] ∧ s.devs = [] ∧
       (s.dies.all fun e => e.2.inval.isNone) = true ∧ (s.die 0).held.length < Config.heldRecords ∧
       ((s.die 0).fqtail - (s.die 0).fqhead).toNat = fqSize (s.die 0) ∧
       (tExec (.linkNakFlit 0 6) s).map (fun t => ((t.port 0).ready, (t.die 0).held.map (·.sub))) = some (false, [8])) := by
  refine ⟨?_, by decide +kernel, by decide +kernel, by decide +kernel, ?_, by decide +kernel, ?_, by decide +kernel⟩
  · rintro h (rfl | rfl | rfl) <;> decide +kernel
  rotate_right 1
  · rintro h (rfl | rfl) <;> decide +kernel
  · have : tHost.teams.all (fun t => t.2.stash.isEmpty) = true := by decide +kernel
    intro t y ht hy
    have := List.isEmpty_iff.mp (List.all_eq_true.mp this t ht)
    rw [this] at hy
    cases hy

/-- Die 1 is fenced and die 0's authentication fails while a link port of the two is up: vectors 1 and 2 go out; a host port whose
dies are fenced comes up without a vector. -/
def tFenced (f0 f1 : Bool) : State :=
  ((tDown.updDie 0 fun d => { d with fenced := f0, ready := false, auth := false, hostReady := false }).updDie 1 fun d =>
    { d with fenced := f1 }).updDie 2 fun d => { d with ready := true }
theorem test_fence_vectors : (∀ f, f = true ∨ f = false → (tExec (.dieAuthentication 0 false true) (tFenced false f)).map (fun t => ((t.port 0).ready, t.out)) =
      some (!f, if f then [.msix 2 1, .msix 2 2] else [])) ∧
    ([(false, false), (true, false), (true, true)].map fun f => (tExec (.hostPortTrained 0) (tFenced f.1 f.2)).map (·.out)) =
      [some [.msix 0 1], some [.msix 1 1], some []] := by
  refine ⟨?_, by decide +kernel⟩
  rintro f (rfl | rfl) <;> decide +kernel
theorem test_w_HostsAndManagement_fence : (∀ f0 f1, ((tFenced f0 f1).die 0).ready = false ∧ ((tFenced f0 f1).die 0).auth = false ∧
    ((tFenced f0 f1).die 0).hostReady = false ∧ ((tFenced f0 f1).die 0).fenced = f0 ∧ ((tFenced f0 f1).die 1).fenced = f1 ∧
    ((tFenced f0 f1).port 0).ready = true) := by decide +kernel

end Tests
end

section
/-! SUPPORT. What the die devices and the cores read as at a module reset (R5, R107, R110-R115). -/
namespace Sys2Proof.Machine

/-- At reset no die, bend or port is listed, so a die's registers do not depend on which die is asked. -/
theorem readReg_reset_die (d r : Nat) : readReg State.reset d r = readReg State.reset 0 r := rfl

theorem readCoreReg_reset_core (g c : Nat) : readCoreReg State.reset g c = readCoreReg State.reset 0 c := rfl

/-- The Reset column of a die device: CAPS0, READY with the bit of the die itself, SWAPINT, FQBASE and PWRLIM hold a value, every
other register is 0. -/
theorem readReg_reset_zero : ∀ r ∈ regs32 ++ regs64, readReg State.reset 0 r =
    if r = 0x1000 then 0xFFFFF else if r = 0x1002 then 1 else if r = 0x1015 then 400000 else if r = 0x1020 then 4
    else if r = 0x8300 then 2400 else 0 := by decide +kernel

theorem coreAssigned_iff (c : Nat) : coreAssigned c = true ↔
    c ∈ [0x200, 0x201, 0x202, 0x203, 0x204, 0x208, 0x209, 0x20A, 0x20B, 0x20C, 0x210] := by
  simp [coreAssigned]

theorem readCoreReg_reset_zero {c : Nat} (h : coreAssigned c = true) : readCoreReg State.reset 0 c =
    if c = 0x201 then 256 else if c = 0x202 then 1024 else if c = 0x208 then 4 else if c = 0x209 then 8
    else if c = 0x20A then 16 else if c = 0x20B then 32 else if c = 0x20C then 64 else 0 := by
  rw [coreAssigned_iff] at h
  revert c
  decide

/-- Settles O45: every part of the reset state is a default of its map, and a register's value is its Reset column. -/
theorem resetState : Obligations.ResetState := by
  unfold Obligations.ResetState
  exact ⟨rfl, rfl, rfl, rfl, rfl, rfl, rfl, rfl, rfl, rfl, fun _ => ⟨rfl, rfl, rfl, rfl⟩,
    fun d _ r hr => (readReg_reset_die d r).trans (readReg_reset_zero r hr),
    fun g _ c hc => (readCoreReg_reset_core g c).trans (readCoreReg_reset_zero hc),
    fun _ => ⟨rfl, rfl⟩, fun _ => rfl, fun _ => rfl, rfl⟩

end Sys2Proof.Machine
end

section
/-! SUPPORT. The slot being executed (`State.cur`) through everything that a trap may bring about: the reads and writes of memory
that a fault record makes, the end of a thread's waits, and what its team and launch do without it. None of it touches the slot;
`raiseAt` alone takes the thread off the slot's lists (R55). -/
namespace Sys2Proof.Machine

theorem foldl_cur {α : Type} {f : State → α → State} (h : ∀ s x, (f s x).cur = s.cur) (l : List α) (s : State) :
    (l.foldl f s).cur = s.cur := by
  induction l generalizing s with
  | nil => rfl
  | cons x l ih => rw [List.foldl_cons, ih, h]

/-! ## Sectors and home values -/

@[simp] theorem sendFlitTo_cur (s : State) (i d : Nat) (m : LinkMsg) : (sendFlitTo s i d m).cur = s.cur := rfl

@[simp] theorem sendFlit_cur (s : State) (i : Nat) (m : LinkMsg) : (sendFlit s i m).cur = s.cur := rfl

@[simp] theorem sendFar_cur (s : State) (k : Nat) (m : LinkMsg) : (sendFar s k m).cur = s.cur := by
  unfold sendFar; split <;> simp

@[simp] theorem askFar_cur (s : State) (k : Nat) (m : LinkMsg) : (askFar s k m).cur = s.cur := by
  unfold askFar
  split
  · rfl
  · split <;> simp

@[simp] theorem reportMerge_cur (s : State) (k : Nat) (rs : List Report) : (reportMerge s k rs).cur = s.cur := by
  unfold reportMerge; split <;> simp

@[simp] theorem unqueue_cur (s : State) (i : Instr) : (unqueue s i).cur = s.cur := by
  unfold unqueue
  split
  case h_4 => rfl
  all_goals split <;> simp

@[simp] theorem sendReports_cur (s : State) (k : Nat) (op : LupOp) (asked : Bool) (rs : List Report) :
    (sendReports s k op asked rs).cur = s.cur := by
  induction rs generalizing s with
  | nil => unfold sendReports; split <;> simp
  | cons r rs ih => cases rs <;> simp [sendReports, ih]

@[simp] theorem finishDevelop_cur (s : State) (k : Nat) (v : Dev) (rs : List Report) :
    (finishDevelop s k v rs).cur = s.cur := by
  simp [finishDevelop, foldl_cur, markElems]

@[simp] theorem startDevelop_cur (s : State) (k : Nat) : (startDevelop s k).cur = s.cur := by
  unfold startDevelop
  split
  · dsimp only; split <;> simp
  · rfl

@[simp] theorem mustWait_cur (s : State) (k : Nat) : (mustWait s k).1.cur = s.cur := by
  unfold mustWait
  dsimp only
  split <;> split <;> simp

@[simp] theorem waitAt_cur (s : State) (k : Nat) (i : Instr) : (waitAt s k i).1.cur = s.cur := by
  unfold waitAt
  dsimp only
  split <;> split <;> (try split) <;> simp

@[simp] theorem loseExcl_cur (s : State) (k : Nat) (h : Holder) : (loseExcl s k h).cur = s.cur := by
  cases h <;> simp only [loseExcl]
  split <;> simp

@[simp] theorem loseCopy_cur (s : State) (k : Nat) (h : Holder) : (loseCopy s k h).cur = s.cur := by
  cases h <;> simp only [loseCopy, State.updTeam_cur]
  split <;> simp

@[simp] theorem loseClean_cur (s : State) (k : Nat) (h : Holder) : (loseClean s k h).cur = s.cur := by
  cases h <;> simp [loseClean]

@[simp] theorem dropClean_cur (s : State) (k : Nat) (h : Holder) : (dropClean s k h).cur = s.cur := by
  unfold dropClean
  split
  · simp
  · split <;> simp
  · rfl

@[simp] theorem toHome_cur (s : State) (k : Nat) : (toHome s k).cur = s.cur := by
  unfold toHome
  split <;> simp [foldl_cur, writeBack]

@[simp] theorem heatTick_cur (s : State) (k : Nat) : (heatTick s k).cur = s.cur := by
  unfold heatTick
  split
  · rfl
  · dsimp only
    split
    · rfl
    · split
      · rfl
      · split <;> simp [writeHome]

@[simp] theorem keepMarks_cur (s : State) (k : Nat) (h : Holder) : (keepMarks s k h).cur = s.cur := by
  cases h <;> simp only [keepMarks]
  split <;> simp

@[simp] theorem storeFor_cur (s : State) (k : Nat) (who : Option Holder) (off : Nat) (bs : List Byte) :
    (storeFor s k who off bs).cur = s.cur := by
  cases who with
  | none => simp [storeFor, writeHome]
  | some h =>
    simp only [storeFor, keepMarks_cur]
    split <;> simp [apply_ite State.cur]

@[simp] theorem storePhys_cur (s : State) (d pa : Nat) (bs : List Byte) : (storePhys s d pa bs).cur = s.cur := by
  unfold storePhys
  split <;> simp [storeHome, foldl_cur]

/-! ## Fault records -/

@[simp] theorem recordWaits_cur (s : State) (d pa : Nat) : (recordWaits s d pa).1.cur = s.cur := by
  unfold recordWaits; split <;> simp

@[simp] theorem flushFq_cur (s : State) (d fuel : Nat) : (flushFq s d fuel).cur = s.cur := by
  induction fuel generalizing s with
  | zero => rfl
  | succ fuel ih =>
    unfold flushFq
    dsimp only
    split
    · rfl
    · split
      · rfl
      · split <;> simp [ih]

@[simp] theorem report_cur (s : State) (d : Nat) (r : FRec) : (report s d r).cur = s.cur := by
  simp [report, flush]

/-! ## The census, barriers and waits -/

@[simp] theorem recheckGroups_cur (s : State) (g : Nat) : (recheckGroups s g).cur = s.cur := by simp [recheckGroups]

@[simp] theorem allocEntry_cur (s : State) (g tid : Nat) : (allocEntry s g tid).cur = s.cur :=
  (foldl_cur (fun s t => State.updThread_cur s t _) _ _).trans (State.setCore_cur s g _)

@[simp] theorem refill_cur (s : State) (g fuel : Nat) : (refill s g fuel).cur = s.cur := by
  induction fuel generalizing s with
  | zero => rfl
  | succ fuel ih =>
    unfold refill
    dsimp only
    split
    · rfl
    · split
      · rfl
      · simp [ih]

@[simp] theorem leaveCensus_cur (s : State) (g : Nat) (tids : List Nat) : (leaveCensus s g tids).cur = s.cur := by
  simp [leaveCensus]

@[simp] theorem dropAwait_cur (s : State) (tid : Nat) : (dropAwait s tid).cur = s.cur := by
  unfold dropAwait; split <;> rfl

@[simp] theorem checkBarriers_cur (s : State) (tk : Nat) : (checkBarriers s tk).cur = s.cur := by
  refine foldl_cur (fun s n => ?_) _ s
  unfold checkBarrier
  split
  · rfl
  · dsimp only; split <;> simp [foldl_cur, leaveWait]

/-! ## Expansions -/

@[simp] theorem sealExp_cur (s : State) (tk : Nat) : (sealExp s tk).cur = s.cur := by
  unfold sealExp
  split
  · rfl
  · split <;> simp

@[simp] theorem endExp_cur (s : State) (tk : Nat) : (endExp s tk).cur = s.cur := by
  unfold endExp
  split
  · rfl
  · dsimp only; split <;> simp

@[simp] theorem spadRaw_cur (s : State) (g p : Nat) (bs : List Byte) : (spadRaw s g p bs).cur = s.cur := by simp [spadRaw]

@[simp] theorem settleIters_cur (s : State) (tk fuel : Nat) : (settleIters s tk fuel).cur = s.cur := by
  induction fuel generalizing s with
  | zero => rfl
  | succ fuel ih =>
    unfold settleIters
    split
    · rfl
    · dsimp only
      split
      · rfl
      · simp [ih, setHown]

@[simp] theorem finishAcc_cur (s : State) (id v : Nat) : (finishAcc s id v).cur = s.cur := by
  unfold finishAcc; split <;> simp

@[simp] theorem expnResult_cur (s : State) (id lo hi : Nat) (pr : Bool) : (expnResult s id lo hi pr).cur = s.cur := by
  unfold expnResult
  split
  · rfl
  · dsimp only
    split <;> simp

@[simp] theorem deliverAll_cur (s : State) (tk : Nat) : (deliverAll s tk).cur = s.cur := by
  unfold deliverAll
  split
  · rfl
  · refine foldl_cur (fun s r => ?_) _ s
    split
    · rfl
    · split <;> simp

@[simp] theorem tickExp_cur (s : State) (tk : Nat) : (tickExp s tk).cur = s.cur := by
  unfold tickExp
  split
  · rfl
  · split <;> simp

@[simp] theorem closeIter_cur (s : State) (tk p : Nat) (v : Option Word) : (closeIter s tk p v).cur = s.cur := by
  unfold closeIter
  split
  · rfl
  · dsimp only
    split
    · cases v <;> simp [setEntWord]
    · rfl

@[simp] theorem dropRequests_cur (s : State) (tk tid : Nat) : (dropRequests s tk tid).cur = s.cur := by
  unfold dropRequests
  dsimp only
  split <;> simp

/-! ## Stash windows -/

@[simp] theorem dropSector_cur (s : State) (tk : Nat) (x : StashSec) : (dropSector s tk x).cur = s.cur := by
  simp only [dropSector, State.updTeam_cur]
  split
  · split
    · split <;> rfl
    · rfl
  · split <;> simp [apply_ite State.cur]

@[simp] theorem startWb_cur (s : State) (tk : Nat) (t : Team) (x : StashSec) : (startWb s tk t x).cur = s.cur := by
  simp [startWb, addAcc]

@[simp] theorem unbindLazy_cur (s : State) (tk w : Nat) : (unbindLazy s tk w).cur = s.cur := by
  unfold unbindLazy
  split
  · rfl
  · split
    · simp only [setBound, spadRaw_cur, detach]
      refine foldl_cur (fun s x => ?_) _ s
      split <;> simp
    · rfl

@[simp] theorem endWindows_cur (s : State) (tk : Nat) : (endWindows s tk).cur = s.cur :=
  foldl_cur (fun s w => unbindLazy_cur s tk w) _ s

/-! ## Freezing and trapping -/

@[simp] theorem afterDeath_cur (s : State) (tid : Nat) : (afterDeath s tid).cur = s.cur := by
  unfold afterDeath
  dsimp only
  split
  · simp
  · split <;> split <;> simp

@[simp] theorem stopLaunch_cur (s : State) (lid : Nat) : (stopLaunch s lid).cur = s.cur := by
  unfold stopLaunch
  split
  · rfl
  · split <;> simp

@[simp] theorem applyFdact_cur (s : State) (lid : Nat) : (applyFdact s lid).cur = s.cur := by
  unfold applyFdact
  split
  · rfl
  · split
    · split
      · simp
      · dsimp only
        rw [foldl_cur (fun s x => by split <;> simp)]
        split <;> simp
    · simp
    · rfl

@[simp] theorem freeze_cur (s : State) (tid cause : Nat) (pc : DWord) : (freeze s tid cause pc).cur = s.cur := by
  simp [freeze]

@[simp] theorem enterFreeze_cur (s : State) (tid cause sub : Nat) (word : Word) (pc : DWord) :
    (enterFreeze s tid cause sub word pc).cur = s.cur := by
  unfold enterFreeze
  dsimp only
  split <;> simp

@[simp] theorem enterTrap_cur (s : State) (tid cause sub : Nat) (word : Word) (pc : DWord) :
    (enterTrap s tid cause sub word pc).cur = s.cur := by
  unfold enterTrap
  dsimp only
  split
  · simp
  · split <;> simp

@[simp] theorem leavePass_cur (s : State) (pk tid pkt slot : Nat) : (leavePass s pk tid pkt slot).cur = s.cur := by
  obtain ⟨hs, ps, -, -, -, hframe, -⟩ := leavePass_eq s pk tid pkt slot
  rw [hframe]

/-- A trap takes its thread off the slot's lists and leaves the rest of the slot as it is, whether the thread enters its trap block
or freezes. -/
theorem raiseAt_cur (s : State) (tid cause sub : Nat) (pc : DWord) : (raiseAt s tid cause sub pc).cur =
    { s.cur with tids := s.cur.tids.filter (· != tid), all := s.cur.all.filter (· != tid) } := by
  simp [raiseAt]

end Sys2Proof.Machine
end

section
/-! SUPPORT. The order in which a slot takes its threads: what `sortBy` and `eraseDups` give (R318). -/
namespace Sys2Proof.Machine

theorem mem_insBy (f : Nat → Nat) (x y : Nat) (l : List Nat) : y ∈ insBy f x l ↔ y = x ∨ y ∈ l := by
  induction l with
  | nil => simp [insBy]
  | cons z l ih =>
    unfold insBy
    split <;> simp [ih, or_left_comm]

theorem insBy_pairwise (f : Nat → Nat) (x : Nat) {l : List Nat} (h : l.Pairwise (f · ≤ f ·)) :
    (insBy f x l).Pairwise (f · ≤ f ·) := by
  induction l with
  | nil => simp [insBy]
  | cons z l ih =>
    obtain ⟨hz, hl⟩ := List.pairwise_cons.mp h
    unfold insBy
    split
    case isTrue hx =>
      refine List.pairwise_cons.mpr ⟨fun y hy => ?_, h⟩
      obtain rfl | hy := List.mem_cons.mp hy
      · exact Nat.le_of_lt hx
      · exact Nat.le_trans (Nat.le_of_lt hx) (hz y hy)
    case isFalse hx =>
      refine List.pairwise_cons.mpr ⟨fun y hy => ?_, ih hl⟩
      obtain rfl | hy := (mem_insBy f x y l).mp hy
      · exact Nat.le_of_not_lt hx
      · exact hz y hy

/-- `sortBy` inserts from the left into a list that starts empty; these speak of any list that it has come to. -/
theorem mem_foldl_insBy (f : Nat → Nat) (y : Nat) (l acc : List Nat) :
    y ∈ l.foldl (fun acc x => insBy f x acc) acc ↔ y ∈ l ∨ y ∈ acc := by
  induction l generalizing acc with
  | nil => simp
  | cons x l ih => simp only [List.foldl_cons, ih, mem_insBy, List.mem_cons, or_assoc, or_left_comm]

theorem foldl_insBy_pairwise (f : Nat → Nat) (l : List Nat) {acc : List Nat} (h : acc.Pairwise (f · ≤ f ·)) :
    (l.foldl (fun acc x => insBy f x acc) acc).Pairwise (f · ≤ f ·) := by
  induction l generalizing acc with
  | nil => exact h
  | cons x l ih => exact ih (insBy_pairwise f x h)

theorem mem_sortBy (f : Nat → Nat) (y : Nat) (l : List Nat) : y ∈ sortBy f l ↔ y ∈ l := by
  rw [sortBy, mem_foldl_insBy]
  exact or_iff_left List.not_mem_nil

theorem sortBy_pairwise (f : Nat → Nat) (l : List Nat) : (sortBy f l).Pairwise (f · ≤ f ·) :=
  foldl_insBy_pairwise f l List.Pairwise.nil

theorem eraseDups_sublist (l : List Nat) : l.eraseDups.Sublist l := by
  match l with
  | [] => simp
  | x :: l =>
    rw [List.eraseDups_cons]
    exact ((eraseDups_sublist _).trans List.filter_sublist).cons_cons x
termination_by l.length
decreasing_by exact Nat.lt_succ_of_le (List.length_filter_le _ _)

theorem nodup_eraseDups (l : List Nat) : l.eraseDups.Nodup := by
  match l with
  | [] => simp
  | x :: l =>
    rw [List.eraseDups_cons]
    exact List.nodup_cons.mpr ⟨by simp, nodup_eraseDups _⟩
termination_by l.length
decreasing_by exact Nat.lt_succ_of_le (List.length_filter_le _ _)

end Sys2Proof.Machine
end

section
/-! SUPPORT. The threads on which a slot acts: in lane order, those of its pass that reach it, and of them those whose guard is
true. A precise trap takes a thread off both lists and so keeps this (R93, R318). -/
namespace Sys2Proof.Machine

/-- The threads of a slot are distinct, rise by lane, belong to `ts`, and those that act are the ones that meet `q`. -/
structure Issue.Acts (c : Issue) (ts : List Nat) (q : Nat → Bool) : Prop where
  nodup : c.all.Nodup
  rising : c.all.Pairwise fun i j => laneOf i ≤ laneOf j
  within : c.all ⊆ ts
  tids : c.tids = c.all.filter q

theorem Issue.Acts.mem_tids {c : Issue} {ts : List Nat} {q : Nat → Bool} (h : c.Acts ts q) (k : Nat) :
    k ∈ c.tids ↔ k ∈ c.all ∧ q k = true := by
  rw [h.tids, List.mem_filter]

theorem Issue.Acts.mono {c : Issue} {ts us : List Nat} {q : Nat → Bool} (h : c.Acts ts q) (hs : ts ⊆ us) : c.Acts us q :=
  ⟨h.nodup, h.rising, List.Subset.trans h.within hs, h.tids⟩

/-- Threads that leave the slot leave both lists. -/
theorem Issue.Acts.filter {c : Issue} {ts : List Nat} {q : Nat → Bool} (h : c.Acts ts q) (r : Nat → Bool) :
    Issue.Acts { c with tids := c.tids.filter r, all := c.all.filter r } ts q where
  nodup := h.nodup.filter r
  rising := h.rising.filter r
  within := List.Subset.trans List.filter_sublist.subset h.within
  tids := by simp only [h.tids, List.filter_filter, Bool.and_comm]

theorem raiseAll_acts {s : State} {ts : List Nat} {q : Nat → Bool} (h : s.cur.Acts ts q) (tids : List Nat) (cause sub : Nat) :
    (raiseAll s tids cause sub).cur.Acts ts q := by
  induction tids generalizing s with
  | nil => exact h
  | cons t tids ih =>
    refine ih (s := raise s t cause sub) ?_
    rw [raise, raiseAt_cur]
    exact h.filter _

/-- The guard of slot `n` in a thread, with the threads for which it is read too early (R93, R98). -/
def guardTrue (s : State) (p : Pass) (n : Nat) (flip : List Nat) (tid : Nat) : Bool :=
  let g := guardOf (decodeCtl (curPacket p).ctl) n
  ((s.thread tid).pred g.1 != g.2) != flip.contains tid

theorem issueOf_acts (s : State) (pkey : Nat) (l : Launch) (p : Pass) (n : Nat) (flip : List Nat) :
    (issueOf s pkey l p n flip).Acts p.tids (guardTrue s p n flip) where
  nodup := nodup_eraseDups _
  rising := (sortBy_pairwise laneOf _).sublist (eraseDups_sublist _)
  within k hk := by
    have : k ∈ reaching s p n := (mem_sortBy laneOf k _).mp (List.mem_eraseDups.mp hk)
    exact (List.mem_filter.mp this).1
  tids := rfl

end Sys2Proof.Machine
end

section
/-! SUPPORT. What happens to threads and passes before a slot acts: cycles go by, some threads leave at their resume points, and
free choices are taken. None of it writes a predicate, and a pass loses threads only (R37, R95, R98). -/
namespace Sys2Proof.Machine

/-- Pass `q` is pass `p` without some of its threads, and what they leave for the pass's end. -/
structure Pass.Lost (p q : Pass) : Prop where
  frame : q = { p with tids := q.tids, targets := q.targets, waits := q.waits }
  tids : q.tids ⊆ p.tids

theorem Pass.Lost.refl (p : Pass) : p.Lost p := ⟨rfl, List.Subset.refl _⟩

theorem Pass.Lost.trans {p q r : Pass} (h : p.Lost q) (h' : q.Lost r) : p.Lost r :=
  ⟨h'.frame.trans (by rw [h.frame]), List.Subset.trans h'.tids h.tids⟩

/-- From `s` to `t` some threads leave pass `pk`; predicates stay. -/
structure Leaving (pk : Nat) (s t : State) : Prop where
  pred : ∀ k i, (t.thread k).pred i = (s.thread k).pred i
  pass : ∀ p, s.pass pk = some p → ∃ q, t.pass pk = some q ∧ p.Lost q

theorem Leaving.refl (pk : Nat) (s : State) : Leaving pk s s := ⟨fun _ _ => rfl, fun p hp => ⟨p, hp, .refl p⟩⟩

theorem Leaving.trans {pk : Nat} {s t u : State} (h : Leaving pk s t) (h' : Leaving pk t u) : Leaving pk s u where
  pred k i := (h'.pred k i).trans (h.pred k i)
  pass p hp := by
    obtain ⟨q, hq, hpq⟩ := h.pass p hp
    obtain ⟨r, hr, hqr⟩ := h'.pass q hq
    exact ⟨r, hr, hpq.trans hqr⟩

theorem Leaving.of_eq {pk : Nat} {s t : State} (ht : t.threads = s.threads) (hp : t.passes = s.passes) : Leaving pk s t := by
  have e := Leaving.refl pk s
  exact ⟨fun k i => by simp only [State.thread, ht], fun p h => by simpa only [State.pass, hp] using e.pass p h⟩

theorem tick_leaving (s : State) (pk g n : Nat) : Leaving pk s (tick s g n) := .of_eq (by simp [tick]) (by simp [tick])

theorem leavePass_leaving (s : State) (pk tid pkt slot : Nat) : Leaving pk s (leavePass s pk tid pkt slot) := by
  obtain ⟨hs, ps, -, -, hth, hframe, -, hleft⟩ := leavePass_eq s pk tid pkt slot
  refine ⟨fun k i => ?_, fun p hp => ?_⟩
  · rw [hth]; split <;> rfl
  · rw [State.pass, hframe, hleft, hp]
    exact ⟨_, rfl, rfl, List.filter_sublist.subset⟩

theorem dropAwait_leaving (s : State) (pk tid : Nat) : Leaving pk s (dropAwait s tid) := by
  unfold dropAwait
  split
  · exact .of_eq rfl rfl
  · exact .refl pk s

theorem updThread_leaving (s : State) (pk tid : Nat) {f : Thread → Thread} (hf : ∀ t i, (f t).pred i = t.pred i) :
    Leaving pk s (s.updThread tid f) := by
  refine ⟨fun k i => ?_, (Leaving.refl pk s).pass⟩
  rw [State.updThread_thread]
  split
  case isTrue h => subst h; exact hf _ i
  case isFalse => rfl

theorem leaveAtResume_leaving (s : State) (pk : Nat) (p : Pass) (n tid : Nat) : Leaving pk s (leaveAtResume s pk p n tid) :=
  ((leavePass_leaving s pk tid p.pkt n).trans (dropAwait_leaving _ pk tid)).trans
    (updThread_leaving _ pk tid fun _ _ => rfl)

theorem foldl_leaveAtResume_leaving (s : State) (pk : Nat) (p : Pass) (n : Nat) (tids : List Nat) :
    Leaving pk s (tids.foldl (fun s tid => leaveAtResume s pk p n tid) s) := by
  induction tids generalizing s with
  | nil => exact .refl pk s
  | cons tid tids ih => exact (leaveAtResume_leaving s pk p n tid).trans (ih _)

/-! ## Free choices -/

theorem chooseOlds_threads (s : State) (os : List Old) : (chooseOlds s os).1.threads = s.threads := by
  induction os generalizing s with
  | nil => rfl
  | cons o os ih => exact ih s.choose.1

theorem chooseOlds_subset (s : State) (os : List Old) : (chooseOlds s os).2 ⊆ os := by
  induction os generalizing s with
  | nil => exact List.Subset.refl _
  | cons o os ih =>
    unfold chooseOlds
    dsimp only
    split
    · exact List.cons_subset_cons o (ih _)
    · exact List.subset_cons_of_subset o (ih _)

/-- A free choice takes one of the list and counts itself, and changes nothing else. -/
theorem chooseOne_eq {α : Type} {s t : State} {x : α} {l : List α} (h : chooseOne s l = (t, some x)) :
    x ∈ l ∧ t = { s with free := t.free } := by
  match l with
  | [] => cases h
  | [y] => cases h; exact ⟨List.mem_singleton_self x, rfl⟩
  | y :: z :: l =>
    simp only [chooseOne] at h
    split at h
    · cases h; exact ⟨List.mem_cons_self, rfl⟩
    · obtain ⟨hm, he⟩ := chooseOne_eq h
      exact ⟨List.mem_cons_of_mem y hm, by rw [he]; rfl⟩

theorem nextOf_pass {s : State} {pk : Nat} {x : Next} (h : nextOf s pk = some x) : s.pass x.pkey = some x.pass := by
  unfold nextOf at h
  split at h
  · cases h
  case h_2 p hp =>
    split at h
    · cases h
    · split at h
      · cases h
      · dsimp only at h
        rw [Option.ite_none_left_eq_some] at h
        obtain ⟨-, h⟩ := h
        cases h
        exact hp

theorem nextIssue_pass {s s' : State} {x : Next} (h : nextIssue s = (s', some x)) : s'.pass x.pkey = some x.pass := by
  obtain ⟨hm, he⟩ := chooseOne_eq h
  obtain ⟨p, -, hp⟩ := List.mem_filterMap.mp hm
  have hx : s.pass x.pkey = some x.pass := nextOf_pass hp
  rw [he]
  exact hx

end Sys2Proof.Machine
end

section
/-! SUPPORT. The guard that picks a slot's threads, and what a predicate that is still on its way does to it (R93, R96, R98). -/
namespace Sys2Proof.Machine

theorem guardOf_lt (c : Ctl) (n : Nat) : (guardOf c n).1 < 8 := by
  unfold guardOf
  split
  · exact c.ga.isLt
  · split
    · exact c.gb.isLt
    · exact c.gc.isLt

/-- Item 128 + i of a thread is its predicate i. -/
theorem itemOf_pred (t : Thread) {i : Nat} (hi : i < 8) : (itemOf t (128 + i) != 0) = t.pred i := by
  have hlo : ¬128 + i < 128 := by omega
  have hhi : 128 + i < 136 := by omega
  rw [itemOf, if_neg hlo, if_pos hhi, Nat.add_sub_cancel_left]
  cases t.pred i <;> rfl

theorem mem_staleFor {s : State} {p : Pass} {tids items : List Nat} {o : Old} : o ∈ staleFor s p tids items ↔
    (∃ x ∈ nearProds p, o ∈ x.old ++ x.new) ∧ o.item ∈ items ∧ o.tid ∈ tids ∧ o.val ≠ itemOf (s.thread o.tid) o.item := by
  simp only [staleFor, List.mem_flatMap, List.mem_filter, Bool.and_eq_true, List.contains_iff_mem, bne_iff_ne, and_assoc]
  exact ⟨fun ⟨x, hx, ho, h⟩ => ⟨⟨x, hx, ho⟩, h⟩, fun ⟨⟨x, hx, ho⟩, h⟩ => ⟨x, hx, ho, h⟩⟩

/-- The value of some old items in a thread differs from its predicate `g`. -/
def Differs (s : State) (g : Nat) (os : List Old) (k : Nat) : Prop :=
  ∃ o ∈ os, o.tid = k ∧ (o.val != 0) ≠ (s.thread k).pred g

/-- Where no producer of the guard is too near, the guard reads otherwise than the thread's predicate stands only for a thread in
which a slot of the chain wrote it. What a near producer brings is the present predicate then. -/
theorem mem_flipped {pk : Nat} {s t : State} {p q : Pass} (n : Nat) (hst : Leaving pk s t) (hpq : p.Lost q) :
    let g := (guardOf (decodeCtl (curPacket p).ctl) n).1
    staleFor s p p.tids [128 + g] = [] →
    ∀ k, k ∈ (flipped t q n).2 ↔ Differs s g (p.chain.filter fun o => o.item == 128 + g) k := by
  intro g hstale k
  have hg : (guardOf (decodeCtl (curPacket q).ctl) n).1 = g := by rw [hpq.frame]; rfl
  have hchain : q.chain = p.chain := by rw [hpq.frame]
  have hnear : nearProds q = nearProds p := by rw [hpq.frame]; rfl
  have hpresent : ∀ o ∈ staleFor (putItems t p.chain) q q.tids [128 + g], (o.val != 0) = (s.thread o.tid).pred g := by
    intro o ho
    obtain ⟨hx, hi, ht, -⟩ := mem_staleFor.mp ho
    have hval : o.val = itemOf (s.thread o.tid) o.item := by
      refine Decidable.byContradiction fun hne => ?_
      have : o ∈ staleFor s p p.tids [128 + g] := mem_staleFor.mpr ⟨hnear ▸ hx, hi, hpq.tids ht, hne⟩
      rw [hstale] at this
      exact absurd this List.not_mem_nil
    rw [hval, List.mem_singleton.mp hi, itemOf_pred _ (guardOf_lt _ n)]
  simp only [flipped, hg, hst.pred, hchain, List.mem_map, List.mem_filter, List.mem_append, bne_iff_ne, Differs]
  constructor
  · rintro ⟨o, ⟨hm | hm, hne⟩, rfl⟩
    · exact ⟨o, hm, rfl, hne⟩
    · exact absurd (hpresent o (chooseOlds_subset _ _ hm)) hne
  · rintro ⟨o, hm, rfl, hne⟩
    exact ⟨o, ⟨.inl hm, hne⟩, rfl⟩

/-! ## The state in which the slot's meaning acts -/

/-- The threads whose resume point is the slot have left the pass (R37). -/
def leftAtResume (s : State) (pkey : Nat) (l : Launch) (p : Pass) (n : Nat) (i : Instr) : State :=
  let s := tick s (pkey / 2) (p.ecyc - p.eprev)
  let f := infoOf l i
  let items := readItems f (isFed (decodeCtl (curPacket p).ctl).lit n) ++ writeItems f
  let v := slotView s l p (.run n i)
  let gone := (reaching s p n).filter (leaves v p (issueOf v pkey l p n []) ((Plan.run n i).acts s l p) items n)
  gone.foldl (fun s tid => leaveAtResume s pkey p n tid) s

theorem leftAtResume_leaving (s : State) (pkey : Nat) (l : Launch) (p : Pass) (n : Nat) (i : Instr) :
    Leaving pkey s (leftAtResume s pkey l p n i) :=
  (tick_leaving s pkey _ _).trans (foldl_leaveAtResume_leaving _ pkey p n _)

/-- A slot that traps in every thread that reaches it takes those whose guard is true, as it stands. -/
theorem prepare_cur_of_traps (s : State) (pkey : Nat) (l : Launch) (p : Pass) {plan : Plan}
    (h : plan.instr = .illegalInstruction) :
    (prepare s pkey l p plan).1.cur = issueOf (tick s (pkey / 2) (p.ecyc - p.eprev)) pkey l p plan.slot [] := by
  cases plan with
  | trap n cause => rfl
  | run n i =>
    obtain rfl : i = .illegalInstruction := h
    rfl

theorem prepare_cur_of_runs (s : State) (pkey : Nat) (l : Launch) (p : Pass) (n : Nat) {i : Instr}
    (h : i ≠ .illegalInstruction) :
    let t := leftAtResume s pkey l p n i
    let q := (t.pass pkey).getD p
    (prepare s pkey l p (.run n i)).1.cur = issueOf (flipped t q n).1 pkey l q n (flipped t q n).2 := by
  unfold prepare
  dsimp only
  split
  case h_1 => contradiction
  case h_2 heq => cases heq; exact absurd rfl h
  case h_3 => rfl

theorem issueStart_of_traps {s : State} {x : Next} (h : x.plan.instr = .illegalInstruction) :
    issueStart s x = (prepare s x.pkey x.launch x.pass x.plan).1 := by
  unfold issueStart
  dsimp only
  split
  case h_1 => rfl
  case h_2 => rfl
  case h_3 n i hi hp => rw [hp] at h; exact absurd h hi

theorem issueStart_of_runs {s : State} {x : Next} (h : x.plan.instr ≠ .illegalInstruction) :
    ∃ items, issueStart s x = raiseBad (prepare s x.pkey x.launch x.pass x.plan).1 items := by
  unfold issueStart
  dsimp only
  split
  case h_1 n c hp => rw [hp] at h; exact absurd rfl h
  case h_2 n hp => rw [hp] at h; exact absurd rfl h
  case h_3 => exact ⟨_, rfl⟩

theorem guardTrue_congr {pk : Nat} {s t u : State} {p q : Pass} (n : Nat) (flip : List Nat) (hst : Leaving pk s t)
    (hu : u.threads = t.threads) (hpq : p.Lost q) : guardTrue u q n flip = guardTrue s p n flip := by
  funext k
  have hg : curPacket q = curPacket p := by rw [hpq.frame]; rfl
  have hk : ∀ i, (u.thread k).pred i = (s.thread k).pred i := fun i => by rw [← hst.pred, State.thread, hu]; rfl
  simp only [guardTrue, hg, hk]

/-- A slot acts on threads of its pass in lane order: where it traps, on those whose guard is true; where it runs, and no producer
of the guard is too near, the guard is that from before the chain. -/
theorem issueStart_acts {s : State} {x : Next} (hp : s.pass x.pkey = some x.pass) :
    ∃ flip, (issueStart s x).cur.Acts x.pass.tids (guardTrue s x.pass x.plan.slot flip) ∧
      let g := (guardOf (decodeCtl (curPacket x.pass).ctl) x.plan.slot).1
      (x.plan.instr = .illegalInstruction → flip = []) ∧
      (x.plan.instr ≠ .illegalInstruction → staleFor s x.pass x.pass.tids [128 + g] = [] →
        ∀ k, k ∈ flip ↔ Differs s g (x.pass.chain.filter fun o => o.item == 128 + g) k) := by
  by_cases h : x.plan.instr = .illegalInstruction
  · refine ⟨[], ?_, fun _ => rfl, fun hne => absurd h hne⟩
    rw [issueStart_of_traps h, prepare_cur_of_traps _ _ _ _ h, ← guardTrue_congr _ _ (tick_leaving s x.pkey _ _) rfl (.refl _)]
    exact issueOf_acts ..
  · obtain ⟨n, i, hplan⟩ : ∃ n i, x.plan = .run n i := by
      cases hx : x.plan with
      | run n i => exact ⟨n, i, rfl⟩
      | trap n c => rw [hx] at h; exact absurd rfl h
    have hi : i ≠ .illegalInstruction := by rwa [hplan] at h
    have hst := leftAtResume_leaving s x.pkey x.launch x.pass n i
    obtain ⟨q, hq, hpq⟩ := hst.pass x.pass hp
    obtain ⟨items, hstart⟩ := issueStart_of_runs (s := s) h
    refine ⟨(flipped (leftAtResume s x.pkey x.launch x.pass n i) q n).2, ?_, fun he => absurd he h, fun _ hstale => ?_⟩
    · rw [hstart]
      refine raiseAll_acts ?_ _ _ _
      rw [hplan, prepare_cur_of_runs _ _ _ _ _ hi, hq,
        ← guardTrue_congr _ _ hst (chooseOlds_threads _ _) hpq]
      exact (issueOf_acts ..).mono hpq.tids
    · rw [hplan] at hstale ⊢
      exact mem_flipped n hst hpq hstale

/-- A thread that a chained slot gave another predicate is flipped, so its guard reads the predicate from before. -/
theorem guardTrue_of_chain {s : State} {p : Pass} {n : Nat} {flip : List Nat} {os : List Old} {o : Old}
    (hflip : ∀ k, k ∈ flip ↔ Differs s (guardOf (decodeCtl (curPacket p).ctl) n).1 os k) (ho : o ∈ os)
    (hsame : ∀ q, q ∈ os → q.tid = o.tid → q.val = o.val) :
    guardTrue s p n flip o.tid = ((o.val != 0) != (guardOf (decodeCtl (curPacket p).ctl) n).2) := by
  have hmem : o.tid ∈ flip ↔ (o.val != 0) ≠ (s.thread o.tid).pred (guardOf (decodeCtl (curPacket p).ctl) n).1 := by
    rw [hflip]
    exact ⟨fun ⟨q, hq, ht, hne⟩ => hsame q hq ht ▸ hne, fun hne => ⟨o, ho, rfl, hne⟩⟩
  have hc : flip.contains o.tid = ((o.val != 0) != (s.thread o.tid).pred (guardOf (decodeCtl (curPacket p).ctl) n).1) := by
    rw [Bool.eq_iff_iff, List.contains_iff_mem, hmem, bne_iff_ne]
  simp only [guardTrue, hc]
  generalize (s.thread o.tid).pred _ = x
  generalize (o.val != 0) = y
  generalize (guardOf (decodeCtl (curPacket p).ctl) n).2 = z
  revert x y z
  decide

/-- Settles O44: `prepare` fixes the slot's threads by `issueOf`, and register-error traps take some off. The guard differs from the
predicate as it stands only where a slot of the chain wrote it. -/
theorem slotThreads : Obligations.SlotThreads := by
  unfold Obligations.SlotThreads
  intro s s' x hnext c
  obtain ⟨flip, (hacts : c.Acts _ _), htraps, hruns⟩ := issueStart_acts (nextIssue_pass hnext)
  have hsub : c.tids.Sublist c.all := by rw [hacts.tids]; exact List.filter_sublist
  refine ⟨hacts.nodup, hacts.nodup.sublist hsub, hacts.rising, hacts.rising.sublist hsub, hsub.subset, hacts.within,
    fun hstale => ⟨fun hbefore k => ?_, fun n i hplan hi o ho hsame => ?_⟩⟩
  · have hflip : flip = [] := by
      by_cases h : x.plan.instr = .illegalInstruction
      · exact htraps h
      · refine List.eq_nil_iff_forall_not_mem.mpr fun k hk => ?_
        obtain ⟨o, ho, -⟩ := (hruns h hstale k).mp hk
        simp [hbefore] at ho
    rw [hacts.mem_tids, hflip]
    simp [guardTrue]
  · have h : x.plan.instr ≠ .illegalInstruction := by rw [hplan]; exact hi
    rw [hacts.mem_tids, guardTrue_of_chain (hruns h hstale) ho hsame]

end Sys2Proof.Machine
end

section
/-! SUPPORT. What a step does with the agenda, with what starts first, with slots and with the events that are due (R33, R41, R197). -/
namespace Sys2Proof.Machine

/-! ## The cases of a step -/

theorem step_of_agenda {s : State} {i : Instr} {rest : List Instr} (h : s.agenda = i :: rest) :
    step s = carryOut exec i { s with agenda := rest } := by
  simp only [step, h]

theorem step_of_starts {s : State} {r : Host.Outcome State Fault Refusal} (ha : s.agenda = [])
    (h : firstDue (carryOut exec) s (startEvents s) = some r) : step s = r := by
  simp only [step, ha, h]

theorem step_of_turn {s : State} (ha : s.agenda = []) (hs : firstDue (carryOut exec) s (startEvents s) = none) :
    step s = if s.turn then stepEvent s else stepSlot s := by
  simp only [step, ha, hs]

/-- On the events' turn an event that is due comes first; where none is, it is the slots' turn. -/
theorem stepEvent_of_due {s : State} {r : Host.Outcome State Fault Refusal} (h : runDue (carryOut exec) s = some r) :
    stepEvent s = onNext (fun u => { u with turn := false }) r := by
  simp only [stepEvent, h]

theorem stepEvent_of_none {s : State} (h : runDue (carryOut exec) s = none) : stepEvent s = stepSlot s := by
  simp only [stepEvent, h]

theorem stepSlot_of_issue {s s' : State} {x : Next} (h : nextIssue s = (s', some x)) :
    stepSlot s = onNext (fun u => { orWait none s' u with turn := true }) (runIssue exec s' x) := by
  simp only [stepSlot, h]

theorem stepSlot_of_none {s : State} (h : nextIssue s = (s, none)) :
    stepSlot s = (runDue (carryOut exec) s).getD (.next (idle s)) := by
  simp only [stepSlot, h]

theorem onNext_onNext (f g : State → State) (o : Host.Outcome State Fault Refusal) :
    onNext f (onNext g o) = onNext (fun u => f (g u)) o := by
  cases o <;> rfl

/-! ## Slots -/

theorem nextOf_plan {s : State} {pk : Nat} {x : Next} (h : nextOf s pk = some x) : x.plan = planOf x.launch x.pass := by
  unfold nextOf at h
  split at h
  · cases h
  · split at h
    · cases h
    · split at h
      · cases h
      · dsimp only at h
        rw [Option.ite_none_left_eq_some] at h
        obtain ⟨-, h⟩ := h
        cases h
        rfl

theorem nextIssue_plan {s s' : State} {x : Next} (h : nextIssue s = (s', some x)) : x.plan = planOf x.launch x.pass := by
  obtain ⟨hm, -⟩ := chooseOne_eq h
  obtain ⟨p, -, hp⟩ := List.mem_filterMap.mp hm
  exact nextOf_plan hp

/-- With no pass that can issue, no slot is next. -/
theorem nextIssue_none {s : State} (h : ∀ p, p ∈ s.passes → nextOf s p.1 = none) : nextIssue s = (s, none) := by
  rw [nextIssue, List.filterMap_eq_nil_iff.mpr h]
  rfl

theorem slotInstr_decodes {l : Launch} {pk : Packet} {lit n : Nat} {i : Instr} (h : slotInstr l pk lit n = some i) :
    decodeWord (pk.word n) = .ok i := by
  unfold slotInstr at h
  split at h
  · cases h
  case h_2 j hj =>
    rw [Option.ite_none_right_eq_some] at h
    exact hj.trans (congrArg _ (Option.some.inj h.2))

/-- A plan to run an instruction other than the illegal-instruction trap runs what the slot's word decodes to. -/
theorem planOf_decodes {l : Launch} {p : Pass} {n : Nat} {i : Instr} (h : planOf l p = .run n i) :
    i = .illegalInstruction ∨ decodeWord ((curPacket p).word n) = .ok i := by
  simp only [planOf] at h
  split at h
  · cases h
  · split at h
    · cases h; exact .inl rfl
    · split at h
      · cases h; exact .inl rfl
      case h_2 j hj =>
        split at h
        · cases h; exact .inl rfl
        · generalize (p.csr.sbchk.getLsbD 0 && hazard p _ _) = early at h
          cases early
          · cases h; exact .inr (slotInstr_decodes hj)
          · cases h

/-- The instruction that acts is the slot's own, or the one of its word with the A field that a latch stands for (R99). -/
theorem acts_eq_or_decodes (s : State) (l : Launch) (p : Pass) (n : Nat) (i : Instr) :
    (Plan.run n i).acts s l p = i ∨ ((latchFor p (infoOf l i)).isSome ∧
      decodeWord (setFld ((curPacket p).word n) 7 7 (spareGroup s p (infoOf l i))) = .ok ((Plan.run n i).acts s l p)) := by
  simp only [Plan.acts]
  split
  case isTrue hl =>
    unfold withA
    split
    case h_1 j hj => exact .inr ⟨hl, hj⟩
    case h_2 => exact .inl rfl
  case isFalse => exact .inl rfl

theorem step_of_issue {s s' : State} {x : Next} (ha : s.agenda = [])
    (hs : firstDue (carryOut exec) s (startEvents s) = none) (ht : s.turn = false ∨ runDue (carryOut exec) s = none)
    (hx : nextIssue s = (s', some x)) :
    step s = onNext (fun u => { orWait none s' u with turn := true }) (runIssue exec s' x) := by
  rw [step_of_turn ha hs, ← stepSlot_of_issue hx]
  obtain ht | ht := ht
  · simp [ht]
  · simp [stepEvent_of_none ht]

/-- Settles O42: `step_of_issue` gives the step, and the plan's instruction is what the word decodes to. -/
theorem stepRunsSlot : Obligations.StepRunsSlot := by
  unfold Obligations.StepRunsSlot
  intro s s' x turned ha hs ht hx
  have hstep := step_of_issue ha hs ht hx
  refine ⟨fun n i hplan => ⟨planOf_decodes ((nextIssue_plan hx).symm.trans hplan), ?_, ?_⟩, fun n cause hplan => ?_⟩
  · rw [hplan]
    exact acts_eq_or_decodes ..
  · simp only [hstep, runIssue, hplan]
    split
    · rfl
    · exact onNext_onNext ..
  · simp only [hstep, runIssue, hplan]
    rfl

/-! ## Events -/

theorem firstDue_eq_some {meaning : Instr → State → Host.Outcome State Fault Refusal} {s : State} {l : List Instr}
    {r : Host.Outcome State Fault Refusal} (h : firstDue meaning s l = some r) : ∃ i ∈ l, r = meaning i s := by
  induction l with
  | nil => cases h
  | cons i l ih =>
    rw [firstDue] at h
    split at h
    case h_1 t ht =>
      split at h
      · obtain ⟨j, hj, hr⟩ := ih h
        exact ⟨j, List.mem_cons_of_mem i hj, hr⟩
      · cases h
        exact ⟨i, List.mem_cons_self, ht.symm⟩
    case h_2 =>
      cases h
      exact ⟨i, List.mem_cons_self, rfl⟩

/-- An event that is due is carried out as it stands, or after a free choice among several. -/
theorem runDue_eq_some {meaning : Instr → State → Host.Outcome State Fault Refusal} {s : State}
    {r : Host.Outcome State Fault Refusal} (h : runDue meaning s = some r) :
    ∃ i ∈ thermalEvents s ++ dueEvents s, ∃ z : State, z = { s with free := z.free } ∧ r = meaning i z := by
  unfold runDue at h
  split at h
  case h_1 q hq =>
    cases h
    obtain ⟨i, hi, hr⟩ := firstDue_eq_some hq
    exact ⟨i, List.mem_append_left _ hi, s, rfl, hr⟩
  case h_2 =>
    obtain ⟨i, hc, rfl⟩ := Option.map_eq_some_iff.mp h
    obtain ⟨hm, hz⟩ := chooseOne_eq (Prod.ext rfl hc)
    exact ⟨i, List.mem_append_right _ (List.mem_filter.mp hm).1, _, hz, rfl⟩

theorem carryOut_of_unblocked {i : Instr} {s t : State} (h : exec i s = .next t) (hb : t.blocked = []) :
    carryOut exec i s = .next t := by
  rw [carryOut, h, onNext, orWait, hb]
  rfl

/-- At a sector that develops, an event that does not wait there yet joins the queue. -/
theorem waitAt_of_develops {s : State} {k : Nat} {i : Instr} {v : Dev} (hdir : kvGet s.dir k = none)
    (hdev : kvGet s.devs k = some v) (hi : i ∉ v.waiting) :
    (waitAt s k i).1 = { s with devs := kvPut s.devs k { v with waiting := v.waiting ++ [i] } } := by
  simp only [waitAt, hdir, hdev, List.contains_iff_mem, if_neg hi]

theorem carryOut_of_blocked {i : Instr} {s t : State} {k : Nat} {v : Dev} (h : exec i s = .next t) (hb : t.blocked = [k])
    (hdir : kvGet s.dir k = none) (hdev : kvGet s.devs k = some v) (hi : i ∉ v.waiting) :
    carryOut exec i s = .next { s with devs := kvPut s.devs k { v with waiting := v.waiting ++ [i] } } := by
  rw [carryOut, h, onNext, orWait, hb, ← waitAt_of_develops hdir hdev hi]
  rfl

/-- Settles O43: a step by the cases of what comes first, and an event by the sectors that it waits for. -/
theorem stepRunsEvent : Obligations.StepRunsEvent := by
  unfold Obligations.StepRunsEvent
  intro s run
  refine ⟨fun i rest h => step_of_agenda h, fun ha => ⟨fun r hr => ?_, fun hs hnone => ?_⟩, fun i t ht =>
    ⟨carryOut_of_unblocked ht, fun k v hb hdir hdev hi => carryOut_of_blocked ht hb hdir hdev hi⟩⟩
  · exact ⟨step_of_starts ha hr, firstDue_eq_some hr⟩
  · have hslot := stepSlot_of_none (nextIssue_none hnone)
    cases hdue : runDue run s with
    | none =>
      right
      rw [step_of_turn ha hs, stepEvent_of_none hdue, ite_self, hslot, hdue]
      rfl
    | some r =>
      left
      obtain ⟨i, hi, z, hz, rfl⟩ := runDue_eq_some hdue
      refine ⟨i, hi, z, hz, ?_⟩
      rw [step_of_turn ha hs, stepEvent_of_due hdue, hslot, hdue]
      split
      · exact .inr rfl
      · exact .inl rfl

end Sys2Proof.Machine
end

section
/-! SUPPORT. Transfers: what a thread's target writes in the pass, and the slot that it notes there (R30, R324). -/
namespace Sys2Proof.Machine

theorem curLaunch_of_pass {s : State} {p : Pass} {l : Launch} (hp : s.pass s.curPass = some p)
    (hl : s.launch p.launch = some l) : curLaunch s = some l := by
  simp only [curLaunch, hp, Option.bind_some, hl]

theorem exiting_of_pass {s : State} {p : Pass} (hp : s.pass s.curPass = some p) (k : Nat) :
    exiting s k = (kvGet p.waits k == some .exit) := by
  simp only [exiting, hp, Option.bind_some]

theorem setTarget_of_pass {s : State} {p : Pass} (hp : s.pass s.curPass = some p) (k pkt slot : Nat) :
    setTarget s k pkt slot =
      s.setPass s.curPass { p with targets := kvPut p.targets k (4 * pkt + slot), tslot := s.cur.slot } := by
  simp only [setTarget, hp]

/-- A thread that waits at no EXIT takes the START of a block as its target. -/
theorem transfer_of_start {s : State} {p : Pass} {l : Launch} (hp : s.pass s.curPass = some p)
    (hl : s.launch p.launch = some l) {k n : Nat} (hk : kvGet p.waits k ≠ some .exit) (hn : (l.blkAt n).isSome) :
    transfer s k (some n) = setTarget s k n 0 := by
  simp [transfer, exiting_of_pass hp, curLaunch_of_pass hp hl, hk, hn]

theorem relPacket_of_eq {s : State} {off : BitVec 24} {n : Nat} (h : (n : Int) = s.cur.pkt + off.toInt) :
    relPacket s off = some n := by
  simp only [relPacket, ← h, Int.natCast_nonneg, if_true, Int.toNat_natCast]

/-- A BRA of one thread leaves its own slot in the pass beside the target. -/
theorem exec_bra_of_one {s : State} {p : Pass} {l : Launch} (hp : s.pass s.curPass = some p)
    (hl : s.launch p.launch = some l) {k n : Nat} {off : BitVec 24} (hk : kvGet p.waits k ≠ some .exit)
    (hn : (l.blkAt n).isSome) (hoff : (n : Int) = s.cur.pkt + off.toInt) (htids : s.cur.tids = [k]) :
    exec (.bra off) s =
      .next (s.setPass s.curPass { p with targets := kvPut p.targets k (4 * n), tslot := s.cur.slot }) := by
  show Host.Outcome.next (eachLane s _) = _
  rw [eachLane, htids, List.foldl_cons, List.foldl_nil, relPacket_of_eq hoff, transfer_of_start hp hl hk hn,
    setTarget_of_pass hp]
  rfl

/-- Thread 0 of a pass of one packet stands at slot A with a BRA to that packet; the pass holds no transfer yet. -/
def atSlotA : State := { placeWord State.reset 0x02000000 with cur := { Issue.reset with tids := [0], slot := 1 } }

/-- Refutes O16: a BRA in slot A leaves 1 as the slot of the pass's transfers (`Pass.tslot`), while `Transfers` keeps every field of
the pass but the targets. In `atSlotA` the field holds 0 before, and the BRA to its own packet 0, the START of a block, completes. -/
theorem not_branches : ¬ Obligations.Branches := by
  unfold Obligations.Branches
  intro h
  obtain ⟨p, hp, hlaunch, hwaits, htslot⟩ :
      ∃ p, atSlotA.pass atSlotA.curPass = some p ∧ p.launch = 0 ∧ p.waits = [] ∧ p.tslot = 0 := ⟨_, rfl, rfl, rfl, rfl⟩
  have hl : atSlotA.launch p.launch = some stageLaunch := by rw [hlaunch]; rfl
  obtain ⟨-, hbra, -⟩ := h atSlotA p stageLaunch 0 0 hp hl
  obtain ⟨t, ht, -, q, ⟨-, hq, -⟩, hframe, -⟩ := hbra 0 rfl rfl
  have hexec := exec_bra_of_one (k := 0) (n := 0) (off := 0) hp hl (by simp [hwaits]) rfl rfl rfl
  rw [hexec] at ht
  cases ht
  have hwritten : q.tslot = 1 := by
    rw [State.setPass_pass, if_pos rfl] at hq
    rw [← Option.some.inj hq]
    rfl
  have hkept : q.tslot = p.tslot := by rw [hframe]
  omega

end Sys2Proof.Machine
end

section
/-! SUPPORT. Threads that wait at the end of their pass: what `setWait` leaves in the pass, and the pending access that it makes
(R32, R223). -/
namespace Sys2Proof.Machine

theorem Joins.nil {s t : State} (A : Nat → Access → Prop) (ha : t.accs = s.accs) (hs : t.seq = s.seq) : Joins s t [] A :=
  ⟨by simp [hs], fun _ h => absurd h (Nat.not_lt_zero _), fun _ _ => by simp only [State.acc, ha]⟩

/-- Accesses made one list of threads after the other, where the slot and the threads stay. -/
theorem Joins.append {s u t : State} {ks js : List Nat} {A : Nat → Access → Prop} (h : Joins s u ks A) (h' : Joins u t js A)
    (hc : u.cur = s.cur) (ht : u.threads = s.threads) : Joins s t (ks ++ js) A := by
  obtain ⟨hseq, hnew, hold⟩ := h
  obtain ⟨hseq', hnew', hold'⟩ := h'
  have hfresh : ∀ k a, Fresh u k a → Fresh s k a := fun k a => by simp only [Fresh, State.thread, hc, ht, imp_self]
  refine ⟨by rw [hseq', hseq, List.length_append, Nat.add_assoc], fun j hj => ?_, fun id hid => ?_⟩
  · rw [List.length_append] at hj
    by_cases hk : j < ks.length
    · rw [hold' _ (.inl (by omega)), List.getElem_append_left hk]
      exact hnew j hk
    · obtain ⟨a, ha, hf, hA⟩ := hnew' (j - ks.length) (by omega)
      rw [List.getElem_append_right (by omega), show s.seq + j = u.seq + (j - ks.length) by omega]
      exact ⟨a, ha, hfresh _ _ hf, hA⟩
  · rw [List.length_append] at hid
    rw [hold' id (by omega), hold id (by omega)]

/-- The pending wait of a thread in the order of its events. -/
def IsAwait (w : Wait) (a : Access) : Prop := a.kind = .await w.acquires ∧ a.dst = [] ∧ a.dstP = none

theorem newAcc_fresh (s : State) (k : Nat) (x : AccKind) : Fresh s k (newAcc s k x) :=
  ⟨rfl, rfl, rfl, rfl, rfl, rfl, rfl, rfl, by simp [newAcc, Access.blank]⟩

theorem addAcc_joins {s : State} {k : Nat} {a : Access} {A : Nat → Access → Prop} (hf : Fresh s k a) (hA : A k a) :
    Joins s (addAcc s a) [k] A := by
  refine ⟨rfl, fun j hj => ?_, fun id hid => ?_⟩
  · obtain rfl : j = 0 := Nat.lt_one_iff.mp hj
    exact ⟨a, by simp [addAcc_acc], hf, hA⟩
  · rw [addAcc_acc, if_neg]
    simp only [List.length_singleton] at hid
    omega

/-- From `s` to `t` some threads of pass `p` come to wait as `w` says, and the pass is then `q`. -/
structure Waiting (s t : State) (p q : Pass) (w : Wait) (ks : List Nat) : Prop where
  frame : t = { s with passes := t.passes, accs := t.accs, seq := t.seq }
  step : PassStep s t p q
  pass : q = { p with waits := q.waits, waitWord := q.waitWord }
  word : q.waitWord = if ks = [] then p.waitWord else s.cur.word
  waits : ∀ k, kvGet q.waits k = if k ∈ ks then some w else kvGet p.waits k
  joins : Joins s t (ks.filter fun _ => w != .exit) fun _ => IsAwait w

theorem Waiting.nil {s : State} {p : Pass} (w : Wait) (hp : s.pass s.curPass = some p) : Waiting s s p p w [] where
  frame := rfl
  step := ⟨hp, hp, fun _ _ => rfl⟩
  pass := rfl
  word := rfl
  waits _ := rfl
  joins := .nil _ rfl rfl

theorem Waiting.append {s u t : State} {p q r : Pass} {w : Wait} {ks js : List Nat} (h : Waiting s u p q w ks)
    (h' : Waiting u t q r w js) : Waiting s t p r w (ks ++ js) := by
  have hcur : u.cur = s.cur := by rw [h.frame]
  have hkey : u.curPass = s.curPass := by rw [State.curPass, hcur]; rfl
  obtain ⟨hp, -, hother⟩ := h.step
  obtain ⟨-, hr, hother'⟩ := h'.step
  rw [hkey] at hr hother'
  exact {
    frame := h'.frame.trans (by rw [h.frame])
    step := ⟨hp, hr, fun i hi => (hother' i hi).trans (hother i hi)⟩
    pass := h'.pass.trans (by rw [h.pass])
    word := by
      rw [h'.word, h.word, hcur]
      cases js <;> cases ks <;> rfl
    waits := fun k => by
      rw [h'.waits, h.waits]
      by_cases hk : k ∈ js <;> simp [hk]
    joins := by
      rw [List.filter_append]
      exact h.joins.append h'.joins hcur (by rw [h.frame]) }

theorem setWait_waiting {s : State} {p : Pass} (w : Wait) (k : Nat) (hp : s.pass s.curPass = some p) :
    Waiting s (setWait s k w) p { p with waits := kvPut p.waits k w, waitWord := s.cur.word } w [k] := by
  have hpass : ∀ t : State, t.passes = kvPut s.passes s.curPass { p with waits := kvPut p.waits k w, waitWord := s.cur.word } →
      PassStep s t p { p with waits := kvPut p.waits k w, waitWord := s.cur.word } := fun t ht =>
    ⟨hp, by simp [State.pass, ht], fun i hi => by simp [State.pass, ht, Ne.symm hi]⟩
  have hwaits : ∀ i, kvGet (kvPut p.waits k w) i = if i ∈ [k] then some w else kvGet p.waits i := fun i => by
    rw [kvGet_kvPut]; simp [eq_comm]
  by_cases hw : w = .exit
  · subst hw
    simp only [setWait, hp]
    exact ⟨rfl, hpass _ rfl, rfl, rfl, hwaits, .nil _ rfl rfl⟩
  · simp only [setWait, hp, if_neg hw]
    refine ⟨rfl, hpass _ rfl, rfl, rfl, hwaits, ?_⟩
    rw [List.filter_eq_self.mpr (by simp [hw])]
    exact addAcc_joins (A := fun _ => IsAwait w) (newAcc_fresh _ _ _) ⟨rfl, rfl, rfl⟩

theorem foldl_setWait_waiting {s : State} {p : Pass} (w : Wait) (ks : List Nat) (hp : s.pass s.curPass = some p) :
    ∃ q, Waiting s (ks.foldl (fun s k => setWait s k w) s) p q w ks := by
  induction ks generalizing s p with
  | nil => exact ⟨p, .nil w hp⟩
  | cons k ks ih =>
    have hk := setWait_waiting w k hp
    have hkey : (setWait s k w).curPass = s.curPass := by rw [hk.frame]; rfl
    obtain ⟨q, hq⟩ := ih (hkey ▸ hk.step.2.1)
    exact ⟨q, hk.append hq⟩

/-- A slot that makes each active thread wait in the same way. -/
theorem waits_of_eachLane {s : State} {i : Instr} {w : Wait} (h : exec i s = .next (eachLane s fun s k => setWait s k w)) :
    Waits s i fun _ => w := by
  intro p hp
  obtain ⟨q, hq⟩ := foldl_setWait_waiting w s.cur.tids hp
  exact ⟨_, q, h, hq.frame, hq.step, hq.pass, fun hne => hq.word.trans (if_neg hne), hq.waits, hq.joins⟩

/-- Settles O18: each of the three is `setWait` in every active thread. -/
theorem threadWaits : Obligations.ThreadWaits := by
  unfold Obligations.ThreadWaits
  intro s n d q
  exact ⟨waits_of_eachLane rfl, waits_of_eachLane rfl, waits_of_eachLane rfl⟩

end Sys2Proof.Machine
end

section
/-! SUPPORT. The same precise trap in several threads, one after the other (R55). -/
namespace Sys2Proof.Machine

/-- Some threads have taken the same trap at the slot, and of the slot only its lists of threads have changed. -/
structure AllRaised (s t : State) (ks : List Nat) (cause sub : Nat) (pc : DWord) : Prop where
  trapAll : TrapAll s t ks cause sub pc
  cur : t.cur = { s.cur with tids := t.cur.tids, all := t.cur.all }

section
variable {s u : State} {ks : List Nat} {cause sub : Nat} {pc : DWord}

theorem AllRaised.nil (s : State) (cause sub : Nat) (pc : DWord) : AllRaised s s [] cause sub pc :=
  ⟨⟨rfl, fun _ _ => rfl, by simp, by simp, fun _ _ => rfl, by simp⟩, rfl⟩

theorem AllRaised.curPass (h : AllRaised s u ks cause sub pc) : u.curPass = s.curPass := by
  rw [State.curPass, h.cur]
  rfl

theorem AllRaised.curPc (h : AllRaised s u ks cause sub pc) : curPc u = curPc s := by
  rw [Sys2Proof.Machine.curPc, h.cur]
  rfl

theorem AllRaised.other (h : AllRaised s u ks cause sub pc) {k : Nat} (hk : k ∉ ks) : u.thread k = s.thread k :=
  h.trapAll.2.1 k hk

theorem AllRaised.took (h : AllRaised s u ks cause sub pc) {k : Nat} (hk : k ∈ ks) :
    TookTrap s k cause sub s.cur.word pc (s.thread k) (u.thread k) :=
  h.trapAll.2.2.1 k hk

theorem AllRaised.team_eq (h : AllRaised s u ks cause sub pc) (tk : Nat) : u.team tk = s.team tk := by
  rw [State.team, h.trapAll.1]
  rfl

theorem AllRaised.launch_eq (h : AllRaised s u ks cause sub pc) (lid : Nat) : u.launch lid = s.launch lid := by
  rw [State.launch, h.trapAll.1]
  rfl

/-- A thread after a trap is live: it waits at its trap block, or is parked (R25, R55). -/
theorem TookTrap.live {s : State} {k : Nat} {word : Word} {x y : Thread} (h : TookTrap s k cause sub word pc x y) :
    y.live = true := by
  obtain ⟨-, -, -, -, -, -, -, -, -, -, -, -, -, -, -, -, -, -, -, -, -, hs, -, hstatus, -⟩ := h
  rw [Thread.live, hstatus]
  cases carriedWait (hs ++ x.held) <;> rfl

theorem TookTrap.team_eq {s : State} {k : Nat} {word : Word} {x y : Thread} (h : TookTrap s k cause sub word pc x y) :
    y.team = x.team := by
  obtain ⟨-, -, -, -, -, -, -, -, -, -, -, -, -, -, -, -, -, -, hteam, -⟩ := h
  exact hteam

theorem AllRaised.thread_team (h : AllRaised s u ks cause sub pc) (k : Nat) : (u.thread k).team = (s.thread k).team := by
  by_cases hk : k ∈ ks
  · exact (h.took hk).team_eq
  · rw [h.other hk]

/-- Traps make no live thread dead. -/
theorem AllRaised.live (h : AllRaised s u ks cause sub pc) {k : Nat} (hlive : (s.thread k).live = true) :
    (u.thread k).live = true := by
  by_cases hk : k ∈ ks
  · exact (h.took hk).live
  · rwa [h.other hk]

theorem AllRaised.launchOf_eq (h : AllRaised s u ks cause sub pc) (k : Nat) : launchOf u k = launchOf s k := by
  simp only [launchOf, h.thread_team, h.team_eq, h.launch_eq]

theorem AllRaised.canTrap (h : AllRaised s u ks cause sub pc) {k : Nat} (hk : k ∉ ks) (hc : CanTrap s k) : CanTrap u k := by
  rw [CanTrap, h.other hk, h.launchOf_eq]
  exact hc

theorem AllRaised.snoc (h : AllRaised s u ks cause sub pc) {k : Nat} (hk : k ∉ ks) (hc : CanTrap s k) :
    AllRaised s (raiseAt u k cause sub pc) (ks ++ [k]) cause sub pc := by
  have hr := raiseAt_raised (h.canTrap hk hc) cause sub pc
  have hword : u.cur.word = s.cur.word := by rw [h.cur]
  have hpass := h.curPass
  obtain ⟨hframe, hother, htook, hleft, haway, hoff⟩ := h.trapAll
  have hne : ∀ {j}, j ∈ ks → j ≠ k := fun hj e => hk (e ▸ hj)
  refine ⟨⟨?_, fun j hj => ?_, fun j hj => ?_, fun p hp j hj => ?_, fun q hq => ?_, fun j hj => ?_⟩, ?_⟩
  · exact hr.frame.trans (by rw [hframe])
  · simp only [List.mem_append, List.mem_singleton, not_or] at hj
    rw [hr.other j hj.2, hother j hj.1]
  · obtain hj | hj := List.mem_append.mp hj
    · rw [hr.other j (hne hj)]
      exact htook j hj
    · obtain rfl := List.mem_singleton.mp hj
      have ht := hr.took
      rw [TookTrap, h.launchOf_eq, hother j hk, hword] at ht
      exact ht
  · obtain ⟨q, hq, hp⟩ := hr.left p (by rw [hpass]; exact hp)
    rw [hp, List.mem_filter]
    rintro ⟨hjq, hjk⟩
    obtain hj | hj := List.mem_append.mp hj
    · exact hleft q (hpass ▸ hq) j hj hjq
    · exact (bne_iff_ne.mp hjk) (List.mem_singleton.mp hj)
  · rw [hr.away q (by rw [hpass]; exact hq), haway q hq]
  · rw [hr.cur, List.mem_filter]
    rintro ⟨hjt, hjk⟩
    obtain hj | hj := List.mem_append.mp hj
    · exact hoff j hj hjt
    · exact (bne_iff_ne.mp hjk) (List.mem_singleton.mp hj)
  · rw [hr.cur, h.cur]

/-- A fold that traps each of some distinct threads, whatever the traps before have left. -/
theorem allRaised_foldl {f : State → Nat → State} {js : List Nat} (hnodup : js.Nodup) (hcan : ∀ k, k ∈ js → CanTrap s k)
    (hf : ∀ u ks k, AllRaised s u ks cause sub pc → k ∈ js → k ∉ ks → f u k = raiseAt u k cause sub pc) :
    AllRaised s (js.foldl f s) js cause sub pc := by
  suffices h : ∀ (js ks : List Nat) (u : State), (ks ++ js).Nodup → (∀ k, k ∈ js → CanTrap s k) →
      (∀ u ks k, AllRaised s u ks cause sub pc → k ∈ js → k ∉ ks → f u k = raiseAt u k cause sub pc) →
      AllRaised s u ks cause sub pc → AllRaised s (js.foldl f u) (ks ++ js) cause sub pc from
    h js [] s hnodup hcan hf (.nil s cause sub pc)
  clear hnodup hcan hf js
  intro js
  induction js with
  | nil => intro ks u _ _ _ h; rwa [List.append_nil]
  | cons k js ih =>
    intro ks u hnodup hcan hf h
    have hk : k ∉ ks := fun hm => (List.nodup_append.mp hnodup).2.2 k hm k List.mem_cons_self rfl
    rw [List.foldl_cons, hf u ks k h List.mem_cons_self hk, List.append_cons]
    rw [List.append_cons] at hnodup
    exact ih (ks ++ [k]) _ hnodup (fun j hj => hcan j (List.mem_cons_of_mem k hj))
      (fun u ks j hu hj => hf u ks j hu (List.mem_cons_of_mem k hj)) (h.snoc hk (hcan k List.mem_cons_self))

end

end Sys2Proof.Machine
end

section
/-! SUPPORT. Slots that write a value in each active thread from the state as it stood before, however often a thread is named. -/
namespace Sys2Proof.Machine

/-- A fold that writes threads, in a relation that holds on writing once and lasts when the same is written again. -/
theorem foldl_updThread {R : Nat → Thread → Thread → Prop} {g : Nat → Thread → Thread}
    (hg : ∀ k x, R k x (g k x)) (hgg : ∀ k x y, R k x y → R k x (g k y)) (ks : List Nat) (s : State) :
    let t := ks.foldl (fun s k => s.updThread k (g k)) s
    t = { s with threads := t.threads } ∧ (∀ k, k ∉ ks → t.thread k = s.thread k) ∧
      ∀ k, k ∈ ks → R k (s.thread k) (t.thread k) := by
  suffices h : let t := ks.foldl (fun s k => s.updThread k (g k)) s
      t = { s with threads := t.threads } ∧ (∀ k, k ∉ ks → t.thread k = s.thread k) ∧
      (∀ k, k ∈ ks → R k (s.thread k) (t.thread k)) ∧ ∀ k x, R k x (s.thread k) → R k x (t.thread k) from
    ⟨h.1, h.2.1, h.2.2.1⟩
  induction ks generalizing s with
  | nil => exact ⟨rfl, fun _ _ => rfl, by simp, fun _ _ h => h⟩
  | cons k ks ih =>
    obtain ⟨hframe, hout, hin, hkeep⟩ := ih (s.updThread k (g k))
    rw [List.foldl_cons]
    refine ⟨hframe.trans rfl, fun j hj => ?_, fun j hj => ?_, fun j x hx => hkeep j x ?_⟩
    · rw [List.mem_cons, not_or] at hj
      rw [hout j hj.2, State.updThread_thread, if_neg (Ne.symm hj.1)]
    · by_cases hjk : k = j
      · subst hjk
        refine hkeep k _ ?_
        rw [State.updThread_thread, if_pos rfl]
        exact hg k _
      · have hjs : j ∈ ks := (List.mem_cons.mp hj).resolve_left (Ne.symm hjk)
        simpa only [State.updThread_thread, if_neg hjk] using hin j hjs
    · rw [State.updThread_thread]
      split
      case isTrue e => subst e; exact hgg k x _ hx
      case isFalse => exact hx

/-- Two folds that agree in every state that an invariant holds of. -/
theorem foldl_congr_of_inv {P : State → Prop} {f g : State → Nat → State} {ks : List Nat} {s : State}
    (h : ∀ u k, k ∈ ks → P u → f u k = g u k ∧ P (g u k)) (hs : P s) : ks.foldl f s = ks.foldl g s := by
  induction ks generalizing s with
  | nil => rfl
  | cons k ks ih =>
    obtain ⟨he, hg⟩ := h s k List.mem_cons_self hs
    rw [List.foldl_cons, List.foldl_cons, he]
    exact ih (fun u j hj => h u j (List.mem_cons_of_mem k hj)) hg

theorem setReg_wrote_again {x y : Thread} {d w : Nat} {v : Word} (h : x.Wrote y 1 d w) (hv : w = v.toNat) :
    x.Wrote (y.setReg d v) 1 d w := by
  obtain ⟨hframe, hout, -⟩ := h
  obtain ⟨-, hout', hgroup⟩ := y.setReg_wrote d v
  exact ⟨by rw [hframe]; rfl, fun r hr => (hout' r hr).trans (hout r hr), by rw [hgroup, hv]⟩

theorem setPred_wrote_again {x y : Thread} {p : Nat} {v : Bool} (h : x.WrotePred y p v) :
    x.WrotePred (y.setPred p v) p v := by
  obtain ⟨hframe, hpred⟩ := h
  obtain ⟨hframe', hpred'⟩ := y.setPred_wrote p v
  refine ⟨hframe'.trans (by rw [hframe]), fun q => ?_⟩
  rw [hpred', hpred]
  split
  · rfl
  · split <;> rfl

end Sys2Proof.Machine
end

section
/-! SUPPORT. The lead of a team, and the team registers (R49-R51). -/
namespace Sys2Proof.Machine

/-! ## The lead -/

/-- Where the live threads are among those that are live later, who leads later and is live now leads now. -/
theorem find?_eq_of_imp {p q : Nat → Bool} {l : List Nat} {k : Nat} (hpq : ∀ j, p j = true → q j = true) (hk : p k = true)
    (h : l.find? q = some k) : l.find? p = some k := by
  obtain ⟨-, as, bs, rfl, has⟩ := List.find?_eq_some_iff_append.mp h
  refine List.find?_eq_some_iff_append.mpr ⟨hk, as, bs, rfl, fun j hj => ?_⟩
  have hq := has j hj
  simp only [Bool.not_eq_true', Bool.eq_false_iff] at hq ⊢
  exact fun hp => hq (hpq j hp)

/-- Traps of other threads make no thread the lead. -/
theorem AllRaised.isLead {s u : State} {ks : List Nat} {cause sub : Nat} {pc : DWord} (h : AllRaised s u ks cause sub pc)
    {k : Nat} (hk : k ∉ ks) (hlead : isLead s k = false) : isLead u k = false := by
  refine Bool.eq_false_iff.mpr fun hu => Bool.eq_false_iff.mp hlead ?_
  simp only [Sys2Proof.Machine.isLead, h.thread_team, h.team_eq] at hu ⊢
  split
  case h_1 t ht =>
    simp only [ht, leadOf, beq_iff_eq] at hu ⊢
    have hlive : (u.thread k).live = true := List.find?_some (p := fun j => (u.thread j).live) hu
    exact find?_eq_of_imp (fun j => h.live) (h.other hk ▸ hlive) hu
  case h_2 ht => simp [ht] at hu

theorem elect_givesPred (s : State) (pd : Pred) : GivesPred s (.elect pd) pd.toNat fun k _ => isLead s k :=
  ⟨_, rfl, foldl_updThread (R := fun k x y => x.WrotePred y pd.toNat (isLead s k)) (fun _ x => x.setPred_wrote _ _)
    (fun _ _ _ => setPred_wrote_again) s.cur.tids s⟩

/-! ## KMOV -/

/-- A team with a register written by a pass, which the passes that overlap may read as before (R51). -/
def Team.wroteK (t : Team) (k : Nat) (v : Word) (pass : Nat) : Team :=
  { t with kregs := kvSet 0 t.kregs k v, kpend := t.kpend ++ [⟨k, kvGetD 0 t.kregs k, pass, 0⟩] }

theorem kmovLane_of_lead {s : State} {i k : Nat} {v : Word} {t : Team} (ht : s.team (s.thread i).team = some t)
    (h : isLead s i = true) : kmovLane s i k v = s.setTeam (s.thread i).team (t.wroteK k v s.cur.pass) := by
  rw [kmovLane, if_pos h, State.updTeam, ht]
  rfl

theorem kmovLane_of_other {s : State} {i k : Nat} {v : Word} (h : isLead s i = false) :
    kmovLane s i k v = raise s i 0x05 0 := by
  rw [kmovLane, if_neg (Bool.eq_false_iff.mp h)]

theorem exec_kmov (s : State) (k : BitVec 5) (a : Reg) :
    exec (.kmov k a) s = .next (eachLane s fun s i => kmovLane s i k.toNat ((s.thread i).reg a.toNat)) := rfl

theorem kmov_of_lead {s : State} {i : Nat} {t : Team} (k : BitVec 5) (a : Reg) (htids : s.cur.tids = [i])
    (ht : s.team (s.thread i).team = some t) (hlead : isLead s i = true) :
    ∃ (u : State) (t' : Team), exec (.kmov k a) s = .next u ∧ u = { s with teams := u.teams } ∧ u.team (s.thread i).team = some t' ∧
      (∀ q, q ≠ (s.thread i).team → u.team q = s.team q) ∧ t' = { t with kregs := t'.kregs, kpend := t'.kpend } ∧
      kvGetD 0 t'.kregs k.toNat = (s.thread i).reg a.toNat ∧ ∀ q, q ≠ k.toNat → kvGetD 0 t'.kregs q = kvGetD 0 t.kregs q := by
  rw [exec_kmov, eachLane, htids, List.foldl_cons, List.foldl_nil, kmovLane_of_lead ht hlead]
  refine ⟨_, _, rfl, rfl, State.setTeam_team .. |>.trans (if_pos rfl), fun q hq => ?_, rfl, ?_, fun q hq => ?_⟩
  · rw [State.setTeam_team, if_neg (Ne.symm hq)]
  · simp [Team.wroteK]
  · simp [Team.wroteK, Ne.symm hq]

theorem kmov_of_others {s : State} (k : BitVec 5) (a : Reg) (hnodup : s.cur.tids.Nodup)
    (h : ∀ i, i ∈ s.cur.tids → CanTrap s i ∧ isLead s i = false) :
    ∃ u, exec (.kmov k a) s = .next u ∧ TrapAll s u s.cur.tids 0x05 0 (curPc s) := by
  refine ⟨_, exec_kmov s k a, (allRaised_foldl hnodup (fun i hi => (h i hi).1) fun u ks i hu hi hk => ?_).trapAll⟩
  rw [kmovLane_of_other (hu.isLead hk (h i hi).2), raise, hu.curPc]

/-! ## MOV.K -/

/-- The team register as it stands, where no slot chained before wrote it and no running pass has. -/
theorem teamReg_of_settled {s : State} {p : Pass} {i k : Nat} {t : Team} (hp : s.pass s.curPass = some p)
    (ht : s.team (s.thread i).team = some t) (hchain : ∀ o, o ∈ p.chain → o.item ≠ 300 + k)
    (hpend : ∀ x, x ∈ t.kpend → x.k ≠ k) : teamReg s i k = (s, kvGetD 0 t.kregs k) := by
  have hfind : (p.chain.find? fun o => o.tid == i && o.item == 300 + k) = none := by
    rw [List.find?_eq_none]
    intro o ho
    simp [hchain o ho]
  have hfilter : (t.kpend.filter fun x => x.k == k && (x.ended == 0 || p.id < x.ended)) = [] := by
    rw [List.filter_eq_nil_iff]
    intro x hx
    simp [hpend x hx]
  simp only [teamReg, ht, hp, hfind, hfilter, List.foldl_nil]

/-- Teams and the slot are as they were, and every thread is of the team that it was of. -/
structure SameTeams (s u : State) : Prop where
  teams : u.teams = s.teams
  passes : u.passes = s.passes
  cur : u.cur = s.cur
  team : ∀ i, (u.thread i).team = (s.thread i).team

theorem SameTeams.refl (s : State) : SameTeams s s := ⟨rfl, rfl, rfl, fun _ => rfl⟩

theorem SameTeams.updThread {s u : State} (h : SameTeams s u) {f : Thread → Thread} (hf : ∀ x, (f x).team = x.team) {i : Nat} :
    SameTeams s (u.updThread i f) where
  teams := h.teams
  passes := h.passes
  cur := h.cur
  team j := by
    rw [State.updThread_thread]
    split
    case isTrue e => rw [hf, e, h.team]
    case isFalse => exact h.team j

/-- What a thread's team register holds. -/
def kregOf (s : State) (k i : Nat) : Word :=
  ((s.team (s.thread i).team).map fun (t : Team) => kvGetD 0 t.kregs k).getD 0

theorem movK_gives {s : State} {p : Pass} (d : Reg) (k : BitVec 5) (hp : s.pass s.curPass = some p)
    (hchain : ∀ o, o ∈ p.chain → o.item ≠ 300 + k.toNat)
    (hpend : ∀ i, i ∈ s.cur.tids → ∃ t, s.team (s.thread i).team = some t ∧ ∀ x, x ∈ t.kpend → x.k ≠ k.toNat) :
    Gives s (.movK d k) 1 d fun i _ => (kregOf s k.toNat i).toNat := by
  have hexec : exec (.movK d k) s =
      .next (s.cur.tids.foldl (fun u i => u.updThread i fun x => x.setReg d.toNat (kregOf s k.toNat i)) s) := by
    refine congrArg Host.Outcome.next (foldl_congr_of_inv (P := SameTeams s) (fun u i hi hu => ⟨?_, ?_⟩) (.refl s))
    · obtain ⟨t, ht, hk⟩ := hpend i hi
      have hu' : u.team (u.thread i).team = some t := by rw [hu.team, State.team, hu.teams]; exact ht
      have hup : u.pass u.curPass = some p := by rw [State.curPass, hu.cur, State.pass, hu.passes]; exact hp
      simp only [teamReg_of_settled hup hu' hchain hk, kregOf, ht, Option.map_some, Option.getD_some]
    · exact hu.updThread (f := fun x => x.setReg d.toNat (kregOf s k.toNat i)) fun _ => rfl
  exact ⟨_, hexec, foldl_updThread (R := fun i x y => x.Wrote y 1 d.toNat (kregOf s k.toNat i).toNat)
    (fun _ x => x.setReg_wrote _ _) (fun _ _ _ h => setReg_wrote_again h rfl) s.cur.tids s⟩

/-- Settles O31: the lead is `isLead`, and traps of other threads, which leave them live, make nobody the lead. -/
theorem teamRegisters : Obligations.TeamRegisters := by
  unfold Obligations.TeamRegisters
  intro s pd k d a lead
  exact ⟨elect_givesPred s pd, fun i t htids ht hlead => kmov_of_lead k a htids ht hlead,
    fun hnodup h => kmov_of_others k a hnodup h, fun p hp hchain hpend => movK_gives d k hp hchain hpend⟩

end Sys2Proof.Machine
end

section
/-! SUPPORT. ENTRY_CLOSE and GANG_TIMEOUT: the entry with the fewest threads, and the record of a gang that issues short (R39,
R46, R111). -/
namespace Sys2Proof.Machine

/-! ## The best entry -/

theorem bestEntry_cons_isSome (m : Entry → Nat) (y : Entry) (l : List Entry) : ∃ e, bestEntry m (y :: l) = some e := by
  rw [bestEntry]
  split
  · exact ⟨_, rfl⟩
  · split
    · exact ⟨_, rfl⟩
    · exact ⟨_, rfl⟩

/-- The best entry is one of them, of the least measure. -/
theorem bestEntry_least {m : Entry → Nat} {l : List Entry} {e : Entry} (h : bestEntry m l = some e) :
    e ∈ l ∧ ∀ x, x ∈ l → m e ≤ m x := by
  induction l generalizing e with
  | nil => cases h
  | cons y l ih =>
    rw [bestEntry] at h
    split at h
    case h_1 hl =>
      cases h
      cases l with
      | nil => simp
      | cons z l =>
        obtain ⟨e, he⟩ := bestEntry_cons_isSome m z l
        rw [he] at hl
        cases hl
    case h_2 z hl =>
      obtain ⟨hz, hmin⟩ := ih hl
      split at h
      case isTrue hy =>
        cases h
        have hyz : m y ≤ m z := by
          simp only [Bool.or_eq_true, decide_eq_true_eq, Bool.and_eq_true, beq_iff_eq] at hy
          omega
        exact ⟨List.mem_cons_self, List.forall_mem_cons.mpr ⟨Nat.le_refl _, fun x hx => Nat.le_trans hyz (hmin x hx)⟩⟩
      case isFalse hy =>
        cases h
        have hzy : m e ≤ m y := by
          simp only [Bool.or_eq_true, decide_eq_true_eq, not_or] at hy
          omega
        exact ⟨List.mem_cons_of_mem y hz, List.forall_mem_cons.mpr ⟨hzy, hmin⟩⟩

/-- Entries of a key are closed. -/
def closeKey (e : Entry) (l : List Entry) : List Entry :=
  l.map fun x => if x.is e.launch e.blk e.pkt then { x with closed := true } else x

theorem exec_entryClose {s : State} {g h : Nat} {rest : List Nat} {e : Entry} (hover : (s.core g).overflow = h :: rest)
    (hage : ageLimit (s.core g).eff ≤ (s.core g).passcnt - (s.thread h).stamp)
    (hopen : ∀ e, e ∈ (s.core g).census → e.closed = false) (hgo : dieGo s (dieOf g) = true)
    (hbest : bestEntry (fun e => e.tids.length) (s.core g).census = some e) :
    exec (.entryClose g) s = .next (s.setCore g { s.core g with census := closeKey e (s.core g).census }) := by
  show Host.Outcome.next _ = _
  have hclosed : (s.core g).census.any (·.closed) = false := List.any_eq_false.mpr fun e he => by simp [hopen e he]
  simp [hover, hclosed, hgo, hbest, Nat.not_lt.mpr hage, closeKey]

/-! ## GSTAT -/

/-- A sum of distinct powers of two. -/
def bitSum (p : Nat → Bool) (n : Nat) : Nat := (((List.range n).filter p).map (2 ^ ·)).sum

theorem bitSum_succ (p : Nat → Bool) (n : Nat) : bitSum p (n + 1) = 2 ^ n * (p n).toNat + bitSum p n := by
  simp only [bitSum, List.range_succ, List.filter_append, List.map_append, List.sum_append, Nat.add_comm (2 ^ n * _)]
  cases hp : p n <;> simp [hp]

theorem bitSum_lt (p : Nat → Bool) (n : Nat) : bitSum p n < 2 ^ n := by
  induction n with
  | zero => exact Nat.zero_lt_one
  | succ n ih =>
    have hb := Nat.mul_le_mul_left (2 ^ n) (Bool.toNat_le (p n))
    rw [bitSum_succ, Nat.pow_succ]
    omega

theorem testBit_bitSum (p : Nat → Bool) (n i : Nat) : (bitSum p n).testBit i = (decide (i < n) && p i) := by
  induction n with
  | zero => simp [bitSum]
  | succ n ih =>
    rw [bitSum_succ, Nat.testBit_two_pow_mul_add _ (bitSum_lt p n), ih, Nat.testBit_bool_toNat]
    by_cases hlt : i < n
    · simp [hlt, Nat.lt_succ_of_lt hlt]
    · by_cases heq : i = n
      · simp [heq]
      · have hgt : ¬i < n + 1 := by omega
        have hsub : i - n ≠ 0 := by omega
        simp [hlt, hgt, hsub]

/-- The thread of a gang row in a lane. -/
def rowThread (g row l : Nat) : Nat := 2048 * g + 32 * row + l

theorem laneOf_rowThread (g row : Nat) {l : Nat} (h : l < 32) : laneOf (rowThread g row l) = l := by
  unfold laneOf rowThread
  omega

/-- The lanes of the live threads of a gang row that some list does not hold, as GSTAT masks them. -/
theorem missing_mask (s : State) (g row : Nat) (held : List Nat) :
    (((liveGang s g row).filter fun t => !held.contains t).map fun t => 2 ^ laneOf t).foldl (· + ·) 0 =
      bitSum (fun l => (s.thread (rowThread g row l)).live && !held.contains (rowThread g row l)) 32 := by
  rw [← List.sum_eq_foldl, liveGang, List.filter_filter, List.filter_map, List.map_map, bitSum]
  congr 1
  refine (List.map_congr_left fun l hl => congrArg (2 ^ ·) (laneOf_rowThread g row ?_)).trans ?_
  · exact List.mem_range.mp (List.mem_filter.mp hl).1
  · simp only [Function.comp_def, rowThread, Bool.and_comm]

theorem any_missing (s : State) (g row : Nat) (held : List Nat) {i : Nat} (hi : i < 32) :
    ((liveGang s g row).any fun k => !held.contains k && laneOf k == i) =
      ((s.thread (rowThread g row i)).live && !held.contains (rowThread g row i)) := by
  rw [Bool.eq_iff_iff, List.any_eq_true]
  simp only [liveGang, List.mem_filter, List.mem_map, List.mem_range, Bool.and_eq_true, beq_iff_eq]
  constructor
  · rintro ⟨k, ⟨⟨l, hl, rfl⟩, hlive⟩, hheld, hlane⟩
    obtain rfl : l = i := (laneOf_rowThread g row hl).symm.trans hlane
    exact ⟨hlive, hheld⟩
  · rintro ⟨hlive, hheld⟩
    exact ⟨_, ⟨⟨i, hi, rfl⟩, hlive⟩, hheld, laneOf_rowThread g row hi⟩

/-- The fields of a record that finds none before it. -/
theorem recordGstat_fields {w : DWord} (hw : w.getLsbD 0 = false) {lidx blk gang mask : Nat} (hl : lidx < 32) (hb : blk < 2 ^ 16)
    (hg : gang < 64) (hm : mask < 2 ^ 32) :
    let y := recordGstat w lidx blk gang mask
    y.getLsbD 0 = true ∧ fld y 5 5 = lidx ∧ fld y 10 6 = gang ∧ fld y 16 16 = blk ∧ y.getLsbD 1 = w.getLsbD 1 ∧
      ∀ i, i < 32 → y.getLsbD (32 + i) = mask.testBit i := by
  have hnat : (recordGstat w lidx blk gang mask).toNat =
      mask * 2 ^ 32 + blk * 2 ^ 16 + gang * 2 ^ 10 + lidx * 2 ^ 5 + w.toNat % 4 / 2 * 2 + 1 := by
    rw [recordGstat, if_neg (by rw [hw]; exact Bool.false_ne_true), BitVec.toNat_ofNat]
    omega
  intro y
  simp only [fld, bitsOf, BitVec.getLsbD, y, hnat]
  refine ⟨?_, by omega, by omega, by omega, ?_, fun i hi => ?_⟩
  · rw [Nat.testBit_zero, decide_eq_true_eq]
    omega
  · rw [Nat.testBit_succ, Nat.testBit_succ, Nat.testBit_zero, Nat.testBit_zero, decide_eq_decide]
    omega
  · rw [Nat.add_comm 32 i, Nat.testBit_add]
    congr 1
    omega

theorem timedOut_key {s : State} {g gang blk : Nat} {e : Entry} {x : Group} (h : timedOut s g gang blk = some (e, x)) :
    e.blk = blk := by
  obtain ⟨y, -, hy⟩ := List.exists_of_findSome?_eq_some h
  split at hy
  case isTrue hblk =>
    obtain ⟨z, -, hz⟩ := Option.map_eq_some_iff.mp hy
    cases hz
    exact hblk.1
  case isFalse => cases hy

/-- A group of an entry may issue short. -/
def issueShort (e : Entry) (x : Group) (l : List Entry) : List Entry :=
  l.map fun z => if z.is e.launch e.blk e.pkt then
    { z with groups := z.groups.map fun w => if w = x then { w with issuable := true } else w } else z

theorem exec_gangTimeout {s : State} {g gang blk : Nat} {e : Entry} {x : Group} (h : timedOut s g gang blk = some (e, x)) :
    let held := (e.groups.filter fun z => z.gang == gang).flatMap (·.tids)
    exec (.gangTimeout g gang blk) s = .next (s.setCore g { s.core g with
      gstat := recordGstat (s.core g).gstat e.lidx e.blk gang
        (bitSum (fun l => (s.thread (rowThread g gang l)).live && !held.contains (rowThread g gang l)) 32)
      census := issueShort e x (s.core g).census }) := by
  intro held
  show Host.Outcome.next _ = _
  rw [← missing_mask]
  simp only [h]
  rfl

/-- GANG_TIMEOUT lets the group issue short, and records the missing lanes. -/
theorem gangTimeout_does {s : State} {g gang blk : Nat} {e : Entry} {x : Group} (h : timedOut s g gang blk = some (e, x))
    (hblk : blk < 2 ^ 16) (hgang : gang < 64) (hlidx : e.lidx < 32) :
    Does s (.gangTimeout g gang blk) fun u =>
      let c := s.core g
      let y := u.core g
      let held := (e.groups.filter fun z => z.gang == gang).flatMap (·.tids)
      u = { s with cores := u.cores } ∧ (∀ i, i ≠ g → u.core i = s.core i) ∧
      y = { c with gstat := y.gstat, census := y.census } ∧ y.census = issueShort e x c.census ∧
      if c.gstat.getLsbD 0 then y.gstat = c.gstat ||| 2
      else y.gstat.getLsbD 0 = true ∧ fld y.gstat 5 5 = e.lidx ∧ fld y.gstat 10 6 = gang ∧ fld y.gstat 16 16 = blk ∧
        y.gstat.getLsbD 1 = c.gstat.getLsbD 1 ∧
        ∀ i, i < 32 → y.gstat.getLsbD (32 + i) = (liveGang s g gang).any fun k => !held.contains k && laneOf k == i := by
  refine ⟨_, exec_gangTimeout h, ?_⟩
  simp only [State.setCore_core, if_true, timedOut_key h]
  refine ⟨rfl, fun i hi => if_neg (Ne.symm hi), trivial, trivial, ?_⟩
  split
  case isTrue hold =>
    rw [recordGstat, if_pos hold]
  case isFalse hnew =>
    obtain ⟨hv, hl, hg, hb, hovf, hmask⟩ := recordGstat_fields (Bool.eq_false_iff.mpr hnew) hlidx hblk hgang
      (bitSum_lt (fun l => (s.thread (rowThread g gang l)).live &&
        !((e.groups.filter fun z => z.gang == gang).flatMap (·.tids)).contains (rowThread g gang l)) 32)
    refine ⟨hv, hl, hg, hb, hovf, fun i hi => ?_⟩
    rw [hmask i hi, testBit_bitSum, any_missing s g gang _ hi, decide_eq_true hi, Bool.true_and]

/-- ENTRY_CLOSE closes an entry with the fewest threads, and changes nothing else. -/
theorem entryClose_does {s : State} {g h : Nat} {rest : List Nat} (hover : (s.core g).overflow = h :: rest)
    (hage : ageLimit (s.core g).eff ≤ (s.core g).passcnt - (s.thread h).stamp) (hne : (s.core g).census ≠ [])
    (hopen : ∀ e, e ∈ (s.core g).census → e.closed = false) (hgo : dieGo s (dieOf g) = true) :
    Does s (.entryClose g) fun u => ∃ e, e ∈ (s.core g).census ∧ (∀ x, x ∈ (s.core g).census → e.tids.length ≤ x.tids.length) ∧
      u = { s with cores := u.cores } ∧ (∀ i, i ≠ g → u.core i = s.core i) ∧
      u.core g = { s.core g with census := closeKey e (s.core g).census } := by
  obtain ⟨y, l, hl⟩ := List.exists_cons_of_ne_nil hne
  obtain ⟨e, he⟩ := bestEntry_cons_isSome (fun e => e.tids.length) y l
  rw [← hl] at he
  obtain ⟨hmem, hleast⟩ := bestEntry_least he
  refine ⟨_, exec_entryClose hover hage hopen hgo he, e, hmem, hleast, rfl, fun i hi => ?_, ?_⟩
  · rw [State.setCore_core, if_neg (Ne.symm hi)]
  · rw [State.setCore_core, if_pos rfl]

end Sys2Proof.Machine
end

section
/-! SUPPORT. EXIT_COMPLETE and BAR_ARRIVAL: the accesses of a thread that has exited, and a barrier that opens (R32, R322). -/
namespace Sys2Proof.Machine

theorem kvGet_map {α : Type} {f : Nat × α → Nat × α} (hf : ∀ e, (f e).1 = e.1) (m : Kv α) (k : Nat) :
    kvGet (m.map f) k = (kvGet m k).map fun v => (f (k, v)).2 := by
  induction m with
  | nil => rfl
  | cons e m ih =>
    obtain ⟨i, v⟩ := e
    have hkey := hf (i, v)
    rw [List.map_cons]
    generalize hw : f (i, v) = w at *
    obtain ⟨j, w⟩ := w
    cases hkey
    rw [kvGet, kvGet, ih]
    split
    case isTrue h => subst h; rw [Option.map_some, hw]
    case isFalse => rfl

/-- A thread's access whose results go nowhere. -/
def dropResults (tid : Nat) (a : Access) : Access := if a.tid = tid then { a with dst := [], dstP := none } else a

theorem exitComplete_exec {s : State} {k : Nat} (hgo : dieGo s (dieOf (coreOf k)) = true)
    (hst : (s.thread k).status = .parked .exit) (hw : writesDone s k = true) (hc : cmdsDone s k = true) :
    ∃ u, exec (.exitComplete k) s = .next (settle (afterDeath u k)) ∧ u = { s with threads := u.threads, accs := u.accs } ∧
      u.thread k = { s.thread k with status := .exited, due := none } ∧ (∀ i, i ≠ k → u.thread i = s.thread i) ∧
      ∀ id, u.acc id = (s.acc id).map (dropResults k) := by
  let drop (a : Nat × Access) : Nat × Access := if a.2.tid = k then (a.1, { a.2 with dst := [], dstP := none }) else a
  refine ⟨{ s with accs := s.accs.map drop }.updThread k fun t => { t with status := .exited, due := none }, ?_, rfl, ?_, ?_, ?_⟩
  · show Host.Outcome.next _ = _
    rw [if_neg (by simp [hst, hw, hc, hgo])]
  · rw [State.updThread_thread, if_pos rfl]
    rfl
  · intro i hi
    rw [State.updThread_thread, if_neg (Ne.symm hi)]
    rfl
  · intro id
    refine (kvGet_map (fun e => ?_) s.accs id).trans ?_
    · dsimp only [drop]; split <;> rfl
    · refine congrArg (Option.map · (s.acc id)) (funext fun a => ?_)
      dsimp only [drop, dropResults]; split <;> rfl

theorem barArrival_exec {s : State} {k n : Nat} (hgo : dieGo s (dieOf (coreOf k)) = true)
    (hst : (s.thread k).status = .parked (.bar n false)) (he : eventsDone s k = true) :
    ∃ u, exec (.barArrival k) s = .next (settle (checkBarrier u (s.thread k).team n)) ∧ u = { s with threads := u.threads } ∧
      u.thread k = { s.thread k with status := .parked (.bar n true) } ∧ ∀ i, i ≠ k → u.thread i = s.thread i := by
  refine ⟨s.updThread k fun t => { t with status := .parked (.bar n true) }, ?_, rfl, ?_, ?_⟩
  · show Host.Outcome.next _ = _
    simp only [hst, he, hgo, Bool.and_self, if_true]
  · rw [State.updThread_thread, if_pos rfl]
  · intro i hi
    rw [State.updThread_thread, if_neg (Ne.symm hi)]

/-! ## The barrier -/

theorem dropAwait_thread (s : State) (tid k : Nat) : (dropAwait s tid).thread k = s.thread k := by
  unfold dropAwait
  split <;> rfl

theorem leaveWait_thread (s : State) (tid k : Nat) : (leaveWait s tid).thread k =
    if tid = k then { s.thread k with status := .dataWait } else s.thread k := by
  rw [leaveWait, State.updThread_thread, dropAwait_thread, dropAwait_thread]
  split
  case isTrue h => rw [h]
  case isFalse => rfl

theorem foldl_leaveWait_thread (ks : List Nat) (s : State) (k : Nat) : (ks.foldl leaveWait s).thread k =
    if k ∈ ks then { s.thread k with status := .dataWait } else s.thread k := by
  induction ks generalizing s with
  | nil => simp
  | cons j ks ih =>
    rw [List.foldl_cons, ih, leaveWait_thread]
    obtain rfl | hj := Decidable.em (k = j)
    · simp
    · simp [hj, Ne.symm hj]

/-- With the last live thread at the barrier all of them leave it. -/
theorem checkBarrier_opens {u : State} {t : Team} {tk n : Nat} (ht : u.team tk = some t)
    (h : ∀ i, i ∈ t.tids.filter (fun i => (u.thread i).live) → (u.thread i).status = .parked (.bar n true)) {i : Nat}
    (hi : i ∈ t.tids.filter fun i => (u.thread i).live) :
    (checkBarrier u tk n).thread i = { u.thread i with status := .dataWait } := by
  have hne := List.ne_nil_of_mem hi
  simp only [checkBarrier, ht]
  rw [if_pos ⟨hne, List.all_eq_true.mpr fun j hj => by simp [h j hj]⟩, foldl_leaveWait_thread, if_pos hi]

theorem checkBarrier_holds {u : State} {t : Team} {tk n i : Nat} (ht : u.team tk = some t)
    (hi : i ∈ t.tids.filter fun i => (u.thread i).live) (hst : (u.thread i).status ≠ .parked (.bar n true)) :
    checkBarrier u tk n = u := by
  simp only [checkBarrier, ht]
  refine if_neg fun h => hst ?_
  simpa using List.all_eq_true.mp h.2 i hi

/-- Settles O48: each event's state after it is written out once, and the record of a gang that issues short is a sum of distinct
powers of two beside its other fields. -/
theorem capstanEvents : Obligations.CapstanEvents := by
  unfold Obligations.CapstanEvents
  refine ⟨fun s g => ⟨fun h rest hover hage hne hopen hgo => entryClose_does hover hage hne hopen hgo,
    fun gang blk e x htimed hblk hgang hlidx => gangTimeout_does htimed hblk hgang hlidx⟩, fun s k => ?_⟩
  intro x hgo
  exact ⟨fun hst hw hc => exitComplete_exec hgo hst hw hc, fun n hst he => ⟨barArrival_exec hgo hst he, fun u t ht =>
      ⟨fun h i hi => checkBarrier_opens ht h hi, fun ⟨i, hi, hst⟩ => checkBarrier_holds ht hi hst⟩⟩⟩

end Sys2Proof.Machine
end

section
/-! SUPPORT. What joining and leaving the census changes: entries, overflow lists, and where threads stand (R38). -/
namespace Sys2Proof.Machine

/-- From `s` to `t` only threads and the census and overflow list of cores have changed. -/
structure CensusStep (s t : State) : Prop where
  frame : t = { s with threads := t.threads, cores := t.cores }
  core : ∀ g, t.core g = { s.core g with census := (t.core g).census, overflow := (t.core g).overflow }

theorem CensusStep.refl (s : State) : CensusStep s s := ⟨rfl, fun _ => rfl⟩

theorem CensusStep.trans {s t u : State} (h : CensusStep s t) (h' : CensusStep t u) : CensusStep s u where
  frame := h'.frame.trans (by rw [h.frame])
  core g := (h'.core g).trans (by rw [h.core g])

theorem updCore_censusStep (s : State) (g : Nat) {f : Core → Core}
    (hf : ∀ c, f c = { c with census := (f c).census, overflow := (f c).overflow }) : CensusStep s (s.updCore g f) where
  frame := rfl
  core i := by
    rw [State.updCore_core]
    split
    case isTrue h => subst h; exact hf _
    case isFalse => rfl

theorem setCore_censusStep (s : State) (g : Nat) {c : Core}
    (hc : c = { s.core g with census := c.census, overflow := c.overflow }) : CensusStep s (s.setCore g c) where
  frame := rfl
  core i := by
    rw [State.setCore_core]
    split
    case isTrue h => subst h; exact hc
    case isFalse => rfl

theorem updThread_censusStep (s : State) (k : Nat) (f : Thread → Thread) : CensusStep s (s.updThread k f) :=
  ⟨rfl, fun _ => rfl⟩

theorem foldl_updThread_censusStep (ks : List Nat) (f : Nat → Thread → Thread) (s : State) :
    CensusStep s (ks.foldl (fun s k => s.updThread k (f k)) s) := by
  induction ks generalizing s with
  | nil => exact .refl s
  | cons k ks ih => exact (updThread_censusStep s k (f k)).trans (ih _)

theorem recheckGroups_censusStep (s : State) (g : Nat) : CensusStep s (recheckGroups s g) :=
  updCore_censusStep s g fun _ => rfl

theorem allocEntry_censusStep (s : State) (g tid : Nat) : CensusStep s (allocEntry s g tid) := by
  unfold allocEntry
  exact (setCore_censusStep s g rfl).trans (foldl_updThread_censusStep _ (fun _ x => { x with status := .pending }) _)

theorem refill_censusStep (s : State) (g fuel : Nat) : CensusStep s (refill s g fuel) := by
  induction fuel generalizing s with
  | zero => exact .refl s
  | succ fuel ih =>
    unfold refill
    dsimp only
    split
    · exact .refl s
    · split
      · exact .refl s
      · exact (allocEntry_censusStep s g _).trans (ih _)

theorem leaveCensus_censusStep (s : State) (g : Nat) (tids : List Nat) : CensusStep s (leaveCensus s g tids) := by
  unfold leaveCensus
  exact ((updCore_censusStep s g fun _ => rfl).trans (refill_censusStep _ g 64)).trans (recheckGroups_censusStep _ g)

end Sys2Proof.Machine
end

section
/-! SUPPORT. PASS_START: the state in which a pass has started (R41, R43, R116). -/
namespace Sys2Proof.Machine

theorem exec_passStart {s s1 : State} {g port : Nat} {e : Entry} {tids : List Nat} {l : Launch} {b : Blk} {code : List Packet}
    (hport : port ≤ 1) (hfree : s.pass (2 * g + port) = none) (hfirst : port = 1 → (s.pass (2 * g)).isSome)
    (hgo : dieGo s (dieOf g) = true) (hclocks : anyStopped s = false)
    (hpick : choosePass s g (fun e => port == 1 && samePick s g e) (ageLimit (s.core g).csr) = some (e, tids))
    (hl : s.launch e.launch = some l) (hb : l.blk e.blk = some b)
    (hfetch : fetchFrom s g (some e.launch) l e.pkt (b.start + b.count - e.pkt) = (s1, .ok code)) :
    exec (.passStart g port) s = .next (startPass s1 g port e b code tids) := by
  have hmay : ¬(1 < port ∨ (s.pass (2 * g + port)).isSome = true ∨ (port = 1 ∧ (s.pass (2 * g)).isNone = true ∧
      (choosePass s g (fun _ => false) (ageLimit (s.core g).csr)).isSome = true) ∨ (!dieGo s (dieOf g)) = true) := by
    rintro (h | h | ⟨h, hnone, -⟩ | h)
    · omega
    · simp [hfree] at h
    · have hsome := hfirst h
      rw [Option.isNone_iff_eq_none.mp hnone] at hsome
      cases hsome
    · simp [hgo] at h
  have hwaits : ∀ va, vaWaits s (dieOf g) l.actx va = false := fun va => by rw [vaWaits, hclocks, Bool.false_and]
  show Host.Outcome.next _ = _
  rw [if_neg hmay, hpick]
  have hnone : ((List.range (b.start + b.count - e.pkt)).any fun i => vaWaits s (dieOf g) l.actx (l.pktVa (e.pkt + i))) = false := by
    simp only [hwaits, List.any_eq_false, Bool.false_eq_true, not_false_eq_true, implies_true]
  simp only [hl, hb, hnone, hfetch, Bool.false_eq_true, if_false]

/-- What a fold keeps that each of its steps keeps. -/
theorem foldl_keeps {σ α β : Type} (F : σ → β) {f : σ → α → σ} (h : ∀ s x, F (f s x) = F s) (l : List α) (s : σ) :
    F (l.foldl f s) = F s := by
  induction l generalizing s with
  | nil => rfl
  | cons x l ih => rw [List.foldl_cons, ih, h]

/-- A pass without the targets and waits of its threads. -/
def Pass.bare (p : Pass) : Pass := { p with targets := [], tslot := 0, waits := [], waitWord := 0 }

/-- What threads carry enters the pass as targets and waits only. -/
theorem resumeHeld_bare (s : State) (p : Pass) (tids : List Nat) : (resumeHeld s p tids).bare = p.bare :=
  foldl_keeps Pass.bare (fun p k => by split <;> rfl) tids p

/-- What adding accesses keeps. -/
def State.besidesAccs (s : State) : State := { s with accs := [], seq := 0 }

/-- What changes of teams and launches keep. -/
def State.besidesTeams (s : State) : State := { s with teams := [], launches := [] }

theorem updTeam_besidesTeams (s : State) (k : Nat) (f : Team → Team) : (s.updTeam k f).besidesTeams = s.besidesTeams := by
  unfold State.updTeam
  split <;> rfl

theorem updLaunch_besidesTeams (s : State) (k : Nat) (f : Launch → Launch) : (s.updLaunch k f).besidesTeams = s.besidesTeams := by
  unfold State.updLaunch
  split <;> rfl

/-- The started pass, its threads, and what the core and memory hold beside the census. -/
theorem startPass_started (s : State) (g port : Nat) (e : Entry) (b : Blk) (code : List Packet) (tids : List Nat) :
    let u := startPass s g port e b code tids
    ∃ (z : State) (n cyc : Nat),
      CensusStep (s.setCore g { s.core g with passcnt := (s.core g).passcnt + 1, eff := (s.core g).csr }) z ∧
      u.pass (2 * g + port) =
        some (resumeHeld z (Pass.started n e.launch e.blk b code e.pkt tids cyc (z.core g).eff) tids) ∧
      u.mem = z.mem ∧ u.core g = z.core g ∧ ∀ k, k ∈ tids → (u.thread k).status = .running := by
  have hz := leaveCensus_censusStep
    (s.setCore g { s.core g with passcnt := (s.core g).passcnt + 1, eff := (s.core g).csr }) g tids
  simp only [startPass]
  generalize leaveCensus _ g tids = z at hz ⊢
  obtain ⟨hrun, -, hstatus⟩ := foldl_updThread (R := fun _ _ y => y.status = .running)
    (g := fun _ x => { x.takeKept (fun r => x.resume || b.livein.toNat.testBit r) with
      status := .running, parkPass := 0, held := if (heldOf x).isSome then x.held.drop 1 else [] })
    (fun _ _ => rfl) (fun _ _ _ _ => rfl) tids z
  generalize List.foldl _ z tids = r at hrun hstatus ⊢
  generalize hv : State.updLaunch _ e.launch _ = v
  have hvr : v.besidesTeams = r.besidesTeams := by
    rw [← hv, updLaunch_besidesTeams]
    exact foldl_keeps State.besidesTeams (fun s k => updTeam_besidesTeams s k _) _ r
  generalize hu : List.foldl _ (State.bump _) tids = u
  have huv : u.besidesAccs = (v.setPass (2 * g + port) (resumeHeld z
      (Pass.started v.seq e.launch e.blk b code e.pkt tids (v.core g).cyc (v.core g).eff) tids)).besidesAccs := by
    rw [← hu]
    exact foldl_keeps State.besidesAccs (fun s k => by split <;> rfl) tids _
  have hcores : v.cores = z.cores := (congrArg State.cores hvr :).trans (congrArg State.cores hrun :)
  have hmem : v.mem = z.mem := (congrArg State.mem hvr :).trans (congrArg State.mem hrun :)
  have hcore : v.core g = z.core g := by rw [State.core, hcores]; rfl
  have hthreads : u.threads = r.threads := (congrArg State.threads huv :).trans (congrArg State.threads hvr :)
  refine ⟨z, v.seq, (v.core g).cyc, hz, ?_, ?_, ?_, fun k hk => ?_⟩
  · rw [← hcore]
    exact (congrArg (State.pass · (2 * g + port)) huv :).trans ((State.setPass_pass ..).trans (if_pos rfl))
  · exact (congrArg State.mem huv :).trans hmem
  · exact (congrArg (State.core · g) huv :).trans hcore
  · rw [State.thread, hthreads]
    exact hstatus k hk

/-- PASS_START where an entry can be chosen and its packets can be fetched. -/
theorem passStart_does {s s1 : State} {g port : Nat} {e : Entry} {tids : List Nat} {b : Blk} {code : List Packet}
    (h : exec (.passStart g port) s = .next (startPass s1 g port e b code tids)) :
    Does s (.passStart g port) fun u => ∃ p : Pass, u.pass (2 * g + port) = some p ∧ p.tids = tids ∧ p.launch = e.launch ∧
      p.blk = e.blk ∧ p.pkt = e.pkt ∧ p.entry = e.pkt ∧ p.slot = 0 ∧ p.code = code ∧ p.csr = (s1.core g).csr ∧
      (u.core g).passcnt = (s1.core g).passcnt + 1 ∧ (u.core g).eff = (s1.core g).csr ∧ u.mem = s1.mem ∧
      ∀ k, k ∈ tids → (u.thread k).status = .running := by
  obtain ⟨z, n, cyc, hz, hpass, hmem, hcore, hrun⟩ := startPass_started s1 g port e b code tids
  have hzcore := hz.core g
  rw [State.setCore_core, if_pos rfl] at hzcore
  have heff : (z.core g).eff = (s1.core g).csr := congrArg Core.eff hzcore
  have hbare := resumeHeld_bare z (Pass.started n e.launch e.blk b code e.pkt tids cyc (z.core g).eff) tids
  refine ⟨_, h, _, hpass, (congrArg Pass.tids hbare :), (congrArg Pass.launch hbare :), (congrArg Pass.blk hbare :),
    (congrArg Pass.pkt hbare :), (congrArg Pass.entry hbare :), (congrArg Pass.slot hbare :), (congrArg Pass.code hbare :),
    (congrArg Pass.csr hbare :).trans heff, ?_, ?_, ?_, hrun⟩
  · rw [hcore]; exact congrArg Core.passcnt hzcore
  · rw [hcore, heff]
  · rw [hmem, hz.frame]; rfl

end Sys2Proof.Machine
end

section
/-! SUPPORT. DATA_WAIT_RESOLVE: a thread joins its successor, or takes the trap that is due (R33, R38, R291, R299). -/
namespace Sys2Proof.Machine

/-! ## Traps -/

/-- A trap that is no slot's, in a thread that is in no pass: only the thread changes. -/
theorem enterTrap_took {s : State} {k : Nat} (hc : CanTrap s k) (cause sub : Nat) (word : Word) (pc : DWord) :
    let u := enterTrap s k cause sub word pc
    u = { s with threads := u.threads } ∧ (∀ i, i ≠ k → u.thread i = s.thread i) ∧
      TookTrap s k cause sub word pc (s.thread k) (u.thread k) := by
  obtain ⟨hd, l, b, hl, hb⟩ := hc
  obtain ⟨n, w, m, heq⟩ := enterTrap_eq hd hl hb cause sub word pc
  simp only [heq]
  refine ⟨rfl, fun i hi => ?_, ?_⟩
  · rw [State.setThread_thread, if_neg (Ne.symm hi)]
  · rw [State.setThread_thread, if_pos rfl]
    exact ⟨l, b, hl, hb, rfl, rfl, by simp [trapped], rfl, rfl, rfl, rfl, rfl, rfl, rfl, rfl, rfl, rfl, rfl, rfl, rfl, rfl,
      [], rfl, rfl, Nat.zero_le 1, fun _ h => absurd h List.not_mem_nil⟩

section
variable {s : State} {k : Nat} {l : Launch}

theorem dataWaitResolve_of_fall {w : Word} (hl : launchOf s k = some l) (hst : (s.thread k).status = .dataWait)
    (hgo : dieGo s (dieOf (coreOf k)) = true) (hw : (s.thread k).fall = some w) :
    exec (.dataWaitResolve k) s = .next (enterTrap s k 0x03 0 w (BitVec.ofNat 64 (l.pktVa (s.thread k).pkt))) := by
  show Host.Outcome.next _ = _
  simp [hl, hst, hgo, hw]

theorem dataWaitResolve_of_due {w : Due} (hl : launchOf s k = some l) (hst : (s.thread k).status = .dataWait)
    (hgo : dieGo s (dieOf (coreOf k)) = true) (hfall : (s.thread k).fall = none) (hready : dataReady s l k = true)
    (hw : (s.thread k).due = some w) :
    exec (.dataWaitResolve k) s = .next (settle (enterTrap (s.updThread k fun t => { t with due := none }) k w.cause w.sub w.word
      (BitVec.ofNat 64 (l.pktVa (s.thread k).pkt + (s.thread k).slot)))) := by
  show Host.Outcome.next _ = _
  simp [hl, hst, hgo, hfall, hready, hw]

theorem dataWaitResolve_of_none (hl : launchOf s k = some l) (hst : (s.thread k).status = .dataWait)
    (hgo : dieGo s (dieOf (coreOf k)) = true) (hfall : (s.thread k).fall = none) (hready : dataReady s l k = true)
    (hdue : (s.thread k).due = none) :
    exec (.dataWaitResolve k) s = .next (enterCensus s k) := by
  show Host.Outcome.next _ = _
  simp [hl, hst, hgo, hfall, hready, hdue]

end

/-- A change of one thread that leaves its team leaves every thread's launch. -/
theorem launchOf_updThread (s : State) (k i : Nat) {f : Thread → Thread} (hf : ∀ t, (f t).team = t.team) :
    launchOf (s.updThread k f) i = launchOf s i := by
  have hteam : ((s.updThread k f).thread i).team = (s.thread i).team := by
    rw [State.updThread_thread]
    split
    case isTrue h => rw [hf, h]
    case isFalse => rfl
  simp only [launchOf, hteam, State.updThread_team, State.updThread_launch]

theorem dueTrap_took {s : State} {k : Nat} (hc : CanTrap s k) (w : Due) (pc : DWord) :
    let u := enterTrap (s.updThread k fun t => { t with due := none }) k w.cause w.sub w.word pc
    u = { s with threads := u.threads } ∧ (∀ i, i ≠ k → u.thread i = s.thread i) ∧
      TookTrap s k w.cause w.sub w.word pc { s.thread k with due := none } (u.thread k) := by
  have hlaunch := launchOf_updThread s k k (f := fun t => { t with due := none }) fun _ => rfl
  have hthread : (s.updThread k fun t => { t with due := none }).thread k = { s.thread k with due := none } := by
    rw [State.updThread_thread, if_pos rfl]
  obtain ⟨hframe, hother, htook⟩ := enterTrap_took (s := s.updThread k fun t => { t with due := none })
    (by rw [CanTrap, hlaunch, hthread]; exact hc) w.cause w.sub w.word pc
  rw [TookTrap, hlaunch, hthread] at htook
  refine ⟨hframe, fun i hi => ?_, htook⟩
  rw [hother i hi, State.updThread_thread, if_neg (Ne.symm hi)]

/-! ## The census -/

/-- A thread has its stamp and a status, and stands in the open or closed entry of its key, or at the end of the overflow list, as the
status says (R38, R40). -/
def JoinedAs (s u : State) (k : Nat) (st : Status) (closed : Bool) : Prop :=
  let c := s.core (coreOf k)
  let key := keyOfThread s k
  u = { s with threads := u.threads, cores := u.cores } ∧ (∀ i, i ≠ k → u.thread i = s.thread i) ∧
  u.thread k = { s.thread k with stamp := c.passcnt, status := st } ∧
  (st = .overflow → (u.core (coreOf k)).overflow = c.overflow ++ [k]) ∧
  (st = .pending → ∃ e, e ∈ (u.core (coreOf k)).census ∧ k ∈ e.tids ∧ e.is key.1 key.2.1 key.2.2 = true ∧ e.closed = closed)

/-- The thread with its stamp and a status. -/
def stamped (s : State) (k : Nat) (st : Status) : State :=
  (s.updThread k fun t => { t with stamp := (s.core (coreOf k)).passcnt }).updThread k fun t => { t with status := st }

theorem stamped_thread (s : State) (k i : Nat) (st : Status) : (stamped s k st).thread i =
    if k = i then { s.thread k with stamp := (s.core (coreOf k)).passcnt, status := st } else s.thread i := by
  simp only [stamped, State.updThread_thread, if_true]
  split
  · rfl
  · rfl

theorem joined_overflow (s : State) (k : Nat) (closed : Bool) :
    JoinedAs s ((stamped s k .overflow).setCore (coreOf k)
      { s.core (coreOf k) with overflow := (s.core (coreOf k)).overflow ++ [k] }) k .overflow closed := by
  refine ⟨rfl, fun i hi => ?_, ?_, fun _ => ?_, fun h => nomatch h⟩
  · rw [State.setCore_thread, stamped_thread, if_neg (Ne.symm hi)]
  · rw [State.setCore_thread, stamped_thread, if_pos rfl]
  · rw [State.setCore_core, if_pos rfl]

/-- An entry in the census stands there still when groups have been checked. -/
theorem mem_recheckGroups {s : State} {g : Nat} {e : Entry} (h : e ∈ (s.core g).census) :
    ∃ gs, { e with groups := gs } ∈ ((recheckGroups s g).core g).census := by
  rw [recheckGroups, State.updCore_core, if_pos rfl]
  exact ⟨_, List.mem_map_of_mem h⟩

theorem joined_pending {s : State} {k : Nat} {es : List Entry} {e : Entry} (he : e ∈ es) (hk : k ∈ e.tids)
    (hkey : e.is (keyOfThread s k).1 (keyOfThread s k).2.1 (keyOfThread s k).2.2 = true) :
    JoinedAs s (recheckGroups ((stamped s k .pending).setCore (coreOf k) { s.core (coreOf k) with census := es }) (coreOf k))
      k .pending e.closed := by
  refine ⟨rfl, fun i hi => ?_, ?_, fun h => (nomatch h), fun _ => ?_⟩
  · exact (stamped_thread s k i .pending).trans (if_neg (Ne.symm hi))
  · exact (stamped_thread s k k .pending).trans (if_pos rfl)
  · obtain ⟨gs, hgs⟩ := mem_recheckGroups (g := coreOf k) (e := e)
      (s := (stamped s k .pending).setCore (coreOf k) { s.core (coreOf k) with census := es })
      (by rw [State.setCore_core, if_pos rfl]; exact he)
    exact ⟨_, hgs, hk, hkey, rfl⟩

theorem newEntry_is (s : State) (k : Nat) :
    (newEntry s k).is (keyOfThread s k).1 (keyOfThread s k).2.1 (keyOfThread s k).2.2 = true := by
  simp [newEntry, Entry.is]

/-- A thread joins the entry of its key, a fresh one, or the overflow list. -/
theorem enterCensus_joined (s : State) (k : Nat) :
    let c := s.core (coreOf k)
    let key := keyOfThread s k
    let mine := c.census.find? fun e => e.is key.1 key.2.1 key.2.2
    JoinedAs s (enterCensus s k) k
      (match mine with
        | some e => if e.closed then .overflow else .pending
        | none => if c.census.length < 64 then .pending else .overflow)
      ((mine.map (·.closed)).getD false) := by
  have hsame : keyOfThread (s.updThread k fun t => { t with stamp := (s.core (coreOf k)).passcnt }) k = keyOfThread s k := by
    simp only [keyOfThread, State.updThread_thread, if_true, State.updThread_team]
  have hfresh := newEntry_is (s.updThread k fun t => { t with stamp := (s.core (coreOf k)).passcnt }) k
  rw [hsame] at hfresh
  simp only [enterCensus, Config.censusEntries]
  cases hfind : (s.core (coreOf k)).census.find?
    (fun e => e.is (keyOfThread s k).1 (keyOfThread s k).2.1 (keyOfThread s k).2.2) with
  | some e =>
    dsimp only
    split
    case isTrue => exact joined_overflow s k _
    case isFalse =>
      have hkey := List.find?_some hfind
      exact joined_pending (e := e.add k (s.core (coreOf k)).cyc)
        (List.mem_map.mpr ⟨e, List.mem_of_find?_eq_some hfind, if_pos hkey⟩) (List.mem_append_right _ List.mem_cons_self) hkey
  | none =>
    by_cases hroom : (s.core (coreOf k)).census.length < 64
    · simp only [hroom, if_true]
      exact joined_pending (e := Entry.add (newEntry _ k) k (s.core (coreOf k)).cyc)
        (List.mem_append_right _ List.mem_cons_self) List.mem_cons_self hfresh
    · simp only [hroom, if_false]
      exact joined_overflow s k _

theorem JoinedAs.does {s u : State} {k : Nat} {st : Status} {closed : Bool} (h : JoinedAs s u k st closed) :
    let c := s.core (coreOf k)
    let key := keyOfThread s k
    u = { s with threads := u.threads, cores := u.cores } ∧ (∀ i, i ≠ k → u.thread i = s.thread i) ∧
    u.thread k = { s.thread k with stamp := c.passcnt, status := st } ∧
    ((u.thread k).status = .overflow → (u.core (coreOf k)).overflow = c.overflow ++ [k]) ∧
    ((u.thread k).status = .pending → ∃ e, e ∈ (u.core (coreOf k)).census ∧ k ∈ e.tids ∧
      e.is key.1 key.2.1 key.2.2 = true ∧ e.closed = closed) := by
  obtain ⟨hframe, hother, hthread, hover, hpend⟩ := h
  have hst : (u.thread k).status = st := by rw [hthread]
  rw [hst]
  exact ⟨hframe, hother, hthread, hover, hpend⟩

/-- Settles O47: PASS_START reaches `startPass`, and a thread that may leave DATA-WAIT takes a trap or joins the census. -/
theorem passesStart : Obligations.PassesStart := by
  unfold Obligations.PassesStart
  intro s
  refine ⟨fun g port e tids l b s1 code hport hfree hfirst hgo hclocks hpick hl hb hfetch =>
    passStart_does (exec_passStart hport hfree hfirst hgo hclocks hpick hl hb hfetch), fun k l hl hst hgo =>
    ⟨fun w hw hc => ⟨_, dataWaitResolve_of_fall hl hst hgo hw, enterTrap_took hc ..⟩, fun hfall hready => ?_⟩⟩
  intro c key mine
  exact ⟨fun hdue => ⟨_, dataWaitResolve_of_none hl hst hgo hfall hready hdue, (enterCensus_joined s k).does⟩,
    fun w hw hc => ⟨_, dataWaitResolve_of_due hl hst hgo hfall hready hw, dueTrap_took hc w _⟩⟩

end Sys2Proof.Machine
end

section
/-! SUPPORT. The elements of a packed operand, and the encodings that a rounding gives (R138, R144-R146). -/
namespace Sys2Proof.Machine

/-! ## Elements -/

theorem foldr_add_init (g : Nat → Nat) (l : List Nat) (a : Nat) :
    l.foldr (fun i acc => acc + g i) a = l.foldr (fun i acc => acc + g i) 0 + a := by
  induction l with
  | nil => simp
  | cons x l ih => rw [List.foldr_cons, List.foldr_cons, ih, Nat.add_right_comm]

theorem packElems_succ (w n : Nat) (f : Nat → Nat) :
    packElems w (n + 1) f = packElems w n f + f n % 2 ^ w * 2 ^ (w * n) := by
  unfold packElems
  rw [List.range_succ, List.foldr_append, foldr_add_init]
  simp

theorem packElems_lt (w n : Nat) (f : Nat → Nat) : packElems w n f < 2 ^ (w * n) := by
  induction n with
  | zero => simp [packElems]
  | succ n ih =>
    have he : f n % 2 ^ w + 1 ≤ 2 ^ w := Nat.mod_lt _ (Nat.two_pow_pos w)
    calc packElems w (n + 1) f = packElems w n f + f n % 2 ^ w * 2 ^ (w * n) := packElems_succ w n f
      _ < (f n % 2 ^ w + 1) * 2 ^ (w * n) := by rw [Nat.add_mul, Nat.one_mul]; omega
      _ ≤ 2 ^ w * 2 ^ (w * n) := Nat.mul_le_mul_right _ he
      _ = 2 ^ (w * (n + 1)) := by rw [← Nat.pow_add, Nat.mul_add, Nat.mul_one, Nat.add_comm]

/-- What is added above an element does not change it. -/
theorem elem_add_above {w j n : Nat} (h : j < n) (p c : Nat) : elem w j (p + c * 2 ^ (w * n)) = elem w j p := by
  obtain ⟨k, rfl⟩ := Nat.exists_eq_add_of_lt h
  have hpow : c * 2 ^ (w * (j + k + 1)) = 2 ^ (w * j) * (2 ^ w * (c * 2 ^ (w * k))) := by
    rw [Nat.mul_succ, Nat.mul_add, Nat.pow_add, Nat.pow_add]
    ac_rfl
  rw [elem, elem, hpow, Nat.add_mul_div_left _ _ (Nat.two_pow_pos _), Nat.add_mul_mod_self_left]

theorem elem_packElems {w n j : Nat} (f : Nat → Nat) (h : j < n) : elem w j (packElems w n f) = f j % 2 ^ w := by
  induction n with
  | zero => omega
  | succ n ih =>
    rw [packElems_succ]
    obtain hlt | rfl := Nat.lt_succ_iff_lt_or_eq.mp h
    · rw [elem_add_above hlt, ih hlt]
    · rw [elem, Nat.add_mul_div_right _ _ (Nat.two_pow_pos _), Nat.div_eq_of_lt (packElems_lt w j f), Nat.zero_add, Nat.mod_mod]

/-! ## Formats -/

/-- What the formats of the float instructions have in common: infinities and NaNs stand above the finite magnitudes, which end
below 2 to the power of the bias and 1, and a sign bit above all. -/
structure Fmt.Regular (F : Fmt) : Prop where
  nan : F.nan = true
  bias : 0 < F.bias
  frac : 0 < F.f
  width : 0 < F.width
  top : F.top < (2 * F.bias + 1) * 2 ^ F.f
  inf : F.infEnc < F.signBit
  qnan : F.qnan < 2 ^ F.width

theorem F32_regular : F32.Regular := by constructor <;> decide

theorem F64_regular : F64.Regular := by constructor <;> decide

theorem fmtOfTy_regular (ty : FTy) : (fmtOfTy ty).Regular := by
  cases ty
  case f32 => exact F32_regular
  case d => exact F64_regular
  all_goals constructor <;> decide

theorem fmtOfSc_regular (ft : FSc) : (fmtOfSc ft).Regular := by
  cases ft
  · exact F32_regular
  · exact F64_regular

theorem Fmt.Regular.two_signBit {F : Fmt} (h : F.Regular) : 2 ^ F.width = 2 * F.signBit := by
  rw [signBit, ← Nat.pow_succ', Nat.succ_eq_add_one, Nat.sub_add_cancel h.width]

theorem Fmt.Regular.sign_lt {F : Fmt} (h : F.Regular) (neg : Bool) {mag : Nat} (hm : mag ≤ F.infEnc) :
    F.sign neg mag < 2 ^ F.width := by
  have hinf := h.inf
  rw [h.two_signBit, sign]
  split <;> omega

theorem Fmt.Regular.round_lt {F : Fmt} (h : F.Regular) (m : Mode) (v : Val) : F.round m v < 2 ^ F.width := by
  cases v with
  | nan => exact h.qnan
  | inf neg => exact h.sign_lt neg (Nat.le_refl _)
  | fin neg n d =>
    have htop : F.top ≤ F.infEnc := Nat.le_succ _
    unfold round
    dsimp only
    split
    case isTrue hg => exact h.sign_lt neg (Nat.le_trans hg htop)
    case isFalse =>
      have hover (up : Bool) : (if up then F.infEnc else F.top) ≤ F.infEnc := by split <;> omega
      exact h.sign_lt neg (hover _)

theorem Fmt.Regular.flush_lt {F : Fmt} (h : F.Regular) (on : Bool) {b : Nat} (hb : b < 2 ^ F.width) :
    F.flush on b < 2 ^ F.width := by
  unfold flush
  split
  · have hbit : b / F.signBit % 2 * F.signBit ≤ 1 * F.signBit := Nat.mul_le_mul_right _ (by omega)
    have hpos := h.inf
    rw [h.two_signBit]
    omega
  · exact hb

/-! ## FADD, FSUB, FMUL and FFMA -/

/-- The mould of the float arithmetic: element by element, one rounding of `f` of the sources (R145-R147). -/
theorem fltArith_gives {s : State} {i : Instr} {ty : FTy} {rm : Rnd} {d a b : Reg} {f : Mode → Val → Val → Val → Val}
    (h : exec i s = .next (fltOp ty d a b (fltArith rm f) s)) :
    let F := fmtOfTy ty
    let w := widthOfTy ty
    ∃ g : Thread → Nat, Gives s i (wRegs w) d (fun _ x => g x) ∧
      ∀ x j, j < elemsOf ty → elem F.width j (g x) = F.flush (ftzo x) (F.round (modeOf x rm) (f (modeOf x rm)
        (srcVal x F (elem F.width j (x.group (wRegs w) a.toNat))) (srcVal x F (elem F.width j (rdBF s.cur x ty b)))
        (srcVal x F (elem F.width j (x.group (wRegs w) d.toNat))))) := by
  intro F w
  refine ⟨_, gives_group _ h fun _ _ => rfl, fun x j hj => ?_⟩
  have hF := fmtOfTy_regular ty
  exact (elem_packElems _ hj).trans (Nat.mod_eq_of_lt (hF.flush_lt _ (hF.round_lt _ _)))

/-- Settles O10: the four are one mould, with the sum, the difference, the product and the product plus addend in it. -/
theorem floatArithmetic : Obligations.FloatArithmetic := by
  unfold Obligations.FloatArithmetic
  intro s ty rm d a b
  exact ⟨fltArith_gives (f := fun m x y _ => addIn m x y) rfl, fltArith_gives (f := fun m x y _ => addIn m x y.neg) rfl,
    fltArith_gives (f := fun _ x y _ => x.mul y) rfl, fltArith_gives (f := fun m x y z => addIn m (x.mul y) z) rfl⟩

end Sys2Proof.Machine
end

section
/-! SUPPORT. The exponent of a positive value, and the values that round alike because they are beyond a format's range
(R145). -/
namespace Sys2Proof.Machine

/-! ## The exponent -/

/-- n ÷ d, scaled by 2 to the power of −k, is in [1, 2). -/
def IsExpo (n d : Nat) (k : Int) : Prop :=
  d * 2 ^ k.toNat ≤ n * 2 ^ (-k).toNat ∧ n * 2 ^ (-k).toNat < 2 * (d * 2 ^ k.toNat)

theorem isExpo_natCast (n d c : Nat) : IsExpo n d c ↔ d * 2 ^ c ≤ n ∧ n < 2 * (d * 2 ^ c) := by
  simp [IsExpo]

theorem isExpo_neg_natCast (n d c : Nat) : IsExpo n d (-c) ↔ d ≤ n * 2 ^ c ∧ n * 2 ^ c < 2 * d := by
  simp [IsExpo]

/-- Where the numerator has fewer bits, the exponent is the difference of the bit lengths or one below it. -/
theorem ilog_isExpo_of_lt {n d : Nat} (hn : n ≠ 0) (hd : d ≠ 0) (hlt : n.log2 < d.log2) : IsExpo n d (ilog n d) := by
  obtain ⟨c, hc⟩ := Nat.exists_eq_add_of_lt hlt
  have hk : (n.log2 : Int) - d.log2 = -((c + 1 : Nat) : Int) := by omega
  have hpow : 2 ^ d.log2 = 2 ^ n.log2 * 2 ^ (c + 1) := by rw [hc, Nat.add_assoc, Nat.pow_add]
  have hdlo := Nat.log2_self_le hd
  have hdhi := Nat.lt_log2_self (n := d)
  have hnlo : 2 ^ n.log2 * 2 ^ (c + 1) ≤ n * 2 ^ (c + 1) := Nat.mul_le_mul_right _ (Nat.log2_self_le hn)
  have hnhi : n * 2 ^ (c + 1) < 2 ^ (n.log2 + 1) * 2 ^ (c + 1) :=
    Nat.mul_lt_mul_of_pos_right Nat.lt_log2_self (Nat.two_pow_pos _)
  rw [Nat.pow_succ' (n := n.log2), Nat.mul_assoc] at hnhi
  unfold ilog
  rw [hk, if_pos (by omega), Int.neg_neg, Int.toNat_natCast]
  split
  case isTrue h =>
    have hpred : -((c + 1 : Nat) : Int) - 1 = -((c + 2 : Nat) : Int) := by omega
    rw [hpred, isExpo_neg_natCast, Nat.pow_succ 2 (c + 1), ← Nat.mul_assoc]
    omega
  case isFalse h =>
    rw [isExpo_neg_natCast]
    omega

theorem ilog_isExpo_of_ge {n d : Nat} (hn : n ≠ 0) (hd : d ≠ 0) (hge : d.log2 ≤ n.log2) : IsExpo n d (ilog n d) := by
  obtain ⟨c, hc⟩ := Nat.exists_eq_add_of_le hge
  have hk : (n.log2 : Int) - d.log2 = c := by omega
  have hpow : 2 ^ n.log2 = 2 ^ d.log2 * 2 ^ c := by rw [hc, Nat.pow_add]
  have hnlo := Nat.log2_self_le hn
  have hnhi := Nat.lt_log2_self (n := n)
  have hdlo : 2 ^ d.log2 * 2 ^ c ≤ d * 2 ^ c := Nat.mul_le_mul_right _ (Nat.log2_self_le hd)
  have hdhi : d * 2 ^ c < 2 ^ (d.log2 + 1) * 2 ^ c := Nat.mul_lt_mul_of_pos_right Nat.lt_log2_self (Nat.two_pow_pos _)
  rw [Nat.pow_succ', Nat.mul_assoc] at hdhi
  unfold ilog
  rw [hk, if_neg (by omega), Int.toNat_natCast]
  split
  case isFalse h =>
    rw [isExpo_natCast]
    omega
  case isTrue h =>
    cases c with
    | zero =>
      have hpred : ((0 : Nat) : Int) - 1 = -((1 : Nat) : Int) := rfl
      rw [hpred, isExpo_neg_natCast]
      omega
    | succ c =>
      have hpred : ((c + 1 : Nat) : Int) - 1 = c := by omega
      have hdouble : d * 2 ^ (c + 1) = 2 * (d * 2 ^ c) := by rw [Nat.pow_succ', Nat.mul_left_comm]
      rw [hpred, isExpo_natCast]
      omega

theorem ilog_isExpo {n d : Nat} (hn : n ≠ 0) (hd : d ≠ 0) : IsExpo n d (ilog n d) :=
  (Nat.lt_or_ge n.log2 d.log2).elim (ilog_isExpo_of_lt hn hd) (ilog_isExpo_of_ge hn hd)

theorem lt_ilog {n d k : Nat} (hd : d ≠ 0) (h : d * 2 ^ (k + 1) ≤ n) : (k : Int) < ilog n d := by
  have hpos : 0 < d * 2 ^ (k + 1) := Nat.mul_pos (Nat.pos_of_ne_zero hd) (Nat.two_pow_pos _)
  obtain ⟨-, hlt⟩ := ilog_isExpo (n := n) (by omega) hd
  refine Int.not_le.mp fun hle => ?_
  have hk : (ilog n d).toNat ≤ k := by omega
  have hup : d * 2 ^ (ilog n d).toNat ≤ d * 2 ^ k := Nat.mul_le_mul_left _ (Nat.pow_le_pow_right (by omega) hk)
  have hself : n ≤ n * 2 ^ (-ilog n d).toNat := Nat.le_mul_of_pos_right _ (Nat.two_pow_pos _)
  rw [Nat.pow_succ, ← Nat.mul_assoc] at h
  omega

theorem ilog_lt_neg {n d k : Nat} (hn : n ≠ 0) (h : n * 2 ^ k < d) : ilog n d < -(k : Int) := by
  obtain ⟨hle, -⟩ := ilog_isExpo hn (d := d) (by omega)
  refine Int.not_le.mp fun hge => ?_
  have hk : (-ilog n d).toNat ≤ k := by omega
  have hup : n * 2 ^ (-ilog n d).toNat ≤ n * 2 ^ k := Nat.mul_le_mul_left _ (Nat.pow_le_pow_right (by omega) hk)
  have hself : d ≤ d * 2 ^ (ilog n d).toNat := Nat.le_mul_of_pos_right _ (Nat.two_pow_pos _)
  omega

/-! ## Beyond the range -/

/-- A magnitude that is not zero and below a half rounds as every other does, a third say. -/
theorem roundInt_of_lt_half (m : Mode) (neg : Bool) {n d : Nat} (hn : n ≠ 0) (h : 2 * n < d) :
    roundInt m neg n d = roundInt m neg 1 3 := by
  have hdiv : n / d = 0 := Nat.div_eq_of_lt (by omega)
  have hmod : n % d = n := Nat.mod_eq_of_lt (by omega)
  cases m <;> simp [roundInt, hdiv, hmod, hn, Nat.le_of_lt h]

/-- Below half of the least subnormal number, the grid gives what the mode makes of any such magnitude. -/
theorem Fmt.Regular.grid_of_tiny {F : Fmt} (hF : F.Regular) (m : Mode) (neg : Bool) {n d : Nat} (hn : n ≠ 0)
    (h : n * 2 ^ (F.bias + F.f) < d) : F.grid m neg n d = roundInt m neg 1 3 := by
  have hbias := hF.bias
  have hfrac := hF.frac
  have hk : ilog n d < 1 - (F.bias : Int) := Int.lt_trans (ilog_lt_neg hn h) (by omega)
  have hneg : 1 - (F.bias : Int) - F.f < 0 := by omega
  have hq : (-(1 - (F.bias : Int) - F.f)).toNat = F.bias + F.f - 1 := by omega
  have hdouble : 2 * (n * 2 ^ (F.bias + F.f - 1)) = n * 2 ^ (F.bias + F.f) := by
    rw [Nat.mul_left_comm, ← Nat.pow_succ', Nat.succ_eq_add_one, Nat.sub_add_cancel (by omega)]
  have hscaled : n * 2 ^ (F.bias + F.f - 1) ≠ 0 := Nat.mul_ne_zero hn (Nat.ne_of_gt (Nat.two_pow_pos _))
  simp only [grid, hn, hk, hneg, hq, if_true, if_false, Int.sub_self, Int.toNat_zero, Nat.zero_mul, Nat.zero_add]
  exact roundInt_of_lt_half m neg hscaled (hdouble ▸ h)

/-- From 2 to the power of the bias and 2 on, the grid is above the finite magnitudes. -/
theorem Fmt.Regular.grid_of_huge {F : Fmt} (hF : F.Regular) (m : Mode) (neg : Bool) {n d : Nat} (hd : d ≠ 0)
    (h : d * 2 ^ (F.bias + 2) ≤ n) : F.top < F.grid m neg n d := by
  have hpos : 0 < d * 2 ^ (F.bias + 2) := Nat.mul_pos (Nat.pos_of_ne_zero hd) (Nat.two_pow_pos _)
  have hk : ((F.bias + 1 : Nat) : Int) < ilog n d := lt_ilog hd h
  have he : 2 * F.bias + 1 ≤ (ilog n d - (1 - (F.bias : Int))).toNat := by omega
  refine Nat.lt_of_lt_of_le hF.top (Nat.le_trans (Nat.mul_le_mul_right (2 ^ F.f) he) ?_)
  have hn : n ≠ 0 := by omega
  have hlt : ¬ ilog n d < 1 - (F.bias : Int) := by omega
  simp only [grid, hn, hlt, if_false]
  exact Nat.le_add_right _ _

theorem Fmt.round_congr {F : Fmt} {m : Mode} {neg : Bool} {n d n' d' : Nat} (h : F.grid m neg n d = F.grid m neg n' d') :
    F.round m (.fin neg n d) = F.round m (.fin neg n' d') := by
  simp only [round, h]

/-- All that is above the finite magnitudes overflows alike. -/
theorem Fmt.round_congr_of_top_lt {F : Fmt} {m : Mode} {neg : Bool} {n d n' d' : Nat} (h : F.top < F.grid m neg n d)
    (h' : F.top < F.grid m neg n' d') : F.round m (.fin neg n d) = F.round m (.fin neg n' d') := by
  simp only [round, Nat.not_le.mpr h, Nat.not_le.mpr h', if_false]

theorem Fmt.round_zero (F : Fmt) (m : Mode) (neg : Bool) (d d' : Nat) :
    F.round m (.fin neg 0 d) = F.round m (.fin neg 0 d') :=
  round_congr rfl

/-! ## Values and their scaling -/

theorem scaled_eq (neg : Bool) (n : Nat) (e : Int) : scaled neg n e = .fin neg (n * 2 ^ e.toNat) (2 ^ (-e).toNat) := by
  unfold scaled
  split
  case isTrue h => rw [Int.toNat_of_nonpos (Int.le_of_lt h), Nat.pow_zero, Nat.mul_one]
  case isFalse h => rw [Int.toNat_of_nonpos (by omega : -e ≤ 0), Nat.pow_zero]

theorem Val.scale_fin (neg : Bool) (n d : Nat) (k : Int) :
    (Val.fin neg n d).scale k = .fin neg (n * 2 ^ k.toNat) (d * 2 ^ (-k).toNat) := by
  unfold scale
  dsimp only
  split
  case isTrue h => rw [Int.toNat_of_nonpos (Int.le_of_lt h), Nat.pow_zero, Nat.mul_one]
  case isFalse h => rw [Int.toNat_of_nonpos (by omega : -k ≤ 0), Nat.pow_zero, Nat.mul_one]

/-- Bounds, not sharp ones, of the magnitudes n ÷ d that a format holds. -/
structure Fmt.Spans (F : Fmt) (n d : Nat) : Prop where
  den : d ≠ 0
  least : n ≠ 0 → d ≤ n * 2 ^ (F.bias + F.f)
  most : n < d * 2 ^ (F.bias + F.f + 1)

theorem Fmt.spans_scaled {F : Fmt} {n : Nat} {e : Int} (hn : n < 2 ^ (F.f + 1)) (hlo : -((F.bias + F.f : Nat) : Int) ≤ e)
    (hhi : e ≤ F.bias) : F.Spans (n * 2 ^ e.toNat) (2 ^ (-e).toNat) where
  den := Nat.ne_of_gt (Nat.two_pow_pos _)
  least h :=
    calc 2 ^ (-e).toNat ≤ 2 ^ (F.bias + F.f) := Nat.pow_le_pow_right (by omega) (by omega)
      _ ≤ n * 2 ^ e.toNat * 2 ^ (F.bias + F.f) := Nat.le_mul_of_pos_left _ (Nat.pos_of_ne_zero h)
  most :=
    calc n * 2 ^ e.toNat < 2 ^ (F.f + 1) * 2 ^ e.toNat := Nat.mul_lt_mul_of_pos_right hn (Nat.two_pow_pos _)
      _ = 2 ^ (F.f + 1 + e.toNat) := (Nat.pow_add ..).symm
      _ ≤ 2 ^ (F.bias + F.f + 1) := Nat.pow_le_pow_right (by omega) (by omega)
      _ ≤ 2 ^ (-e).toNat * 2 ^ (F.bias + F.f + 1) := Nat.le_mul_of_pos_left _ (Nat.two_pow_pos _)

theorem Fmt.Regular.spans_of_value {F : Fmt} (hF : F.Regular) {b : Nat} {neg : Bool} {n d : Nat}
    (h : F.value b = .fin neg n d) : F.Spans n d := by
  have hbias := hF.bias
  have hfr : b % F.signBit % 2 ^ F.f < 2 ^ F.f := Nat.mod_lt _ (Nat.two_pow_pos _)
  unfold value at h
  simp only [hF.nan, and_true, scaled_eq] at h
  split at h
  case isTrue => split at h <;> contradiction
  case isFalse htop =>
    have hex : b % F.signBit / 2 ^ F.f < 2 * F.bias + 1 :=
      Nat.div_lt_of_lt_mul (by rw [Nat.mul_comm]; exact Nat.lt_of_le_of_lt (Nat.not_lt.mp htop) hF.top)
    generalize b % F.signBit / 2 ^ F.f = ex at h hex
    split at h <;> obtain ⟨rfl, rfl, rfl⟩ := Val.fin.inj h
    · exact spans_scaled (by omega) (by omega) (by omega)
    · exact spans_scaled (by omega) (by omega) (by omega)

theorem Fmt.Regular.spans_of_srcVal {F : Fmt} (hF : F.Regular) {t : Thread} {b : Nat} {neg : Bool} {n d : Nat}
    (h : srcVal t F b = .fin neg n d) : F.Spans n d :=
  hF.spans_of_value h

/-- An exponent from which on, up or down, every value of the format leaves its range. -/
def Fmt.reach (F : Fmt) : Nat := 2 * (F.bias + F.f + 1)

theorem Fmt.Regular.grid_scale_up {F : Fmt} (hF : F.Regular) (m : Mode) (neg : Bool) {n d : Nat} (hs : F.Spans n d)
    (hn : n ≠ 0) {k : Int} (hk : F.reach ≤ k) : F.top < F.grid m neg (n * 2 ^ k.toNat) (d * 2 ^ (-k).toNat) := by
  have hpos : (-k).toNat = 0 := by omega
  rw [hpos, Nat.pow_zero, Nat.mul_one]
  refine hF.grid_of_huge m neg hs.den ?_
  calc d * 2 ^ (F.bias + 2) ≤ n * 2 ^ (F.bias + F.f) * 2 ^ (F.bias + 2) := Nat.mul_le_mul_right _ (hs.least hn)
    _ = n * 2 ^ (F.bias + F.f + (F.bias + 2)) := by rw [Nat.mul_assoc, ← Nat.pow_add]
    _ ≤ n * 2 ^ k.toNat := Nat.mul_le_mul_left _ (Nat.pow_le_pow_right (by omega) (by unfold reach at hk; omega))

theorem Fmt.Regular.grid_scale_down {F : Fmt} (hF : F.Regular) (m : Mode) (neg : Bool) {n d : Nat} (hs : F.Spans n d)
    (hn : n ≠ 0) {k : Int} (hk : k ≤ -F.reach) :
    F.grid m neg (n * 2 ^ k.toNat) (d * 2 ^ (-k).toNat) = roundInt m neg 1 3 := by
  have hpos : k.toNat = 0 := by omega
  rw [hpos, Nat.pow_zero, Nat.mul_one]
  refine hF.grid_of_tiny m neg hn ?_
  calc n * 2 ^ (F.bias + F.f) < d * 2 ^ (F.bias + F.f + 1) * 2 ^ (F.bias + F.f) :=
        Nat.mul_lt_mul_of_pos_right hs.most (Nat.two_pow_pos _)
    _ = d * 2 ^ (F.bias + F.f + 1 + (F.bias + F.f)) := by rw [Nat.mul_assoc, ← Nat.pow_add]
    _ ≤ d * 2 ^ (-k).toNat := Nat.mul_le_mul_left _ (Nat.pow_le_pow_right (by omega) (by unfold reach at hk; omega))

/-- Scaling by a power of two beyond the reach of the format rounds as scaling by the power at a bound beyond it does. -/
theorem Fmt.Regular.round_scale_clamp {F : Fmt} (hF : F.Regular) (m : Mode) {v : Val}
    (hv : ∀ {neg n d}, v = .fin neg n d → F.Spans n d) {c : Int} (hc : F.reach ≤ c) (k : Int) :
    F.round m (v.scale (max (-c) (min c k))) = F.round m (v.scale k) := by
  cases v with
  | nan => rfl
  | inf neg => rfl
  | fin neg n d =>
    have hs := hv rfl
    rw [Val.scale_fin, Val.scale_fin]
    rcases Nat.eq_zero_or_pos n with rfl | hn
    · rw [Nat.zero_mul, Nat.zero_mul]
      exact F.round_zero ..
    · have hn := Nat.ne_of_gt hn
      by_cases hup : c < k
      · exact round_congr_of_top_lt (hF.grid_scale_up m neg hs hn (by omega)) (hF.grid_scale_up m neg hs hn (by omega))
      · by_cases hdown : k < -c
        · exact round_congr ((hF.grid_scale_down m neg hs hn (by omega)).trans
            (hF.grid_scale_down m neg hs hn (by omega)).symm)
        · rw [show max (-c) (min c k) = k by omega]

end Sys2Proof.Machine
end

section
/-! SUPPORT. The seeds and the reductions on a value (R154-R158). -/
namespace Sys2Proof.Machine

/-- The significand of n ÷ d, a fraction in [1, 2). -/
def significand (n d : Nat) : Nat × Nat := (n * 2 ^ (-ilog n d).toNat, d * 2 ^ (ilog n d).toNat)

theorem scale_neg_ilog (neg : Bool) (n d : Nat) :
    (Val.fin neg n d).scale (-ilog n d) = .fin neg (significand n d).1 (significand n d).2 := by
  rw [Val.scale_fin, Int.neg_neg, significand]

/-- The index of a table of c entries over the significands. -/
theorem significand_index_lt {n d : Nat} (hn : n ≠ 0) (hd : d ≠ 0) {c : Nat} (hc : 0 < c) :
    ((significand n d).1 - (significand n d).2) * c / (significand n d).2 < c := by
  obtain ⟨-, hlt⟩ : IsExpo n d (ilog n d) := ilog_isExpo hn hd
  have hpos : 0 < (significand n d).2 := Nat.mul_pos (Nat.pos_of_ne_zero hd) (Nat.two_pow_pos _)
  refine Nat.div_lt_of_lt_mul (Nat.mul_lt_mul_of_pos_right ?_ hc)
  rw [significand] at hpos ⊢
  dsimp only at hpos ⊢
  omega

/-! ## RCPSEED -/

theorem F32_sign_infEnc (neg : Bool) : F32.sign neg F32.infEnc = if neg then 0xFF800000 else 0x7F800000 := by
  cases neg <;> rfl

theorem F32_sign_zero (neg : Bool) : F32.sign neg 0 = if neg then 0x80000000 else 0 := by
  cases neg <;> rfl

theorem rcpSeed_fin (neg : Bool) {n : Nat} (hn : n ≠ 0) (d : Nat) :
    let m := significand n d
    rcpSeed (.fin neg n d) = F32.round .rne
      ((Val.fin neg (roundInt .rne false (512 * 1024) (513 + 2 * ((m.1 - m.2) * 256 / m.2))) 1024).scale (-ilog n d)) := by
  simp only [rcpSeed, hn, if_false, scale_neg_ilog]

/-! ## RSQSEED -/

/-- A search by bits from the highest ends where the predicate holds and its successor does not meet it. -/
theorem foldl_bits {P : Nat → Prop} [DecidablePred P] (m : Nat) {n : Nat} (hn : P n) (htop : ¬ P (n + 2 ^ m)) :
    let r := ((List.range m).reverse.map (2 ^ ·)).foldl (fun n b => if P (n + b) then n + b else n) n
    P r ∧ ¬ P (r + 1) := by
  induction m generalizing n with
  | zero => exact ⟨hn, htop⟩
  | succ m ih =>
    rw [List.range_succ, List.reverse_append, List.reverse_singleton, List.singleton_append, List.map_cons, List.foldl_cons]
    split
    case isTrue h => exact ih h (by rwa [Nat.add_assoc, ← Nat.two_mul, ← Nat.pow_succ'])
    case isFalse h => exact ih hn h

/-- 1024 ÷ √(c ÷ 256) is nowhere halfway between two integers: an odd square does not divide a power of two. -/
theorem sq_mul_ne {c : Nat} (hc : c < 4 * 1024 ^ 2 * 256) (k : Nat) : (2 * k - 1) ^ 2 * c ≠ 4 * 1024 ^ 2 * 256 := by
  intro h
  have hpow : 4 * 1024 ^ 2 * 256 = 2 ^ 30 := by decide
  rw [hpow] at h hc
  rcases Nat.eq_zero_or_pos k with rfl | hk
  · omega
  · have hmod : (2 * k - 1) % 2 = 1 := by omega
    have htwo : Nat.Coprime 2 (2 * k - 1) := by rw [Nat.Coprime, Nat.gcd_rec, hmod, Nat.gcd_one_left]
    have hodd : Nat.Coprime (2 * k - 1) (2 ^ 30) := htwo.symm.pow_right 30
    have hone : 2 * k - 1 = 1 :=
      hodd.eq_one_of_dvd ⟨(2 * k - 1) * c, by rw [← h, Nat.pow_two, Nat.mul_assoc]⟩
    rw [hone] at h
    omega

theorem rsqRound_eq (c d : Nat) : rsqRound c d = ((List.range 11).reverse.map (2 ^ ·)).foldl
    (fun n b => if (2 * (n + b) - 1) ^ 2 * c ≤ 4 * 1024 ^ 2 * d then n + b else n) 0 := by
  have hbits : (List.range 11).reverse.map (2 ^ ·) = [1024, 512, 256, 128, 64, 32, 16, 8, 4, 2, 1] := by decide
  rw [hbits, rsqRound]

theorem rsqRound_nearest {c : Nat} (hlo : 257 ≤ c) (hhi : c < 4 * 1024 ^ 2 * 256) :
    let k := rsqRound c 256
    (2 * k - 1) ^ 2 * c < 4 * 1024 ^ 2 * 256 ∧ 4 * 1024 ^ 2 * 256 < (2 * k + 1) ^ 2 * c := by
  have htop : ¬ (2 * (0 + 2 ^ 11) - 1) ^ 2 * c ≤ 4 * 1024 ^ 2 * 256 := by omega
  have hsearch := foldl_bits (P := fun n => (2 * n - 1) ^ 2 * c ≤ 4 * 1024 ^ 2 * 256) 11 (n := 0) (by omega) htop
  rw [← rsqRound_eq] at hsearch
  obtain ⟨hle, hgt⟩ := hsearch
  generalize rsqRound c 256 = k at hle hgt
  have hsucc : 2 * (k + 1) - 1 = 2 * k + 1 := by omega
  rw [hsucc] at hgt
  exact ⟨Nat.lt_of_le_of_ne hle (sq_mul_ne hhi _), Nat.not_le.mp hgt⟩

theorem rsqSeed_fin {n d : Nat} (hn : n ≠ 0) (hd : d ≠ 0) :
    let m := significand n d
    let i := (m.1 - m.2) * 128 / m.2
    let c := if ilog n d % 2 = 1 then 2 * (257 + 2 * i) else 257 + 2 * i
    let e := if ilog n d % 2 = 1 then ilog n d - 1 else ilog n d
    ∃ k, (2 * k - 1) ^ 2 * c < 4 * 1024 ^ 2 * 256 ∧ 4 * 1024 ^ 2 * 256 < (2 * k + 1) ^ 2 * c ∧
      rsqSeed (.fin false n d) = F32.round .rne ((Val.fin false k 1024).scale (-e / 2)) := by
  intro m i c e
  have hi : i < 128 := significand_index_lt hn hd (by decide)
  have hc : 257 ≤ c ∧ c < 1024 := by
    simp only [c]
    split <;> omega
  obtain ⟨hlt, hgt⟩ := rsqRound_nearest hc.1 (Nat.lt_trans hc.2 (by decide))
  refine ⟨rsqRound c 256, hlt, hgt, ?_⟩
  simp only [rsqSeed, hn, if_false, scale_neg_ilog, beq_iff_eq, Bool.false_eq_true]
  rfl

/-! ## EXPRED, LOGRED and SINRED -/

theorem sInt_of_lt_zero (z : Int) : sInt (decide (z < 0)) z.natAbs = z := by
  rw [sInt]
  split
  case isTrue h =>
    have hz : z < 0 := of_decide_eq_true h
    omega
  case isFalse h =>
    have hz : ¬ z < 0 := fun hz => h (decide_eq_true hz)
    omega

theorem expRed_of_lt (neg : Bool) {n d : Nat} (h : 256 * d < n) :
    expRed (.fin neg n d) = (0, if neg then -256 else 256) := by
  rw [expRed, if_pos h]

theorem expRed_fin (neg : Bool) {n d : Nat} (h : ¬ 256 * d < n) :
    let k := sInt neg (roundInt .rne neg n d)
    let r := sInt neg n - k * d
    expRed (.fin neg n d) = (F32.round .rne (.fin (if r = 0 then neg else decide (r < 0)) r.natAbs d), k) := by
  have hsum (z : Int) : sInt neg n * ((1 : Nat) : Int) + sInt (decide (-z < 0)) (-z).natAbs * d = sInt neg n - z * d := by
    rw [sInt_of_lt_zero, Int.natCast_one, Int.mul_one, Int.neg_mul, Int.sub_eq_add_neg]
  simp only [expRed, gt_iff_lt, h, if_false, Val.ofInt, Val.add, hsum, Nat.mul_one]
  generalize sInt neg n - sInt neg (roundInt .rne neg n d) * d = r
  refine Prod.ext ?_ rfl
  by_cases hr : r = 0
  · rw [if_pos hr, if_pos hr, hr]
    exact F32.round_zero ..
  · obtain ⟨m, hm⟩ := Nat.exists_eq_succ_of_ne_zero (Int.natAbs_ne_zero.mpr hr)
    rw [if_neg hr, if_neg hr, hm]
    rfl

theorem logRed_neg {n : Nat} (hn : n ≠ 0) (d : Nat) : logRed (.fin true n d) = (F32.qnan, 0) := by
  rw [logRed, if_neg hn, if_pos rfl]

theorem logRed_fin {n : Nat} (hn : n ≠ 0) (d : Nat) :
    let m := significand n d
    let big := decide (2 * m.2 * m.2 ≤ m.1 * m.1)
    let y := if big then 2 * m.2 else m.2
    logRed (.fin false n d) =
      (F32.round .rne (.fin (decide (m.1 < y)) ((m.1 : Int) - y).natAbs (m.1 + y)), ilog n d + if big then 1 else 0) := by
  simp only [logRed, hn, if_false, scale_neg_ilog, Bool.false_eq_true, ge_iff_le]
  split
  case isTrue hbig => simp [hbig]
  case isFalse hbig => simp [hbig]

/-- The quadrant of R158, from the rounded quotient of the magnitude. -/
theorem quadrant_eq (neg : Bool) (k : Nat) :
    ((if neg then (4 - k % 4) % 4 else k % 4 : Nat) : Int) = (if neg then -(k : Int) else k) % 4 := by
  split <;> omega

theorem sinRed_fin (neg : Bool) {n : Nat} (hn : n ≠ 0) (d : Nat) :
    let k := roundInt .rne false (2 * n * 2 ^ 640) (d * piNum)
    let r : Int := (2 * n * 2 ^ 640 : Nat) - (k * d * piNum : Nat)
    sinRed (.fin neg n d) = (F32.round .rne (.fin (decide (r < 0) != neg) r.natAbs (2 * d * 2 ^ 640)),
      if neg then (4 - k % 4) % 4 else k % 4) := by
  have hcast (c : Nat) : ((2 * n * 2 ^ c : Nat) : Int) = 2 * n * 2 ^ c := by push_cast; rfl
  intro k r
  rw [sinRed, if_neg hn, ← hcast]
  rfl

end Sys2Proof.Machine
end

section
/-! SUPPORT. The float instructions of one operand: what they write is what a function of the value gives (R154-R160). -/
namespace Sys2Proof.Machine

theorem lowBits_eq (z : Int) (n : Nat) : lowBits z n = (BitVec.ofInt n z).toNat := by
  rw [lowBits, BitVec.toNat_ofInt, Int.natCast_pow]
  rfl

theorem lowBits_mod (z : Int) (n : Nat) : lowBits z n % 2 ^ n = (BitVec.ofInt n z).toNat := by
  rw [lowBits_eq, Nat.mod_eq_of_lt (BitVec.isLt _)]

theorem sextNat_eq (v : Nat) : sextNat v 32 = (BitVec.ofNat 32 v).toInt := by
  simp only [sextNat, BitVec.toInt_eq_toNat_cond, BitVec.toNat_ofNat]
  split <;> split <;> omega

theorem scaleExp_eq (b : Nat) : scaleExp b = max (-2400) (min 2400 (BitVec.ofNat 32 b).toInt) := by
  rw [scaleExp, sextNat_eq]

theorem fmtOfSc_reach (ft : FSc) : ((fmtOfSc ft).reach : Int) ≤ 2400 := by
  cases ft <;> decide

/-- The exponent of FSCALE may be clamped: beyond the clamp the result no longer changes. -/
theorem round_scaleExp (t : Thread) (ft : FSc) (m : Mode) (e b : Nat) :
    (fmtOfSc ft).round m ((srcVal t (fmtOfSc ft) e).scale (scaleExp b)) =
      (fmtOfSc ft).round m ((srcVal t (fmtOfSc ft) e).scale (BitVec.ofNat 32 b).toInt) := by
  rw [scaleExp_eq]
  exact (fmtOfSc_regular ft).round_scale_clamp m (fmtOfSc_regular ft).spans_of_srcVal (fmtOfSc_reach ft) _

theorem rdW_w32 (t : Thread) (r : Reg) : rdW t .w32 r = (t.reg r.toNat).toNat := by
  simp [rdW, wRegs, Thread.group]

/-- A slot whose meaning writes a result of a width in each active thread. -/
theorem gives_wrW {s : State} {i : Instr} {w : Width} {d : Reg} {v : Thread → Nat} (f : Thread → Nat)
    (h : exec i s = .next (mapLanes s fun t => wrW t w d (f t))) (hv : ∀ x, f x = v x) :
    Gives s i (wRegs w) d fun _ x => v x :=
  gives_group f h fun _ x => by rw [hv]

/-- A seed: one float from the float of a source register. -/
theorem gives_seed {s : State} {i : Instr} {d a : Reg} {v : Thread → Nat} (f : Val → Nat)
    (h : exec i s = .next (mapLanes s fun t => wrW t .w32 d (F32.flush (ftzo t) (f (srcVal t F32 (rdW t .w32 a))))))
    (hv : ∀ x, f (srcVal x F32 (x.reg a.toNat).toNat) = v x) : Gives s i 1 d fun _ x => F32.flush (ftzo x) (v x) :=
  gives_wrW (w := .w32) _ h fun x => by rw [rdW_w32, hv]

/-- What a reduction writes: the float below the integer (R156-R158). -/
def redPair (t : Thread) (p : Nat × Int) : Nat := F32.flush (ftzo t) p.1 + 2 ^ 32 * (BitVec.ofInt 32 p.2).toNat

/-- A reduction: a float and an integer from the float of a source register. -/
theorem gives_red {s : State} {i : Instr} {d a : Reg} {v : Thread → Nat} (f : Val → Nat × Int) (z : Val → Nat)
    (h : exec i s = .next (mapLanes s fun t =>
      wrRed t d (f (srcVal t F32 (rdW t .w32 a))).1 (z (srcVal t F32 (rdW t .w32 a)))))
    (hz : ∀ y, z y % 2 ^ 32 = (BitVec.ofInt 32 (f y).2).toNat)
    (hv : ∀ x, redPair x (f (srcVal x F32 (x.reg a.toNat).toNat)) = v x) : Gives s i 2 d fun _ x => v x :=
  gives_wrW (w := .w64) _ h fun x => by rw [rdW_w32, hz, ← hv, redPair]

theorem fscale_gives (s : State) (ft : FSc) (rm : Rnd) (d a b : Reg) :
    Gives s (.fscale ft rm d a b) (wRegs (widthOfSc ft)) d fun _ x => (fmtOfSc ft).flush (ftzo x)
      ((fmtOfSc ft).round (modeOf x rm) ((srcVal x (fmtOfSc ft) (x.group (wRegs (widthOfSc ft)) a.toNat)).scale
        (BitVec.ofNat 32 (rdB s.cur x .w32 b)).toInt)) :=
  gives_wrW _ rfl fun x => by rw [resVal, round_scaleExp]; rfl

/-- Settles O13: a case split on the source's value, where each case is an equation of the seed or the reduction; FSCALE's
clamped exponent changes no result. -/
theorem floatParts : Obligations.FloatParts := by
  unfold Obligations.FloatParts
  intro s ft rm d a b F w A A32 K
  refine ⟨fscale_gives s ft rm d a b, gives_wrW (w := .w32) _ rfl fun x => ?_, gives_wrW _ rfl fun x => ?_, ?_⟩
  · change fexpoVal (A x) = _
    cases A x with
    | nan => rfl
    | inf => rfl
    | fin neg n q => simp only [fexpoVal, Val.expo, lowBits_eq]
  · change F.flush (ftzo x) (F.round .rne (fmantVal (A x))) = _
    cases A x with
    | nan => rfl
    | inf => rfl
    | fin neg n q => rfl
  intro sig nan inf pair
  have hpair (r : Nat) (z : Int) (x : Thread) : pair r z x = redPair x (r, z) := rfl
  clear_value pair
  refine ⟨gives_seed rcpSeed rfl fun x => ?_, ⟨fun x => rsqSeed (A32 x), gives_seed rsqSeed rfl fun x => rfl, fun x => ?_⟩,
    gives_red expRed (fun v => lowBits (expRed v).2 32) rfl (fun _ => lowBits_mod _ 32) fun x => ?_,
    gives_red logRed (fun v => lowBits (logRed v).2 32) rfl (fun _ => lowBits_mod _ 32) fun x => ?_,
    gives_red (fun v => ((sinRed v).1, ((sinRed v).2 : Int))) (fun v => (sinRed v).2) rfl
      (fun _ => BitVec.toNat_ofNat ..) fun x => ?_⟩
  · change rcpSeed (A32 x) = _
    cases A32 x with
    | nan => rfl
    | inf neg => exact F32_sign_zero neg
    | fin neg n q =>
      dsimp only
      split
      case isTrue hn => subst hn; exact F32_sign_infEnc neg
      case isFalse hn => exact rcpSeed_fin neg hn q
  · dsimp only
    cases hv : A32 x with
    | nan => rfl
    | inf neg => rfl
    | fin neg n q =>
      refine ⟨fun hn => ?_, fun hn hneg => ?_, fun hn hneg => ?_⟩
      · subst hn; exact F32_sign_infEnc neg
      · subst hneg; exact if_neg hn
      · subst hneg
        exact rsqSeed_fin hn (F32_regular.spans_of_srcVal hv).den
  · change redPair x (expRed (A32 x)) = _
    cases A32 x with
    | nan => exact (hpair ..).symm
    | inf neg => exact (hpair ..).symm
    | fin neg n q =>
      dsimp only
      split
      case isTrue h => rw [hpair, expRed_of_lt neg h]
      case isFalse h => rw [hpair, expRed_fin neg h]
  · change redPair x (logRed (A32 x)) = _
    cases A32 x with
    | nan => exact (hpair ..).symm
    | inf neg => cases neg <;> exact (hpair ..).symm
    | fin neg n q =>
      dsimp only
      split
      case isTrue h => subst h; rw [hpair]; rfl
      case isFalse h =>
        cases neg
        · rw [logRed_fin h q]; exact (hpair ..).symm
        · rw [logRed_neg h q]; exact (hpair ..).symm
  · change redPair x ((sinRed (A32 x)).1, ((sinRed (A32 x)).2 : Int)) = _
    cases A32 x with
    | nan => exact (hpair ..).symm
    | inf neg => exact (hpair ..).symm
    | fin neg n q =>
      dsimp only
      split
      case isTrue h => subst h; rw [hpair]; cases neg <;> rfl
      case isFalse h => rw [hpair, sinRed_fin neg h q, quadrant_eq]; rfl

end Sys2Proof.Machine
end

section
/-! SUPPORT. Memory in its canonical form: the rules for a choice and for a fold of states, and one for each operation
of the state. What follows holds one lemma for each function of the model that gives a state, `MemoryOk.f` for the
function `f`: from a state whose memory is in its form it gives one. -/

namespace Sys2Proof.Machine
variable {s : State}

theorem MemoryOk.ite {c : Prop} [Decidable c] {a b : State} (ha : MemoryOk a) (hb : MemoryOk b) :
    MemoryOk (if c then a else b) := by
  split <;> assumption

theorem MemoryOk.ite_fst {α : Type} {c : Prop} [Decidable c] {a b : State × α} (ha : MemoryOk a.1)
    (hb : MemoryOk b.1) : MemoryOk (if c then a else b).1 := by
  split <;> assumption

theorem MemoryOk.getD {o : Option State} (hs : MemoryOk s) (ho : ∀ t, o = some t → MemoryOk t) :
    MemoryOk (o.getD s) := by
  cases o with
  | none => exact hs
  | some t => exact ho t rfl

/-- A fold of states keeps the form when each of its steps does. -/
theorem MemoryOk.foldl {α : Type} {f : State → α → State} {l : List α} (hs : MemoryOk s)
    (hf : ∀ {t x}, MemoryOk t → MemoryOk (f t x)) : MemoryOk (l.foldl f s) :=
  List.foldlRecOn l f hs fun _ ht _ _ => hf ht

theorem MemoryOk.foldl_fst {α β : Type} {f : State × β → α → State × β} {l : List α} {r : State × β}
    (hr : MemoryOk r.1) (hf : ∀ {t x}, MemoryOk t.1 → MemoryOk (f t x).1) : MemoryOk (l.foldl f r).1 :=
  List.foldlRecOn (motive := fun r => MemoryOk r.1) l f hr fun _ ht _ _ => hf ht

/-- The next state, where an outcome has one, has its memory in the canonical form. -/
def NextOk : Host.Outcome State Fault Refusal → Prop
  | .next t => MemoryOk t
  | _ => True

theorem MemoryOk.cur {c} (hs : MemoryOk s) : MemoryOk { s with cur := c } := hs
theorem MemoryOk.cores {c} (hs : MemoryOk s) : MemoryOk { s with cores := c } := hs
theorem MemoryOk.seq {n} (hs : MemoryOk s) : MemoryOk { s with seq := n } := hs
theorem MemoryOk.turn {b} (hs : MemoryOk s) : MemoryOk { s with turn := b } := hs
theorem MemoryOk.agenda {is} (hs : MemoryOk s) : MemoryOk { s with agenda := is } := hs

/-! ## Accessors -/

theorem MemoryOk.bump (hs : MemoryOk s) : MemoryOk (State.bump s) := hs
theorem MemoryOk.setThread {t x} (hs : MemoryOk s) : MemoryOk (State.setThread s t x) := hs
theorem MemoryOk.updThread {t f} (hs : MemoryOk s) : MemoryOk (State.updThread s t f) := hs.setThread
theorem MemoryOk.setCore {g x} (hs : MemoryOk s) : MemoryOk (State.setCore s g x) := hs
theorem MemoryOk.updCore {g f} (hs : MemoryOk s) : MemoryOk (State.updCore s g f) := hs.setCore
theorem MemoryOk.setDie {d x} (hs : MemoryOk s) : MemoryOk (State.setDie s d x) := hs
theorem MemoryOk.updDie {d f} (hs : MemoryOk s) : MemoryOk (State.updDie s d f) := hs.setDie
theorem MemoryOk.setTeam {t x} (hs : MemoryOk s) : MemoryOk (State.setTeam s t x) := hs

theorem MemoryOk.updTeam {t f} (hs : MemoryOk s) : MemoryOk (State.updTeam s t f) := by
  rw [Machine.State.updTeam]
  split
  · exact hs
  · exact hs.setTeam

theorem MemoryOk.setLaunch {l x} (hs : MemoryOk s) : MemoryOk (State.setLaunch s l x) := hs

theorem MemoryOk.updLaunch {l f} (hs : MemoryOk s) : MemoryOk (State.updLaunch s l f) := by
  rw [Machine.State.updLaunch]
  split
  · exact hs
  · exact hs.setLaunch

theorem MemoryOk.setBend {b x} (hs : MemoryOk s) : MemoryOk (State.setBend s b x) := hs
theorem MemoryOk.setPort {p x} (hs : MemoryOk s) : MemoryOk (State.setPort s p x) := hs
theorem MemoryOk.setPass {p x} (hs : MemoryOk s) : MemoryOk (State.setPass s p x) := hs
theorem MemoryOk.setAcc {a x} (hs : MemoryOk s) : MemoryOk (State.setAcc s a x) := hs

theorem MemoryOk.updAcc {id f} (hs : MemoryOk s) : MemoryOk (State.updAcc s id f) := by
  rw [Machine.State.updAcc]
  split
  · exact hs
  · exact hs.setAcc

theorem MemoryOk.delAcc {a} (hs : MemoryOk s) : MemoryOk (State.delAcc s a) := hs
theorem MemoryOk.emit {o} (hs : MemoryOk s) : MemoryOk (State.emit s o) := hs
theorem MemoryOk.choose (hs : MemoryOk s) : MemoryOk (State.choose s).1 := hs

end Sys2Proof.Machine
end

section
/-! SUPPORT. Memory in its canonical form through sectors, die-physical accesses and fault records. Memory is written
by `writeHome`, `writeBack`, `finishDevelop`, `mergeHome`, `ncHome` and `halve` only, each by the checked writes of
`cellPut`. -/

namespace Sys2Proof.Machine
variable {s : State}

/-! ## Physical memory -/

theorem MemoryOk.writeHome {a bs} (hs : MemoryOk s) : MemoryOk (writeHome s a bs) := cellPuts_wf _ _ hs

/-! ## Flits -/

theorem MemoryOk.sendFlitTo {i dest m} (hs : MemoryOk s) : MemoryOk (sendFlitTo s i dest m) := hs.setPort.emit
theorem MemoryOk.sendFlit {i m} (hs : MemoryOk s) : MemoryOk (sendFlit s i m) := hs.sendFlitTo

theorem MemoryOk.sendFar {key m} (hs : MemoryOk s) : MemoryOk (sendFar s key m) := by
  rw [Machine.sendFar]
  split
  · exact hs.sendFlit
  · exact hs

theorem MemoryOk.askFar {key m} (hs : MemoryOk s) : MemoryOk (askFar s key m) := by
  rw [Machine.askFar]
  split
  · exact hs
  · exact .ite hs.sendFlit hs.setPort

theorem MemoryOk.sendUnsent {i} (hs : MemoryOk s) : MemoryOk (sendUnsent s i) :=
  hs.setPort.foldl fun ht => ht.sendFlit

/-! ## Poison -/

theorem MemoryOk.markElems {k es} (hs : MemoryOk s) : MemoryOk (markElems s k es) := hs

/-! ## Develop -/

theorem MemoryOk.reportMerge {k rs} (hs : MemoryOk s) : MemoryOk (reportMerge s k rs) := by
  rw [Machine.reportMerge]
  split
  · exact hs.updDie
  · exact hs

theorem MemoryOk.unqueue {i} (hs : MemoryOk s) : MemoryOk (unqueue s i) := by
  unfold Machine.unqueue
  split
  case h_4 => exact hs
  all_goals
    split
    · exact hs
    · exact hs.setAcc

/-- The reports of a develop go out one by one; they touch the links only. -/
theorem MemoryOk.sendReports {k op asked} : ∀ {rs s}, MemoryOk s → MemoryOk (sendReports s k op asked rs)
  | [], _, hs => .ite hs.sendFar hs
  | [_], _, hs => hs.sendFar
  | _ :: _ :: _, _, hs => hs.sendFar.sendReports

theorem MemoryOk.finishDevelop {k v rs} (hs : MemoryOk s) : MemoryOk (finishDevelop s k v rs) :=
  .foldl (.reportMerge (.markElems (cellPuts_wf _ _ hs.sendReports))) fun ht => ht.unqueue

theorem MemoryOk.startDevelop {k} (hs : MemoryOk s) : MemoryOk (startDevelop s k) := by
  rw [Machine.startDevelop]
  split
  · exact .ite hs.finishDevelop hs
  · exact hs

theorem MemoryOk.doCollect {k n} (hs : MemoryOk s) : MemoryOk (doCollect s k n) := by
  rw [Machine.doCollect]
  split
  · refine .ite ?_ hs
    split
    · exact .ite hs (.ite hs (.ite (.sendFlit hs) hs))
    · exact .ite hs hs
  · exact hs

theorem MemoryOk.gotComposite {k r} (hs : MemoryOk s) : MemoryOk (gotComposite s k r) := by
  rw [Machine.gotComposite]
  split
  · exact .ite hs hs
  · exact hs

theorem MemoryOk.doReport {k n} (hs : MemoryOk s) : MemoryOk (doReport s k n) := by
  rw [Machine.doReport]
  split
  · exact hs
  · split
    · exact .ite hs.finishDevelop hs
    · exact .ite hs (.ite hs (.ite hs.finishDevelop hs))

theorem MemoryOk.mustWait {k} (hs : MemoryOk s) : MemoryOk (mustWait s k).1 := by
  unfold Machine.mustWait
  extract_lets u
  have hu : MemoryOk u := by
    unfold u
    split
    · exact hs.startDevelop
    · exact hs
  exact .ite_fst hu hu

theorem MemoryOk.waitAt {k i} (hs : MemoryOk s) : MemoryOk (waitAt s k i).1 := by
  unfold Machine.waitAt
  extract_lets u
  have hu : MemoryOk u := by
    unfold u
    split
    · exact hs.startDevelop
    · exact hs
  split
  · exact hu
  · exact .ite_fst hu hu

/-! ## Early merges -/

theorem MemoryOk.mergeHome {k op e} (hs : MemoryOk s) : MemoryOk (mergeHome s k op e) :=
  .reportMerge (.markElems (cellPuts_wf _ _ hs.sendFar))

theorem MemoryOk.mergeEarly {k op rest e} (hs : MemoryOk s) : MemoryOk (mergeEarly s k op rest e) := .mergeHome hs

theorem MemoryOk.evictBeyond {k op copies c} (hs : MemoryOk s) : MemoryOk (evictBeyond s k op copies c) :=
  .ite hs.mergeEarly (.ite hs.sendFlit hs)

theorem MemoryOk.doEarlyMerge {k n} (hs : MemoryOk s) : MemoryOk (doEarlyMerge s k n) := by
  rw [Machine.doEarlyMerge]
  split
  · refine .ite hs ?_
    split
    · exact hs.evictBeyond
    · exact hs.mergeEarly
  · exact hs

/-! ## Ownership -/

theorem MemoryOk.loseExcl {k who} (hs : MemoryOk s) : MemoryOk (loseExcl s k who) := by
  unfold Machine.loseExcl
  dsimp only
  split
  case h_6 =>
    split
    · exact hs
    · exact hs.setCore
  all_goals exact hs

theorem MemoryOk.loseCopy {k who} (hs : MemoryOk s) : MemoryOk (loseCopy s k who) := by
  unfold Machine.loseCopy
  split
  case h_5 => exact .ite hs.updCore hs
  case h_6 => exact hs.updTeam
  all_goals exact hs

theorem MemoryOk.loseClean {k who} (hs : MemoryOk s) : MemoryOk (loseClean s k who) := by
  unfold Machine.loseClean
  split
  · exact hs
  · exact hs.loseCopy

theorem MemoryOk.dropClean {k n} (hs : MemoryOk s) : MemoryOk (dropClean s k n) := by
  rw [Machine.dropClean]
  split
  · exact .loseClean hs
  · exact .ite (.loseClean hs.loseExcl) hs
  · exact hs

theorem MemoryOk.writeBack {k d} (hs : MemoryOk s) : MemoryOk (writeBack s k d) := cellPuts_wf _ _ hs

theorem MemoryOk.toHome {k} (hs : MemoryOk s) : MemoryOk (toHome s k) := by
  rw [Machine.toHome]
  split
  · exact hs
  · exact .foldl hs fun ht => ht.loseCopy
  · exact .loseCopy (.loseExcl hs)
  · exact .loseCopy (.loseExcl (.writeBack (.sendFar hs)))
  · exact hs.mustWait

theorem MemoryOk.readState {k n} (hs : MemoryOk s) : MemoryOk (readState s k n) := by
  rw [Machine.readState]
  split
  · exact hs
  · exact .ite hs hs
  · exact .ite hs hs.loseExcl
  · exact .ite hs hs.toHome
  · exact hs

theorem MemoryOk.readStateHome {k} (hs : MemoryOk s) : MemoryOk (readStateHome s k) := by
  rw [Machine.readStateHome]
  split
  · exact hs.toHome
  · exact hs

theorem MemoryOk.developIf {k} (hs : MemoryOk s) : MemoryOk (developIf s k) := hs.mustWait

theorem MemoryOk.heatTick {k} (hs : MemoryOk s) : MemoryOk (heatTick s k) := by
  unfold Machine.heatTick
  dsimp only
  split
  · exact hs
  · refine .ite hs (.ite hs.setDie ?_)
    split
    · exact hs.setDie
    · exact hs.setDie.toHome.writeHome.askFar.askFar

theorem MemoryOk.allocLine {k a} (hs : MemoryOk s) : MemoryOk (allocLine s k a) := by
  rw [Machine.allocLine]
  split
  · exact hs
  · exact .ite hs hs.updDie

theorem MemoryOk.hubKeep {k} (hs : MemoryOk s) : MemoryOk (hubKeep s k) := by
  unfold Machine.hubKeep
  dsimp only
  split
  · refine .ite hs ?_
    split
    · exact hs
    · exact .ite hs (.foldl hs fun ht => ht.dropClean)
  · exact hs

theorem MemoryOk.fillMarks {k who} (hs : MemoryOk s) : MemoryOk (fillMarks s k who) := by
  unfold Machine.fillMarks
  dsimp only
  split
  · exact .ite hs hs.updCore
  · exact hs

theorem MemoryOk.readFor {k who} (hs : MemoryOk s) : MemoryOk (readFor s k who) := by
  unfold Machine.readFor
  split
  · exact hs.heatTick.developIf.readStateHome
  · exact .ite hs (.ite (.fillMarks (.hubKeep (.readState (.developIf (.ite hs hs.heatTick)))))
      hs.heatTick.developIf.readState.fillMarks)

theorem MemoryOk.keepMarks {k who} (hs : MemoryOk s) : MemoryOk (keepMarks s k who) := by
  unfold Machine.keepMarks
  dsimp only
  split
  · split
    · exact .loseCopy hs
    · exact hs
  · exact hs

theorem MemoryOk.storeFor {k who off bs} (hs : MemoryOk s) : MemoryOk (storeFor s k who off bs) := by
  unfold Machine.storeFor
  dsimp only
  split
  · exact hs.heatTick.toHome.writeHome
  · exact .keepMarks (.ite hs hs.heatTick.toHome)

theorem MemoryOk.readBy {who a n} (hs : MemoryOk s) : MemoryOk (readBy s who a n).1 :=
  hs.foldl_fst fun ht => ht.readFor

theorem MemoryOk.readHome {a n} (hs : MemoryOk s) : MemoryOk (readHome s a n).1 := hs.readBy
theorem MemoryOk.storeHome {a bs} (hs : MemoryOk s) : MemoryOk (storeHome s a bs) := hs.foldl fun ht => ht.storeFor

/-! ## Die-physical accesses -/

theorem MemoryOk.readPlain {d pa n} (hs : MemoryOk s) : MemoryOk (readPlain s d pa n).1 := by
  rw [Machine.readPlain]
  split
  · exact hs
  · exact hs.readHome

theorem MemoryOk.readPhys {d pa n} (hs : MemoryOk s) : MemoryOk (readPhys s d pa n).1 := by
  rw [Machine.readPhys]
  refine .readPlain ?_
  split
  · exact hs
  · exact hs.askFar

theorem MemoryOk.storePhys {d pa bs} (hs : MemoryOk s) : MemoryOk (storePhys s d pa bs) := by
  rw [Machine.storePhys]
  split
  · exact hs
  · exact hs.storeHome.askFar

/-! ## Fault records -/

theorem MemoryOk.recordWaits {d pa} (hs : MemoryOk s) : MemoryOk (recordWaits s d pa).1 := by
  rw [Machine.recordWaits]
  split
  · exact hs
  · exact hs.waitAt

theorem MemoryOk.flushFq {d} : ∀ {fuel s}, MemoryOk s → MemoryOk (flushFq s d fuel)
  | 0, _, hs => hs
  | fuel + 1, s, hs => by
    rw [Machine.flushFq]
    dsimp only
    split
    · exact hs
    · exact .ite hs (.ite hs.recordWaits hs.recordWaits.storePhys.updDie.emit.flushFq)

theorem MemoryOk.flush {d} (hs : MemoryOk s) : MemoryOk (flush s d) := hs.flushFq
theorem MemoryOk.report {d r} (hs : MemoryOk s) : MemoryOk (report s d r) := hs.updDie.flush

theorem MemoryOk.park {d r who} (hs : MemoryOk s) : MemoryOk (park s d r who) := by
  rw [Machine.park]
  split
  · exact hs.setDie
  · exact .ite hs.setDie.flush hs.setDie

theorem MemoryOk.unpark {d who} (hs : MemoryOk s) : MemoryOk (unpark s d who) := .ite hs.updDie hs

theorem MemoryOk.unparkAcc {d id parts} (hs : MemoryOk s) : MemoryOk (unparkAcc s d id parts) :=
  hs.foldl fun ht => ht.unpark

end Sys2Proof.Machine
end

section
/-! SUPPORT. Memory in its canonical form through walks and translation, the scratchpad and expansions. -/

namespace Sys2Proof.Machine
variable {s : State}

/-! ## Handles -/

theorem MemoryOk.importHandle {d idx} (hs : MemoryOk s) : MemoryOk (importHandle s d idx).1 := .ite_fst hs hs.readPhys

/-! ## Walks -/

theorem MemoryOk.walkEntry {d va t lvl} (hs : MemoryOk s) : MemoryOk (walkEntry s d va t lvl).1 := by
  unfold Machine.walkEntry
  extract_lets idx
  split
  · exact hs
  · extract_lets m r u e h
    have hm : MemoryOk m.1 := hs.mustWait
    have hu : MemoryOk u := hm.askFar.readBy
    have hh : MemoryOk h.1 := .ite_fst hu.importHandle hu
    exact .ite_fst hm (.ite_fst hu (.ite_fst hh (.ite_fst hu hu)))

theorem MemoryOk.cachedTable {d c va lvl} (hs : MemoryOk s) : MemoryOk (cachedTable s d c va lvl).1 := by
  rw [Machine.cachedTable]
  split
  · exact hs
  · exact hs.choose

theorem MemoryOk.keepTable {d c va lvl t} (hs : MemoryOk s) : MemoryOk (keepTable s d c va lvl t) := hs.updDie

theorem MemoryOk.walkFrom {d c va} : ∀ {lvl t s}, MemoryOk s → MemoryOk (walkFrom s d c va t lvl).1
  | 0, t, s, hs => by
    have hw := hs.walkEntry (d := d) (va := va) (t := t) (lvl := 0)
    rw [Machine.walkFrom]
    split
    case h_1 h => rwa [h] at hw
    case h_2 h => rwa [h] at hw
  | lvl + 1, t, s, hs => by
    have hc := hs.cachedTable (d := d) (c := c) (va := va) (lvl := lvl)
    rw [Machine.walkFrom]
    split
    case h_1 h => rw [h] at hc; exact hc.walkFrom
    case h_2 u h =>
      rw [h] at hc
      have hw := hc.walkEntry (d := d) (va := va) (t := t) (lvl := lvl + 1)
      split
      case h_1 h' => rwa [h'] at hw
      case h_2 h' => rw [h'] at hw; exact hw.keepTable.walkFrom

theorem MemoryOk.walk {d c va} (hs : MemoryOk s) : MemoryOk (walk s d c va).1 := .ite_fst hs hs.walkFrom

theorem MemoryOk.peerCheck {e n off a} (hs : MemoryOk s) : MemoryOk (peerCheck s e n off a).1 := by
  unfold Machine.peerCheck
  dsimp only
  refine .ite_fst hs ?_
  split
  · exact hs.readPhys
  · exact .ite_fst hs.readPhys (.ite_fst hs.readPhys (.ite_fst hs.readPhys (.ite_fst hs.readPhys hs.readPhys)))

theorem MemoryOk.place {d va t a} (hs : MemoryOk s) : MemoryOk (place s d va t a).1 := by
  unfold Machine.place
  extract_lets off e r
  refine .ite_fst ?_ (.ite_fst ?_ ?_)
  · have hr : MemoryOk r.1 := hs.importHandle
    split
    · exact hr
    · refine .ite_fst hr ?_
      dsimp only
      split
      · exact hr.peerCheck
      · exact .ite_fst hr.peerCheck hr.peerCheck
  · split
    · exact .ite_fst hs hs
    · exact hs
  · split <;> exact hs

theorem MemoryOk.setAd {key e a} (hs : MemoryOk s) : MemoryOk (setAd s key e a).1 := .ite_fst hs hs.storeHome.askFar
theorem MemoryOk.dropTlb {d c va} (hs : MemoryOk s) : MemoryOk (dropTlb s d c va) := hs

theorem MemoryOk.useTlb {d c va t a} (hs : MemoryOk s) : MemoryOk (useTlb s d c va t a).1 := by
  unfold Machine.useTlb
  dsimp only
  split
  · exact hs.dropTlb
  · split
    · exact hs.place.dropTlb
    · exact hs.place

theorem MemoryOk.xlateWalk {d c va a} (hs : MemoryOk s) : MemoryOk (xlateWalk s d c va a).1 := by
  rw [Machine.xlateWalk]
  split
  · exact hs.walk
  · exact hs.walk.dropTlb
  · split
    · exact hs.walk.dropTlb
    · exact hs.walk.setAd.updDie.useTlb

theorem MemoryOk.xlateDie {d c va a} (hs : MemoryOk s) : MemoryOk (xlateDie s d c va a).1 := by
  rw [Machine.xlateDie]
  split
  · exact hs.xlateWalk
  · exact .ite_fst hs.choose.useTlb hs.choose.xlateWalk

theorem MemoryOk.keepTlb {g c va a} (hs : MemoryOk s) : MemoryOk (keepTlb s g c va a) := by
  rw [Machine.keepTlb]
  split
  · exact hs
  · exact hs.updCore

theorem MemoryOk.xlate {g c va a} (hs : MemoryOk s) : MemoryOk (xlate s g c va a).1 := by
  unfold Machine.xlate
  dsimp only
  split
  · split
    · exact hs.xlateDie.keepTlb
    · exact hs.xlateDie
  · refine .ite_fst hs.choose.useTlb ?_
    split
    · exact hs.choose.xlateDie.keepTlb
    · exact hs.choose.xlateDie

/-! ## Physical scratchpad -/

theorem MemoryOk.spadRaw {g p bs} (hs : MemoryOk s) : MemoryOk (spadRaw s g p bs) := hs.updCore
theorem MemoryOk.spadPut {g p bs} (hs : MemoryOk s) : MemoryOk (spadPut s g p bs) := hs.updCore

theorem MemoryOk.spadPutBut {g p skip bs} (hs : MemoryOk s) : MemoryOk (spadPutBut s g p skip bs) :=
  .ite hs.spadPut (hs.foldl fun ht => .ite ht ht.spadPut)

theorem MemoryOk.setFull {g p} (hs : MemoryOk s) : MemoryOk (setFull s g p) := hs.updCore
theorem MemoryOk.setEmpty {g p} (hs : MemoryOk s) : MemoryOk (setEmpty s g p) := hs.updCore

/-! ## Stash windows -/

theorem MemoryOk.setBound {t w b} (hs : MemoryOk s) : MemoryOk (setBound s t w b) := hs.spadRaw
theorem MemoryOk.addAcc {a} (hs : MemoryOk s) : MemoryOk (addAcc s a) := hs.setAcc.bump
theorem MemoryOk.startWb {tk t x} (hs : MemoryOk s) : MemoryOk (startWb s tk t x) := hs.addAcc

theorem MemoryOk.dropSector {tk x} (hs : MemoryOk s) : MemoryOk (dropSector s tk x) := by
  rw [Machine.dropSector]
  refine .updTeam ?_
  refine .ite ?_ (.ite hs hs.dropClean)
  split
  · exact .ite hs hs
  · exact hs

theorem MemoryOk.detach {tk w} (hs : MemoryOk s) : MemoryOk (detach s tk w) := hs

theorem MemoryOk.unbindLazy {tk w} (hs : MemoryOk s) : MemoryOk (unbindLazy s tk w) := by
  rw [Machine.unbindLazy]
  split
  · exact hs
  · exact .ite (hs.foldl fun ht => .ite ht.startWb ht.dropSector).detach.setBound hs

theorem MemoryOk.endWindows {tk} (hs : MemoryOk s) : MemoryOk (endWindows s tk) := hs.foldl fun ht => ht.unbindLazy

/-! ## Expansions -/

theorem MemoryOk.setEntWord {t p b v} (hs : MemoryOk s) : MemoryOk (setEntWord s t p b v) := hs.spadRaw
theorem MemoryOk.setHown {t p v} (hs : MemoryOk s) : MemoryOk (setHown s t p v) := hs.spadRaw

theorem MemoryOk.finishAcc {id v} (hs : MemoryOk s) : MemoryOk (finishAcc s id v) := by
  rw [Machine.finishAcc]
  split
  · exact hs
  · exact hs.updThread.delAcc

theorem MemoryOk.settleIters {tk} : ∀ {fuel s}, MemoryOk s → MemoryOk (settleIters s tk fuel)
  | 0, _, hs => hs
  | fuel + 1, s, hs => by
    rw [Machine.settleIters]
    split
    · exact hs
    · dsimp only
      split
      · exact hs
      · exact hs.setHown.setTeam.settleIters

theorem MemoryOk.expnResult {id lo hi pr} (hs : MemoryOk s) : MemoryOk (expnResult s id lo hi pr) := by
  rw [Machine.expnResult]
  split
  · exact hs
  · refine .finishAcc ?_
    split
    · exact hs.updThread
    · exact hs

theorem MemoryOk.deliverAll {tk} (hs : MemoryOk s) : MemoryOk (deliverAll s tk) := by
  rw [Machine.deliverAll]
  split
  · exact hs
  · refine .foldl hs fun ht => ?_
    split
    · exact ht
    · exact .ite ht.expnResult.updTeam ht

theorem MemoryOk.markReady {tk} (hs : MemoryOk s) : MemoryOk (markReady s tk) := by
  rw [Machine.markReady]
  split
  · exact hs
  · exact .ite hs hs.setTeam.bump

theorem MemoryOk.markAll (hs : MemoryOk s) : MemoryOk (markAll s) := hs.foldl fun ht => .ite ht.markReady ht

theorem MemoryOk.sealExp {tk} (hs : MemoryOk s) : MemoryOk (sealExp s tk) := by
  rw [Machine.sealExp]
  split
  · exact hs
  · exact .ite hs.setTeam hs

theorem MemoryOk.endExp {tk} (hs : MemoryOk s) : MemoryOk (endExp s tk) := by
  rw [Machine.endExp]
  split
  · exact hs
  · exact .ite hs.setTeam hs

theorem MemoryOk.tickExp {tk} (hs : MemoryOk s) : MemoryOk (tickExp s tk) := by
  rw [Machine.tickExp]
  split
  · exact hs
  · exact .ite hs hs.sealExp.settleIters.deliverAll.endExp

theorem MemoryOk.tickEnd {tk} (hs : MemoryOk s) : MemoryOk (tickEnd s tk) := hs.tickExp.markReady

theorem MemoryOk.closeIter {tk p v} (hs : MemoryOk s) : MemoryOk (closeIter s tk p v) := by
  rw [Machine.closeIter]
  split
  · exact hs
  · refine .ite ?_ hs
    refine .setTeam ?_
    split
    · exact hs.setEntWord
    · exact hs

end Sys2Proof.Machine
end

section
/-! SUPPORT. Memory in its canonical form through the census, ends and traps, bends, waits and compressed lines. -/

namespace Sys2Proof.Machine
variable {s : State}

/-! ## Budgets -/

theorem MemoryOk.charge {lid share memb linkb} (hs : MemoryOk s) : MemoryOk (charge s lid share memb linkb) := by
  rw [Machine.charge]
  split
  · exact hs
  · exact hs.updDie

/-! ## Gang groups -/

theorem MemoryOk.recheckGroups {g} (hs : MemoryOk s) : MemoryOk (recheckGroups s g) := hs.updCore

/-! ## The census -/

theorem MemoryOk.allocEntry {g tid} (hs : MemoryOk s) : MemoryOk (allocEntry s g tid) :=
  hs.setCore.foldl fun ht => ht.updThread

theorem MemoryOk.refill {g} : ∀ {fuel s}, MemoryOk s → MemoryOk (refill s g fuel)
  | 0, _, hs => hs
  | fuel + 1, s, hs => by
    rw [Machine.refill]
    refine .ite hs ?_
    split
    · exact hs
    · exact hs.allocEntry.refill

theorem MemoryOk.enterCensus {tid} (hs : MemoryOk s) : MemoryOk (enterCensus s tid) := by
  rw [Machine.enterCensus]
  have hset {f g c} : MemoryOk (((s.updThread tid f).updThread tid g).setCore (coreOf tid) c) :=
    hs.updThread.updThread.setCore
  split
  · exact .ite hset hset.recheckGroups
  · exact .ite hset.recheckGroups hset

theorem MemoryOk.leaveCensus {g tids} (hs : MemoryOk s) : MemoryOk (leaveCensus s g tids) :=
  hs.updCore.refill.recheckGroups

/-! ## Ends and freezes -/

theorem MemoryOk.stopLaunch {lid} (hs : MemoryOk s) : MemoryOk (stopLaunch s lid) := by
  unfold Machine.stopLaunch
  split
  · exact hs
  · split <;> exact hs

theorem MemoryOk.applyFdact {lid} (hs : MemoryOk s) : MemoryOk (applyFdact s lid) := by
  rw [Machine.applyFdact]
  split
  · exact hs
  · split
    · split
      · exact hs.stopLaunch
      · exact .foldl (.ite hs hs.updDie) fun ht => .ite ht.stopLaunch ht
    · exact hs.stopLaunch
    · exact hs

theorem MemoryOk.dropAwait {tid} (hs : MemoryOk s) : MemoryOk (dropAwait s tid) := .ite hs hs
theorem MemoryOk.leaveWait {tid} (hs : MemoryOk s) : MemoryOk (leaveWait s tid) := hs.dropAwait.updThread

theorem MemoryOk.checkBarrier {tk n} (hs : MemoryOk s) : MemoryOk (checkBarrier s tk n) := by
  rw [Machine.checkBarrier]
  split
  · exact hs
  · exact .ite (hs.foldl fun ht => ht.leaveWait) hs

theorem MemoryOk.checkBarriers {tk} (hs : MemoryOk s) : MemoryOk (checkBarriers s tk) :=
  hs.foldl fun ht => ht.checkBarrier

theorem MemoryOk.dropRequests {tk tid} (hs : MemoryOk s) : MemoryOk (dropRequests s tk tid) := .ite hs (.updTeam hs)

theorem MemoryOk.afterDeath {tid} (hs : MemoryOk s) : MemoryOk (afterDeath s tid) := by
  unfold Machine.afterDeath
  extract_lets tk u
  have hu : MemoryOk u := hs.dropAwait.dropRequests
  split
  · exact hu
  · extract_lets v w x
    have hv : MemoryOk v := by
      unfold v
      split
      · exact hu.updTeam.closeIter
      · exact hu
    have hx : MemoryOk x := hv.tickExp.checkBarriers.recheckGroups
    exact .ite hx hx.updTeam.endWindows

theorem MemoryOk.freeze {tid cause pc} (hs : MemoryOk s) : MemoryOk (freeze s tid cause pc) := by
  rw [Machine.freeze]
  exact hs.leaveCensus.updThread.updLaunch.report.applyFdact.afterDeath

/-! ## Taking a trap and returning from it -/

theorem MemoryOk.enterFreeze {tid cause sub word pc} (hs : MemoryOk s) :
    MemoryOk (enterFreeze s tid cause sub word pc) := by
  rw [Machine.enterFreeze]
  split
  · exact hs.setThread
  · exact hs.freeze

theorem MemoryOk.enterTrap {tid cause sub word pc} (hs : MemoryOk s) :
    MemoryOk (enterTrap s tid cause sub word pc) := by
  rw [Machine.enterTrap]
  split
  · exact hs.enterFreeze
  · exact .ite hs.enterFreeze hs.setThread

theorem MemoryOk.leavePass {pk tid pkt slot} (hs : MemoryOk s) : MemoryOk (leavePass s pk tid pkt slot) := by
  rw [Machine.leavePass]
  split
  · exact hs
  · exact .setPass (.ite hs.updThread hs)

theorem MemoryOk.raiseAt {tid cause sub pc} (hs : MemoryOk s) : MemoryOk (raiseAt s tid cause sub pc) :=
  hs.leavePass.enterTrap

theorem MemoryOk.raise {tid cause sub} (hs : MemoryOk s) : MemoryOk (raise s tid cause sub) := hs.raiseAt

theorem MemoryOk.raiseAll {tids cause sub} (hs : MemoryOk s) : MemoryOk (raiseAll s tids cause sub) :=
  hs.foldl fun ht => ht.raise

/-! ## Bends -/

theorem MemoryOk.resolveWait {tid} (hs : MemoryOk s) : MemoryOk (resolveWait s tid) := by
  rw [Machine.resolveWait]
  split
  · exact hs.leaveWait
  · exact hs.dropAwait.enterTrap

theorem MemoryOk.serveBend {b} (hs : MemoryOk s) : MemoryOk (serveBend s b) :=
  hs.foldl fun ht => .ite ht ht.setBend.resolveWait

theorem MemoryOk.countSignal {b} (hs : MemoryOk s) : MemoryOk (countSignal s b) := .ite hs hs.setBend.serveBend

/-! ## Teams leave their cores -/

theorem MemoryOk.checkPreqs {d} (hs : MemoryOk s) : MemoryOk (checkPreqs s d) :=
  hs.foldl fun ht => .ite ht (.ite ht.updDie.countSignal ht.updDie)

theorem MemoryOk.removeTeam {tk} (hs : MemoryOk s) : MemoryOk (removeTeam s tk) := by
  rw [Machine.removeTeam]
  split
  · exact hs
  · exact .checkPreqs (.updCore hs.leaveCensus)

theorem MemoryOk.cancelAcc {id} (hs : MemoryOk s) : MemoryOk (cancelAcc s id) := by
  rw [Machine.cancelAcc]
  split
  · exact hs
  · exact hs.unparkAcc.delAcc

theorem MemoryOk.cancelTeam {tk t} (hs : MemoryOk s) : MemoryOk (cancelTeam s tk t) :=
  (hs.foldl fun ht => .ite ht.cancelAcc ht).unpark.unpark.unpark.foldl fun ht => ht.dropSector

theorem MemoryOk.reapTeam {tk} (hs : MemoryOk s) : MemoryOk (reapTeam s tk) := by
  unfold Machine.reapTeam
  dsimp only
  split
  · exact hs
  · refine .ite hs.updLaunch.cancelTeam.removeTeam ?_
    refine .ite ?_ hs
    split
    · exact hs.endWindows
    · exact .ite hs.endWindows.updLaunch.cancelTeam.removeTeam hs.endWindows

theorem MemoryOk.reap (hs : MemoryOk s) : MemoryOk (reap s) := hs.foldl fun ht => ht.reapTeam

/-! ## When an access may be performed -/

theorem MemoryOk.oweEarlier {id a} (hs : MemoryOk s) : MemoryOk (oweEarlier s id a) := by
  rw [Machine.oweEarlier]
  split <;> exact hs

theorem MemoryOk.recallFar {key} (hs : MemoryOk s) : MemoryOk (recallFar s key) := by
  rw [Machine.recallFar]
  split
  · exact hs.toHome
  · exact hs

theorem MemoryOk.request {lid key al m} (hs : MemoryOk s) : MemoryOk (request s lid key al m) := by
  rw [Machine.request]
  split
  · exact hs.charge.allocLine
  · exact hs.recallFar.charge.sendFar

theorem MemoryOk.writeRequest {lid key al} (hs : MemoryOk s) : MemoryOk (writeRequest s lid key al) := by
  rw [Machine.writeRequest]
  split
  · exact hs.charge.allocLine
  · exact hs.charge

theorem MemoryOk.sideRequest {lid key m} (hs : MemoryOk s) : MemoryOk (sideRequest s lid key m) := by
  unfold Machine.sideRequest
  split
  · exact hs
  · refine .sendFar (.recallFar ?_)
    split
    · exact hs.charge
    · exact hs

theorem MemoryOk.readReq {lid key al} (hs : MemoryOk s) : MemoryOk (readReq s lid key al) := hs.request

theorem MemoryOk.awaitDev {k id part latentToo} (hs : MemoryOk s) : MemoryOk (awaitDev s k id part latentToo).1 := by
  unfold Machine.awaitDev
  extract_lets u
  have hu : MemoryOk u := by
    unfold u
    split
    · exact .ite hs.startDevelop hs
    · exact hs
  split
  · exact hu
  · dsimp only
    split
    · exact .setAcc hu
    · exact hu

theorem MemoryOk.dropFences (hs : MemoryOk s) : MemoryOk (dropFences s) := by
  rw [Machine.dropFences]
  refine .foldl hs fun ht => ?_
  split
  · exact .ite ht.delAcc ht
  · exact ht

/-! ## Compressed lines -/

theorem MemoryOk.pushBlock {d a} (hs : MemoryOk s) : MemoryOk (pushBlock s d a) := hs.storePhys.updDie
theorem MemoryOk.popBlock {d} (hs : MemoryOk s) : MemoryOk (popBlock s d).1 := hs.readPhys.updDie

/-- A line that changes its class moves its overflow blocks by stores of their own. -/
theorem MemoryOk.rehome {line cls t} (hs : MemoryOk s) (ht : rehome s line cls = some t) : MemoryOk t := by
  unfold Machine.rehome at ht
  dsimp only at ht
  split at ht
  · split at ht
    · cases ht
    · cases ht; exact hs.popBlock.updDie
  · cases ht; exact hs.updDie.pushBlock
  · cases ht; exact hs.updDie.pushBlock
  · cases ht; exact hs

theorem MemoryOk.cmpStore {a bs t} (hs : MemoryOk s) (ht : cmpStore s a bs = some t) : MemoryOk t := by
  obtain ⟨u, hu, rfl⟩ := Option.map_eq_some_iff.mp ht
  exact (hs.rehome hu).storeHome.updDie

theorem MemoryOk.putHome {a bs} (hs : MemoryOk s) : MemoryOk (putHome s a bs).1 := by
  rw [Machine.putHome]
  refine .foldl_fst hs fun ht => .ite_fst ht ?_
  refine .ite_fst ?_ ht.storeFor
  split
  · exact ht.cmpStore ‹_›
  · exact ht

end Sys2Proof.Machine
end

section
/-! SUPPORT. Memory in its canonical form through the accesses of a thread, and what settles after an event. -/

namespace Sys2Proof.Machine
variable {s : State}

/-! ## Operands -/

theorem MemoryOk.mapLanes {f} (hs : MemoryOk s) : MemoryOk (mapLanes s f) := hs.foldl fun ht => ht.setThread

theorem MemoryOk.eachLane {f} (hs : MemoryOk s) (hf : ∀ {t x}, MemoryOk t → MemoryOk (f t x)) :
    MemoryOk (eachLane s f) :=
  hs.foldl fun ht => hf ht

/-! ## Banks -/

theorem MemoryOk.countReplay {g lanes} (hs : MemoryOk s) : MemoryOk (countReplay s g lanes) := hs.updCore

theorem MemoryOk.countConflicts {g masks reqs waits} (hs : MemoryOk s) :
    MemoryOk (countConflicts s g masks reqs waits) :=
  .ite hs hs.countReplay

/-! ## Poison consumed by a thread -/

theorem MemoryOk.setDue {tid cause sub word} (hs : MemoryOk s) : MemoryOk (setDue s tid cause sub word) :=
  hs.updThread

/-! ## Full-empty fills -/

theorem MemoryOk.serveLdfe {id} (hs : MemoryOk s) : MemoryOk (serveLdfe s id) := by
  rw [Machine.serveLdfe]
  split
  · split
    · exact .finishAcc (.ite (.setEmpty (.ite hs.setDue hs)) (.ite hs.setDue hs))
    · exact hs
  · exact hs

theorem MemoryOk.fillGranule {g p} (hs : MemoryOk s) : MemoryOk (fillGranule s g p) := by
  rw [Machine.fillGranule]
  split
  · exact hs.setFull.foldl fun ht => ht.serveLdfe
  · exact (hs.setFull.foldl fun ht => ht.serveLdfe).serveLdfe

theorem MemoryOk.tryLdfe {id} (hs : MemoryOk s) : MemoryOk (tryLdfe s id) := by
  rw [Machine.tryLdfe]
  split
  · split
    · exact .ite hs.serveLdfe hs
    · exact hs
  · exact hs

theorem MemoryOk.arriveLdfes : ∀ {fuel s}, MemoryOk s → MemoryOk (arriveLdfes s fuel)
  | 0, _, hs => hs
  | _ + 1, _, hs => .ite hs (.arriveLdfes (.foldl (.bump hs) fun ht => ht.tryLdfe))

theorem MemoryOk.stampLdfes (hs : MemoryOk s) : MemoryOk (stampLdfes s) := .ite hs.arriveLdfes hs

theorem MemoryOk.fillRange {g p n} (hs : MemoryOk s) : MemoryOk (fillRange s g p n) :=
  hs.foldl fun ht => ht.fillGranule

/-! ## Stash write-backs -/

theorem MemoryOk.doStashWb {id} (hs : MemoryOk s) : MemoryOk (doStashWb s id) := by
  unfold Machine.doStashWb
  dsimp only
  split
  · split
    · refine .ite hs.updTeam.delAcc ?_
      split
      · exact hs.xlate
      · exact hs.xlate.setAcc.park
      · exact hs.xlate.writeRequest.heatTick.toHome.updTeam.delAcc
    · exact hs
  · exact hs

/-! ## Accesses of a thread -/

theorem MemoryOk.carryPoison {g p key n} (hs : MemoryOk s) : MemoryOk (carryPoison s g p key n) :=
  hs.foldl fun ht => .ite ht.updCore ht

theorem MemoryOk.markSector {g p k} (hs : MemoryOk s) : MemoryOk (markSector s g p k) := hs

theorem MemoryOk.fillSector {tk t w idx key al} (hs : MemoryOk s) : MemoryOk (fillSector s tk t w idx key al) := by
  unfold Machine.fillSector
  split
  · exact hs
  · extract_lets k u v p
    have hu : MemoryOk u := .ite hs.writeRequest.heatTick.toHome hs
    exact hu.readReq.readFor.spadRaw.updCore.carryPoison.updTeam

theorem MemoryOk.spadWrite {g p bs} (hs : MemoryOk s) : MemoryOk (spadWrite s g p bs) :=
  .ite hs.spadPut hs.spadPut.updCore

theorem MemoryOk.stashStore {tk t w idx k off bs} (hs : MemoryOk s) : MemoryOk (stashStore s tk t w idx k off bs) :=
  hs.storeFor.spadWrite.markSector.updTeam

theorem MemoryOk.stashAtHome {id a key al own sx} (hs : MemoryOk s) : MemoryOk (stashAtHome s id a key al own sx) :=
    by
  rw [Machine.stashAtHome]
  refine .ite ?_ (.finishAcc (.ite hs.request.readHome.setDue hs.request.readHome))
  refine .ite ?_ hs.request.storeHome.delAcc
  split
  · exact (hs.request.cmpStore ‹_›).delAcc
  · exact hs.request.setAcc.park

theorem MemoryOk.finishStash {id a w idx tr own sx} (hs : MemoryOk s) :
    MemoryOk (finishStash s id a w idx tr own sx) := by
  rw [Machine.finishStash]
  split
  · exact hs.delAcc
  · exact .ite hs.stashAtHome (.ite hs.fillSector.stashStore.delAcc (.finishAcc (.ite hs.fillSector.setDue
      hs.fillSector)))

theorem MemoryOk.stashXlate {g actx va own} (hs : MemoryOk s) : MemoryOk (stashXlate s g actx va own).1 := by
  rw [Machine.stashXlate]
  split
  · exact .ite_fst hs.xlate.xlate hs.xlate
  · exact hs.xlate

theorem MemoryOk.doStashFill {id} (hs : MemoryOk s) : MemoryOk (doStashFill s id) := by
  unfold Machine.doStashFill
  dsimp only
  split
  · exact hs
  · split
    · split
      · exact hs.stashXlate
      · exact hs.stashXlate.setAcc.park
      · exact .ite hs.stashXlate.awaitDev hs.stashXlate.awaitDev.finishStash
    · exact hs

theorem MemoryOk.startStash {tid va w idx own sx n v skip dst} (hs : MemoryOk s) :
    MemoryOk (startStash s tid va w idx own sx n v skip dst) := by
  rw [Machine.startStash]
  refine .ite hs.raise ?_
  split
  · exact hs.addAcc
  · split
    · exact .ite hs.addAcc.finishStash hs.addAcc
    · exact hs.addAcc

/-! ## What settles after an event -/

theorem MemoryOk.servePops {tk q} : ∀ {fuel s}, MemoryOk s → MemoryOk (servePops s tk q fuel)
  | 0, _, hs => hs
  | fuel + 1, s, hs => by
    rw [Machine.servePops]
    split
    · exact hs
    · split
      · exact hs.setTeam.updThread.resolveWait.servePops
      · exact hs

theorem MemoryOk.servePushes {tk cp} : ∀ {fuel s}, MemoryOk s → MemoryOk (servePushes s tk cp fuel)
  | 0, _, hs => hs
  | fuel + 1, s, hs => by
    rw [Machine.servePushes]
    split
    · exact hs
    · dsimp only
      split
      · exact hs
      · refine .ite hs ?_
        split
        · exact hs.setTeam.bump.resolveWait.servePushes
        · exact hs

theorem MemoryOk.serveTeam {tk} (hs : MemoryOk s) : MemoryOk (serveTeam s tk) := by
  rw [Machine.serveTeam]
  split
  · exact hs
  · exact .ite hs hs.servePops.servePops.servePushes.servePushes

theorem MemoryOk.serveBends (hs : MemoryOk s) : MemoryOk (serveBends s) := hs.foldl fun ht => .ite ht ht.serveBend
theorem MemoryOk.flushAll (hs : MemoryOk s) : MemoryOk (flushAll s) := hs.foldl fun ht => .ite ht ht.flush

theorem MemoryOk.settle (hs : MemoryOk s) : MemoryOk (settle s) :=
  (hs.dropFences.serveBends.stampLdfes.foldl fun ht => ht.serveTeam).reap.markAll.flushAll

theorem MemoryOk.atPort {d i} {f : State → State} (hs : MemoryOk s) (hf : ∀ {t}, MemoryOk t → MemoryOk (f t)) :
    MemoryOk (atPort s d i f) :=
  .ite hs (.ite hs.updDie (hf hs))

end Sys2Proof.Machine
end

section
/-! SUPPORT. Memory in its canonical form around a slot: before it, after it, and at the end of its pass. -/

namespace Sys2Proof.Machine
variable {s : State}

/-! ## Items of a thread -/

theorem MemoryOk.putItems {os} (hs : MemoryOk s) : MemoryOk (putItems s os) := hs.foldl fun ht => .ite ht ht.updThread

/-! ## Reads that come too early -/

theorem MemoryOk.chooseOlds : ∀ {os s}, MemoryOk s → MemoryOk (chooseOlds s os).1
  | [], _, hs => hs
  | _ :: _, _, hs => hs.choose.chooseOlds

/-! ## Stalls and resume points -/

theorem MemoryOk.leaveAtResume {pk p n tid} (hs : MemoryOk s) : MemoryOk (leaveAtResume s pk p n tid) :=
  hs.leavePass.dropAwait.updThread

/-! ## Before the slot -/

theorem MemoryOk.flipped {p n} (hs : MemoryOk s) : MemoryOk (flipped s p n).1 := hs.chooseOlds
theorem MemoryOk.tick {g n} (hs : MemoryOk s) : MemoryOk (tick s g n) := hs.updCore.updDie

theorem MemoryOk.prepare {pkey l p plan} (hs : MemoryOk s) : MemoryOk (prepare s pkey l p plan).1 := by
  unfold Machine.prepare
  dsimp only
  split
  · exact .cur hs.tick
  · exact .cur hs.tick
  · exact .cur (hs.tick.foldl fun ht => ht.leaveAtResume).flipped.chooseOlds.putItems

/-! ## After the slot -/

theorem MemoryOk.loseResults {tid mine items} (hs : MemoryOk s) : MemoryOk (loseResults s tid mine items) := hs

theorem MemoryOk.losePop {pk tid} (hs : MemoryOk s) : MemoryOk (losePop s pk tid) := by
  rw [Machine.losePop]
  split
  · exact hs
  · exact hs.setPass

theorem MemoryOk.lateLong {pk p f upto tid} (hs : MemoryOk s) : MemoryOk (lateLong s pk p f upto tid) :=
  .ite hs (.ite (.putItems (.chooseOlds (.putItems (.ite hs.choose.loseResults.losePop hs.choose.loseResults))))
    hs.choose)

theorem MemoryOk.overtake {pk p tid upto isL wr} (hs : MemoryOk s) : MemoryOk (overtake s pk p tid upto isL wr) := by
  unfold Machine.overtake
  extract_lets u r
  have hu : MemoryOk u := .foldl hs fun {t x} ht => by
    have hr : MemoryOk (if x.2.pass ≠ p.id ∨ isL then (t, false) else t.choose).1 := .ite_fst ht ht.choose
    exact .ite (.ite hr.loseResults hr) ht
  have hr : MemoryOk r.1 := hu.choose
  exact .ite (.ite hr.losePop (.ite hr.loseResults hr)) hu

/-! ## The end of a pass -/

theorem MemoryOk.endThread {l p moment tid} (hs : MemoryOk s) : MemoryOk (endThread l p moment s tid) := by
  rw [Machine.endThread]
  split
  · exact hs.updThread
  · split
    · exact hs.updThread
    · exact hs.updThread.enterTrap

theorem MemoryOk.serveParked {d p} (hs : MemoryOk s) : MemoryOk (serveParked s d p) := by
  rw [Machine.serveParked]
  refine .foldl hs fun ht => ?_
  split
  · exact ht.serveBend
  · exact ht

theorem MemoryOk.endKmovs {g pass} (hs : MemoryOk s) : MemoryOk (endKmovs s g pass) := hs

theorem MemoryOk.endPass {pkey l p} (hs : MemoryOk s) : MemoryOk (endPass s pkey l p) :=
  .settle (.serveParked (.bump (.foldl (.charge (.endKmovs hs)) fun ht => ht.endThread)))

theorem MemoryOk.finish {pkey l p plan upto before back vals} (hs : MemoryOk s) :
    MemoryOk (finish pkey l p plan upto before back vals s) := by
  unfold Machine.finish
  extract_lets pk c n i f nop u new lw v w x y
  have hw : MemoryOk w := hs.putItems.chooseOlds.putItems.foldl fun ht => ht.lateLong
  have hx : MemoryOk x := .ite hw (hw.foldl fun ht => ht.overtake)
  have hy : MemoryOk y := .ite hx (hx.foldl fun ht => ht.updThread)
  split
  · exact hy
  · exact .ite hy.setPass (.ite hy.setPass hy.setPass.endPass)

theorem MemoryOk.raiseBad {items} (hs : MemoryOk s) : MemoryOk (raiseBad s items) := hs.raiseAll

end Sys2Proof.Machine
end

section
/-! SUPPORT. Memory in its canonical form through control, the gang, global memory and the scratchpad instructions. -/

namespace Sys2Proof.Machine
variable {s : State}

/-! ## Control -/

theorem MemoryOk.setTarget {tid pkt slot} (hs : MemoryOk s) : MemoryOk (setTarget s tid pkt slot) := by
  rw [Machine.setTarget]
  split
  · exact hs
  · exact hs.setPass

theorem MemoryOk.setWait {tid w} (hs : MemoryOk s) : MemoryOk (setWait s tid w) := by
  rw [Machine.setWait]
  split
  · exact hs
  · exact .ite hs.setPass hs.setPass.addAcc

theorem MemoryOk.transfer {tid pkt} (hs : MemoryOk s) : MemoryOk (transfer s tid pkt) := by
  unfold Machine.transfer
  refine .ite hs ?_
  split
  · exact hs.raise
  · split
    · exact hs
    · exact .ite hs.setTarget hs.raise

theorem MemoryOk.setLink {tid} (hs : MemoryOk s) : MemoryOk (setLink s tid) := hs.updThread

theorem MemoryOk.callTo {tid pkt} (hs : MemoryOk s) : MemoryOk (callTo s tid pkt) :=
  .ite hs.transfer.setLink hs.transfer

theorem MemoryOk.execRte (hs : MemoryOk s) : NextOk (execRte s) := by
  rw [Machine.execRte]
  refine .eachLane hs fun ht => .ite ht (.ite ht.raise ?_)
  split
  · exact .ite ht.updThread.setTarget ht.raise
  · exact ht.raise

theorem MemoryOk.teamReg {tid k} (hs : MemoryOk s) : MemoryOk (teamReg s tid k).1 := by
  rw [Machine.teamReg]
  split
  · split
    · exact hs
    · exact hs.foldl_fst fun ht => ht.choose
  · exact hs

/-! ## The gang -/

theorem MemoryOk.kmovLane {tid k v} (hs : MemoryOk s) : MemoryOk (kmovLane s tid k v) := .ite hs.updTeam hs.raise

theorem MemoryOk.gangOnly {f : State → State} (hs : MemoryOk s) (hf : ∀ {t}, MemoryOk t → MemoryOk (f t)) :
    MemoryOk (gangOnly s f) :=
  .ite (hf hs) hs.raiseAll

/-! ## Issue of global memory accesses -/

theorem MemoryOk.startAcc {tid va n k data dst} (hs : MemoryOk s) : MemoryOk (startAcc s tid va n k data dst) :=
  .ite hs.raise hs.addAcc

theorem MemoryOk.startAligned {tid va n k data dst} (hs : MemoryOk s) :
    MemoryOk (startAligned s tid va n k data dst) :=
  .ite hs.raise hs.startAcc

theorem MemoryOk.atomOp {op sc w o d a} (hs : MemoryOk s) : MemoryOk (atomOp op sc w o d a s) :=
  hs.eachLane fun ht => ht.startAligned

/-! ## Performing a part -/

theorem MemoryOk.parkPart {id part a va cause sub lvl} (hs : MemoryOk s) :
    MemoryOk (parkPart s id part a va cause sub lvl) :=
  hs.updAcc.park

theorem MemoryOk.dropOwn {g k} (hs : MemoryOk s) : MemoryOk (dropOwn s g k) := .ite hs.toHome hs
theorem MemoryOk.ncFill {g k} (hs : MemoryOk s) : MemoryOk (ncFill s g k) := hs.dropOwn.readFor.updCore

theorem MemoryOk.ncHome {k data mask bad} (hs : MemoryOk s) : MemoryOk (ncHome s k data mask bad) :=
  List.foldlRecOn (motive := fun m => Memory.wf m = true) _ _ hs.heatTick.toHome fun _ hm _ _ => cellPut_wf _ _ hm

theorem MemoryOk.ncWriteBack {g k lid} (hs : MemoryOk s) : MemoryOk (ncWriteBack s g k lid) := by
  rw [Machine.ncWriteBack]
  split
  · exact hs
  · refine .ite hs.updCore (.ncHome ?_)
    split
    · exact hs.updCore.sendFar
    · exact hs.updCore.request

theorem MemoryOk.partDone {id part got bad} (hs : MemoryOk s) : MemoryOk (partDone s id part got bad) := by
  rw [Machine.partDone]
  split
  · exact hs
  · exact .ite (.finishAcc (.ite hs.setAcc.setDue hs.setAcc)) hs.setAcc

theorem MemoryOk.replLoad {a k va} (hs : MemoryOk s) : MemoryOk (replLoad s a k va).1 := by
  rw [Machine.replLoad]
  split
  · exact .ite_fst hs.choose hs.choose.readFor
  · exact hs.readFor.updDie

theorem MemoryOk.loadPart {id part a p t actx n} (hs : MemoryOk s) : MemoryOk (loadPart s id part a p t actx n) := by
  unfold Machine.loadPart
  extract_lets k off g h give giveNc giveNow nc w u r
  have hgive {t d m} (ht : MemoryOk t) : MemoryOk (give t d m) := ht.partDone
  have hw : MemoryOk w.1 := hs.awaitDev
  have hu : MemoryOk u := hw.readReq
  have hnc : MemoryOk (giveNc (Machine.ncFill u g k)) := hgive hu.ncFill
  have hplain {o} : MemoryOk (giveNow (Machine.readFor u k o)) := hgive hu.readFor
  exact .ite (hgive hs) (.ite (hgive hs) (.ite hw (.ite hnc (.ite hplain
    (.ite hnc (.ite (hgive hu.replLoad) hplain))))))

theorem MemoryOk.ncStore {g k off bs dirty} (hs : MemoryOk s) : MemoryOk (ncStore s g k off bs dirty) := hs.updCore

theorem MemoryOk.storePart {id part a p t actx n} (hs : MemoryOk s) :
    MemoryOk (storePart s id part a p t actx n) := by
  unfold Machine.storePart
  extract_lets k off g bs held w u
  have hw : MemoryOk w.1 := hs.awaitDev
  have hu : MemoryOk u := .ite hw hw.request
  refine .ite (.partDone (.ncStore (.ite hs hs.dropOwn))) (.ite hw (.ite ?_ hu.storeFor.partDone))
  split
  · have hc := hu.cmpStore ‹_›
    exact .partDone (.ite hc.ncStore hc)
  · exact hu.parkPart

theorem MemoryOk.bounceDown {g line} (hs : MemoryOk s) : MemoryOk (bounceDown s g line) := hs.updCore

theorem MemoryOk.atomAsk {a t near op w} (hs : MemoryOk s) : MemoryOk (atomAsk s a t near op w) :=
  .ite hs.bounceDown (.ite hs.request.updCore hs.request)

theorem MemoryOk.atomHold {g k near} (hs : MemoryOk s) : MemoryOk (atomHold s g k near) :=
  .ite hs.heatTick.toHome (.ite hs (.fillMarks hs.heatTick.toHome))

theorem MemoryOk.atomPart {id part a p t actx op w} (hs : MemoryOk s) :
    MemoryOk (atomPart s id part a p t actx op w) := by
  unfold Machine.atomPart
  extract_lets k off g u v x old r near bad y
  have hv : MemoryOk v.1 := hs.ncWriteBack.awaitDev
  have hy : MemoryOk y := hv.oweEarlier.atomAsk
  refine .ite hs (.ite hv (.ite hy.atomHold.partDone (.ite ?_ hy.storeFor.partDone)))
  split
  · exact (hy.cmpStore ‹_›).partDone
  · exact hy.parkPart

theorem MemoryOk.foldLup {k g actx va off op v} (hs : MemoryOk s) : MemoryOk (foldLup s k g actx va off op v) := hs

theorem MemoryOk.clearForLup {k} (hs : MemoryOk s) : MemoryOk (clearForLup s k) := by
  rw [Machine.clearForLup]
  split
  · exact hs
  · exact hs.toHome

theorem MemoryOk.lupPart {id part a p t actx op} (hs : MemoryOk s) : MemoryOk (lupPart s id part a p t actx op) :=
  .ite hs.foldLup.partDone (.ite hs.awaitDev hs.awaitDev.clearForLup.request.heatTick.foldLup.partDone)

theorem MemoryOk.devlPart {id part a t} (hs : MemoryOk s) : MemoryOk (devlPart s id part a t) :=
  .ite hs.awaitDev hs.awaitDev.readReq.readFor.partDone

theorem MemoryOk.sendHome {k lid al} (hs : MemoryOk s) : MemoryOk (sendHome s k lid al) :=
  hs.writeRequest.heatTick.toHome

theorem MemoryOk.cwbSector {g k lid al} (hs : MemoryOk s) : MemoryOk (cwbSector s g k lid al) := by
  rw [Machine.cwbSector]
  split
  · exact hs.ncWriteBack
  · exact .ite hs.ncWriteBack.sendHome hs.ncWriteBack
  · exact hs.ncWriteBack.dropClean

theorem MemoryOk.cwbDevelops {g line} (hs : MemoryOk s) : MemoryOk (cwbDevelops s g line).1 :=
  hs.foldl_fst fun ht => .ite_fst ht.mustWait ht

theorem MemoryOk.dropTag {g line} (hs : MemoryOk s) : MemoryOk (dropTag s g line) := hs.updCore

theorem MemoryOk.cwbPart {a t} (hs : MemoryOk s) : MemoryOk (cwbPart s a t) := by
  unfold Machine.cwbPart
  extract_lets line v u
  have hv : MemoryOk v.1 := hs.cwbDevelops
  have hu : MemoryOk u := hv.foldl fun ht => ht.cwbSector
  exact .ite hv (.ite hs (hu.dropTag.foldl fun ht => ht.cancelAcc))

theorem MemoryOk.prefPart {id a t actx n} (hs : MemoryOk s) : MemoryOk (prefPart s id a t actx n) := by
  unfold Machine.prefPart
  refine .ite hs.delAcc (.ite hs ?_)
  generalize hr : List.foldl _ (s, false) _ = r
  have h : MemoryOk r.1 := hr ▸ hs.foldl_fst fun ht =>
    .ite_fst ht (.ite_fst ht.mustWait (.ite ht.mustWait.readReq.ncFill ht.mustWait.readReq.readFor))
  exact .ite h h.delAcc

theorem MemoryOk.pubvPart {id a} (hs : MemoryOk s) : MemoryOk (pubvPart s id a) :=
  .ite hs.parkPart (.ite hs.parkPart hs.readHome.storeHome.finishAcc)

theorem MemoryOk.noteUse {g t n} (hs : MemoryOk s) : MemoryOk (noteUse s g t n) := .ite hs hs.updCore

theorem MemoryOk.doPart {id part} (hs : MemoryOk s) : MemoryOk (doPart s id part) := by
  unfold Machine.doPart
  split
  · exact hs
  · split
    · extract_lets x u
      have hu : MemoryOk u := hs.xlate
      split
      · exact hu
      · split
        · exact hu.delAcc
        · refine .foldl hu fun ht => ?_
          split
          · exact ht.parkPart
          · exact ht
        · exact hu.parkPart
      · extract_lets v
        have hv : MemoryOk v := hu.noteUse
        split
        · exact hv.loadPart
        · exact hv.storePart
        · exact hv.atomPart
        · exact hv.lupPart
        · exact hv.devlPart
        · exact hv.cwbPart
        · exact hv.prefPart
        · exact hv
    · exact hs

/-! ## Scratchpad instructions -/

theorem MemoryOk.countSlot {n wr stashOk addr} (hs : MemoryOk s) : MemoryOk (countSlot s n wr stashOk addr) :=
  hs.countConflicts

theorem MemoryOk.spadSlot {n wr stashOk addr} {act} (hs : MemoryOk s)
    (hact : ∀ {t x y}, MemoryOk t → MemoryOk (act t x y)) : MemoryOk (spadSlot s n wr stashOk addr act) := by
  rw [Machine.spadSlot]
  refine .eachLane hs.countSlot fun ht => ?_
  split
  · exact ht.raise
  · exact hact ht

theorem MemoryOk.readSpad {tid g p n sx dst word} (hs : MemoryOk s) : MemoryOk (readSpad s tid g p n sx dst word) :=
  .updThread (.ite hs.setDue hs)

theorem MemoryOk.startLds {tid va g p n sx d} (hs : MemoryOk s) : MemoryOk (startLds s tid va g p n sx d) :=
  .ite hs.readSpad hs.addAcc

theorem MemoryOk.startSts {tid g p n skip v} (hs : MemoryOk s) : MemoryOk (startSts s tid g p n skip v) :=
  .ite hs.spadPutBut hs.addAcc

theorem MemoryOk.serveSpad {id} (hs : MemoryOk s) : MemoryOk (serveSpad s id) := by
  rw [Machine.serveSpad]
  split
  · split
    · exact .ite hs.spadPutBut.delAcc (.finishAcc (.ite hs.setDue hs))
    · exact hs
  · exact hs

theorem MemoryOk.execLds {k d a imm} (hs : MemoryOk s) : NextOk (execLds k d a imm s) := by
  rw [Machine.execLds]
  refine .spadSlot hs fun ht => ?_
  split
  · exact ht.startLds
  · exact ht.startStash

theorem MemoryOk.execSts {sz d a imm} (hs : MemoryOk s) : NextOk (execSts sz d a imm s) := by
  rw [Machine.execSts]
  refine .spadSlot hs fun ht => ?_
  split
  · exact ht.startSts
  · exact ht.startStash

theorem MemoryOk.startLdfe {now tid va g p n clr d} (hs : MemoryOk s) :
    MemoryOk (startLdfe s now tid va g p n clr d) :=
  hs.addAcc

theorem MemoryOk.execLdfe {sz clr d a imm} (hs : MemoryOk s) : NextOk (execLdfe sz clr d a imm s) := by
  rw [Machine.execLdfe]
  refine .foldl ?_ (fun ht => ht.tryLdfe)
  refine .spadSlot hs fun ht => ?_
  split
  · exact ht.startLdfe
  · exact ht

theorem MemoryOk.putStfe {id} (hs : MemoryOk s) : MemoryOk (putStfe s id) := by
  rw [Machine.putStfe]
  split
  · split
    · exact hs.spadPutBut.delAcc
    · exact hs
  · exact hs

theorem MemoryOk.tryFill {id} (hs : MemoryOk s) : MemoryOk (tryFill s id) := by
  rw [Machine.tryFill]
  split
  · split
    · exact .ite (hs.foldl fun ht => ht.putStfe).fillGranule hs
    · exact hs
  · exact hs

theorem MemoryOk.startStfe {tid g p n skip v} (hs : MemoryOk s) : MemoryOk (startStfe s tid g p n skip v) := hs.addAcc

theorem MemoryOk.execStfe {sz d a imm} (hs : MemoryOk s) : NextOk (execStfe sz d a imm s) := by
  rw [Machine.execStfe]
  refine .foldl ?_ (fun ht => ht.tryFill)
  refine .spadSlot hs fun ht => ?_
  split
  · exact ht.startStfe
  · exact ht

/-! ## Stash windows -/

theorem MemoryOk.bindWindow {tk tids w} (hs : MemoryOk s) : MemoryOk (bindWindow s tk tids w) := by
  rw [Machine.bindWindow]
  split
  · exact hs
  · exact .ite hs.raiseAll (.ite hs.setBound hs.raiseAll)

theorem MemoryOk.execSbind {w} (hs : MemoryOk s) : NextOk (execSbind w s) := by
  unfold Machine.execSbind
  extract_lets u
  have hu : MemoryOk u := hs.foldl fun ht => ht.unbindLazy
  exact .ite hu (hu.foldl fun ht => ht.bindWindow)

theorem MemoryOk.discardWindow {tk w} (hs : MemoryOk s) : MemoryOk (discardWindow s tk w) := by
  rw [Machine.discardWindow]
  split
  · exact hs
  · refine .ite ?_ hs
    refine .setBound (.detach (.foldl (hs.foldl fun ht => ht.dropSector) fun ht => ?_))
    split
    · exact .ite ht.cancelAcc ht
    · exact ht

end Sys2Proof.Machine
end

section
/-! SUPPORT. Memory in its canonical form through bends, the expand unit, the issue of a slot, packed formats and
CSRs. -/

namespace Sys2Proof.Machine
variable {s : State}

/-! ## Signals and waits -/

theorem MemoryOk.checkSignal {tid b} (hs : MemoryOk s) : MemoryOk (checkSignal s tid b).1 :=
  .ite_fst hs (.ite_fst hs.choose hs.choose.choose.choose)

theorem MemoryOk.performSignal {id a pkg die num} (hs : MemoryOk s) : MemoryOk (performSignal s id a pkg die num) :=
    by
  rw [Machine.performSignal]
  refine .ite hs.delAcc.countSignal ?_
  split
  · exact hs.setAcc.charge.sendFlit
  · exact hs

theorem MemoryOk.signalCounted {pkg die num} (hs : MemoryOk s) : MemoryOk (signalCounted s pkg die num) := by
  rw [Machine.signalCounted]
  split
  · exact hs.delAcc
  · exact hs

theorem MemoryOk.signalLane {tid v rel} (hs : MemoryOk s) : MemoryOk (signalLane s tid v rel) := by
  unfold Machine.signalLane
  dsimp only
  split
  · exact hs.raise
  · split
    · exact hs.checkSignal.raise
    · exact .ite hs.checkSignal.countSignal hs.checkSignal.addAcc

theorem MemoryOk.execBwait {acq sc b} (hs : MemoryOk s) : NextOk (execBwait acq sc b s) := by
  rw [Machine.execBwait]
  refine .eachLane hs fun ht => ?_
  split
  · exact ht.raise
  · exact ht.setWait

theorem MemoryOk.execBtry {acq sc pd b} (hs : MemoryOk s) : NextOk (execBtry acq sc pd b s) := by
  rw [Machine.execBtry]
  refine .eachLane hs fun ht => ?_
  split
  · exact ht.raise
  · exact .updThread (.ite ht.serveBend ht.serveBend.setBend)

/-! ## The expand unit -/

theorem MemoryOk.openExp {tk t scope g0 oper} (hs : MemoryOk s) : MemoryOk (openExp s tk t scope g0 oper) :=
  hs.setTeam.foldl fun ht => ht.spadRaw

theorem MemoryOk.contribute {tk n gives} (hs : MemoryOk s) : MemoryOk (contribute s tk n gives) := by
  rw [Machine.contribute]
  split
  · exact hs
  · exact (hs.foldl fun ht => ht.spadRaw).setTeam

theorem MemoryOk.doExpb {tid scope op a b} (hs : MemoryOk s) : MemoryOk (doExpb s tid scope op a b) := by
  unfold Machine.doExpb
  dsimp only
  split
  · exact hs
  · split
    · exact hs.raiseAll
    · exact .tickEnd (.contribute (.ite hs.openExp hs))

theorem MemoryOk.dealOne {tk t r} (hs : MemoryOk s) : MemoryOk (dealOne s tk t r) :=
  .ite hs.closeIter.updTeam (.ite hs.setEntWord.setEntWord.setHown.setTeam.expnResult hs.updTeam.updTeam)

theorem MemoryOk.dealNext {tk t} (hs : MemoryOk s) (ht : dealNext s tk = some t) : MemoryOk t := by
  unfold Machine.dealNext at ht
  split at ht
  · cases ht
  · dsimp only at ht
    split at ht
    · cases ht
    · obtain ⟨r, -, hr⟩ := Option.bind_eq_some_iff.mp ht
      split at hr
      · cases hr; exact hs.dealOne.tickEnd
      · cases hr

theorem MemoryOk.dealAll {tk} : ∀ {fuel s}, MemoryOk s → MemoryOk (dealAll s tk fuel)
  | 0, _, hs => hs
  | fuel + 1, s, hs => by
    rw [Machine.dealAll]
    split
    case h_1 => exact hs
    case h_2 h => exact (hs.dealNext h).dealAll

theorem MemoryOk.afterRequests (hs : MemoryOk s) : MemoryOk (afterRequests s) := hs.foldl fun ht => ht.dealAll

theorem MemoryOk.execExpnDeal {team} (hs : MemoryOk s) : NextOk (execExpnDeal team s) := by
  unfold Machine.execExpnDeal
  split
  · exact hs
  · exact .ite (.getD hs fun _ => hs.dealNext) hs

theorem MemoryOk.execExpb {n op a b} (hs : MemoryOk s) : NextOk (execExpb n op a b s) := by
  unfold Machine.execExpb
  dsimp only
  refine .gangOnly hs fun ht => ?_
  split
  · exact ht.afterRequests
  · exact ht.afterRequests.doExpb

theorem MemoryOk.requestIter {tid p d pb} (hs : MemoryOk s) : MemoryOk (requestIter s tid p d pb) :=
  hs.closeIter.addAcc.updTeam.tickExp

theorem MemoryOk.endRequests {tks} (hs : MemoryOk s) : MemoryOk (endRequests tks s) := hs.foldl fun ht => ht.markReady

theorem MemoryOk.execExpn {d pb} (hs : MemoryOk s) : NextOk (execExpn d pb s) := by
  rw [Machine.execExpn]
  refine .gangOnly hs fun ht => .endRequests (.eachLane ht.afterRequests fun hu => ?_)
  split
  · exact hu.raise
  · exact hu.requestIter

theorem MemoryOk.segrLane {tid op v} (hs : MemoryOk s) : MemoryOk (segrLane s tid op v) := by
  rw [Machine.segrLane]
  split
  · exact .ite hs.raise (.ite hs.raise hs.closeIter.tickExp)
  · exact hs.raise

/-! ## Images -/

theorem MemoryOk.raiseHere {tid cause sub} (hs : MemoryOk s) : MemoryOk (raiseHere s tid cause sub) :=
  .ite hs.raise hs

theorem MemoryOk.countImages {save addr} (hs : MemoryOk s) : MemoryOk (countImages s save addr) :=
  .ite hs hs.countReplay

theorem MemoryOk.saveExpand {tid va} (hs : MemoryOk s) : MemoryOk (saveExpand s tid va) := by
  rw [Machine.saveExpand]
  split
  · exact hs
  · refine .ite hs.raiseHere ?_
    split
    · exact hs.raiseHere
    · exact hs.updTeam.foldl fun ht => ht.startSts

theorem MemoryOk.restoreExpand {tid va} (hs : MemoryOk s) : MemoryOk (restoreExpand s tid va) := by
  rw [Machine.restoreExpand]
  split
  · exact hs
  · refine .ite hs.raiseHere ?_
    split
    · exact hs.raiseHere
    · split
      · exact .ite hs.raiseHere (.tickEnd (.updTeam (.ite hs.setDue hs)))
      · exact hs.raiseHere

/-! ## The issue of a slot -/

theorem MemoryOk.chooseOne {α : Type} : ∀ {l : List α} {s : State}, MemoryOk s → MemoryOk (chooseOne s l).1
  | [], _, hs => hs
  | [_], _, hs => hs
  | _ :: _ :: _, _, hs => .ite_fst hs.choose hs.choose.chooseOne

theorem MemoryOk.nextIssue (hs : MemoryOk s) : MemoryOk (nextIssue s).1 := hs.chooseOne

theorem MemoryOk.issueStart {x} (hs : MemoryOk s) : MemoryOk (issueStart s x) := by
  rw [Machine.issueStart]
  split
  · exact hs.prepare
  · exact hs.prepare
  · exact hs.prepare.raiseBad

theorem MemoryOk.noteLate {pkey i} (hs : MemoryOk s) : MemoryOk (noteLate s pkey i) := by
  unfold Machine.noteLate
  dsimp only
  split
  · split
    · exact hs
    · exact hs.setPass
  · split
    · exact hs
    · exact hs.setPass
  · exact hs

theorem MemoryOk.runLate {pkey} (hs : MemoryOk s) : MemoryOk (runLate s pkey) := by
  unfold Machine.runLate
  split
  · exact hs
  · split
    · exact hs
    · exact .cur (.foldl (.countImages (.afterRequests (.cur hs.setPass))) fun ht =>
        .ite ht.saveExpand ht.restoreExpand)

theorem MemoryOk.issueEnd {x} {s0} (hs : MemoryOk s) : MemoryOk (issueEnd s0 x s) :=
  .finish (.stampLdfes (.markAll (.ite hs.runLate hs)))

theorem MemoryOk.idle (hs : MemoryOk s) : MemoryOk (idle s) := by
  unfold Machine.idle
  exact .cores (hs.foldl fun ht => .ite ht.updDie ht)

/-! ## DOTF8, DOTF4 -/

theorem MemoryOk.dotfOp {F n d a b} (hs : MemoryOk s) : MemoryOk (dotfOp F n d a b s) := hs.mapLanes

theorem MemoryOk.execDotf8 {f d a b} (hs : MemoryOk s) : NextOk (execDotf8 f d a b s) := by
  rw [Machine.execDotf8]
  split
  · split
    · exact hs.dotfOp
    · exact hs.dotfOp
    · exact hs.raiseAll
  · exact hs.raiseAll

theorem MemoryOk.execDotf4 {f d a b} (hs : MemoryOk s) : NextOk (execDotf4 f d a b s) := by
  rw [Machine.execDotf4]
  split
  · split
    · exact hs.dotfOp
    · exact hs.raiseAll
  · exact hs.raiseAll

/-! ## PACKN, UNPKN -/

theorem MemoryOk.execPackn {f d a b} (hs : MemoryOk s) : NextOk (execPackn f d a b s) := by
  rw [Machine.execPackn]
  split
  · exact hs.mapLanes
  · exact hs.raiseAll

theorem MemoryOk.execUnpkn {f d a b} (hs : MemoryOk s) : NextOk (execUnpkn f d a b s) := by
  rw [Machine.execUnpkn]
  split
  · exact hs.mapLanes
  · exact hs.raiseAll

/-! ## CSRs -/

theorem MemoryOk.execCsrr {d n} (hs : MemoryOk s) : NextOk (execCsrr d n s) := by
  rw [Machine.execCsrr]
  refine .eachLane hs fun ht => ?_
  split
  · exact ht.raise
  · exact ht.updThread

theorem MemoryOk.execCsrw {d n} (hs : MemoryOk s) : NextOk (execCsrw d n s) := by
  unfold Machine.execCsrw
  dsimp only
  refine .eachLane hs fun ht => ?_
  split
  · exact ht.raise
  · exact ht.setThread

end Sys2Proof.Machine
end

section
/-! SUPPORT. Memory in its canonical form through the engines: the plane array, the copy engine and multicast reads.
-/

namespace Sys2Proof.Machine
variable {s : State}

/-! ## Scratchpad -/

theorem MemoryOk.touchStash {tk t w idx off wr} (hs : MemoryOk s) : MemoryOk (touchStash s tk t w idx off wr).1 := by
  unfold Machine.touchStash
  split
  · exact hs
  · extract_lets d gva here x
    refine .ite_fst hs (.ite_fst hs (.ite_fst hs (.ite_fst hs ?_)))
    have hx : MemoryOk x.1 := hs.stashXlate
    split
    · exact hx
    · exact hx
    · extract_lets m
      have hm : MemoryOk m.1 := hx.mustWait
      exact .ite_fst hm (.ite_fst hm (.ite_fst hm.readReq.readFor hm.fillSector))

theorem MemoryOk.touchPiece {tk va n wr} (hs : MemoryOk s) : MemoryOk (touchPiece s tk va n wr).1 := by
  rw [Machine.touchPiece]
  split
  · exact hs
  · refine .ite_fst hs ?_
    split
    · exact hs
    · exact hs
    · exact hs.touchStash

theorem MemoryOk.touchSpad {tk va n wr} (hs : MemoryOk s) : MemoryOk (touchSpad s tk va n wr).1 := by
  rw [Machine.touchSpad]
  refine .foldl_fst hs fun ht => ?_
  split
  · exact ht.touchPiece
  · exact ht

theorem MemoryOk.touchAll {tk rs wr} (hs : MemoryOk s) : MemoryOk (touchAll s tk rs wr).1 := by
  rw [Machine.touchAll]
  refine .foldl_fst hs fun ht => ?_
  split
  · exact ht.touchSpad
  · exact ht

theorem MemoryOk.putMarked {key bs} (hs : MemoryOk s) : MemoryOk (putMarked s key bs).1 :=
  .ite_fst hs.putHome hs.putHome

theorem MemoryOk.writePiece {tk va bs} (hs : MemoryOk s) : MemoryOk (writePiece s tk va bs).1 := by
  rw [Machine.writePiece]
  split
  · exact hs
  · split
    · exact hs
    · exact hs.spadWrite.fillRange
    · split
      · exact .ite_fst hs.request.putMarked hs.stashStore.fillRange
      · split
        · exact hs
        · exact hs.request.putMarked

theorem MemoryOk.writeSpad {tk va bs} (hs : MemoryOk s) : MemoryOk (writeSpad s tk va bs).1 := by
  rw [Machine.writeSpad]
  refine .foldl_fst hs fun ht => ?_
  split
  · exact ht.writePiece
  · exact ht

/-! ## Global memory -/

theorem MemoryOk.agentXlate {ag actx va a} (hs : MemoryOk s) : MemoryOk (Agent.xlate s ag actx va a).1 := by
  unfold Machine.Agent.xlate
  split
  · exact hs.xlate
  · exact hs.xlateDie

theorem MemoryOk.agentRequest {ag t m} (hs : MemoryOk s) : MemoryOk (Agent.request s ag t m) := by
  unfold Machine.Agent.request
  split
  · exact hs.request
  · exact hs.sideRequest

theorem MemoryOk.reachable {key} (hs : MemoryOk s) : MemoryOk (reachable s key).1 := hs.mustWait

theorem MemoryOk.readVirt {ag actx va n} (hs : MemoryOk s) : MemoryOk (readVirt s ag actx va n).1 := by
  rw [Machine.readVirt]
  refine .foldl_fst hs fun ht => ?_
  split
  · exact ht
  · refine .ite_fst ht ?_
    split
    · exact ht.agentXlate
    · exact ht.agentXlate
    · exact .ite_fst ht.agentXlate.reachable ht.agentXlate.reachable.agentRequest.readHome

theorem MemoryOk.writeVirt {ag actx va bs} (hs : MemoryOk s) : MemoryOk (writeVirt s ag actx va bs).1 := by
  rw [Machine.writeVirt]
  refine .foldl_fst hs fun ht => ?_
  split
  · refine .ite_fst ht ?_
    split
    · exact ht.agentXlate
    · exact ht.agentXlate
    · exact .ite_fst ht.agentXlate.reachable ht.agentXlate.reachable.agentRequest.putMarked
  · exact ht

theorem MemoryOk.readGlobal {tk va n} (hs : MemoryOk s) : MemoryOk (readGlobal s tk va n).1 := by
  rw [Machine.readGlobal]
  split
  · exact hs
  · exact hs.readVirt

theorem MemoryOk.writeGlobal {tk va bs} (hs : MemoryOk s) : MemoryOk (writeGlobal s tk va bs).1 := by
  rw [Machine.writeGlobal]
  split
  · exact hs
  · exact hs.writeVirt

/-! ## Records and completion -/

theorem MemoryOk.updRun {tk cp f} (hs : MemoryOk s) : MemoryOk (updRun s tk cp f) := hs.updTeam
theorem MemoryOk.endRun {tk cp status} (hs : MemoryOk s) : MemoryOk (endRun s tk cp status) := hs.updRun

theorem MemoryOk.haltRun {tk cp w} (hs : MemoryOk s) : MemoryOk (haltRun s tk cp w) := by
  rw [Machine.haltRun]
  split
  · exact hs
  · split
    · exact hs
    · exact hs
    · exact hs.endRun
    · exact hs.park

theorem MemoryOk.dropBen {tk cp} (hs : MemoryOk s) : MemoryOk (dropBen s tk cp) := hs.updRun
theorem MemoryOk.reportBend {t cp b} (hs : MemoryOk s) : MemoryOk (reportBend s t cp b) := hs.report

theorem MemoryOk.completeRun {tk cp t r status} (hs : MemoryOk s) : MemoryOk (completeRun s tk cp t r status) :=
  .ite hs.setTeam (.ite hs.setTeam.countSignal hs.setTeam.reportBend)

theorem MemoryOk.execEngineCommandComplete {core copy} (hs : MemoryOk s) :
    NextOk (execEngineCommandComplete core copy s) := by
  rw [Machine.execEngineCommandComplete]
  split
  · exact hs
  · split
    · exact hs
    · split
      · exact hs
      · split
        · exact hs
        · exact hs.completeRun.settle

/-! ## What an engine takes next -/

theorem MemoryOk.turnTo {t cp} (hs : MemoryOk s) : MemoryOk (turnTo s t cp) := hs.updCore

theorem MemoryOk.takeCmd {tk t cp} (hs : MemoryOk s) : MemoryOk (takeCmd s tk t cp).1 := by
  rw [Machine.takeCmd]
  split
  · exact hs.turnTo
  · split
    · exact hs
    · exact hs.setTeam.turnTo

/-! ## MXISS, MXDRN, CPISS, QSTAT -/

theorem MemoryOk.pushLane {tid kind va} (hs : MemoryOk s) : MemoryOk (pushLane s tid kind va) := by
  rw [Machine.pushLane]
  split
  · exact hs
  · split
    · exact hs.raise
    · exact hs.setWait

/-! ## MXCLR, MXRD, MXWR -/

theorem MemoryOk.execMxclr {t} (hs : MemoryOk s) : NextOk (execMxclr t s) := by
  rw [Machine.execMxclr]
  refine .foldl hs fun ht => ?_
  split
  · exact ht.addAcc
  · exact ht

theorem MemoryOk.updTile {tk tile f} (hs : MemoryOk s) : MemoryOk (updTile s tk tile f) := hs.updTeam

theorem MemoryOk.doTile {id} (hs : MemoryOk s) : MemoryOk (doTile s id) := by
  rw [Machine.doTile]
  split
  · exact hs
  · split
    · exact hs
    · split
      · exact hs.updTile.delAcc
      · exact .finishAcc (.ite hs.setDue hs)
      · exact hs.updTile.delAcc
      · exact hs

/-! ## Cursors -/

theorem MemoryOk.setCursors {tk o cs c} (hs : MemoryOk s) : MemoryOk (setCursors s tk o cs c) := by
  rw [Machine.setCursors]
  split
  · exact hs
  · exact hs.updTile

/-! ## A chunk -/

theorem MemoryOk.notePoison {tk addr} (hs : MemoryOk s) : MemoryOk (notePoison s tk addr) := by
  rw [Machine.notePoison]
  split
  · exact hs
  · split
    · exact hs
    · exact .ite hs hs.updRun.report

theorem MemoryOk.runChunk {tk o cs c} (hs : MemoryOk s) : MemoryOk (runChunk s tk o cs c).1 := by
  unfold Machine.runChunk
  dsimp only
  split
  · split
    · exact .ite hs.touchAll.touchAll.updTile.notePoison hs.touchAll.touchAll.updTile
    · exact hs.touchAll.touchAll
  · exact hs.touchAll

theorem MemoryOk.stepChunk {tk o} (hs : MemoryOk s) : MemoryOk (stepChunk s tk o) := by
  unfold Machine.stepChunk
  dsimp only
  split
  · exact hs.endRun
  · split
    · exact .ite hs.runChunk.setCursors hs.runChunk.setCursors.endRun
    · exact hs.runChunk.setCursors.haltRun

/-! ## Drains -/

theorem MemoryOk.runRow {tk o r} (hs : MemoryOk s) : MemoryOk (runRow s tk o r).1 := by
  unfold Machine.runRow
  dsimp only
  split
  · exact hs
  · split
    · split
      · split
        · exact .ite hs.touchAll.writeSpad.writeSpad.notePoison hs.touchAll.writeSpad.writeSpad
        · exact hs.touchAll
      · exact hs.touchAll
    · exact hs.touchAll

theorem MemoryOk.rowDone {tk o r} (hs : MemoryOk s) : MemoryOk (rowDone s tk o r) :=
  .ite hs.updRun (.endRun (.ite hs.updRun.updTile hs.updRun))

theorem MemoryOk.stepRow {tk o} (hs : MemoryOk s) : MemoryOk (stepRow s tk o) := by
  rw [Machine.stepRow]
  split
  · exact hs.runRow.rowDone
  · exact hs.runRow.haltRun

/-! ## Events of the plane array -/

theorem MemoryOk.startOk {tk cp b ok} (hs : MemoryOk s) : MemoryOk (startOk s tk cp b ok).1 := by
  rw [Machine.startOk]
  split
  · exact hs
  · exact .ite_fst (.ite hs hs.dropBen.reportBend) (.endRun (.ite hs hs.dropBen.reportBend))

theorem MemoryOk.execMatrixOperation {core} (hs : MemoryOk s) : NextOk (execMatrixOperation core s) := by
  rw [Machine.execMatrixOperation]
  split
  · exact hs
  · split
    · exact hs
    · exact .ite hs (.settle (.ite (.ite hs.takeCmd.startOk.setCursors.stepChunk hs.takeCmd.startOk)
        hs.takeCmd.stepChunk))

theorem MemoryOk.execTileDrain {core} (hs : MemoryOk s) : NextOk (execTileDrain core s) := by
  rw [Machine.execTileDrain]
  split
  · exact hs
  · split
    · exact hs
    · exact .ite hs (.settle (.ite (.ite hs.takeCmd.startOk.stepRow hs.takeCmd.startOk) hs.takeCmd.stepRow))

/-! ## Sources and destinations -/

theorem MemoryOk.readSrc {tk glob va n} (hs : MemoryOk s) : MemoryOk (readSrc s tk glob va n).1 := by
  unfold Machine.readSrc
  dsimp only
  exact .ite_fst hs.readGlobal (by split <;> exact hs.touchSpad)

theorem MemoryOk.writeDst {tk glob va bs} (hs : MemoryOk s) : MemoryOk (writeDst s tk glob va bs).1 := by
  unfold Machine.writeDst
  dsimp only
  refine .ite_fst hs.writeGlobal ?_
  split
  · exact hs.touchSpad.writeSpad
  · exact hs.touchSpad

theorem MemoryOk.readMany {tk glob rs} (hs : MemoryOk s) : MemoryOk (readMany s tk glob rs).1 := by
  rw [Machine.readMany]
  refine .foldl_fst hs fun ht => ?_
  split
  · exact ht
  · exact ht.readSrc

theorem MemoryOk.writeMany {tk glob rs bs} (hs : MemoryOk s) : MemoryOk (writeMany s tk glob rs bs).1 := by
  rw [Machine.writeMany]
  refine .foldl_fst hs fun ht => ?_
  split
  · exact ht.writeDst
  · exact ht

theorem MemoryOk.storePiece {tk glob rs bs} (hs : MemoryOk s) : MemoryOk (storePiece s tk glob rs bs).1 := by
  rw [Machine.storePiece]
  split
  · exact .ite hs.writeMany.updRun hs.writeMany
  · exact hs

/-! ## Pieces of 256 bytes -/

theorem MemoryOk.noteOlds {o tk rs} (hs : MemoryOk s) : MemoryOk (noteOlds o s tk rs) := by
  rw [Machine.noteOlds]
  refine .ite ?_ hs
  split
  · exact hs
  · exact hs.updRun

theorem MemoryOk.mixOlds {o tk rs bs} (hs : MemoryOk s) : MemoryOk (mixOlds o s tk rs bs).1 := by
  rw [Machine.mixOlds]
  refine .ite_fst ?_ hs
  refine .foldl_fst hs fun ht => ?_
  split
  · exact ht
  · exact ht.choose

theorem MemoryOk.mixPiece {o src dst bs} (hs : MemoryOk s) : MemoryOk (mixPiece o s src dst bs).1 := by
  rw [Machine.mixPiece]
  refine .ite_fst ?_ hs
  refine .foldl_fst hs.choose fun ht => ?_
  split
  · exact ht
  · exact ht.choose

theorem MemoryOk.rowPiece {o tk x n} (hs : MemoryOk s) : MemoryOk (rowPiece o s tk x n).1 := by
  rw [Machine.rowPiece]
  split
  · exact hs.readMany
  · exact hs.readMany.mixOlds.mixPiece.noteOlds.storePiece

theorem MemoryOk.planePiece {fmt o tk x n} (hs : MemoryOk s) : MemoryOk (planePiece fmt o s tk x n).1 := by
  unfold Machine.planePiece
  extract_lets w len k0 k1 b0 bn r
  have hr : MemoryOk r.1 := by
    refine .foldl_fst hs fun ht => ?_
    split
    · exact ht
    · exact ht.readSrc
  split
  · exact hr
  · exact hr.storePiece

theorem MemoryOk.setDone {tk n} (hs : MemoryOk s) : MemoryOk (setDone s tk n) := hs.updRun.updTeam

theorem MemoryOk.stepPiece {tk total} {piece} (hpiece : ∀ {t x y}, MemoryOk t → MemoryOk (piece t x y).1)
    (hs : MemoryOk s) : MemoryOk (stepPiece piece s tk total) := by
  unfold Machine.stepPiece
  dsimp only
  refine .ite hs.endRun ?_
  split
  · exact .ite (.endRun (.setDone (hpiece hs))) (.setDone (hpiece hs))
  · exact .haltRun (hpiece hs)

/-! ## Scale placement -/

theorem MemoryOk.readLayout {tk f} (hs : MemoryOk s) : MemoryOk (readLayout s tk f).1 := by
  unfold Machine.readLayout
  dsimp only
  split
  · exact hs
  · split
    · exact hs.readGlobal
    · exact hs.readGlobal.updRun

theorem MemoryOk.scalePiece {y kind o tk x n} (hs : MemoryOk s) : MemoryOk (scalePiece y kind o s tk x n).1 := by
  rw [Machine.scalePiece]
  split
  · exact hs.readMany
  · exact .ite hs.readMany.updTile.updRun hs.readMany.updTile

theorem MemoryOk.runScales {tk o f} (hs : MemoryOk s) : MemoryOk (runScales s tk o f) := by
  unfold Machine.runScales
  dsimp only
  refine .ite hs.endRun ?_
  split
  · exact hs.readLayout.haltRun
  · exact .ite hs.readLayout.endRun (.stepPiece (fun ht => ht.scalePiece) hs.readLayout)

/-! ## Events of the copy engine -/

theorem MemoryOk.runCopy {tk l o} (hs : MemoryOk s) : MemoryOk (runCopy s tk l o) := by
  rw [Machine.runCopy]
  split
  · exact .stepPiece (fun ht => ht.rowPiece) hs
  · exact .stepPiece (fun ht => ht.rowPiece) hs
  · exact .stepPiece (fun ht => ht.planePiece) hs
  · exact hs.runScales
  · exact hs

theorem MemoryOk.copyEvent {mine core} {run} (hs : MemoryOk s)
    (hrun : ∀ {t x y z}, MemoryOk t → MemoryOk (run t x y z)) : MemoryOk (copyEvent mine core s run) := by
  unfold Machine.copyEvent
  split
  · exact hs
  · split
    · exact hs
    · extract_lets b o r u x
      have hr : MemoryOk r.1 := hs.takeCmd
      have hx : MemoryOk x.1 := hr.updTeam.startOk
      exact .ite hs (.settle (.ite (.ite (hrun hx) hx) (hrun hr)))

/-! ## Multicast reads -/

theorem MemoryOk.mcHalt {tk w} (hs : MemoryOk s) : MemoryOk (mcHalt s tk w) := by
  unfold Machine.mcHalt
  refine .haltRun ?_
  split
  · exact hs.updRun
  · exact hs

theorem MemoryOk.mcEnd {tk o} (hs : MemoryOk s) : MemoryOk (mcEnd s tk o) := by
  rw [Machine.mcEnd]
  split
  · exact hs
  · exact .ite hs.endRun hs

theorem MemoryOk.mcAsk {tk} (hs : MemoryOk s) : MemoryOk (mcAsk s tk) := hs.updRun

theorem MemoryOk.mcWrite {tk i o bs t} (hs : MemoryOk s) (ht : mcWrite s tk i o bs = some t) : MemoryOk t := by
  unfold Machine.mcWrite at ht
  dsimp only at ht
  split at ht
  · split at ht
    · cases ht; exact hs.storePiece.updRun
    · cases ht; exact hs.storePiece.updRun.updRun.setDone.mcEnd
  · split at ht
    · cases ht
    · cases ht; exact hs.storePiece
  · cases ht; exact hs.storePiece.mcHalt

theorem MemoryOk.mcAlone {tk i o} (hs : MemoryOk s) : MemoryOk (mcAlone s tk i o) := by
  unfold Machine.mcAlone
  dsimp only
  split
  · exact hs.readGlobal.mcHalt
  · exact .getD hs fun _ ht => hs.readGlobal.mcAsk.mcWrite ht

theorem MemoryOk.mcFar {tk l o} (hs : MemoryOk s) : MemoryOk (mcFar s tk l o) := by
  unfold Machine.mcFar
  dsimp only
  split
  · exact hs
  · split
    · exact hs
    · refine .ite hs ?_
      split
      · exact hs.xlate
      · exact hs.xlate.mcHalt
      · exact .ite hs.xlate hs.xlate.mcAlone

theorem MemoryOk.lineRead {key} (hs : MemoryOk s) : MemoryOk (lineRead s key).1 :=
  hs.foldl_fst fun ht => ht.developIf.readStateHome

theorem MemoryOk.mcRespond {d key m} (hs : MemoryOk s) : MemoryOk (mcRespond s d key m) :=
  hs.charge.lineRead.updDie.bump

theorem MemoryOk.mcAtSlice {d tk core line t i o} (hs : MemoryOk s) :
    MemoryOk (mcAtSlice s d tk core line t i o) := by
  unfold Machine.mcAtSlice
  extract_lets c x u v y key m w
  have hu : MemoryOk u := hs.mcAlone
  have hw : MemoryOk w := hs.heatTick.mcAsk.mcEnd.updDie.bump
  exact .ite hu (.ite (.ite hu.updDie hu) (.ite hw.mcRespond hw))

theorem MemoryOk.execMulticastRequest {core line} (hs : MemoryOk s) : NextOk (execMulticastRequest core line s) := by
  rw [Machine.execMulticastRequest]
  split
  · exact hs
  · split
    · exact hs
    · refine .ite hs (.settle ?_)
      split
      · exact hs.xlate
      · exact hs.xlate.mcHalt
      · exact .ite hs.xlate hs.xlate.mcAtSlice

theorem MemoryOk.execMulticastMergeTimeout {key} (hs : MemoryOk s) : NextOk (execMulticastMergeTimeout key s) := by
  rw [Machine.execMulticastMergeTimeout]
  split
  · exact hs
  · exact .ite hs hs.mcRespond

theorem MemoryOk.execMulticastResponse {core resp} (hs : MemoryOk s) :
    NextOk (execMulticastResponse core resp s) := by
  unfold Machine.execMulticastResponse
  dsimp only
  split
  · exact hs
  · refine .ite hs ?_
    split
    · exact hs.updDie.settle
    · refine .getD hs fun t ht => ?_
      obtain ⟨u, hu, rfl⟩ := Option.map_eq_some_iff.mp ht
      exact (hs.updDie.mcWrite hu).settle

end Sys2Proof.Machine
end

section
/-! SUPPORT. Memory in its canonical form through the capstan, and where outstanding accesses are performed. -/

namespace Sys2Proof.Machine
variable {s : State}

/-! ## Fetching -/

theorem MemoryOk.fetchFrom {g lid l} : ∀ {n pkt s}, MemoryOk s → MemoryOk (fetchFrom s g lid l pkt n).1
  | 0, _, _, hs => hs
  | n + 1, pkt, s, hs => by
    rw [Machine.fetchFrom]
    dsimp only
    split
    · exact hs.xlate
    · exact hs.xlate
    · exact .ite_fst hs.xlate.mustWait hs.xlate.mustWait.sideRequest.readHome.fetchFrom

/-! ## PASS_START -/

theorem MemoryOk.startPass {g port e b code tids} (hs : MemoryOk s) : MemoryOk (startPass s g port e b code tids) :=
    by
  rw [Machine.startPass]
  refine .foldl ((hs.setCore.leaveCensus.foldl fun ht => ht.updThread).foldl fun ht =>
    ht.updTeam).updLaunch.setPass.bump fun ht => ?_
  split
  · exact ht
  · exact ht
  · exact ht.addAcc

theorem MemoryOk.execPassStart {core port} (hs : MemoryOk s) : NextOk (execPassStart core port s) := by
  unfold Machine.execPassStart
  dsimp only
  refine .ite hs ?_
  split
  · exact hs
  · split
    · exact hs
    · split
      · exact hs
      · refine .ite hs ?_
        split
        · exact hs.fetchFrom
        · exact hs.fetchFrom.park
        · exact hs.fetchFrom.startPass

/-! ## DATA_WAIT_RESOLVE -/

theorem MemoryOk.execDataWaitResolve {tid} (hs : MemoryOk s) : NextOk (execDataWaitResolve tid s) := by
  rw [Machine.execDataWaitResolve]
  split
  · exact hs
  · refine .ite hs ?_
    split
    · exact hs.enterTrap
    · refine .ite hs ?_
      split
      · exact hs.updThread.enterTrap.settle
      · exact hs.enterCensus

/-! ## ENTRY_CLOSE, GANG_TIMEOUT -/

theorem MemoryOk.execEntryClose {core} (hs : MemoryOk s) : NextOk (execEntryClose core s) := by
  unfold Machine.execEntryClose
  dsimp only
  split
  · exact hs
  · refine .ite hs ?_
    split
    · exact hs
    · exact hs.setCore

theorem MemoryOk.execGangTimeout {core gang block} (hs : MemoryOk s) : NextOk (execGangTimeout core gang block s) :=
    by
  rw [Machine.execGangTimeout]
  split
  · exact hs
  · exact hs.updCore

/-! ## EXIT_COMPLETE, BAR_ARRIVAL -/

theorem MemoryOk.execBarArrival {tid} (hs : MemoryOk s) : NextOk (execBarArrival tid s) := by
  rw [Machine.execBarArrival]
  split
  · exact .ite hs.updThread.checkBarrier.settle hs
  · exact hs

/-! ## Lines of an L1 -/

theorem MemoryOk.flushHome {k} (hs : MemoryOk s) : MemoryOk (flushHome s k) := hs.flush

theorem MemoryOk.evictSector {core k} (hs : MemoryOk s) : MemoryOk (evictSector s core k) := by
  unfold Machine.evictSector
  dsimp only
  refine .ite hs ?_
  split
  · exact .ite hs.ncWriteBack.doEarlyMerge.flushHome hs.ncWriteBack
  · exact .ite hs.ncWriteBack.heatTick.toHome hs.ncWriteBack
  · exact hs.ncWriteBack.dropClean
  · exact hs.ncWriteBack

theorem MemoryOk.evictLine {core line} (hs : MemoryOk s) : MemoryOk (evictLine s core line) :=
  .ite (hs.foldl fun ht => ht.evictSector) (hs.foldl fun ht => ht.evictSector).dropTag

theorem MemoryOk.evictOne {g} : ∀ {ls s}, MemoryOk s → MemoryOk (evictOne s g ls)
  | [], _, hs => hs
  | _ :: _, _, hs => .ite hs.evictLine.evictOne hs.evictLine

theorem MemoryOk.fitL1 {g} (hs : MemoryOk s) : MemoryOk (fitL1 s g) := .ite hs.evictOne hs

/-! ## ACCESS_COMPLETE and POINT_OF_COHERENCE_REACHED -/

theorem MemoryOk.performAcc {id part a} (hs : MemoryOk s) : MemoryOk (performAcc s id part a) := by
  rw [Machine.performAcc]
  split
  case h_8 => exact .ite hs.pubvPart hs
  case h_9 => exact .ite hs.serveLdfe hs
  case h_10 => exact .ite hs.serveSpad hs
  case h_11 => exact hs.tryFill
  case h_12 | h_13 | h_14 => exact .ite hs.doTile hs
  case h_15 => exact .ite hs.performSignal hs
  case h_16 | h_17 | h_18 | h_19 | h_20 => exact hs
  all_goals exact .ite hs.doPart hs

theorem MemoryOk.performFit {id part a} (hs : MemoryOk s) : MemoryOk (performFit s id part a) := by
  rw [Machine.performFit]
  exact .ite hs hs.performAcc.fitL1.settle

theorem MemoryOk.execAccessComplete {id part} (hs : MemoryOk s) : NextOk (execAccessComplete id part s) := by
  rw [Machine.execAccessComplete]
  split
  · exact hs
  · exact .ite hs.performFit hs

theorem MemoryOk.execPointOfCoherenceReached {id part} (hs : MemoryOk s) :
    NextOk (execPointOfCoherenceReached id part s) := by
  rw [Machine.execPointOfCoherenceReached]
  split
  · exact hs
  · exact .ite hs.performFit hs

theorem MemoryOk.execRemoteBendSignal {id} (hs : MemoryOk s) : NextOk (execRemoteBendSignal id s) := by
  rw [Machine.execRemoteBendSignal]
  split
  · exact hs
  · split
    · exact .ite hs.performSignal.settle hs
    · exact hs

/-! ## Stash windows -/

theorem MemoryOk.execStashFillComplete {id} (hs : MemoryOk s) : NextOk (execStashFillComplete id s) := by
  rw [Machine.execStashFillComplete]
  split
  · exact hs
  · exact .ite hs.doStashFill.settle hs

theorem MemoryOk.execStashWritebackComplete {id} (hs : MemoryOk s) : NextOk (execStashWritebackComplete id s) := by
  rw [Machine.execStashWritebackComplete]
  split
  · exact hs
  · split
    · exact .ite hs.doStashWb.settle hs
    · exact hs

/-! ## Latent sectors -/

theorem MemoryOk.execDirectoryEntryEviction {sector} (hs : MemoryOk s) :
    NextOk (execDirectoryEntryEviction sector s) := by
  rw [Machine.execDirectoryEntryEviction]
  refine .ite hs ?_
  split
  · exact hs
  · exact hs.startDevelop.flushHome.settle
  · exact hs.toHome.settle

end Sys2Proof.Machine
end

section
/-! SUPPORT. Memory in its canonical form through the scheduler, launches and the save area. -/

namespace Sys2Proof.Machine
variable {s : State}

/-! ## Nodes -/

theorem MemoryOk.visitTree {d} : ∀ {fuel work ns bad s}, MemoryOk s → MemoryOk (visitTree s d fuel work ns bad).1
  | 0, _, _, _, _, hs => hs
  | _ + 1, [], _, _, _, hs => hs
  | _ + 1, _ :: _, _, _, _, hs => .ite_fst hs.readPhys.visitTree hs.readPhys.visitTree

theorem MemoryOk.treeNow {d} (hs : MemoryOk s) : MemoryOk (treeNow s d).1 := hs.visitTree
theorem MemoryOk.reportIgnored {d addr} (hs : MemoryOk s) : MemoryOk (reportIgnored s d addr) := hs.report

theorem MemoryOk.readTree {d} (hs : MemoryOk s) : MemoryOk (readTree s d) :=
  hs.treeNow.updDie.foldl fun ht => ht.reportIgnored

/-! ## Queues -/

theorem MemoryOk.takeEntry {d up e} (hs : MemoryOk s) : MemoryOk (takeEntry s d up e) :=
  .ite hs (.ite hs.reportIgnored hs.setLaunch.bump)

theorem MemoryOk.takeEntries {d q ring size} :
    ∀ {n head s}, MemoryOk s → MemoryOk (takeEntries s d q ring size head n)
  | 0, _, _, hs => hs
  | _ + 1, _, _, hs => hs.readPhys.storePhys.takeEntry.takeEntries

theorem MemoryOk.serveQueue {d q} (hs : MemoryOk s) : MemoryOk (serveQueue s d q) := by
  unfold Machine.serveQueue
  dsimp only
  refine .ite hs ?_
  split
  · exact hs.readPhys
  · exact hs.readPhys.takeEntries

theorem MemoryOk.serveQueues {d} (hs : MemoryOk s) : MemoryOk (serveQueues s d) := hs.foldl fun ht => ht.serveQueue

/-! ## DOORBELL -/

theorem MemoryOk.findQueue {d a} (hs : MemoryOk s) : MemoryOk (findQueue s d a).1 := by
  unfold Machine.findQueue
  dsimp only
  split
  · exact hs
  · split
    · exact hs
    · exact hs.treeNow.updDie

theorem MemoryOk.execDoorbell {die v} (hs : MemoryOk s) : NextOk (execDoorbell die v s) := by
  unfold Machine.execDoorbell
  dsimp only
  refine .atPort hs fun ht => .ite ht ?_
  split
  · exact ht.findQueue
  · exact ht.findQueue.serveQueue.settle

/-! ## PERIOD_BOUNDARY -/

theorem MemoryOk.clearSpends {d} (hs : MemoryOk s) : MemoryOk (clearSpends s d) := hs.updDie
theorem MemoryOk.countPassed {d} (hs : MemoryOk s) : MemoryOk (countPassed s d) := hs.updDie
theorem MemoryOk.liftChanged {d} (hs : MemoryOk s) : MemoryOk (liftChanged s d) := hs.updDie

/-! ## Accepting a launch -/

theorem MemoryOk.schedPark {l team w who} (hs : MemoryOk s) : MemoryOk (schedPark s l team w who) := by
  unfold Machine.schedPark
  dsimp only
  split
  · exact hs.park
  · exact hs

theorem MemoryOk.failLaunch {lid status} (hs : MemoryOk s) : MemoryOk (failLaunch s lid status) := hs.updLaunch

theorem MemoryOk.acceptTable {lid l} (hs : MemoryOk s) : MemoryOk (acceptTable s lid l) := by
  rw [Machine.acceptTable]
  split
  · exact hs.readVirt.setLaunch.schedPark
  · exact .ite hs.readVirt.setLaunch hs.readVirt.setLaunch.failLaunch

theorem MemoryOk.acceptChecks {lid l} (hs : MemoryOk s) : MemoryOk (acceptChecks s lid l) := by
  unfold Machine.acceptChecks
  dsimp only
  refine .ite hs.failLaunch (.ite hs.failLaunch (.ite hs.failLaunch ?_))
  split
  · exact hs.readVirt.schedPark
  · exact .ite hs.readVirt.acceptTable hs.readVirt.setLaunch.failLaunch

theorem MemoryOk.askRecord {lid l} (hs : MemoryOk s) : MemoryOk (askRecord s lid l) := by
  rw [Machine.askRecord]
  split
  · exact hs
  · exact hs.sideRequest

theorem MemoryOk.execLaunchAccept {launch} (hs : MemoryOk s) : NextOk (execLaunchAccept launch s) := by
  rw [Machine.execLaunchAccept]
  split
  · exact hs
  · refine .ite hs ?_
    split
    · exact .ite hs (.ite hs.askRecord.readPlain.setLaunch.settle
        hs.askRecord.readPlain.setLaunch.bump.acceptChecks.settle)
    · exact .ite hs hs.bump.acceptChecks.settle
    · exact hs

/-! ## GRID_COMPLETE -/

theorem MemoryOk.signalCbend {l} (hs : MemoryOk s) : MemoryOk (signalCbend s l) :=
  .ite hs (.ite hs.countSignal hs.report)

theorem MemoryOk.forgetLaunch {lid l} (hs : MemoryOk s) : MemoryOk (forgetLaunch s lid l) := hs
theorem MemoryOk.dropReplicas {lid} (hs : MemoryOk s) : MemoryOk (dropReplicas s lid) := hs

theorem MemoryOk.execGridComplete {launch} (hs : MemoryOk s) : NextOk (execGridComplete launch s) := by
  unfold Machine.execGridComplete
  dsimp only
  split
  · exact hs
  · refine .ite hs (.ite hs.dropReplicas.signalCbend.forgetLaunch.settle ?_)
    refine .ite hs.dropReplicas.report.signalCbend.forgetLaunch.settle ?_
    split
    · exact hs.dropReplicas.writeVirt.signalCbend.forgetLaunch.settle
    · exact hs.dropReplicas.writeVirt.setLaunch.schedPark

/-! ## The team's record -/

theorem MemoryOk.writePieces {lid l base ps} (hs : MemoryOk s) : MemoryOk (writePieces s lid l base ps).1 := by
  rw [Machine.writePieces]
  refine .foldl_fst hs fun ht => ?_
  split
  · exact ht.writeVirt
  · exact ht

/-! ## Reissuing -/

theorem MemoryOk.reowe {tk} (hs : MemoryOk s) : MemoryOk (reowe s tk) := by
  rw [Machine.reowe]
  split
  · exact hs
  · split
    · exact hs
    · exact .ite hs.updTeam.expnResult hs

theorem MemoryOk.reissueAcc {tk tid base r note i} (hs : MemoryOk s) :
    MemoryOk (reissueAcc s tk tid base r note i) := by
  unfold Machine.reissueAcc
  dsimp only
  split
  · exact hs
  · split
    · exact hs.setDue
    · split
      · exact hs
      · split
        · exact hs.setAcc.updThread.updTeam.reowe
        · exact hs.setAcc.updThread

theorem MemoryOk.reissueOne {tk tid base k r note} (hs : MemoryOk s) :
    MemoryOk (reissueOne s tk tid base k r note) := by
  rw [Machine.reissueOne]
  refine .ite hs.setDue (.ite hs.updThread ?_)
  split
  · exact hs
  · split
    · exact .ite hs.updThread hs.updThread.setAcc
    · exact hs.reissueAcc

/-! ## The ready pool -/

theorem MemoryOk.notePassed {d lid} (hs : MemoryOk s) : MemoryOk (notePassed s d lid) := hs.updDie

/-! ## Placing -/

theorem MemoryOk.putTeam {lid l num g g0 base tpass} (hs : MemoryOk s) :
    MemoryOk (putTeam s lid l num g g0 base tpass) :=
  hs.updCore.setTeam

theorem MemoryOk.placeFresh {lid l num g g0 base} (hs : MemoryOk s) : MemoryOk (placeFresh s lid l num g g0 base) :=
  (hs.putTeam.foldl fun ht => ht.setThread).updLaunch.foldl fun ht => ht.enterCensus

theorem MemoryOk.letIn {tid any} (hs : MemoryOk s) : MemoryOk (letIn s tid any) := by
  rw [Machine.letIn]
  split
  · exact .ite hs.updThread hs.enterCensus
  · exact hs

theorem MemoryOk.restoreTeam {lid l num g g0 base img} (hs : MemoryOk s) :
    MemoryOk (restoreTeam s lid l num g g0 base img) := by
  unfold Machine.restoreTeam
  extract_lets m tk u part v w slot tids rec_ x notes items s0 y z s1 s2 s3 ds
  have hx : MemoryOk x := hs.putTeam.updCore.updTeam.foldl fun ht => .setThread ht
  have hy : MemoryOk y := hx.foldl fun ht => ht.reissueOne
  have hs3 : MemoryOk s3 := ((hy.seq).updLaunch.foldl fun ht => ht.letIn).updTeam
  exact (hs3.foldl fun ht => ht.checkBarrier).tickEnd

theorem MemoryOk.placeSaved {d lid l num g g0 base} (hs : MemoryOk s) :
    MemoryOk (placeSaved s d lid l num g g0 base) := by
  rw [Machine.placeSaved]
  split
  · exact hs.readVirt.schedPark
  · exact hs.readVirt.notePassed.restoreTeam

theorem MemoryOk.placeOne {d} (hs : MemoryOk s) : MemoryOk (placeOne s d) := by
  rw [Machine.placeOne]
  split
  · exact hs
  · split
    · exact hs
    · split
      · exact hs
      · exact .ite hs.placeSaved hs.notePassed.placeFresh

/-! ## Saving and discarding -/

theorem MemoryOk.dropTeam {tk t} (hs : MemoryOk s) : MemoryOk (dropTeam s tk t) := hs.cancelTeam.removeTeam

theorem MemoryOk.execTeamSave {team} (hs : MemoryOk s) : NextOk (execTeamSave team s) := by
  unfold Machine.execTeamSave
  dsimp only
  split
  · exact hs
  · split
    · exact hs
    · refine .ite hs (.ite (hs.foldl fun ht => ht.startWb) ?_)
      split
      · exact hs.writePieces.updLaunch.dropTeam.settle
      · exact hs.writePieces.schedPark

theorem MemoryOk.execTeamDiscard {team} (hs : MemoryOk s) : NextOk (execTeamDiscard team s) := by
  rw [Machine.execTeamDiscard]
  split
  · exact hs
  · exact .ite hs (.ite hs.endWindows.settle hs.endWindows.updLaunch.dropTeam.settle)

/-! ## Pre-emption -/

theorem MemoryOk.coverTeam {tk id deadline L} (hs : MemoryOk s) : MemoryOk (coverTeam s tk id deadline L) := by
  rw [Machine.coverTeam]
  split
  · exact hs
  · split
    · exact hs
    · exact hs.setTeam

theorem MemoryOk.execPreemptRequest {die v} (hs : MemoryOk s) : NextOk (execPreemptRequest die v s) := by
  refine .atPort hs fun ht => .ite ht.updDie (.ite ht.updDie.reportIgnored ?_)
  exact (ht.updDie.bump.updDie.foldl fun hu => hu.coverTeam).checkPreqs.settle

theorem MemoryOk.execDrainDeadline {team} (hs : MemoryOk s) : NextOk (execDrainDeadline team s) := by
  rw [Machine.execDrainDeadline]
  split
  · exact hs
  · split
    · exact .ite hs.setTeam hs
    · exact hs

theorem MemoryOk.execResumeRequest {die v} (hs : MemoryOk s) : NextOk (execResumeRequest die v s) :=
  hs.atPort fun ht => .ite ht.updDie (.ite ht.updDie.reportIgnored ht.updDie.updDie.settle)

/-! ## SWAP_TICK -/

theorem MemoryOk.swapLaunch {d lid now interval} (hs : MemoryOk s) : MemoryOk (swapLaunch s d lid now interval) := by
  rw [Machine.swapLaunch]
  split
  · exact hs
  · exact .ite hs (hs.updLaunch.foldl fun ht => ht.updTeam)

end Sys2Proof.Machine
end

section
/-! SUPPORT. Memory in its canonical form through REPLAY, TLBINVC and EXPREVOKE. -/

namespace Sys2Proof.Machine
variable {s : State}

/-! ## REPLAY -/

theorem MemoryOk.restartAcc {id} (hs : MemoryOk s) : MemoryOk (restartAcc s id) := by
  rw [Machine.restartAcc]
  split
  · exact hs
  · exact hs.setAcc.foldl fun ht => ht.dropTlb

theorem MemoryOk.restart {w} (hs : MemoryOk s) : MemoryOk (restart s w) := by
  unfold Machine.restart
  split
  · exact hs.restartAcc
  · exact hs

theorem MemoryOk.dropToken {d tok} (hs : MemoryOk s) : MemoryOk (dropToken s d tok) := hs.updDie

theorem MemoryOk.execReplayAccess {die token} (hs : MemoryOk s) : NextOk (execReplayAccess die token s) := by
  rw [Machine.execReplayAccess]
  refine .atPort hs fun ht => ?_
  split
  · exact ht
  · exact (ht.dropToken.dropTlb.foldl fun hu => hu.restart).settle

theorem MemoryOk.deliverAcc {d r id} (hs : MemoryOk s) : MemoryOk (deliverAcc s d r id) := by
  rw [Machine.deliverAcc]
  split
  · exact hs
  · exact hs.unparkAcc.delAcc.setDue

theorem MemoryOk.deliverFetch {r core blk lidx} (hs : MemoryOk s) : MemoryOk (deliverFetch s r core blk lidx) :=
  hs.leaveCensus.foldl fun ht => ht.enterTrap

theorem MemoryOk.deliver {d r w} (hs : MemoryOk s) : MemoryOk (deliver d r s w) := by
  unfold Machine.deliver
  split
  · exact hs.deliverAcc
  · exact hs.deliverFetch
  · exact hs.endRun
  · exact hs.endRun
  · exact hs.stopLaunch
  · exact hs.stopLaunch
  · split
    · exact hs
    · exact hs.stopLaunch
  · exact hs.updLaunch

theorem MemoryOk.execReplayDeliver {die token} (hs : MemoryOk s) : NextOk (execReplayDeliver die token s) := by
  rw [Machine.execReplayDeliver]
  refine .atPort hs fun ht => ?_
  split
  · exact ht
  · exact (ht.dropToken.foldl fun hu => hu.deliver).settle

/-! ## TLBINVC -/

theorem MemoryOk.writeInval {d kind v} (hs : MemoryOk s) : MemoryOk (writeInval s d kind v) :=
  .ite hs (.ite hs.setDie hs.setDie)

theorem MemoryOk.surrender {d i} (hs : MemoryOk s) : MemoryOk (surrender s d i) :=
  hs.foldl fun ht => ht.foldl fun hu => .ite hu hu.doEarlyMerge.flushHome

theorem MemoryOk.receiveInval {d i} (hs : MemoryOk s) : MemoryOk (receiveInval s d i) :=
  .surrender (.cores hs.updDie)

theorem MemoryOk.execInvalidationRequest {src receiver} (hs : MemoryOk s) :
    NextOk (execInvalidationRequest src receiver s) := by
  rw [Machine.execInvalidationRequest]
  split
  · exact hs
  · exact .ite hs (.ite (.settle (.ite hs.receiveInval hs)) (.settle (.updDie (.ite hs.receiveInval hs))))

theorem MemoryOk.countAck {src receiver} (hs : MemoryOk s) : MemoryOk (countAck s src receiver) := by
  rw [Machine.countAck]
  split
  · exact hs
  · exact hs.updDie

theorem MemoryOk.execInvalidationAck {src receiver} (hs : MemoryOk s) :
    NextOk (execInvalidationAck src receiver s) := by
  rw [Machine.execInvalidationAck]
  split
  · exact hs
  · exact .ite hs hs.countAck

/-! ## EXPREVOKE -/

theorem MemoryOk.exportRange {d idx} (hs : MemoryOk s) : MemoryOk (exportRange s d idx).1 := .ite_fst hs hs.readPhys

theorem MemoryOk.recallNc {d g k} (hs : MemoryOk s) : MemoryOk (recallNc s d g k) :=
  .ite hs.waitAt hs.waitAt.ncWriteBack

theorem MemoryOk.recallRange {d r} (hs : MemoryOk s) : MemoryOk (recallRange s d r) := by
  rw [Machine.recallRange]
  refine .foldl ?_ (fun ht => .ite ht ht.recallNc)
  refine .foldl hs fun ht => .ite ht ?_
  split
  · exact ht.startDevelop
  · exact .ite ht.toHome ht

theorem MemoryOk.dropPeer {d} (hs : MemoryOk s) : MemoryOk (dropPeer s d) := hs

theorem MemoryOk.writeRevoke {d v} (hs : MemoryOk s) : MemoryOk (writeRevoke s d v) := by
  unfold Machine.writeRevoke
  dsimp only
  refine .ite hs (.ite hs.setDie ?_)
  split
  · exact hs.setDie.dropPeer.exportRange.updDie
  · exact hs.setDie.dropPeer.exportRange.updDie.recallRange.settle

theorem MemoryOk.execRevokeComplete {die} (hs : MemoryOk s) : NextOk (execRevokeComplete die s) := by
  unfold Machine.execRevokeComplete
  extract_lets x u
  have hu : MemoryOk u := by
    unfold u
    split
    · exact hs
    · exact hs.recallRange
  exact .ite hs (.ite hu.settle hu.updDie.settle)

end Sys2Proof.Machine
end

section
/-! SUPPORT. Memory in its canonical form through the link ports. -/

namespace Sys2Proof.Machine
variable {s : State}

/-! ## Reports of a port -/

theorem MemoryOk.vectorAll {v} (hs : MemoryOk s) : MemoryOk (vectorAll s v) := hs.foldl fun ht => ht.emit
theorem MemoryOk.portReport {i r} (hs : MemoryOk s) : MemoryOk (portReport s i r) := .ite hs.report hs

/-! ## A link goes down -/

theorem MemoryOk.junk {n} (hs : MemoryOk s) : MemoryOk (junk s n).1 := hs

theorem MemoryOk.completePart {i id part} (hs : MemoryOk s) : MemoryOk (completePart s i id part) := by
  rw [Machine.completePart]
  split
  · exact hs
  · split
    · exact hs
    · split
      · exact hs.junk.partDone
      · exact hs.junk.setDue.finishAcc
      · exact hs.delAcc
      · exact hs.delAcc
      · exact hs.junk.partDone.portReport
      · exact hs.delAcc.portReport
      · exact hs.delAcc.portReport
      · exact hs.delAcc.portReport
      · exact hs.partDone.portReport

theorem MemoryOk.poisonBeyond {i} (hs : MemoryOk s) : MemoryOk (poisonBeyond s i) :=
  hs.foldl fun ht => .ite (.gotComposite ht) ht

theorem MemoryOk.cutOff {i} (hs : MemoryOk s) : MemoryOk (cutOff s i) := by
  unfold Machine.cutOff
  dsimp only
  refine .foldl hs fun ht => ?_
  split
  · refine .ite ht ?_
    split
    · exact ht
    · exact .ite ht ht
  · exact ht

theorem MemoryOk.loseSignals {i pkg} (hs : MemoryOk s) : MemoryOk (loseSignals s i pkg) := by
  rw [Machine.loseSignals]
  refine .foldl hs fun ht => ?_
  split
  · exact .ite ht.delAcc.portReport ht
  · exact ht

theorem MemoryOk.linkDown {i} (hs : MemoryOk s) : MemoryOk (linkDown s i) := by
  unfold Machine.linkDown
  extract_lets x ps u v w y
  have hu : MemoryOk u := (hs.foldl fun ht => ht.completePart).poisonBeyond.loseSignals
  have hy : MemoryOk y := hu.setPort.cutOff.portReport.vectorAll.vectorAll
  exact .ite hs (hy.foldl fun ht => ht.countAck).settle

/-! ## Messages -/

theorem MemoryOk.sendData {i bs bad} (hs : MemoryOk s) : MemoryOk (sendData s i bs bad) :=
  hs.foldl fun ht => ht.sendFlit

theorem MemoryOk.farLatent {i key op} (hs : MemoryOk s) : MemoryOk (farLatent s i key op) := by
  rw [Machine.farLatent]
  split
  · exact .ite hs.heatTick hs.heatTick
  · exact hs.heatTick.toHome

theorem MemoryOk.farCollect {i key op} (hs : MemoryOk s) : MemoryOk (farCollect s i key op) := by
  unfold Machine.farCollect
  extract_lets k u
  have hu : MemoryOk u := by
    unfold u
    split
    · exact hs.startDevelop
    · exact hs
  split
  · exact hu
  · exact hu.sendFlit

theorem MemoryOk.farComposite {i key op data poison answer} (hs : MemoryOk s) :
    MemoryOk (farComposite s i key op data poison answer) := by
  rw [Machine.farComposite]
  split
  · exact .ite (.ite hs.gotComposite hs.mergeEarly) hs.mergeHome
  · exact hs.toHome.mergeHome

theorem MemoryOk.farAtomic {i key op w v} (hs : MemoryOk s) : MemoryOk (farAtomic s i key op w v) :=
  .sendFlit (.ite hs.heatTick.toHome hs.heatTick.toHome.writeHome)

theorem MemoryOk.serveMsg {i m} (hs : MemoryOk s) : MemoryOk (serveMsg s i m) := by
  unfold Machine.serveMsg
  dsimp only
  refine .ite hs ?_
  split
  · exact hs.readBy.sendData.flushHome
  · exact hs.storeHome.flushHome
  · exact hs.ncHome.flushHome
  · exact hs.farAtomic
  · exact hs.farLatent
  · exact hs.farCollect
  · exact hs.farComposite.flushHome
  · exact .ite hs.countSignal.sendFlit hs
  · exact hs.signalCounted
  · exact hs
  · exact hs

theorem MemoryOk.msgWaits {m} (hs : MemoryOk s) : MemoryOk (msgWaits s m).1 := by
  rw [Machine.msgWaits]
  split
  · exact hs
  · exact .ite hs.startDevelop hs

theorem MemoryOk.noteBeyond {i key op} (hs : MemoryOk s) : MemoryOk (noteBeyond s i key op).1 := by
  rw [Machine.noteBeyond]
  refine .ite_fst hs (.ite_fst hs.msgWaits ?_)
  split
  · exact hs
  · exact hs.toHome

theorem MemoryOk.passOn {i f m} (hs : MemoryOk s) : MemoryOk (passOn s i f m).1 := by
  unfold Machine.passOn
  dsimp only
  split
  · exact hs
  · refine .ite_fst hs ?_
    split
    · split
      · exact hs.noteBeyond
      · exact hs.noteBeyond.sendFlitTo
    · split
      · exact .ite_fst hs.farComposite hs.sendFlitTo
      · exact hs.sendFlitTo
    · exact hs.sendFlitTo

theorem MemoryOk.tryFlit {i f} (hs : MemoryOk s) : MemoryOk (tryFlit s i f).1 := by
  unfold Machine.tryFlit
  dsimp only
  refine .ite_fst hs.passOn (.ite_fst hs ?_)
  split
  · exact hs
  · refine .ite_fst hs ?_
    split
    · exact hs.msgWaits
    · exact hs.msgWaits.serveMsg

theorem MemoryOk.addToken {i h} (hs : MemoryOk s) : MemoryOk (addToken s i h) := by
  unfold Machine.addToken
  split
  · exact hs.updDie
  · split <;> exact hs

theorem MemoryOk.addTokens {i holds} (hs : MemoryOk s) : MemoryOk (addTokens s i holds) :=
  hs.foldl fun ht => .ite ht.addToken ht

theorem MemoryOk.serveWaits {i one} : ∀ {fs kept got s}, MemoryOk s → MemoryOk (serveWaits s i one kept got fs).1
  | [], _, _, _, hs => hs.setPort.addTokens
  | f :: fs, kept, got, s, hs => by
    rw [Machine.serveWaits]
    split
    · exact hs.serveWaits
    · dsimp only
      split
      · exact .ite_fst hs.tryFlit.setPort hs.tryFlit.serveWaits
      · exact hs.tryFlit.serveWaits
      · exact hs.tryFlit.serveWaits

theorem MemoryOk.drain {i} : ∀ {fuel s}, MemoryOk s → MemoryOk (drain s i fuel)
  | 0, _, hs => hs
  | fuel + 1, s, hs => by
    rw [Machine.drain]
    split
    · exact hs
    · refine .ite hs.setPort.drain ?_
      dsimp only
      split
      · exact hs.tryFlit.setPort.drain
      · exact hs.tryFlit
      · exact hs.tryFlit.setPort.drain

theorem MemoryOk.pace {i} (hs : MemoryOk s) : MemoryOk (pace s i) :=
  .ite hs (.ite hs.setPort.emit (.ite hs.setPort.emit hs))

theorem MemoryOk.serveAll {i} (hs : MemoryOk s) : MemoryOk (serveAll s i) := hs.serveWaits.drain.serveWaits

theorem MemoryOk.drainPort {i} (hs : MemoryOk s) : MemoryOk (drainPort s i) :=
  (hs.serveAll.pace.foldl fun ht => ht.serveAll.pace).settle

end Sys2Proof.Machine
end

section
/-! SUPPORT. Memory in its canonical form through register writes, the host and errors. -/

namespace Sys2Proof.Machine
variable {s : State}

/-! ## The overflow pool -/

theorem MemoryOk.execOvppush {die v} (hs : MemoryOk s) : NextOk (execOvppush die v s) :=
  hs.atPort fun ht => ht.pushBlock.settle

theorem MemoryOk.takeBlock {d} (hs : MemoryOk s) : MemoryOk (takeBlock s d).1 := .ite_fst hs hs.popBlock

/-! ## Heat counters -/

theorem MemoryOk.halve {k i} (hs : MemoryOk s) : MemoryOk (halve s k i) := cellPuts_wf _ _ hs

theorem MemoryOk.sweepHeat {d} (hs : MemoryOk s) : MemoryOk (sweepHeat s d) := by
  rw [Machine.sweepHeat]
  split
  · exact hs
  · exact ((hs.foldl fun ht => ht.toHome).foldl fun ht => ht.halve).settle

theorem MemoryOk.execHeatdecay {die} (hs : MemoryOk s) : NextOk (execHeatdecay die s) :=
  hs.atPort fun ht => ht.sweepHeat

/-! ## Bends -/

theorem MemoryOk.takeUnit {d} (hs : MemoryOk s) : MemoryOk (takeUnit s d).1 := .ite_fst hs.setBend hs

theorem MemoryOk.execBendcntWrite {die v} (hs : MemoryOk s) : NextOk (execBendcntWrite die v s) :=
  hs.atPort fun ht => ht.setBend.serveBend.settle

theorem MemoryOk.execBendctlWrite {die v} (hs : MemoryOk s) : NextOk (execBendctlWrite die v s) :=
  hs.atPort fun ht => ht.setBend

/-! ## Fault queue, gang records -/

theorem MemoryOk.execFqheadWrite {die v} (hs : MemoryOk s) : NextOk (execFqheadWrite die v s) :=
  hs.atPort fun ht => ht.updDie.flush.settle

theorem MemoryOk.execGstatClear {core v} (hs : MemoryOk s) : NextOk (execGstatClear core v s) :=
  hs.atPort fun ht => ht.updCore

/-! ## Attestation -/

theorem MemoryOk.attest {d} (hs : MemoryOk s) : MemoryOk (attest s d) := .ite hs (.settle (.updDie (.storePhys hs)))

theorem MemoryOk.execAttgo {die v} (hs : MemoryOk s) : NextOk (execAttgo die v s) :=
  hs.atPort fun ht => ht.updDie.attest

/-! ## Writes of registers without an event of their own -/

theorem MemoryOk.writeBind {d f} (hs : MemoryOk s) : MemoryOk (writeBind s d f) := .ite hs hs.setBend

theorem MemoryOk.putReg {d r v} (hs : MemoryOk s) : MemoryOk (putReg s d r v) := by
  unfold Machine.putReg
  dsimp only
  split
  case h_4 => exact hs.updDie.flush
  case h_10 => exact hs
  case h_12 | h_13 | h_14 | h_15 => exact hs.writeBind
  case h_23 => exact .ite hs.updDie (.ite hs.updDie (.ite hs.updDie hs))
  all_goals exact hs.updDie

theorem MemoryOk.putCoreReg {g c v} (hs : MemoryOk s) : MemoryOk (putCoreReg s g c v) := by
  unfold Machine.putCoreReg
  dsimp only
  split
  case h_5 => exact .ite hs.updCore hs
  all_goals exact hs.updCore

/-! ## Writes that act -/

theorem MemoryOk.stateOf {r} (hs : MemoryOk s) (hr : NextOk r) : MemoryOk (stateOf s r) := by
  unfold Machine.stateOf
  split
  · exact hr
  · exact hs

theorem MemoryOk.writeLinkStat {p v lo hi} (hs : MemoryOk s) : MemoryOk (writeLinkStat s p v lo hi) :=
  .ite hs.setPort.linkDown hs.setPort

theorem MemoryOk.actReg {d r v whole} (hs : MemoryOk s) : MemoryOk (actReg s d r v whole) := by
  unfold Machine.actReg
  split
  · exact hs.stateOf hs.execDoorbell
  · exact hs.stateOf hs.execPreemptRequest
  · exact hs.stateOf hs.execResumeRequest
  · split
    · exact hs.stateOf hs.execReplayAccess
    · exact hs.stateOf hs.execReplayDeliver
    · exact hs
  · exact hs.writeInval
  · exact hs.stateOf hs.execOvppush
  · exact hs.writeRevoke
  · exact hs.stateOf hs.execAttgo
  · exact .ite hs.writeLinkStat hs

theorem MemoryOk.storeLow {d r v} (hs : MemoryOk s) : MemoryOk (storeLow s d r v) := by
  unfold Machine.storeLow
  dsimp only
  split
  case h_3 => exact .ite hs hs.updDie
  case h_6 => exact .ite hs.writeLinkStat hs.updDie
  all_goals exact hs.updDie

theorem MemoryOk.putOrAct {d r v} (hs : MemoryOk s) : MemoryOk (putOrAct s d r v) := by
  unfold Machine.putOrAct
  split
  · exact hs.stateOf hs.execFqheadWrite
  · exact hs.stateOf hs.execHeatdecay
  · exact hs.stateOf hs.execBendcntWrite
  · exact hs.stateOf hs.execBendctlWrite
  · exact hs.putReg

theorem MemoryOk.writeReg {d r v hi} (hs : MemoryOk s) : MemoryOk (writeReg s d r v hi) := by
  unfold Machine.writeReg
  dsimp only
  refine .ite hs (.ite (.ite hs hs.putOrAct) ?_)
  split
  · exact .ite hs.updDie.actReg hs.putOrAct
  · exact .ite hs.actReg hs.putOrAct
  · exact .ite hs.storeLow hs.putOrAct

theorem MemoryOk.writeCore {g c v hi} (hs : MemoryOk s) : MemoryOk (writeCore s g c v hi) :=
  .ite hs (.ite (.ite hs (hs.stateOf hs.execGstatClear)) (.ite hs hs.putCoreReg))

theorem MemoryOk.windowWrite {d off size v} (hs : MemoryOk s) : MemoryOk (windowWrite s d off size v) := by
  unfold Machine.windowWrite
  dsimp only
  refine .ite hs ?_
  split
  · exact hs.writeCore
  · exact .ite hs.writeReg hs

theorem MemoryOk.windowRead {d off size} (hs : MemoryOk s) : MemoryOk (windowRead s d off size).1 := by
  rw [Machine.windowRead]
  refine .ite_fst hs ?_
  split
  · exact hs
  · exact .ite_fst hs (.ite_fst (.ite_fst hs.takeBlock hs) (.ite_fst (.ite_fst hs.takeUnit hs) hs))

/-! ## Host reads and writes -/

theorem MemoryOk.waitHost {d key n i} {f : State → State} (hs : MemoryOk s)
    (hf : ∀ {t}, MemoryOk t → MemoryOk (f t)) : MemoryOk (waitHost s d key n i f) := by
  unfold Machine.waitHost
  split
  · exact hs.updDie
  · extract_lets w
    have hw : MemoryOk w.1 := hs.foldl_fst fun ht => .ite_fst ht ht.waitAt
    exact .ite hw (hf hw)

theorem MemoryOk.execHostRead {die addr n} (hs : MemoryOk s) : NextOk (execHostRead die addr n s) := by
  rw [Machine.execHostRead]
  refine .ite hs.emit (.atPort hs fun ht => ?_)
  split
  · exact ht.windowRead.emit
  · split
    · exact ht.emit
    · exact ht.waitHost fun hu => hu.readBy.flushHome.emit.settle

theorem MemoryOk.execHostWrite {die addr bytes} (hs : MemoryOk s) : NextOk (execHostWrite die addr bytes s) := by
  rw [Machine.execHostWrite]
  refine .ite hs (.atPort hs fun ht => ?_)
  split
  · exact ht.windowWrite
  · split
    · exact ht
    · exact ht.waitHost fun hu => hu.storeHome.flushHome.settle

/-! ## Bring-up -/

theorem MemoryOk.signBoth {die} (hs : MemoryOk s) : MemoryOk (signBoth s die).1 := hs

theorem MemoryOk.fenceDie {die} (hs : MemoryOk s) : MemoryOk (fenceDie s die) :=
  .ite (hs.updDie.foldl fun ht => ht.linkDown) hs.updDie

theorem MemoryOk.execDieAuthentication {die fwOk authOk} (hs : MemoryOk s) :
    NextOk (execDieAuthentication die fwOk authOk s) := by
  unfold Machine.execDieAuthentication
  extract_lets x r
  have hr : MemoryOk r.1 := .ite_fst hs.signBoth hs
  exact .ite hs (.ite (.ite hr hr.updDie) (.ite hr hr.fenceDie))

/-! ## Errors -/

theorem MemoryOk.strikeL1 {g key} (hs : MemoryOk s) : MemoryOk (strikeL1 s g key) := by
  rw [Machine.strikeL1]
  refine .ite hs.updCore ?_
  split
  case h_1 | h_2 => exact hs.updCore
  all_goals exact hs

theorem MemoryOk.strikeStash {g addr} (hs : MemoryOk s) : MemoryOk (strikeStash s g addr) :=
  hs.foldl fun ht => .ite (ht.foldl fun hu => hu.markSector) ht

theorem MemoryOk.strikeHome {key} (hs : MemoryOk s) : MemoryOk (strikeHome s key) := by
  rw [Machine.strikeHome]
  split
  · exact hs.updTeam
  · exact hs
  · exact hs

theorem MemoryOk.strike {place} (hs : MemoryOk s) : MemoryOk (strike s place) := by
  unfold Machine.strike
  dsimp only
  split
  · exact .ite hs.updDie hs
  · exact .ite hs hs.strikeHome.report
  · exact .ite hs hs.strikeL1.report
  · exact .ite hs hs.updCore.strikeStash.report
  · exact .ite hs hs.updThread.report
  · split
    · exact hs
    · exact hs.updTile.report
  · split
    · exact .ite hs (.ite (.report hs) hs)
    · exact hs

end Sys2Proof.Machine
end

section
/-! SUPPORT. The step keeps memory in its canonical form (R217, R390). -/

namespace Sys2Proof.Machine
variable {s : State}

theorem MemoryOk.orWait {i} {s' : State} (hs : MemoryOk s) (hs' : MemoryOk s') : MemoryOk (orWait i s s') := by
  rw [Machine.orWait]
  refine .ite hs' (.foldl hs fun ht => ?_)
  split
  · exact ht.waitAt
  · exact ht.mustWait

theorem NextOk.onNext {f : State → State} {r} (hr : NextOk r) (hf : ∀ t, MemoryOk t → MemoryOk (f t)) :
    NextOk (onNext f r) := by
  cases r with
  | next t => exact hf t hr
  | fault r => trivial
  | refused r => trivial

section

variable {meaning : Instr → State → Host.Outcome State Fault Refusal}
  (hmeaning : ∀ i t, MemoryOk t → NextOk (meaning i t))

include hmeaning

/-- A slot around its meaning: the meaning alone has to keep the form. -/
theorem MemoryOk.runIssue {x} (hs : MemoryOk s) : NextOk (runIssue meaning s x) := by
  rw [Machine.runIssue]
  split
  · exact hs.issueStart.raiseAll.issueEnd
  · dsimp only
    split
    · exact hs.issueStart.noteLate.issueEnd
    · exact (hmeaning _ _ hs.issueStart).onNext fun _ ht => ht.issueEnd

theorem MemoryOk.carryOut {i} (hs : MemoryOk s) : NextOk (carryOut meaning i s) :=
  (hmeaning i s hs).onNext fun _ ht => hs.orWait ht

theorem MemoryOk.firstDue {is r} (hs : MemoryOk s) (hr : firstDue meaning s is = some r) : NextOk r := by
  induction is with
  | nil => cases hr
  | cons i is ih =>
    have hi := hmeaning i s hs
    rw [Machine.firstDue] at hr
    split at hr
    case h_1 h =>
      split at hr
      · exact ih hr
      · cases hr
        rwa [h] at hi
    case h_2 =>
      cases hr
      exact hi

theorem MemoryOk.runDue {r} (hs : MemoryOk s) (hr : runDue meaning s = some r) : NextOk r := by
  rw [Machine.runDue] at hr
  split at hr
  case h_1 h =>
    cases hr
    exact hs.firstDue hmeaning h
  case h_2 =>
    obtain ⟨i, -, rfl⟩ := Option.map_eq_some_iff.mp hr
    exact hmeaning i _ hs.chooseOne

end

/-- Every instruction and every event keeps the canonical form. -/
theorem MemoryOk.exec {i} (hs : MemoryOk s) : NextOk (exec i s) := by
  cases i with
  | nop | moduleReset => exact hs
  | bra | bri | ret => exact hs.eachLane fun ht => ht.transfer
  | call | calli => exact hs.eachLane fun ht => ht.callTo
  | exit | movPop | bar => exact hs.eachLane fun ht => ht.setWait
  | trap => exact hs.eachLane fun ht => .ite ht ht.raiseAt
  | rte => exact hs.execRte
  | illegalInstruction | movPush => exact hs.raiseAll
  | iadd | isub | imul | imulh | imad | imin | imax | iabs | ineg | icmp | lea | sel | mov | andB | andn | orB |
  xorB | notB | shl | shr | sha | rot | bfx | bfi | popc | clz | ctz | brev | plop | fadd | fsub | fmul | ffma |
  fmin | fmax | fcmp | fclass | frnd | fcvt | ftoi | itof | fscale | fexpo | fmant | rcpseed | rsqseed | expred |
  logred | sinred | dot8 | dot4 | spars | cyc =>
    exact hs.mapLanes
  | movK => exact hs.eachLane fun ht => ht.teamReg.updThread
  | dotf8 => exact hs.execDotf8
  | dotf4 => exact hs.execDotf4
  | dot8s => exact hs.eachLane fun ht => .ite ht.setThread ht.raise
  | packn => exact hs.execPackn
  | unpkn => exact hs.execUnpkn
  | ld | st => exact hs.eachLane fun ht => ht.startAcc
  | lds => exact hs.execLds
  | sts => exact hs.execSts
  | ldfe => exact hs.execLdfe
  | stfe => exact hs.execStfe
  | pref => exact hs.foldl_fst fun ht => .ite_fst ht ht.addAcc
  | cwb | devl => exact hs.eachLane fun ht => .ite ht.raise ht.addAcc
  | atomAdd | atomMin | atomMax | atomAnd | atomOr | atomXor | atomXchg | atomFadd => exact hs.atomOp
  | cas | lup => exact hs.eachLane fun ht => ht.startAligned
  | fence => exact (hs.eachLane fun ht => ht.addAcc).dropFences
  | pubv | mxrd | mxwr => exact hs.eachLane fun ht => ht.addAcc
  | sbind => exact hs.execSbind
  | sunb => exact hs.foldl fun ht => ht.unbindLazy
  | sunbDisc => exact hs.foldl fun ht => ht.discardWindow
  | bsig => exact hs.eachLane fun ht => ht.signalLane
  | bwait acq sc b => exact hs.execBwait (sc := sc)
  | btry acq sc => exact hs.execBtry (acq := acq) (sc := sc)
  | elect => exact hs.foldl fun ht => ht.updThread
  | kmov => exact hs.eachLane fun ht => ht.kmovLane
  | vote => exact hs.gangOnly fun ht => by split <;> exact ht.mapLanes
  | matchKey | gshf => exact hs.gangOnly fun ht => ht.foldl fun hu => hu.updThread
  | gred => exact hs.gangOnly fun ht => ht.mapLanes
  | expb => exact hs.execExpb
  | expn => exact hs.execExpn
  | expq => exact hs.afterRequests.eachLane fun ht => ht.updThread
  | segr => exact (hs.afterRequests.eachLane fun ht => ht.segrLane).endRequests
  | expsv => exact hs.afterRequests.countImages.eachLane fun ht => ht.saveExpand
  | exprs => exact hs.afterRequests.countImages.eachLane fun ht => ht.restoreExpand
  | mxiss | mxdrn | cpiss => exact hs.eachLane fun ht => ht.pushLane
  | mxclr => exact hs.execMxclr
  | qstat => exact hs.eachLane fun ht => ht.updThread
  | csrr => exact hs.execCsrr
  | csrw => exact hs.execCsrw
  | passStart => exact hs.execPassStart
  | dataWaitResolve => exact hs.execDataWaitResolve
  | entryClose => exact hs.execEntryClose
  | gangTimeout => exact hs.execGangTimeout
  | accessComplete => exact hs.execAccessComplete
  | exitComplete => exact .ite hs (.settle (.afterDeath (.updThread hs)))
  | barArrival => exact hs.execBarArrival
  | remoteBendSignal => exact hs.execRemoteBendSignal
  | stashFillComplete => exact hs.execStashFillComplete
  | stashWritebackComplete => exact hs.execStashWritebackComplete
  | collect => exact .ite hs hs.doCollect
  | compositeReport => exact .ite hs hs.doReport.flushHome.settle
  | earlyMerge => exact .ite hs hs.doEarlyMerge.flushHome.settle
  | directoryEntryEviction => exact hs.execDirectoryEntryEviction
  | multicastRequest => exact hs.execMulticastRequest
  | multicastMergeTimeout => exact hs.execMulticastMergeTimeout
  | multicastResponse => exact hs.execMulticastResponse
  | matrixOperation => exact hs.execMatrixOperation
  | tileDrain => exact hs.execTileDrain
  | copyLinear | copyStrided | planeTranspose | scalePlacement => exact hs.copyEvent fun ht => ht.runCopy
  | multicastRead => exact hs.copyEvent fun ht => ht.mcFar
  | engineCommandComplete => exact hs.execEngineCommandComplete
  | expnDeal => exact hs.execExpnDeal
  | periodBoundary => exact .ite hs hs.clearSpends.updDie.countPassed.readTree.liftChanged.serveQueues.settle
  | launchAccept => exact hs.execLaunchAccept
  | teamPlace => exact .ite hs.placeOne.settle hs
  | gridComplete => exact hs.execGridComplete
  | preemptRequest => exact hs.execPreemptRequest
  | drainDeadline => exact hs.execDrainDeadline
  | teamSave => exact hs.execTeamSave
  | teamDiscard => exact hs.execTeamDiscard
  | resumeRequest => exact hs.execResumeRequest
  | swapTick => exact .ite hs (hs.updDie.foldl fun ht => ht.swapLaunch)
  | doorbell => exact hs.execDoorbell
  | replayAccess => exact hs.execReplayAccess
  | replayDeliver => exact hs.execReplayDeliver
  | tlbInvalidatePages | tlbInvalidateContext | tlbInvalidateAll => exact hs.atPort fun ht => ht.writeInval
  | invalidationRequest => exact hs.execInvalidationRequest
  | invalidationAck => exact hs.execInvalidationAck
  | exprevoke => exact hs.atPort fun ht => ht.writeRevoke
  | revokeComplete => exact hs.execRevokeComplete
  | ovppush => exact hs.execOvppush
  | ovppop => exact hs.atPort fun ht => ht.takeBlock.emit
  | heatdecay => exact hs.execHeatdecay
  | bendtake => exact hs.atPort fun ht => ht.takeUnit.emit
  | bendcntWrite => exact hs.execBendcntWrite
  | bendctlWrite => exact hs.execBendctlWrite
  | fqheadWrite => exact hs.execFqheadWrite
  | gstatClear => exact hs.execGstatClear
  | attgo => exact hs.execAttgo
  | linkRetrain | linkTimeout => exact hs.linkDown
  | registerWrite => exact hs.atPort fun ht => ht.windowWrite
  | linkDataFlit => exact .ite hs (.ite hs.emit hs.setPort.emit.drainPort)
  | linkStopFlit => exact .ite hs.setPort hs
  | linkGoFlit => exact .ite hs.setPort.sendUnsent.drainPort hs
  | linkAckFlit => exact .ite hs hs.setPort.sendUnsent.drainPort
  | linkNakFlit => exact .ite hs (.ite hs.linkDown (hs.setPort.foldl fun ht => ht.emit))
  | linkIdleFlit => exact .ite hs.serveWaits.settle (.ite hs.drainPort hs)
  | linkTrained => exact .ite hs hs.setPort.vectorAll.vectorAll.settle
  | hostRead => exact hs.execHostRead
  | hostWrite => exact hs.execHostWrite
  | hostPortTrained => exact .ite hs (.settle (.ite hs.updDie hs.updDie.emit))
  | dieAuthentication => exact hs.execDieAuthentication
  | functionReady =>
    exact .ite (.ite hs (.settle (.foldl (.vectorAll hs) fun ht => ht.attest)))
      (.ite hs hs.setDie.vectorAll.settle)
  | powerSample => exact .ite hs hs
  | thermalStop | thermalRestart => exact .ite hs (.vectorAll (.ite hs hs.updDie))
  | uncorrectableError => exact hs.strike.settle
  | l1Eviction => exact .ite hs.evictLine.settle hs
  | pointOfCoherenceReached => exact hs.execPointOfCoherenceReached

theorem MemoryOk.carryOut_exec (i : Instr) (t : State) (ht : MemoryOk t) :
    NextOk (Machine.carryOut Machine.exec i t) :=
  ht.carryOut fun _ _ hu => hu.exec

theorem MemoryOk.stepSlot (hs : MemoryOk s) : NextOk (stepSlot s) := by
  have hn := hs.nextIssue
  rw [Machine.stepSlot]
  split
  case h_1 t x h =>
    rw [h] at hn
    exact (hn.runIssue fun _ _ hu => hu.exec).onNext fun u hu => .turn (hn.orWait hu)
  case h_2 t h =>
    rw [h] at hn
    cases hr : Machine.runDue (Machine.carryOut Machine.exec) t with
    | none => rw [Option.getD_none]; exact MemoryOk.idle hn
    | some r => rw [Option.getD_some]; exact hn.runDue carryOut_exec hr

theorem MemoryOk.stepEvent (hs : MemoryOk s) : NextOk (stepEvent s) := by
  rw [Machine.stepEvent]
  split
  case h_1 r h => exact (hs.runDue carryOut_exec h).onNext fun t ht => ht.turn
  case h_2 => exact hs.stepSlot

/-- One step keeps the canonical form: an event of the agenda, one that is due, the next slot, or time. -/
theorem MemoryOk.step (hs : MemoryOk s) : NextOk (step s) := by
  rw [Machine.step]
  split
  case h_1 => exact carryOut_exec _ _ (.agenda hs)
  case h_2 =>
    split
    case h_1 r h => exact hs.firstDue carryOut_exec h
    case h_2 =>
      split
      · exact hs.stepEvent
      · exact hs.stepSlot

/-- Settles O46: every function of the model keeps the canonical form, and so does the step, which composes them. -/
theorem memoryStaysCanonical : Obligations.MemoryStaysCanonical := by
  unfold Obligations.MemoryStaysCanonical
  intro s t hs ht
  have hnext : NextOk (step s) := hs.step
  rwa [ht] at hnext

end Sys2Proof.Machine
end
